-- ==== Sys2Proof/Word.lean ====
section
/-! DEFINITION. The words of the serial line: bytes and the widths of chapter 12. -/

namespace Sys2Proof

/-- One character of the line: 8 data bits (R160). -/
abbrev Byte := BitVec 8

/-- A 16-bit field of the line (chapter 12). -/
abbrev Half := BitVec 16

/-- A 32-bit field of the line (chapter 12); also a timestamp in µs (R95). -/
abbrev Word := BitVec 32

end Sys2Proof
end

