-- ==== Sys2Proof/Syntax.lean ====
section
/-! DEFINITION. The commands of the part: one constructor of `Instr` for each row of spec/opcode_table.json. -/

namespace Sys2Proof

/-- The three axes (chapter 8). -/
inductive Axis where
  | x
  | y
  | c
  deriving DecidableEq, Repr

/-- The twelve guard and reference inputs (R136), in the order of their input index (12.2). -/
inductive InputId where
  | estop
  | door
  | bladeGuard
  | limitX
  | limitY
  | driveFaultX
  | driveFaultY
  | driveFaultC
  | homeX
  | homeY
  | homeC
  | aux
  deriving DecidableEq, Repr

/-- A command to the part: a request of the host, with its fields at the widths of 12.3, or an event at the line, at a
pin or in a timer of the part. -/
inductive Instr where
  /-- IDENT (R170). -/
  | ident
  /-- SET of a parameter identifier to a value (R169). -/
  | set (id : Byte) (value : Word)
  /-- GET of a parameter identifier (R169). -/
  | get (id : Byte)
  /-- WINDOW with begin slot, end slot and mode code (R23). -/
  | window (first last : Half) (mode : Byte)
  /-- APPEND with its segment body as bytes (R26, R173). -/
  | append (body : List Byte)
  /-- FLUSH (R33). -/
  | flush
  /-- SLOT with a slot index (R40). -/
  | slot (index : Half)
  /-- START with pass count and pass offset (R148). -/
  | start (passes : Byte) (offX offY : Word)
  /-- HOLD, the request (R151). -/
  | hold
  /-- RESUME (R153). -/
  | resume
  /-- ABORT (R157). -/
  | abort
  /-- CLEAR (R146). -/
  | clear
  /-- HOME with an axis set (R127). -/
  | home (axes : Byte)
  /-- MOVE to X, Y and C (R130). -/
  | move (x y : Word) (c : Half)
  /-- BLADE with its value code (R158). -/
  | blade (value : Byte)
  /-- STATUS (R170). -/
  | status
  /-- SAMPLE (R114). -/
  | sample
  /-- RESET, the request (R171). -/
  | reset
  /-- Hardware reset or power-up, with the strap levels sampled as it ends: bit 0 strap 0, bit 1 strap 1 (R160). -/
  | hardwareReset (straps : BitVec 2)
  /-- A complete frame with a correct check (R162). -/
  | frameReceived (kind : Byte) (body : List Byte)
  /-- The gap timer reaches FRAME_TIMEOUT (R162). -/
  | gapTimerExpiry
  /-- An unescaped HOLD byte from the host (R163). -/
  | holdFlowMark
  /-- An unescaped GO byte from the host (R163). -/
  | goFlowMark
  /-- The idle transmitter chooses a frame and begins it (R166). -/
  | txFrameStart
  /-- The last byte of the frame being sent has been sent (R166). -/
  | txFrameEnd
  /-- The oldest flow mark handed is sent (R164). -/
  | flowMarkSend
  /-- Expiry of the interpolation period timer (R60). -/
  | interpolationPeriodExpiry
  /-- A stroke index pulse, with the time base's reading at it in µs (R95). -/
  | indexArrival (timestamp : Word)
  /-- The spin-up timer reaches SPINUP_LIMIT (R103). -/
  | spinupTimerExpiry
  /-- The stall timer reaches STALL_TIME under drive (R104). -/
  | stallTimerExpiry
  /-- The stall timer, as coast timer, reaches STALL_TIME in COAST (R105). -/
  | coastTimerExpiry
  /-- The phase-delay timer runs out (R109). -/
  | phaseDelayExpiry
  /-- A settling conversion has run its 24 µs (R111). -/
  | settlingComplete
  /-- A measuring conversion has run its 24 µs, with the converted code (R111). -/
  | measuringComplete (code : BitVec 10)
  /-- The raw level of a guard input changes to ACTIVE (true) or INACTIVE (false) (R135). -/
  | inputRawChange (input : InputId) (active : Bool)
  /-- The filter timer of an input reaches FILTER (R135). -/
  | filterTimerExpiry (input : InputId)
  /-- Expiry of the traverse period timer (R126). -/
  | traversePeriodExpiry
  /-- The starve dwell timer reaches STARVE_DWELL (R155). -/
  | starveDwellExpiry
  /-- A character received on the line, with the level of its stop bit (R160, R162). -/
  | receivedByte (byte : Byte) (stopHigh : Bool)
  /-- The step generator issues one step of an axis (R122). -/
  | stepIssued (axis : Axis)
  deriving DecidableEq, Repr

end Sys2Proof
end

