-- ==== Sys2Proof/Machine/Operands.lean ====
section
/-! DEFINITION. The fields of the line: little-endian (chapter 12), signed fields in two's complement; the codes of
inputs and axis sets (12.2). -/

namespace Sys2Proof.Machine

/-- The two bytes of a 16-bit field, least significant first. -/
def le16 (v : Half) : List Byte :=
  [v.extractLsb' 0 8, v.extractLsb' 8 8]

/-- The four bytes of a 32-bit field, least significant first. -/
def le32 (v : Word) : List Byte :=
  [v.extractLsb' 0 8, v.extractLsb' 8 8, v.extractLsb' 16 8, v.extractLsb' 24 8]

/-- The 16-bit field whose bytes are `b0`, `b1`, least significant first. -/
def rd16 (b0 b1 : Byte) : Half :=
  b1 ++ b0

/-- The 32-bit field whose bytes are `b0` to `b3`, least significant first. -/
def rd32 (b0 b1 b2 b3 : Byte) : Word :=
  b3 ++ b2 ++ b1 ++ b0

/-- A u8 field. -/
def u8 (n : Nat) : List Byte :=
  [BitVec.ofNat 8 n]

/-- A u16 field. -/
def u16 (n : Nat) : List Byte :=
  le16 (BitVec.ofNat 16 n)

/-- A u32 field. -/
def u32 (n : Nat) : List Byte :=
  le32 (BitVec.ofNat 32 n)

/-- An i16 field. -/
def i16 (n : Int) : List Byte :=
  le16 (BitVec.ofInt 16 n)

/-- An i32 field. -/
def i32 (n : Int) : List Byte :=
  le32 (BitVec.ofInt 32 n)

/-- A flag as a u8 field, 0 clear and 1 set. -/
def flag8 (b : Bool) : List Byte :=
  u8 (if b then 1 else 0)

/-- A byte of flags, bit `i` being the `i`-th of the list. -/
def bits (bs : List Bool) : Nat :=
  match bs with
  | [] => 0
  | b :: rest => (if b then 1 else 0) + 2 * bits rest

/-- The input index (12.2). -/
def inputIndex : InputId → Fin 12
  | .estop => 0
  | .door => 1
  | .bladeGuard => 2
  | .limitX => 3
  | .limitY => 4
  | .driveFaultX => 5
  | .driveFaultY => 6
  | .driveFaultC => 7
  | .homeX => 8
  | .homeY => 9
  | .homeC => 10
  | .aux => 11

/-- The inputs in the order of their index. -/
def allInputs : List InputId :=
  [.estop, .door, .bladeGuard, .limitX, .limitY, .driveFaultX, .driveFaultY, .driveFaultC, .homeX, .homeY, .homeC, .aux]

/-- One item for each input, in the order of their index. -/
def inputsOf {α : Type} (f : InputId → α) : Vector α 12 :=
  #v[f .estop, f .door, f .bladeGuard, f .limitX, f .limitY, f .driveFaultX, f .driveFaultY, f .driveFaultC, f .homeX,
    f .homeY, f .homeC, f .aux]

/-- The input of an index, if there is one. -/
def inputOfIndex (n : Nat) : Option InputId :=
  allInputs[n]?

end Sys2Proof.Machine
end

