-- ==== Sys2Proof/Decode.lean ====
section
/-! DEFINITION. No row of the opcode table gives bits, so no table word spells a command. The requests have frames
instead: the kinds of 12.1 and the bodies of 12.3, judged as R165 says, and written the other way round. -/

namespace Sys2Proof

open Machine

/-- The command a table word spells: no row of the table gives bits, so there is none. -/
def decodeTableWord (_nbits _w : Nat) : Option Instr :=
  none

/-- What the Link finds when it judges the kind and the length of a request (R165). -/
inductive Judged where
  /-- The kind is not one of the eighteen request kinds. -/
  | badKind
  /-- The body length is not one the kind allows. -/
  | badSize
  /-- The request to hand on. -/
  | request (i : Instr)
  deriving DecidableEq, Repr

/-- A body without fields. -/
def judgeEmpty (i : Instr) : List Byte → Judged
  | [] => .request i
  | _ :: _ => .badSize

/-- The request a frame's kind and body spell (12.1, 12.3, R165). -/
def judgeRequest (kind : Byte) (body : List Byte) : Judged :=
  match kind.toNat with
  | 0x01 => judgeEmpty .ident body
  | 0x02 =>
    match body with
    | [id, v0, v1, v2, v3] => .request (.set id (rd32 v0 v1 v2 v3))
    | _ => .badSize
  | 0x03 =>
    match body with
    | [id] => .request (.get id)
    | _ => .badSize
  | 0x04 =>
    match body with
    | [b0, b1, e0, e1, m] => .request (.window (rd16 b0 b1) (rd16 e0 e1) m)
    | _ => .badSize
  | 0x05 => if 5 ≤ body.length ∧ body.length ≤ 33 then .request (.append body) else .badSize
  | 0x06 => judgeEmpty .flush body
  | 0x07 =>
    match body with
    | [i0, i1] => .request (.slot (rd16 i0 i1))
    | _ => .badSize
  | 0x08 =>
    match body with
    | [n, x0, x1, x2, x3, y0, y1, y2, y3] => .request (.start n (rd32 x0 x1 x2 x3) (rd32 y0 y1 y2 y3))
    | _ => .badSize
  | 0x09 => judgeEmpty .hold body
  | 0x0A => judgeEmpty .resume body
  | 0x0B => judgeEmpty .abort body
  | 0x0C => judgeEmpty .clear body
  | 0x0D =>
    match body with
    | [a] => .request (.home a)
    | _ => .badSize
  | 0x0E =>
    match body with
    | [x0, x1, x2, x3, y0, y1, y2, y3, c0, c1] =>
      .request (.move (rd32 x0 x1 x2 x3) (rd32 y0 y1 y2 y3) (rd16 c0 c1))
    | _ => .badSize
  | 0x0F =>
    match body with
    | [v] => .request (.blade v)
    | _ => .badSize
  | 0x10 => judgeEmpty .status body
  | 0x11 => judgeEmpty .sample body
  | 0x12 => judgeEmpty .reset body
  | _ => .badKind

/-- The kind and body of a request's frame (12.1, 12.3); none for an event. -/
def requestFrame : Instr → Option (Byte × List Byte)
  | .ident => some (0x01, [])
  | .set id v => some (0x02, id :: le32 v)
  | .get id => some (0x03, [id])
  | .window b e m => some (0x04, le16 b ++ le16 e ++ [m])
  | .append body => some (0x05, body)
  | .flush => some (0x06, [])
  | .slot i => some (0x07, le16 i)
  | .start n x y => some (0x08, n :: (le32 x ++ le32 y))
  | .hold => some (0x09, [])
  | .resume => some (0x0A, [])
  | .abort => some (0x0B, [])
  | .clear => some (0x0C, [])
  | .home a => some (0x0D, [a])
  | .move x y c => some (0x0E, le32 x ++ le32 y ++ le16 c)
  | .blade v => some (0x0F, [v])
  | .status => some (0x10, [])
  | .sample => some (0x11, [])
  | .reset => some (0x12, [])
  | .hardwareReset _ => none
  | .frameReceived _ _ => none
  | .gapTimerExpiry => none
  | .holdFlowMark => none
  | .goFlowMark => none
  | .txFrameStart => none
  | .txFrameEnd => none
  | .flowMarkSend => none
  | .interpolationPeriodExpiry => none
  | .indexArrival _ => none
  | .spinupTimerExpiry => none
  | .stallTimerExpiry => none
  | .coastTimerExpiry => none
  | .phaseDelayExpiry => none
  | .settlingComplete => none
  | .measuringComplete _ => none
  | .inputRawChange _ _ => none
  | .filterTimerExpiry _ => none
  | .traversePeriodExpiry => none
  | .starveDwellExpiry => none
  | .receivedByte _ _ => none
  | .stepIssued _ => none

end Sys2Proof
end

