-- ==== Sys2Proof/Config.lean ====
section
/-! DEFINITION. What the spec leaves to the silicon or does not say: constants without a body, so that no proof can
see a value of them. -/

namespace Sys2Proof

/-- The silicon revision of the IDENT reply (R170, 12.3). The spec gives no value: a free value (log entry 7). -/
opaque Config.siliconRevision : Byte

/-- Segments executed after a completion taken at 4294967295, the top of its range (R147). The spec states no value
there: a free value (log entry 8). -/
opaque Config.executedPastTop : Word

/-- Whether, at the `n`-th accepted level of a home or limit input whose action also does something, the report to
the Axis Unit is taken before the action. The rules allow both orders (R129, R132): a free choice (log entry 6). -/
opaque Config.reportFirst : Nat → Bool

end Sys2Proof
end

