-- ==== Sys2Proof/Machine/Arith.lean ====
section
/-! DEFINITION. The arithmetic conventions of 00_scope: floor, ceil, round (halves away from zero), isqrt, clamp, the
remainder mod 36000, and the junction delta rule (R16) that the C axis shares (R123). -/

namespace Sys2Proof.Machine

/-- ceil(n / d) for non-negative `n` and positive `d`. -/
def ceilDiv (n d : Nat) : Nat :=
  (n + d - 1) / d

/-- round(n / d), halves away from zero, for non-negative `n` and positive `d`. -/
def roundNat (n d : Nat) : Nat :=
  (2 * n + d) / (2 * d)

/-- round(n / d), halves away from zero, for positive `d`. -/
def roundDiv (n : Int) (d : Nat) : Int :=
  if n < 0 then -(roundNat n.natAbs d : Int) else (roundNat n.natAbs d : Int)

/-- clamp(x, lo, hi) of 00_scope. -/
def clamp (x lo hi : Int) : Int :=
  if x < lo then lo else if hi < x then hi else x

/-- The root of `n` found bit by bit from bit `k - 1` down, over the part `r` found so far. -/
def isqrtBits (n : Nat) : Nat → Nat → Nat
  | 0, r => r
  | k + 1, r => if (r + 2 ^ k) * (r + 2 ^ k) ≤ n then isqrtBits n k (r + 2 ^ k) else isqrtBits n k r

/-- isqrt(n): the largest integer whose square does not exceed `n`. -/
def isqrt (n : Nat) : Nat :=
  isqrtBits n (n.log2 / 2 + 1) 0

/-- x mod 36000, in 0..35999 for every integer. -/
def mod36000 (x : Int) : Nat :=
  (x % 36000).toNat

/-- The signed turn from heading `h1` to heading `h2`, in −17999..18000; a reversal counts as +18000 (R16, R123). -/
def turn (h1 h2 : Nat) : Int :=
  let d := mod36000 ((h2 : Int) - h1)
  if d ≤ 18000 then d else (d : Int) - 36000

/-- isqrt of the squared distance with the components `dx`, `dy`. -/
def chord (dx dy : Int) : Nat :=
  isqrt (dx.natAbs * dx.natAbs + dy.natAbs * dy.natAbs)

end Sys2Proof.Machine
end

