-- ==== Sys2Proof/Machine/State.lean ====
section
/-! DEFINITION. The state of the part, block by block as chapters 1 to 12 give it, the reasons a step can stop, and the
state after power-up. Times are in µs. A stopped timer is `none`. -/

namespace Sys2Proof.Machine

/-- A position or an offset in counts. -/
structure Point where
  x : Int
  y : Int
  deriving DecidableEq, Repr

/-- A box in counts (R11). -/
structure Box where
  minX : Int
  maxX : Int
  minY : Int
  maxY : Int
  deriving DecidableEq, Repr

/-- Segment kinds (R1). -/
inductive SegmentKind where
  | line
  | arcCw
  | arcCcw
  | pause
  deriving DecidableEq, Repr

/-- The geometry classes (R17). -/
inductive GeometryClass where
  | length
  | radius
  | heading
  | pivot
  deriving DecidableEq, Repr

/-- The actions of the geometry policy table (R17). -/
inductive PolicyAction where
  | reject
  | halt
  | correct
  | accept
  deriving DecidableEq, Repr

/-- Junction classes (R44). -/
inductive JunctionClass where
  | start
  | smooth
  | blend
  | pivot
  | stop
  deriving DecidableEq, Repr

/-- A segment record: the host-supplied fields (R1) and the part-written ones (R5). Fields that do not apply to the
kind are zero (R172). -/
structure Segment where
  kind : SegmentKind
  /-- End X, End Y; for a PAUSE its start point (R5). -/
  stopAt : Point
  centre : Point
  /-- Length in counts; 0 for a PAUSE. -/
  length : Nat
  /-- Duration in ms; 0 for a moving segment. -/
  duration : Nat
  entryHeading : Nat
  exitHeading : Nat
  feed : Nat
  pivotOk : Bool
  last : Bool
  tag : Option Nat
  hint : Option Nat
  advance : Option Nat
  number : Nat
  startAt : Point
  box : Box
  radius : Nat
  sweep : Nat
  delta : Int
  /-- The opening mark of R41. -/
  opening : Bool
  /-- Junction class at start; none until first planned. -/
  junction : Option JunctionClass
  entrySpeed : Nat
  exitSpeed : Nat
  deriving DecidableEq, Repr

/-- The states of a slot that holds a record. A slot the Store does not list is EMPTY. -/
inductive HeldState where
  | queued
  | planned
  | active
  deriving DecidableEq, Repr

/-- A slot that is not EMPTY: its state and its record (R22). -/
structure Slot where
  state : HeldState
  seg : Segment
  deriving DecidableEq, Repr

/-- Slot states as the SLOT readback names them (12.2). -/
inductive SlotState where
  | empty
  | queued
  | planned
  | active
  deriving DecidableEq, Repr

/-- Window modes and job modes. -/
inductive Mode where
  | stream
  | repeating
  deriving DecidableEq, Repr

/-- The Segment Store (R7, R21). -/
structure Store where
  /-- The non-EMPTY slots, slot numbers strictly rising. -/
  slots : List (Nat × Slot)
  winBegin : Nat
  winEnd : Nat
  mode : Mode
  writePtr : Nat
  execPtr : Nat
  tailOpen : Bool
  tailPoint : Option Point
  tailHeading : Option Nat
  origin : Option Point
  chainClosed : Bool
  executedHeading : Option Nat
  /-- Flow state: HELD when set, OPEN when clear. -/
  flowHeld : Bool
  armed : Bool
  arrival : Nat
  deriving DecidableEq, Repr

/-- The Planner (R43, R48). -/
structure Planner where
  spanFirst : Nat
  spanCount : Nat
  frontier : Nat
  p0 : Nat
  p1 : Nat
  p2 : Nat
  p3 : Nat
  deriving DecidableEq, Repr

/-- A link move (R74). -/
structure LinkMove where
  startAt : Point
  stopAt : Point
  length : Nat
  deriving DecidableEq, Repr

/-- The Interpolator (R59). -/
structure Interp where
  /-- µs since the period timer's start or last expiry. -/
  timer : Option Nat
  /-- The slot index of the ACTIVE slot. -/
  active : Option Nat
  p : Nat
  pivot : Nat
  /-- The direction of the pivot is negative (clockwise). -/
  pivotNeg : Bool
  pause : Nat
  link : Option LinkMove
  pass : Nat
  startPending : Bool
  targetX : Int
  targetY : Int
  targetC : Nat
  deriving DecidableEq, Repr

/-- Limiting stages (R76, R90). -/
inductive Stage where
  | zero
  | request
  | plan
  | stroke
  | ceiling
  | slew
  | holdRamp
  | stopRamp
  deriving DecidableEq, Repr

/-- The Feed Governor (R76). -/
structure Governor where
  v : Nat
  vprev : Nat
  stage : Stage
  vreq : Nat
  vplan : Nat
  vstroke : Nat
  deriving DecidableEq, Repr

/-- Stroke states (R93). -/
inductive StrokeState where
  | off
  | spinup
  | run
  | idle
  | coast
  | stalled
  deriving DecidableEq, Repr

/-- The Stroke Generator (R93, R94). -/
structure Stroke where
  state : StrokeState
  duty : Nat
  /-- The duty of the PWM cycle in progress. -/
  pwmDuty : Nat
  /-- µs since that 50 µs cycle began. -/
  pwmPhase : Nat
  /-- The index record: the timestamp of the last index taken. -/
  index : Option Word
  m : Nat
  lock : Nat
  spinTimer : Option Nat
  /-- The stall timer; in COAST it serves as the coast timer (R105). -/
  stallTimer : Option Nat
  deriving DecidableEq, Repr

/-- A conversion in flight, with the µs elapsed of its 24 (R108). -/
inductive Conversion where
  | settling (elapsed : Nat)
  | measuring (elapsed : Nat)
  deriving DecidableEq, Repr

/-- The Load Monitor (R108). Its awaiting list is the entries of the request queue marked awaiting. -/
structure Load where
  powered : Bool
  settled : Bool
  inFlight : Option Conversion
  reqStroke : Bool
  reqLink : Bool
  result : Nat
  valid : Bool
  /-- The phase-delay timer: µs remaining. -/
  phase : Option Nat
  acc : Nat
  band : Nat
  run : Nat
  deriving DecidableEq, Repr

/-- Reference states of an axis (R121). -/
inductive RefState where
  | unreferenced
  | homing
  | referenced
  deriving DecidableEq, Repr

/-- Homing phases (R121). -/
inductive HomingPhase where
  | none
  | search
  | brake
  | backoffSeek
  | backoff
  | done
  | failed
  deriving DecidableEq, Repr

/-- Homing outcomes (R121). -/
inductive HomingOutcome where
  | none
  | referenced
  | search
  | switch
  | limit
  | aborted
  deriving DecidableEq, Repr

/-- One axis (R121), with its direction output (R122). -/
structure AxisState where
  pos : Int
  ref : RefState
  enable : Bool
  dirHigh : Bool
  /-- The steps of the present period still to be issued, signed by their direction. -/
  steps : Int
  phase : HomingPhase
  speed : Nat
  /-- Milli-counts moved since m was last reset (R128). -/
  moved : Nat
  outcome : HomingOutcome
  deriving DecidableEq, Repr

/-- A set of axes. -/
structure AxisSet where
  x : Bool
  y : Bool
  c : Bool
  deriving DecidableEq, Repr

/-- A MOVE in progress (R130). -/
structure Traverse where
  startAt : Point
  stopAt : Point
  /-- The target C. -/
  goalC : Nat
  length : Nat
  p : Nat
  v : Nat
  vprev : Nat
  /-- The C turn remaining, its direction, and the C target as the last step left it. -/
  turnLeft : Nat
  turnNeg : Bool
  targetC : Nat
  deriving DecidableEq, Repr

/-- The Axis Unit (R121). -/
structure Axes where
  x : AxisState
  y : AxisState
  c : AxisState
  /-- The axes named by the HOME in progress. -/
  home : Option AxisSet
  traverse : Option Traverse
  /-- µs since the traverse period timer's start or last expiry. -/
  timer : Option Nat
  deriving DecidableEq, Repr

/-- Input actions (R136). -/
inductive InputAction where
  | ignore
  | notice
  | hold
  | stop
  | halt
  deriving DecidableEq, Repr

/-- One guard input (R134); a level is true for ACTIVE. -/
structure InputState where
  raw : Bool
  accepted : Bool
  /-- µs since the last raw change. -/
  timer : Option Nat
  filter : Nat
  action : InputAction
  notifyRelease : Bool
  deriving DecidableEq, Repr

/-- Job states (R147). -/
inductive JobState where
  | idle
  | motion
  | warmup
  | cutting
  | holding
  | starved
  | stopping
  | fault
  deriving DecidableEq, Repr

/-- The Guard Unit (R134). -/
structure Guard where
  inputs : Vector InputState 12
  /-- The fault latch, a set of causes as the mask of 12.2. -/
  latch : BitVec 16
  /-- A controlled stop in progress, with the job state it was entered from. -/
  stop : Option JobState
  deriving DecidableEq, Repr

/-- The Job Controller (R147). -/
structure Job where
  state : JobState
  mode : Mode
  held : Bool
  passesProgrammed : Nat
  passesDone : Nat
  offX : Int
  offY : Int
  executed : Nat
  lastCompleted : Option Nat
  /-- The starve dwell timer: µs since its start. -/
  dwell : Option Nat
  deriving DecidableEq, Repr

/-- Line rates in bit/s (R160). -/
inductive LineRate where
  | r115200
  | r460800
  | r921600
  | r2000000
  deriving DecidableEq, Repr

/-- Receiver states (R160), with what has been taken of the frame. -/
inductive Receiver where
  | hunt
  | length
  | content (len : Nat) (taken : List Byte)
  | check (len : Nat) (taken : List Byte)
  deriving DecidableEq, Repr

/-- Result codes (R172). -/
inductive ResultCode where
  | ok
  | clamped
  | corrected
  | busy
  | full
  | rejected
  | badKind
  | badSize
  | badField
  | outOfTravel
  | notReferenced
  | notAtOrigin
  | empty
  | notEmpty
  | faultLatched
  | inputActive
  | chainClosed
  | wrongMode
  | fixed
  | noJob
  | notHeld
  deriving DecidableEq, Repr

/-- A reply: the result code and the data of the result (R172). -/
structure Reply where
  code : ResultCode
  data : List Byte
  deriving DecidableEq, Repr

/-- The mark of an entry of the request queue (R160). -/
inductive Mark where
  | untaken
  | awaiting
  | ready (reply : Reply)
  deriving DecidableEq, Repr

/-- An entry of the request queue. -/
structure Entry where
  kind : Byte
  body : List Byte
  mark : Mark
  deriving DecidableEq, Repr

/-- Stop categories (R140). -/
inductive Category where
  | controlled
  | immediate
  deriving DecidableEq, Repr

/-- Notices with their data (R167, 12.5). -/
inductive Notice where
  | tag (tag number pass : Nat)
  | pass (done : Nat)
  | done (executed passes : Nat)
  | stopped (category : Category) (entered : JobState) (latch : BitVec 16)
  /-- Segment number and slot of the active segment, if any, and p. -/
  | held (segment : Option (Nat × Nat)) (p : Nat)
  | low (ahead : Nat)
  | starved (last : Option Nat) (passes : Nat)
  | edge (input : InputId) (active : Bool)
  | band (now before average : Nat)
  | homed (named : AxisSet) (x y c : HomingOutcome × Int)
  | moved (x y : Int) (c : Nat)
  deriving DecidableEq, Repr

/-- Flow marks of the part (R164). -/
inductive FlowMark where
  | hold
  | go
  deriving DecidableEq, Repr

/-- A frame being sent (R166). -/
structure TxFrame where
  /-- The bytes on the line, FRAME_START and escapes included. -/
  line : List Byte
  /-- The bytes whose sending has ended. -/
  sent : Nat
  /-- It answers the oldest entry of the request queue. -/
  isReply : Bool
  /-- It is the reply of an accepted RESET (R171). -/
  resets : Bool
  /-- Its digest carried RX_FAULT set, and no receive error has been taken since (R168). -/
  clearsRx : Bool
  /-- Its digest carried NOTICE_LOST set, and no notice has been dropped since (R168). -/
  clearsLost : Bool
  deriving DecidableEq, Repr

/-- The Command Link (R160). -/
structure Link where
  rate : LineRate
  /-- The strap levels sampled at the last hardware reset. -/
  straps : BitVec 2
  rx : Receiver
  esc : Bool
  gap : Option Nat
  requests : List Entry
  /-- A RESET request has been taken: no further entry is (R171). -/
  stopped : Bool
  notices : List Notice
  tx : Option TxFrame
  /-- How far the character in progress is, in bit-rate × µs; 0 when none is, and at a frame's start (log entry 33). -/
  charTime : Nat
  marks : List FlowMark
  /-- The transmit-held flag. -/
  held : Bool
  rxFault : Bool
  noticeLost : Bool
  deriving DecidableEq, Repr

/-- The parameters (12.6) that are not per input. -/
structure Params where
  accel : Nat
  stopDecel : Nat
  overridePct : Nat
  advanceLimit : Nat
  blendAngle : Nat
  pivotLimit : Nat
  cornerFloor : Nat
  pivotRate : Nat
  linkFeed : Nat
  strokeCut : Nat
  strokeIdle : Nat
  startDuty : Nat
  ki : Nat
  lockBand : Nat
  lockCount : Nat
  stallTime : Nat
  spinupLimit : Nat
  t1 : Nat
  t2 : Nat
  t3 : Nat
  d0 : Nat
  d1 : Nat
  d2 : Nat
  d3 : Nat
  hyst : Nat
  overload : Nat
  overloadCount : Nat
  samplePhase : Nat
  bandNotice : Bool
  travelX : Nat
  travelY : Nat
  traverseFeed : Nat
  homeFeed : Nat
  homeSearch : Nat
  starveDwell : Nat
  flowHold : Nat
  flowGo : Nat
  lowWater : Nat
  frameTimeout : Nat
  polLength : PolicyAction
  polRadius : PolicyAction
  polHeading : PolicyAction
  polPivot : PolicyAction
  deriving DecidableEq, Repr

end Sys2Proof.Machine

namespace Sys2Proof.Machine

/-- The state of the part. -/
structure State where
  /-- The commands waiting, oldest first. -/
  pending : List Instr
  /-- The free-running time base in µs (R95). -/
  timeBase : Word
  /-- The MODEL's own counter of free choices taken (log entry 6). -/
  free : Nat
  params : Params
  store : Store
  planner : Planner
  interp : Interp
  gov : Governor
  stroke : Stroke
  load : Load
  axes : Axes
  guard : Guard
  job : Job
  link : Link
  deriving DecidableEq, Repr

/-- Reasons a step could stop with a fault: none. The spec turns every disturbance into a cause, a refusal code or a
flag, all of which are state. -/
inductive Fault where
  deriving DecidableEq, Repr

/-- Reasons a step could have no meaning. -/
inductive Refusal where
  /-- Raised by an arm of the dispatch whose command has no meaning yet; safe. No arm raises it now. -/
  | notModelled (mnemonic : String)
  deriving DecidableEq, Repr

/-- R92, R47, R75, R107, R120, R133, R159, R37, R39, R160, R17: the parameters after either reset. -/
def Params.reset : Params where
  accel := 30
  stopDecel := 100
  overridePct := 100
  advanceLimit := 300
  blendAngle := 500
  pivotLimit := 9000
  cornerFloor := 500
  pivotRate := 18
  linkFeed := 20000
  strokeCut := 4800
  strokeIdle := 2400
  startDuty := 350
  ki := 8
  lockBand := 120
  lockCount := 8
  stallTime := 120
  spinupLimit := 1500
  t1 := 300
  t2 := 550
  t3 := 800
  d0 := 256
  d1 := 224
  d2 := 176
  d3 := 128
  hyst := 16
  overload := 960
  overloadCount := 6
  samplePhase := 800
  bandNotice := false
  travelX := 220000
  travelY := 130000
  traverseFeed := 20000
  homeFeed := 2000
  homeSearch := 230000
  starveDwell := 3000
  flowHold := 4
  flowGo := 16
  lowWater := 5000
  frameTimeout := 50
  polLength := .reject
  polRadius := .reject
  polHeading := .reject
  polPivot := .reject

/-- R21: the Segment Store after either reset. -/
def Store.reset : Store where
  slots := []
  winBegin := 0
  winEnd := 511
  mode := .stream
  writePtr := 0
  execPtr := 0
  tailOpen := false
  tailPoint := none
  tailHeading := none
  origin := none
  chainClosed := false
  executedHeading := none
  flowHeld := false
  armed := false
  arrival := 0

/-- R43, R48: the Planner after either reset. R48 gives an empty span no first slot and no frontier: that both read 0 is
the model's choice (log entry 32). -/
def Planner.reset : Planner where
  spanFirst := 0
  spanCount := 0
  frontier := 0
  p0 := 256
  p1 := 224
  p2 := 176
  p3 := 128

/-- R59: the Interpolator after either reset. -/
def Interp.reset : Interp where
  timer := none
  active := none
  p := 0
  pivot := 0
  pivotNeg := false
  pause := 0
  link := none
  pass := 0
  startPending := false
  targetX := 0
  targetY := 0
  targetC := 0

/-- R76: the Feed Governor after either reset. -/
def Governor.reset : Governor where
  v := 0
  vprev := 0
  stage := .zero
  vreq := 0
  vplan := 0
  vstroke := 0

/-- R93: the Stroke Generator after either reset; the PWM cycle runs on at the place it has. -/
def Stroke.reset (pwmPhase : Nat) : Stroke where
  state := .off
  duty := 0
  pwmDuty := 0
  pwmPhase := pwmPhase
  index := none
  m := 0
  lock := 0
  spinTimer := none
  stallTimer := none

/-- R108: the Load Monitor after either reset. -/
def Load.reset : Load where
  powered := false
  settled := false
  inFlight := none
  reqStroke := false
  reqLink := false
  result := 0
  valid := false
  phase := none
  acc := 0
  band := 0
  run := 0

/-- R121: an axis after either reset. -/
def AxisState.reset : AxisState where
  pos := 0
  ref := .unreferenced
  enable := false
  dirHigh := false
  steps := 0
  phase := .none
  speed := 0
  moved := 0
  outcome := .none

/-- R121: the Axis Unit after either reset. -/
def Axes.reset : Axes where
  x := .reset
  y := .reset
  c := .reset
  home := none
  traverse := none
  timer := none

/-- R136: the action of each input after either reset. -/
def resetAction : InputId → InputAction
  | .estop => .halt
  | .door => .stop
  | .bladeGuard => .halt
  | .limitX => .halt
  | .limitY => .halt
  | .driveFaultX => .halt
  | .driveFaultY => .halt
  | .driveFaultC => .halt
  | .homeX => .ignore
  | .homeY => .ignore
  | .homeC => .ignore
  | .aux => .notice

/-- R134: an input after either reset, its pin as it stands. -/
def InputState.reset (raw : Bool) (action : InputAction) : InputState where
  raw := raw
  accepted := raw
  timer := none
  filter := 2
  action := action
  notifyRelease := false

/-- R134: the Guard Unit after either reset, with the pins as they stand. -/
def Guard.reset (raw : InputId → Bool) : Guard where
  inputs := inputsOf fun i => .reset (raw i) (resetAction i)
  latch := 0
  stop := none

/-- R147: the Job Controller after either reset. -/
def Job.reset : Job where
  state := .idle
  mode := .stream
  held := false
  passesProgrammed := 1
  passesDone := 0
  offX := 0
  offY := 0
  executed := 0
  lastCompleted := none
  dwell := none

/-- R160: the line rate the strap levels select; bit 1 is strap 1. -/
def LineRate.ofStraps (straps : BitVec 2) : LineRate :=
  match straps.toNat with
  | 0 => .r115200
  | 1 => .r460800
  | 2 => .r921600
  | _ => .r2000000

/-- R160: the Command Link after a reset, with the line rate and the straps it has then. -/
def Link.reset (rate : LineRate) (straps : BitVec 2) : Link where
  rate := rate
  straps := straps
  rx := .hunt
  esc := false
  gap := none
  requests := []
  stopped := false
  notices := []
  tx := none
  charTime := 0
  marks := []
  held := false
  rxFault := false
  noticeLost := false

/-- The state after a reset that leaves the line rate and the straps as given; commands waiting, the time base and the
pins are outside the reset. -/
def State.resetTo (rate : LineRate) (straps : BitVec 2) (s : State) : State where
  pending := s.pending
  timeBase := s.timeBase
  free := s.free
  params := .reset
  store := .reset
  planner := .reset
  interp := .reset
  gov := .reset
  stroke := .reset s.stroke.pwmPhase
  load := .reset
  axes := .reset
  guard := .reset fun i => s.guard.inputs[inputIndex i].raw
  job := .reset
  link := .reset rate straps

/-- The part right after power-up (log entry 5): straps low and low, every input INACTIVE, time base 0. -/
def State.reset : State where
  pending := []
  timeBase := 0
  free := 0
  params := .reset
  store := .reset
  planner := .reset
  interp := .reset
  gov := .reset
  stroke := .reset 0
  load := .reset
  axes := .reset
  guard := .reset fun _ => false
  job := .reset
  link := .reset (.ofStraps 0) 0

/-! Updates of one block. -/

/-- Update the parameters. -/
def State.mapParams (f : Params → Params) (s : State) : State := { s with params := f s.params }

/-- Update the Segment Store. -/
def State.mapStore (f : Store → Store) (s : State) : State := { s with store := f s.store }

/-- Update the Planner. -/
def State.mapPlanner (f : Planner → Planner) (s : State) : State := { s with planner := f s.planner }

/-- Update the Interpolator. -/
def State.mapInterp (f : Interp → Interp) (s : State) : State := { s with interp := f s.interp }

/-- Update the Feed Governor. -/
def State.mapGov (f : Governor → Governor) (s : State) : State := { s with gov := f s.gov }

/-- Update the Stroke Generator. -/
def State.mapStroke (f : Stroke → Stroke) (s : State) : State := { s with stroke := f s.stroke }

/-- Update the Load Monitor. -/
def State.mapLoad (f : Load → Load) (s : State) : State := { s with load := f s.load }

/-- Update the Axis Unit. -/
def State.mapAxes (f : Axes → Axes) (s : State) : State := { s with axes := f s.axes }

/-- Update the Guard Unit. -/
def State.mapGuard (f : Guard → Guard) (s : State) : State := { s with guard := f s.guard }

/-- Update the Job Controller. -/
def State.mapJob (f : Job → Job) (s : State) : State := { s with job := f s.job }

/-- Update the Command Link. -/
def State.mapLink (f : Link → Link) (s : State) : State := { s with link := f s.link }

end Sys2Proof.Machine
end

