-- ==== Sys2Proof/Machine/Ops.lean ====
section
/-! DEFINITION. The named operations over the parts of the state: slots, notices, flow marks, axes, inputs, the latch,
and the passing of time. -/

namespace Sys2Proof.Machine

/-! ## Slots -/

/-- The slot listed under a number. -/
def slotAt : List (Nat × Slot) → Nat → Option Slot
  | [], _ => none
  | (k, sl) :: rest, i => if k = i then some sl else slotAt rest i

/-- List a slot under a number, in place of what is listed there. -/
def slotPut : List (Nat × Slot) → Nat → Slot → List (Nat × Slot)
  | [], i, sl => [(i, sl)]
  | (k, old) :: rest, i, sl =>
    if i < k then (i, sl) :: (k, old) :: rest
    else if k = i then (i, sl) :: rest
    else (k, old) :: slotPut rest i sl

/-- Make a slot EMPTY: its record is discarded (R22). -/
def slotDrop (slots : List (Nat × Slot)) (i : Nat) : List (Nat × Slot) :=
  slots.filter fun e => e.1 ≠ i

/-- Change every listed slot, where it stands. -/
def slotMap (f : Slot → Slot) (slots : List (Nat × Slot)) : List (Nat × Slot) :=
  slots.map fun e => (e.1, f e.2)

/-- The one canonical form of the slots: slot numbers strictly rising. -/
def slotsWf (slots : List (Nat × Slot)) : Bool :=
  match slots with
  | [] => true
  | (k, _) :: rest => (rest.all fun e => k < e.1) && slotsWf rest

/-- The canonical form of the Store's slots. -/
def Store.wf (st : Store) : Bool :=
  slotsWf st.slots

/-- The slot of a number; none when it is EMPTY. -/
def Store.slot (st : Store) (i : Nat) : Option Slot :=
  slotAt st.slots i

/-- The state of a slot (R21). -/
def Store.slotState (st : Store) (i : Nat) : SlotState :=
  match st.slot i with
  | none => .empty
  | some sl =>
    match sl.state with
    | .queued => .queued
    | .planned => .planned
    | .active => .active

/-- R21: the number of non-EMPTY slots in the window. -/
def Store.occupied (st : Store) : Nat :=
  st.slots.length

/-- R21: the window size. -/
def Store.size (st : Store) : Nat :=
  st.winEnd - st.winBegin + 1

/-- R21: the free count. -/
def Store.free (st : Store) : Nat :=
  st.size - st.occupied

/-- The slot after `i` in execution order: E is followed by B in STREAM mode (R24); slot order in REPEAT (R25). -/
def Store.after (st : Store) (i : Nat) : Nat :=
  match st.mode with
  | .stream => if i = st.winEnd then st.winBegin else i + 1
  | .repeating => i + 1

/-- The run of non-EMPTY slots in execution order from slot `i`, at most `n` of them, ending before the write pointer
(R48). -/
def Store.runFrom (st : Store) : Nat → Nat → List (Nat × Slot)
  | 0, _ => []
  | n + 1, i =>
    match st.slot i with
    | none => []
    | some sl => (i, sl) :: (if st.after i = st.writePtr then [] else st.runFrom n (st.after i))

/-- The slot in the ACTIVE state. -/
def Store.activeSlot (st : Store) : Option (Nat × Slot) :=
  st.slots.find? fun e => e.2.state = .active

/-- A LINE or an arc. -/
def SegmentKind.moving : SegmentKind → Bool
  | .pause => false
  | .line => true
  | .arcCw => true
  | .arcCcw => true

/-- An arc. -/
def SegmentKind.isArc : SegmentKind → Bool
  | .arcCw => true
  | .arcCcw => true
  | .line => false
  | .pause => false

/-! ## Notices, flow marks, receive errors -/

/-- R167: a block queues a notice; it is dropped with NOTICE_LOST when the queue holds 16. -/
def queueNotice (n : Notice) : State → State :=
  State.mapLink fun l =>
    if l.notices.length < 16 then { l with notices := l.notices ++ [n] }
    else { l with noticeLost := true, tx := l.tx.map fun f => { f with clearsLost := false } }

/-- R164: the Store hands a flow mark to the Link. -/
def handMark (m : FlowMark) : State → State :=
  State.mapLink fun l => { l with marks := l.marks ++ [m] }

/-- R168: RX_FAULT is set; a frame being sent no longer clears it at its end. -/
def setRxFault : State → State :=
  State.mapLink fun l => { l with rxFault := true, tx := l.tx.map fun f => { f with clearsRx := false } }

/-! ## Axes -/

/-- The state of an axis. -/
def Axes.get (u : Axes) : Axis → AxisState
  | .x => u.x
  | .y => u.y
  | .c => u.c

/-- Update one axis. -/
def Axes.update (u : Axes) (a : Axis) (f : AxisState → AxisState) : Axes :=
  match a with
  | .x => { u with x := f u.x }
  | .y => { u with y := f u.y }
  | .c => { u with c := f u.c }

/-- Update all three axes. -/
def Axes.each (u : Axes) (f : Axis → AxisState → AxisState) : Axes :=
  { u with x := f .x u.x, y := f .y u.y, c := f .c u.c }

/-- Membership in an axis set. -/
def AxisSet.has (w : AxisSet) : Axis → Bool
  | .x => w.x
  | .y => w.y
  | .c => w.c

/-- X, Y and C are all REFERENCED. -/
def Axes.allReferenced (u : Axes) : Bool :=
  u.x.ref = .referenced && u.y.ref = .referenced && u.c.ref = .referenced

/-- The present X and Y position. -/
def Axes.point (u : Axes) : Point :=
  ⟨u.x.pos, u.y.pos⟩

/-- Add steps to a position; C is held mod 36000 (R122, R123). -/
def addSteps (a : Axis) (pos n : Int) : Int :=
  match a with
  | .x => pos + n
  | .y => pos + n
  | .c => (pos + n) % 36000

/-- R122: one step of an axis is issued, and its position changes by 1 in its direction. -/
def AxisState.issueOne (a : Axis) (ax : AxisState) : AxisState :=
  if ax.steps = 0 then ax
  else { ax with pos := addSteps a ax.pos ax.steps.sign, steps := ax.steps - ax.steps.sign }

/-- R122: all of a period's steps are issued before the next expiry (log entry 9). -/
def AxisState.issueRest (a : Axis) (ax : AxisState) : AxisState :=
  { ax with pos := addSteps a ax.pos ax.steps, steps := 0 }

/-- The travel of an axis: the greatest position of X and Y; C has none (R125). -/
def travelOf (prm : Params) : Axis → Option Nat
  | .x => some prm.travelX
  | .y => some prm.travelY
  | .c => none

/-- R125: a target of a REFERENCED X or Y axis is limited to its travel. -/
def limitTarget (prm : Params) (a : Axis) (ax : AxisState) (target : Int) : Int :=
  match travelOf prm a with
  | none => target
  | some limit => if ax.ref = .referenced then clamp target 0 limit else target

/-- R122, R123: the signed step count from a position to a target. -/
def stepCount (a : Axis) (pos target : Int) : Int :=
  match a with
  | .x => target - pos
  | .y => target - pos
  | .c => turn (mod36000 pos) (mod36000 target)

/-- R122: a target is handed to an axis. The direction output follows the sign of the step count and keeps its level
when there is none. -/
def AxisState.hand (prm : Params) (a : Axis) (target : Int) (ax : AxisState) : AxisState :=
  let n := stepCount a ax.pos (limitTarget prm a ax target)
  { ax with steps := n, dirHigh := if n = 0 then ax.dirHigh else decide (0 < n) }

/-- R124: the enables of all three axes are dropped: outputs OFF, unissued steps abandoned, every axis UNREFERENCED. -/
def AxisState.drop (ax : AxisState) : AxisState :=
  { ax with enable := false, steps := 0, ref := .unreferenced }

/-! ## Inputs and the latch -/

/-- The state of an input. -/
def Guard.input (g : Guard) (i : InputId) : InputState :=
  g.inputs[inputIndex i]

/-- Update one input. -/
def Guard.updateInput (g : Guard) (i : InputId) (f : InputState → InputState) : Guard :=
  { g with inputs := g.inputs.set (inputIndex i) (f (g.input i)) }

/-- A cause for a stop (R140). -/
inductive Cause where
  | input (i : InputId)
  | spinupFail
  | bladeStall
  | bladeJam
  | starved
  deriving DecidableEq, Repr

/-- The bit of a cause in the latch mask (12.2). -/
def Cause.bit : Cause → Nat
  | .input i => (inputIndex i).val
  | .spinupFail => 12
  | .bladeStall => 13
  | .bladeJam => 14
  | .starved => 15

/-- The latch mask of one cause. -/
def Cause.mask (k : Cause) : BitVec 16 :=
  1#16 <<< k.bit

/-- R140: a cause is added to the latch; one already present is not added twice. -/
def latchCause (k : Cause) : State → State :=
  State.mapGuard fun g => { g with latch := g.latch ||| k.mask }

/-- R139: an action that fails the motion check while its input is ACTIVE. -/
def InputAction.stopsMotion : InputAction → Bool
  | .stop => true
  | .halt => true
  | .ignore => false
  | .notice => false
  | .hold => false

/-- R139: an action that fails the cut check while its input is ACTIVE. -/
def InputAction.stopsCut : InputAction → Bool
  | .hold => true
  | .stop => true
  | .halt => true
  | .ignore => false
  | .notice => false

/-- R139, motion check: an input whose action is STOP or HALT is ACTIVE. -/
def Guard.motionBlocked (g : Guard) : Bool :=
  allInputs.any fun i => (g.input i).accepted && (g.input i).action.stopsMotion

/-- R139, cut check: an input whose action is HOLD, STOP or HALT is ACTIVE. -/
def Guard.cutBlocked (g : Guard) : Bool :=
  allInputs.any fun i => (g.input i).accepted && (g.input i).action.stopsCut

/-! ## Job states -/

/-- The job is running: the interpolation period timer runs in these states (R60). -/
def JobState.inJob : JobState → Bool
  | .warmup => true
  | .cutting => true
  | .holding => true
  | .starved => true
  | .stopping => true
  | .idle => false
  | .motion => false
  | .fault => false

/-- R151: the states in which a hold request is taken. -/
def JobState.holdable : JobState → Bool
  | .warmup => true
  | .cutting => true
  | .starved => true
  | .idle => false
  | .motion => false
  | .holding => false
  | .stopping => false
  | .fault => false

/-- Set the job state. -/
def setJobState (j : JobState) : State → State :=
  State.mapJob fun job => { job with state := j }

/-! ## Time -/

/-- A running timer counts on. -/
def runOn (us : Nat) (t : Option Nat) : Option Nat :=
  t.map (· + us)

/-- A timer has run `ms` milliseconds. -/
def reached (t : Option Nat) (ms : Nat) : Bool :=
  match t with
  | none => false
  | some us => decide (ms * 1000 ≤ us)

/-- The bits of a second's line time, R160. -/
def LineRate.bits : LineRate → Nat
  | .r115200 => 115200
  | .r460800 => 460800
  | .r921600 => 921600
  | .r2000000 => 2000000

/-- Bit-rate × µs of one character of ten bits. -/
def characterTime : Nat :=
  10000000

/-- R163, R164: the transmitter's characters over `us` µs. The character in progress ends; no further byte of the frame
begins while the host holds the transmitter or a flow mark waits. A frame just begun has no character in progress: that
a HOLD or a flow mark taken in that same µs holds back even its first byte is the model's choice (log entry 33). -/
def Link.elapse (us : Nat) (l : Link) : Link :=
  let l := { l with gap := runOn us l.gap }
  match l.tx with
  | none => l
  | some f =>
    let total := l.charTime + l.rate.bits * us
    if l.held || !l.marks.isEmpty then
      if l.charTime = 0 then l
      else if characterTime ≤ total then { l with tx := some { f with sent := f.sent + 1 }, charTime := 0 }
      else { l with charTime := total }
    else
      let sent := f.sent + total / characterTime
      if f.line.length ≤ sent then { l with tx := some { f with sent := f.line.length }, charTime := 0 }
      else { l with tx := some { f with sent := sent }, charTime := total % characterTime }

/-- R94: a PWM cycle is 50 µs, and a change of duty acts from the next one. -/
def Stroke.elapse (us : Nat) (k : Stroke) : Stroke :=
  { k with
    spinTimer := runOn us k.spinTimer
    stallTimer := runOn us k.stallTimer
    pwmDuty := if 50 ≤ k.pwmPhase + us then k.duty else k.pwmDuty
    pwmPhase := (k.pwmPhase + us) % 50 }

/-- The conversion in flight and the phase-delay timer over `us` µs. -/
def Load.elapse (us : Nat) (m : Load) : Load :=
  { m with
    inFlight := m.inFlight.map fun k =>
      match k with
      | .settling t => .settling (t + us)
      | .measuring t => .measuring (t + us)
    phase := m.phase.map (· - us) }

/-- `us` µs pass: the time base and every running timer count on. Nothing expires by it (log entries 1 and 2). -/
def elapse (us : Nat) (s : State) : State :=
  { s with
    timeBase := s.timeBase + BitVec.ofNat 32 us
    interp := { s.interp with timer := runOn us s.interp.timer }
    stroke := s.stroke.elapse us
    load := s.load.elapse us
    axes := { s.axes with timer := runOn us s.axes.timer }
    guard :=
      { s.guard with
        inputs := inputsOf fun i => { s.guard.input i with timer := runOn us (s.guard.input i).timer } }
    job := { s.job with dwell := runOn us s.job.dwell }
    link := s.link.elapse us }

/-- The part's clock is brought to the reading `t` of the time base (log entry 3). -/
def elapseTo (t : Word) (s : State) : State :=
  elapse (t - s.timeBase).toNat s

end Sys2Proof.Machine
end

