-- ==== Sys2Proof/Machine/AxisUnit.lean ====
section
/-! DEFINITION. Chapter 8: targets, homing, the MOVE traverse, and what stops do to them. The traverse expiry itself is
in Motion.lean. -/

namespace Sys2Proof.Machine

/-- R122: X, Y and C targets are handed to the step generator. -/
def handTargets (prm : Params) (x y : Int) (c : Nat) (u : Axes) : Axes :=
  u.each fun a ax =>
    match a with
    | .x => ax.hand prm .x x
    | .y => ax.hand prm .y y
    | .c => ax.hand prm .c c

/-! ## Homing -/

/-- A homing axis moves `v` mc in its direction: its target moves by round(m / 1000) less the same before (R128). -/
def AxisState.homeMove (prm : Params) (a : Axis) (negative : Bool) (v limit : Nat) (ax : AxisState) : AxisState :=
  let m := min (ax.moved + v) limit
  let n : Int := (roundNat m 1000 : Int) - roundNat ax.moved 1000
  { ax.hand prm a (if negative then ax.pos - n else ax.pos + n) with speed := v, moved := m }

/-- A phase is entered with m reset to 0 (R128). -/
def AxisState.enter (phase : HomingPhase) (ax : AxisState) : AxisState :=
  { ax with phase := phase, moved := 0 }

/-- An axis becomes FAILED (R128, R129): it stands, UNREFERENCED, with its enable ON. -/
def AxisState.fail (outcome : HomingOutcome) (ax : AxisState) : AxisState :=
  { ax.enter .failed with speed := 0, ref := .unreferenced, outcome := outcome }

/-- R128: the backoff allowance in mc. -/
def backoffAllowance : Nat :=
  2000000

/-- R128: one period of BACKOFF_SEEK or BACKOFF; the axis fails when the allowance is used up. -/
def AxisState.backoffMove (prm : Params) (a : Axis) (ax : AxisState) : AxisState :=
  let v := min 200 (ax.speed + prm.accel)
  let ax := ax.homeMove prm a false v (ax.moved + v)
  if backoffAllowance ≤ ax.moved then ax.fail .switch else ax

/-- R128: one period of a homing axis, with the filtered level of its home input. -/
def AxisState.homeStep (prm : Params) (a : Axis) (homeActive : Bool) (ax : AxisState) : AxisState :=
  match ax.phase with
  | .search =>
    let whole := prm.homeSearch * 1000
    let rh := ceilDiv (whole - ax.moved) 1000
    let v := min prm.homeFeed (min (ax.speed + prm.accel) (isqrt (2000 * prm.accel * rh)))
    let ax := ax.homeMove prm a true v whole
    if whole ≤ ax.moved then ax.fail .search else ax
  | .brake =>
    let v := ax.speed - prm.accel
    let ax := ax.homeMove prm a true v (ax.moved + v)
    if v = 0 then ax.enter (if homeActive then .backoff else .backoffSeek) else ax
  | .backoffSeek => ax.backoffMove prm a
  | .backoff => ax.backoffMove prm a
  | .none => ax
  | .done => ax
  | .failed => ax

/-- R132: one period of a homing axis under a controlled stop. -/
def AxisState.homeSlow (prm : Params) (a : Axis) (ax : AxisState) : AxisState :=
  let v := ax.speed - prm.stopDecel
  match ax.phase with
  | .search => ax.homeMove prm a true v (ax.moved + v)
  | .brake => ax.homeMove prm a true v (ax.moved + v)
  | .backoffSeek => ax.homeMove prm a false v (ax.moved + v)
  | .backoff => ax.homeMove prm a false v (ax.moved + v)
  | .none => ax
  | .done => ax
  | .failed => ax

/-- The axis is HOMING and in a phase that moves. -/
def AxisState.searching (ax : AxisState) : Bool :=
  ax.ref = .homing

/-- R128: DONE, with position 0 at the edge. -/
def AxisState.homeDone (ax : AxisState) : AxisState :=
  { ax.enter .done with steps := 0, pos := 0, speed := 0, ref := .referenced, outcome := .referenced }

/-- R128: a report of the home input's level to a homing axis. -/
def AxisState.homeReported (active : Bool) (ax : AxisState) : AxisState :=
  if ax.searching then
    match ax.phase, active with
    | .search, true => ax.enter .brake
    | .backoffSeek, true => { ax with phase := .backoff }
    | .backoff, false => ax.homeDone
    | _, _ => ax
  else ax

/-- R129: the limit input of a homing axis is reported active. -/
def AxisState.limitReported (active : Bool) (ax : AxisState) : AxisState :=
  if ax.searching && active then { ax.fail .limit with steps := 0 } else ax

/-- R132: the homing of an axis that is not DONE or FAILED is given up. -/
def AxisState.abortHome (ax : AxisState) : AxisState :=
  if ax.searching then { ax with ref := .unreferenced, outcome := .aborted, phase := .none, speed := 0 } else ax

/-- The axis is DONE or FAILED. -/
def AxisState.homeEnded (ax : AxisState) : Bool :=
  ax.phase = .done || ax.phase = .failed

/-- What HOMED carries for an axis; an axis not named carries 0, 0 (12.2, log entry 18). -/
def homedItem (named : Bool) (ax : AxisState) : HomingOutcome × Int :=
  if named then (ax.outcome, ax.pos) else (.none, 0)

/-- The notice HOMED (12.5). -/
def homedNotice (w : AxisSet) (u : Axes) : Notice :=
  .homed w (homedItem w.x u.x) (homedItem w.y u.y) (homedItem w.c u.c)

/-- R129: every named axis is DONE or FAILED. -/
def Axes.homeComplete (u : Axes) (w : AxisSet) : Bool :=
  (!w.x || u.x.homeEnded) && (!w.y || u.y.homeEnded) && (!w.c || u.c.homeEnded)

/-- R129: a complete HOME queues HOMED and returns the job to IDLE. -/
def finishHome (s : State) : State :=
  match s.axes.home with
  | none => s
  | some w =>
    if s.job.state = .motion && s.axes.homeComplete w then
      queueNotice (homedNotice w s.axes)
        (setJobState .idle (s.mapAxes fun u => { u with home := none, timer := none }))
    else s

/-- A report of an input's level reaches an axis. Outside MOTION it finds no phase to end (R129, R132). -/
def reportToAxis (a : Axis) (f : AxisState → AxisState) (s : State) : State :=
  if s.job.state = .motion then finishHome (s.mapAxes fun u => u.update a f) else s

/-! ## The MOVE traverse -/

/-- R131: the X and Y targets at the traverse's progress. -/
def Traverse.point (t : Traverse) : Point :=
  if t.length * 1000 ≤ t.p then t.stopAt
  else
    ⟨t.startAt.x + roundDiv ((t.stopAt.x - t.startAt.x) * t.p) (t.length * 1000),
      t.startAt.y + roundDiv ((t.stopAt.y - t.startAt.y) * t.p) (t.length * 1000)⟩

/-- R131: the speed of a period. -/
def Traverse.speed (prm : Params) (t : Traverse) : Nat :=
  min prm.traverseFeed
    (min (t.vprev + prm.accel) (isqrt (2000 * prm.accel * ceilDiv (t.length * 1000 - t.p) 1000)))

/-- R131: progress along the line at speed `v`; at the end the overshoot is dropped and V set to 0. -/
def Traverse.advance (v : Nat) (t : Traverse) : Traverse :=
  if t.length * 1000 ≤ t.p then { t with v := 0, vprev := 0 }
  else if t.length * 1000 ≤ t.p + v then { t with p := t.length * 1000, v := 0, vprev := 0 }
  else { t with p := t.p + v, v := v, vprev := v }

/-- R131: one period of the C turn. -/
def Traverse.turnC (rate : Nat) (t : Traverse) : Traverse :=
  let n := min rate t.turnLeft
  { t with
    turnLeft := t.turnLeft - n
    targetC := mod36000 (if t.turnNeg then (t.targetC : Int) - n else (t.targetC : Int) + n) }

/-- R131: one period of a MOVE. -/
def Traverse.step (prm : Params) (t : Traverse) : Traverse :=
  (t.advance (t.speed prm)).turnC prm.pivotRate

/-- R132: one period of a MOVE under a controlled stop; the C turn is halted. -/
def Traverse.slow (prm : Params) (t : Traverse) : Traverse :=
  { t.advance (min (t.speed prm) (t.vprev - prm.stopDecel)) with turnLeft := 0 }

/-- The MOVE has reached its end with its C turn done (R131). -/
def Traverse.complete (t : Traverse) : Bool :=
  decide (t.length * 1000 ≤ t.p) && t.turnLeft = 0

/-- A traverse's targets are handed to the axes. -/
def handTraverse (prm : Params) (t : Traverse) (u : Axes) : Axes :=
  { handTargets prm t.point.x t.point.y t.targetC u with traverse := some t }

/-- R131: a complete MOVE queues MOVED and returns the job to IDLE. -/
def finishMove (s : State) : State :=
  match s.axes.traverse with
  | none => s
  | some t =>
    if t.complete then
      queueNotice (.moved t.stopAt.x t.stopAt.y t.goalC)
        (setJobState .idle (s.mapAxes fun u => { u with traverse := none, timer := none }))
    else s

/-! ## Stops -/

/-- R132: the HOME in progress, if any, queues HOMED with its aborted axes. -/
def endHome (s : State) : State :=
  match s.axes.home with
  | none => s
  | some w =>
    let s := s.mapAxes fun u => { u.each (fun _ ax => ax.abortHome) with home := none }
    queueNotice (homedNotice w s.axes) s

/-- R124: the enables of all three axes are dropped. -/
def dropEnables : State → State :=
  State.mapAxes fun u => { u.each (fun _ ax => ax.drop) with traverse := none, timer := none }

/-- Some enable output is ON. -/
def Axes.anyEnabled (u : Axes) : Bool :=
  u.x.enable || u.y.enable || u.c.enable

/-- R132: the MOVE and every homing axis stand. -/
def Axes.atRest (u : Axes) : Bool :=
  (match u.traverse with | none => true | some t => t.v = 0) &&
    (!u.x.searching || u.x.speed = 0) && (!u.y.searching || u.y.speed = 0) && (!u.c.searching || u.c.speed = 0)

end Sys2Proof.Machine
end

