-- ==== Sys2Proof/Machine/LoadMonitor.lean ====
section
/-! DEFINITION. Chapter 7: the converter and its requesters, smoothing, bands and the overload count, less the
completion of a measurement, which can stop the machine (Blade.lean). -/

namespace Sys2Proof.Machine

/-- R110: a conversion takes 24 µs. -/
def conversionTime : Nat :=
  24

/-- R110: a conversion is started for STROKE or LINK. A conversion in flight is abandoned, and the new one serves the
merged requester set. -/
def Load.startConversion (forLink : Bool) (m : Load) : Load :=
  { m with
    reqStroke := m.reqStroke || !forLink
    reqLink := m.reqLink || forLink
    valid := false
    inFlight := some (if m.settled then .measuring 0 else .settling 0) }

/-- R112: power-up, when the converter is DOWN. -/
def Load.powerUp (m : Load) : Load :=
  if m.powered then m else { m with powered := true, settled := false }

/-- R113: power-down. The result keeps its last value. -/
def Load.powerDown (m : Load) : Load :=
  { m with powered := false, settled := false, valid := false }

/-- R112: the stroke has left OFF. -/
def Load.strokeLeftOff (m : Load) : Load :=
  { m.powerUp with acc := 0, band := 0, run := 0 }

/-- R113: the stroke has entered OFF. -/
def Load.strokeEnteredOff (m : Load) : Load :=
  if m.reqLink then { m with reqStroke := false }
  else { m with reqStroke := false, inFlight := none }.powerDown

/-- R109, R119, R112, R113: the Stroke Generator reports a change of stroke state. -/
def Load.strokeChanged (before now : StrokeState) (m : Load) : Load :=
  if before = now then m
  else
    let m := if before = .run || now = .run then { m with run := 0 } else m
    let m := if now = .coast || now = .stalled then { m with phase := none } else m
    let m := if before = .off then m.strokeLeftOff else m
    if now = .off then m.strokeEnteredOff else m

/-- R109: an index arrival is reported. With SAMPLE_PHASE 0 the conversion is started at the report itself. -/
def Load.indexReported (samplePhase : Nat) (m : Load) : Load :=
  if samplePhase = 0 then { m with phase := none }.startConversion false
  else { m with phase := some samplePhase }

/-- R115: the smoothed average. -/
def Load.average (m : Load) : Nat :=
  m.acc / 8

/-- R115: the accumulator takes a sample. -/
def Load.accumulate (sample : Nat) (m : Load) : Load :=
  { m with acc := m.acc - m.acc / 8 + sample }

/-- R116: the band of an average on the thresholds in force. -/
def bandOf (prm : Params) (y : Nat) : Nat :=
  if prm.t3 ≤ y then 3 else if prm.t2 ≤ y then 2 else if prm.t1 ≤ y then 1 else 0

/-- R116: the band after an evaluation, with hysteresis on the way down. -/
def nextBand (prm : Params) (band average : Nat) : Nat :=
  max (bandOf prm average) (min band (bandOf prm (average + prm.hyst)))

/-- R118: the derate factor of a band or hint class. -/
def derateFactor (prm : Params) (n : Nat) : Nat :=
  match n with
  | 0 => prm.d0
  | 1 => prm.d1
  | 2 => prm.d2
  | _ => prm.d3

/-- R116, R117: the band is evaluated, and BAND is queued on a change with BAND_NOTICE on. -/
def evaluateBand (s : State) : State :=
  let before := s.load.band
  let now := nextBand s.params before s.load.average
  let s := s.mapLoad fun m => { m with band := now }
  if now ≠ before && s.params.bandNotice then queueNotice (.band now before s.load.average) s else s

end Sys2Proof.Machine
end

