-- ==== Sys2Proof/Machine/StrokeGenerator.lean ====
section
/-! DEFINITION. Chapter 6: stroke measurement, the control law and the spin-up, idle and coast requests. What raises a
cause or lets a job pass from WARMUP to CUTTING is in Blade.lean. -/

namespace Sys2Proof.Machine

/-- R93: the target rate; none is 0. -/
def targetRate (prm : Params) : StrokeState → Nat
  | .spinup => prm.strokeCut
  | .run => prm.strokeCut
  | .idle => prm.strokeIdle
  | .off => 0
  | .coast => 0
  | .stalled => 0

/-- The blade is driven: SPINUP, RUN or IDLE. -/
def StrokeState.driven : StrokeState → Bool
  | .spinup => true
  | .run => true
  | .idle => true
  | .off => false
  | .coast => false
  | .stalled => false

/-- The stroke changes as `f` says, and the Load Monitor is told of the change of state (R93). -/
def strokeTo (f : Stroke → Stroke) (s : State) : State :=
  let k := f s.stroke
  { s with stroke := k, load := s.load.strokeChanged s.stroke.state k.state }

/-! ## The PWM output -/

/-- R94: the high time of the PWM cycle in progress, in ns: 0.1 % of the 50 µs cycle is 50 ns. -/
def Stroke.highTime (k : Stroke) : Nat :=
  k.pwmDuty * 50

/-- R94: the level of the blade motor output `ns` ns into the PWM cycle in progress; its high part comes first (log entry
21). -/
def Stroke.outputAt (k : Stroke) (ns : Nat) : Bool :=
  decide (ns < k.highTime)

/-- R94: the level of the blade motor output now; time is counted in whole µs. -/
def Stroke.output (k : Stroke) : Bool :=
  k.outputAt (k.pwmPhase * 1000)

/-! ## Requests of the blade -/

/-- R99: a spin-up request. -/
def Stroke.spinUp (startDuty : Nat) (k : Stroke) : Stroke :=
  match k.state with
  | .off =>
    { k with
      state := .spinup, duty := startDuty, index := none, m := 0, lock := 0, spinTimer := some 0, stallTimer := some 0 }
  | .coast => { k with state := .spinup, duty := startDuty, lock := 0, spinTimer := some 0, stallTimer := some 0 }
  | .idle => { k with state := .spinup, lock := 0, spinTimer := some 0 }
  | .spinup => k
  | .run => k
  | .stalled => k

/-- R100: an idle request. -/
def Stroke.toIdle (startDuty : Nat) (k : Stroke) : Stroke :=
  match k.state with
  | .spinup => { k with state := .idle, spinTimer := none, lock := 0 }
  | .run => { k with state := .idle }
  | .off => { k with state := .idle, duty := startDuty, index := none, m := 0, stallTimer := some 0 }
  | .coast => { k with state := .idle, duty := startDuty, stallTimer := some 0 }
  | .idle => k
  | .stalled => k

/-- Entry into COAST with duty 0; the stall timer serves as the coast timer (R101, R103). -/
def Stroke.enterCoast (k : Stroke) : Stroke :=
  { k with state := .coast, duty := 0, spinTimer := none, lock := 0, stallTimer := some 0 }

/-- R101: a coast request. -/
def Stroke.toCoast (k : Stroke) : Stroke :=
  if k.state.driven then k.enterCoast else k

/-- R105, R106: entry into OFF. -/
def Stroke.enterOff (k : Stroke) : Stroke :=
  { k with state := .off, duty := 0, index := none, m := 0, lock := 0, spinTimer := none, stallTimer := none }

/-- R104: entry into STALLED. -/
def Stroke.enterStalled (k : Stroke) : Stroke :=
  { k with state := .stalled, duty := 0, index := none, m := 0, lock := 0, spinTimer := none, stallTimer := none }

/-- R104: the zero-duty restart. -/
def Stroke.zeroDutyRestart (startDuty : Nat) (k : Stroke) : Stroke :=
  { k with index := none, m := 0, duty := startDuty, stallTimer := some 0 }

/-- R99: a spin-up request to the part's stroke. -/
def spinUpRequest (s : State) : State :=
  strokeTo (Stroke.spinUp s.params.startDuty) s

/-- R100: an idle request to the part's stroke. -/
def idleRequest (s : State) : State :=
  strokeTo (Stroke.toIdle s.params.startDuty) s

/-- R101: a coast request to the part's stroke. -/
def coastRequest (s : State) : State :=
  strokeTo Stroke.toCoast s

/-- R95: the rate of an interval in µs. -/
def rateOf (interval : Nat) : Nat :=
  if interval = 0 then 9000 else min 9000 (60000000 / interval)

/-- R95: an index is timestamped; with the record holding a timestamp it forms M. -/
def Stroke.timestamp (t : Word) (k : Stroke) : Stroke :=
  match k.index with
  | none => { k with index := some t }
  | some earlier => { k with index := some t, m := rateOf (t - earlier).toNat }

/-- R97: the duty after a control step with the error `e`. -/
def controlledDuty (ki : Nat) (duty : Nat) (e : Int) : Nat :=
  (clamp (duty + (e * ki).tdiv 256) 0 1000).toNat

/-- R97: the control step. -/
def Stroke.control (prm : Params) (k : Stroke) : Stroke :=
  { k with duty := controlledDuty prm.ki k.duty ((targetRate prm k.state : Int) - k.m) }

/-- R102: the lock count after an index that formed M (`formed`) or did not. -/
def lockCounted (prm : Params) (formed : Bool) (k : Stroke) : Nat :=
  if formed && decide (((k.m : Int) - prm.strokeCut).natAbs ≤ prm.lockBand) then k.lock + 1 else 0

/-- R102: in SPINUP the index is counted for lock, and RUN may be entered. -/
def Stroke.countLock (prm : Params) (formed : Bool) (k : Stroke) : Stroke :=
  if k.state = .spinup then
    let n := lockCounted prm formed k
    if prm.lockCount ≤ n then { k with state := .run, spinTimer := none, lock := 0 } else { k with lock := n }
  else k

end Sys2Proof.Machine
end

