-- ==== Sys2Proof/Machine/JobControl.lean ====
section
/-! DEFINITION. Chapter 10: holds, the passage from WARMUP to CUTTING, starvation. -/

namespace Sys2Proof.Machine

/-- The segment number and slot of the active segment. -/
def activeNumber (s : State) : Option (Nat × Nat) :=
  match s.interp.active with
  | none => none
  | some i => (s.store.slot i).map fun sl => (sl.seg.number, i)

/-- R152: the held flag is set; the stroke is sent an idle request and HELD is queued. -/
def setHeld (s : State) : State :=
  let s := idleRequest (s.mapJob fun j => { j with held := true })
  queueNotice (.held (activeNumber s) s.interp.p) s

/-- R151: a hold request of the host, an input or the geometry policy. In a state that takes none it does nothing. -/
def holdRequest (s : State) : State :=
  match s.job.state with
  | .warmup => s.mapJob fun j => { j with state := .holding, held := false }
  | .cutting => s.mapJob fun j => { j with state := .holding, held := false }
  | .starved => setHeld (s.mapJob fun j => { j with state := .holding, dwell := none })
  | .idle => s
  | .motion => s
  | .holding => s
  | .stopping => s
  | .fault => s

/-- R150: the job passes from WARMUP to CUTTING when the stroke is RUN and no start pivot is pending. -/
def warmupPassage (s : State) : State :=
  if s.job.state = .warmup && s.stroke.state = .run && !s.interp.startPending then setJobState .cutting s else s

/-- R153, R154: the job becomes STARVED, its dwell starts, and STARVED is queued. -/
def becomeStarved (s : State) : State :=
  queueNotice (.starved s.job.lastCompleted s.job.passesDone)
    (s.mapJob fun j => { j with state := .starved, held := false, dwell := some 0 })

/-- R155: a record accepted while STARVED takes the job to WARMUP and spins up the blade. -/
def starvedAcceptance (s : State) : State :=
  if s.job.state = .starved then
    warmupPassage (spinUpRequest (s.mapJob fun j => { j with state := .warmup, dwell := none }))
  else s

end Sys2Proof.Machine
end

