-- ==== Sys2Proof/Machine/Planner.lean ====
section
/-! DEFINITION. Chapter 3: junction classes, corner speeds, the plan span and the backward pass. -/

namespace Sys2Proof.Machine

/-- The planning derate of a hint class (R43). -/
def Planner.derate (pl : Planner) (n : Nat) : Nat :=
  match n with
  | 0 => pl.p0
  | 1 => pl.p1
  | 2 => pl.p2
  | _ => pl.p3

/-- R42: the effective feed request of a segment. -/
def effectiveFeed (pl : Planner) (seg : Segment) : Nat :=
  if seg.kind.moving then
    match seg.hint with
    | none => seg.feed
    | some n => seg.feed * pl.derate n / 256
  else 0

/-- R44: the junction class of a segment after the predecessor `pred`, which is none when it is not held. -/
def classify (blendAngle : Nat) (pred : Option Segment) (seg : Segment) : JunctionClass :=
  if !seg.kind.moving then .stop
  else if seg.opening then .start
  else if blendAngle < seg.delta.natAbs then .pivot
  else
    match pred with
    | none => .stop
    | some q => if !q.kind.moving then .stop else if seg.delta = 0 then .smooth else .blend

/-- R45: the corner speed of a class, with the lesser effective feed request `vcap`. -/
def cornerSpeed (blendAngle cornerFloor vcap : Nat) (delta : Int) : JunctionClass → Nat
  | .start => 0
  | .pivot => 0
  | .stop => 0
  | .smooth => vcap
  | .blend => min vcap (max cornerFloor (vcap * (blendAngle - delta.natAbs) / blendAngle))

/-- R49: a class at which the segment before it comes to rest. -/
def JunctionClass.rests : JunctionClass → Bool
  | .start => true
  | .pivot => true
  | .stop => true
  | .smooth => false
  | .blend => false

/-- What the backward pass needs of a segment of the span. -/
structure Leg where
  junction : JunctionClass
  /-- Vc at its start junction. -/
  corner : Nat
  /-- Its effective feed request. -/
  feed : Nat
  /-- Its length in counts, 0 for a PAUSE. -/
  length : Nat
  /-- It carries LAST or is a PAUSE: it exits at rest (R49). -/
  restsAfter : Bool
  deriving DecidableEq, Repr

/-- Planned entry and exit speeds. -/
structure Speeds where
  entry : Nat
  exit : Nat
  deriving DecidableEq, Repr

/-- The leg of a segment after its predecessor. -/
def legOf (prm : Params) (pl : Planner) (pred : Option Segment) (seg : Segment) : Leg :=
  let j := classify prm.blendAngle pred seg
  let own := effectiveFeed pl seg
  let vcap := min own (match pred with | none => own | some q => effectiveFeed pl q)
  { junction := j
    corner := cornerSpeed prm.blendAngle prm.cornerFloor vcap seg.delta j
    feed := own
    length := seg.length
    restsAfter := seg.last || !seg.kind.moving }

/-- R44: the legs of the segments of a span, each after the one before it. -/
def legsOf (prm : Params) (pl : Planner) : Option Segment → List Segment → List Leg
  | _, [] => []
  | pred, seg :: rest => legOf prm pl pred seg :: legsOf prm pl (some seg) rest

/-- R49: the planned exit speed of a leg before the legs `rest` planned as `speeds`. -/
def exitSpeed (leg : Leg) (rest : List Leg) (speeds : List Speeds) : Nat :=
  match rest, speeds with
  | next :: _, sp :: _ => if leg.restsAfter || next.junction.rests then 0 else sp.entry
  | _, _ => 0

/-- R50: the backward pass at acceleration `a`, from the frontier to the first leg. -/
def backwardPass (a : Nat) : List Leg → List Speeds
  | [] => []
  | leg :: rest =>
    let speeds := backwardPass a rest
    let out := exitSpeed leg rest speeds
    ⟨min leg.corner (min leg.feed (isqrt (out * out + 2000 * a * leg.length))), out⟩ :: speeds

/-- R48: the slot a span begins at: the ACTIVE slot, otherwise the slot at the execution pointer. -/
def Store.spanStart (st : Store) : Nat :=
  match st.activeSlot with
  | some e => e.1
  | none => st.execPtr

/-- R48: the plan span. -/
def Store.span (st : Store) : List (Nat × Slot) :=
  st.runFrom 64 st.spanStart

/-- The held predecessor of the first segment of the span: the segment in the slot before it in execution order (R41),
and in STREAM mode the segment that has just completed (R58). -/
def Store.heldBefore (st : Store) (completed : Option Segment) : Option Segment :=
  match st.mode with
  | .stream => completed
  | .repeating =>
    if st.spanStart ≤ st.winBegin then none else (st.slot (st.spanStart - 1)).map Slot.seg

/-- R50, R51: a slot of the span as the replan writes it. A QUEUED slot becomes PLANNED; an ACTIVE slot keeps its class
and entry. -/
def plannedSlot (sl : Slot) (leg : Leg) (sp : Speeds) : Slot :=
  match sl.state with
  | .active => { sl with seg := { sl.seg with exitSpeed := sp.exit } }
  | .queued =>
    { state := .planned
      seg := { sl.seg with junction := some leg.junction, entrySpeed := sp.entry, exitSpeed := sp.exit } }
  | .planned =>
    { state := .planned
      seg := { sl.seg with junction := some leg.junction, entrySpeed := sp.entry, exitSpeed := sp.exit } }

/-- The slots of the span with their plan. -/
def plannedSlots : List (Nat × Slot) → List Leg → List Speeds → List (Nat × Slot)
  | (i, sl) :: rest, leg :: legs, sp :: sps => (i, plannedSlot sl leg sp) :: plannedSlots rest legs sps
  | _, _, _ => []

/-- Write slots into the Store. -/
def slotsPut (slots : List (Nat × Slot)) : List (Nat × Slot) → List (Nat × Slot)
  | [] => slots
  | (i, sl) :: rest => slotsPut (slotPut slots i sl) rest

/-- R43: at a replan made in job IDLE the derates are copied first. -/
def copyDerates (s : State) : State :=
  if s.job.state = .idle then
    s.mapPlanner fun pl => { pl with p0 := s.params.d0, p1 := s.params.d1, p2 := s.params.d2, p3 := s.params.d3 }
  else s

/-- R50 with R44: the legs of the Store's span. -/
def spanLegs (completed : Option Segment) (s : State) : List Leg :=
  legsOf s.params s.planner (s.store.heldBefore completed) (s.store.span.map fun e => e.2.seg)

/-- R53: one whole replan; `completed` is the segment that has just completed, at the replan of a completion (R58). With
the span empty, that the first slot recorded is the one at the execution pointer and the frontier recorded is 0 is the
model's choice (log entry 32). -/
def replan (completed : Option Segment) (s : State) : State :=
  let s := copyDerates s
  let span := s.store.span
  let legs := spanLegs completed s
  let planned := plannedSlots span legs (backwardPass s.params.accel legs)
  let frontier := match span.getLast? with | some e => e.1 | none => 0
  { s with
    store := { s.store with slots := slotsPut s.store.slots planned }
    planner := { s.planner with spanFirst := s.store.spanStart, spanCount := span.length, frontier := frontier } }

end Sys2Proof.Machine
end

