-- ==== Sys2Proof/Machine/SegmentStore.lean ====
section
/-! DEFINITION. Chapter 2: emptying, completion, the partial flush, stops and job ends, flow marks and low water. -/

namespace Sys2Proof.Machine

/-- R21: the chain is cleared. -/
def Store.clearChain (st : Store) : Store :=
  { st with
    tailOpen := false, tailPoint := none, tailHeading := none, origin := none, chainClosed := false, executedHeading := none }

/-- The flow state becomes OPEN, and a GO flow mark is handed if it was HELD (R29, R34, R36). -/
def openFlow (s : State) : State :=
  if s.store.flowHeld then handMark .go (s.mapStore fun st => { st with flowHeld := false }) else s

/-- R29: the emptying of the window. -/
def emptyWindow (s : State) : State :=
  openFlow <| s.mapStore fun st =>
    { st.clearChain with slots := [], writePtr := st.winBegin, execPtr := st.winBegin, armed := false }

/-- R35: the HOLD flow-mark rule after an acceptance. -/
def holdMarkRule (s : State) : State :=
  if s.store.mode = .stream && decide (s.store.free ≤ s.params.flowHold) && !s.store.flowHeld then
    handMark .hold (s.mapStore fun st => { st with flowHeld := true })
  else s

/-- R36: the GO flow-mark rule after a completion that frees a slot. -/
def goMarkRule (s : State) : State :=
  if min s.params.flowGo s.store.size ≤ s.store.free then openFlow s else s

/-- The remaining length of a segment at progress `p` (R38, R78). -/
def remaining (length p : Nat) : Nat :=
  ceilDiv (length * 1000 - p) 1000

/-- R38: the queued path ahead. -/
def pathAhead (s : State) : Nat :=
  (s.store.slots.map fun e =>
    match e.2.state with
    | .active => if e.2.seg.kind.moving then remaining e.2.seg.length s.interp.p else 0
    | .queued => e.2.seg.length
    | .planned => e.2.seg.length).sum

/-- R38: the low-water evaluation. -/
def lowWater (s : State) : State :=
  if s.store.mode = .stream && !s.store.chainClosed then
    if s.store.armed then
      if pathAhead s < s.params.lowWater then
        queueNotice (.low (pathAhead s)) (s.mapStore fun st => { st with armed := false })
      else s
    else if s.params.lowWater ≤ pathAhead s then s.mapStore fun st => { st with armed := true }
    else s
  else s

/-- R30: the slot at the execution pointer is freed (STREAM) or re-queued (REPEAT), and the pointer advances. -/
def Store.complete (st : Store) : Store :=
  match st.mode with
  | .stream => { st with slots := slotDrop st.slots st.execPtr, execPtr := st.after st.execPtr }
  | .repeating =>
    { st with
      slots :=
        match st.slot st.execPtr with
        | none => st.slots
        | some sl => slotPut st.slots st.execPtr { sl with state := .queued }
      execPtr := if st.execPtr + 1 = st.writePtr then st.winBegin else st.execPtr + 1 }

/-- R30, R55, R58: the Store takes the completion of the active segment `seg` and the Planner replans. -/
def storeCompletion (seg : Segment) (s : State) : State :=
  let s := s.mapStore Store.complete
  let s := if s.store.mode = .stream then goMarkRule s else s
  replan (some seg) s

/-- R31, R32: in REPEAT mode, slots go back to QUEUED with their records kept. -/
def requeue (sl : Slot) : Slot :=
  { sl with state := .queued }

/-- R31: what a stop does to the Store. -/
def storeStop (s : State) : State :=
  match s.store.mode with
  | .stream => emptyWindow s
  | .repeating => s.mapStore fun st => { st with slots := slotMap requeue st.slots, execPtr := st.winBegin }

/-- R32: what the end of a job does to the Store. -/
def storeJobEnd (s : State) : State :=
  match s.store.mode with
  | .stream => emptyWindow s
  | .repeating => s.mapStore fun st => { st with slots := slotMap requeue st.slots }

/-- R6: the arrival counter after a partial flush: the number of the first record discarded, unchanged when none is. -/
def flushedCounter (st : Store) (discarded : List (Nat × Slot)) : Nat :=
  match discarded with
  | [] => st.arrival
  | e :: _ => e.2.seg.number

/-- R34: the Store after the partial flush, less the flow state; `discarded` are the slots given up, in order. -/
def Store.partialFlush (pos : Point) (st : Store) : Store :=
  let run := st.runFrom 512 st.spanStart
  match st.activeSlot with
  | some (i, sl) =>
    let discarded := run.drop 1
    { st with
      slots := [(i, sl)]
      writePtr := st.after i
      tailPoint := some sl.seg.stopAt
      tailHeading := if sl.seg.kind.moving then some sl.seg.exitHeading else st.executedHeading
      arrival := flushedCounter st discarded
      chainClosed := st.chainClosed && !(discarded.any fun e => e.2.seg.last) }
  | none =>
    match run with
    | [] => st
    | _ :: _ =>
      { st with
        slots := []
        writePtr := st.execPtr
        tailPoint := some pos
        tailHeading := st.executedHeading
        arrival := flushedCounter st run
        chainClosed := st.chainClosed && !(run.any fun e => e.2.seg.last) }

/-- R34: the partial flush, with GO if the flow state was HELD and then the low-water evaluation. -/
def partialFlush (s : State) : State :=
  lowWater (openFlow (s.mapStore (Store.partialFlush s.axes.point)))

/-- R24, R25: the write pointer after an acceptance. -/
def Store.advanceWrite (st : Store) : Nat :=
  match st.mode with
  | .stream => if st.writePtr = st.winEnd then st.winBegin else st.writePtr + 1
  | .repeating => st.writePtr + 1

/-- R6: the number an accepted record receives. -/
def Store.nextNumber (st : Store) : Nat :=
  if st.tailOpen then st.arrival else 0

/-- R7, R20, R27: the Store with an accepted record. -/
def Store.accept (seg : Segment) (st : Store) : Store :=
  { st with
    slots := slotPut st.slots st.writePtr ⟨.queued, { seg with number := st.nextNumber }⟩
    writePtr := st.advanceWrite
    tailOpen := true
    tailPoint := some seg.stopAt
    tailHeading := if seg.kind.moving then some seg.exitHeading else st.tailHeading
    origin := if st.tailOpen then st.origin else some seg.startAt
    arrival := (st.nextNumber + 1) % 65536
    chainClosed := st.chainClosed || (st.mode = .stream && seg.last) }

/-- R27: the Store's part of an acceptance, and the Planner's replan. -/
def acceptRecord (seg : Segment) (s : State) : State :=
  replan none (lowWater (holdMarkRule (s.mapStore (Store.accept seg))))

end Sys2Proof.Machine
end

