-- ==== Sys2Proof/Machine/GuardUnit.lean ====
section
/-! DEFINITION. Chapter 9: causes, the controlled and the immediate stop, edges and their actions. -/

namespace Sys2Proof.Machine

/-- R70: the Interpolator at the end of a stop; it keeps its targets and its pass index. -/
def Interp.stopClear (n : Interp) : Interp :=
  { n with timer := none, active := none, p := 0, pivot := 0, pause := 0, link := none, startPending := false }

/-- R31, R70, R142, R143: what the end of a stop does to the path, when it was entered from a job. -/
def stopPath (entered : JobState) (s : State) : State :=
  let s := s.mapInterp Interp.stopClear
  if entered = .motion then s else storeStop s

/-- R141: a controlled stop is entered. -/
def controlledStop (s : State) : State :=
  (s.mapGuard fun g => { g with stop := some s.job.state }).mapJob fun j =>
    { j with state := .stopping, held := false, dwell := none }

/-- The job state a stop was, or is, entered from. -/
def stopEntered (s : State) : JobState :=
  s.guard.stop.getD s.job.state

/-- R140: in FAULT no steps are issued; the steps of the period in progress are abandoned as the job enters it (log entry
30). -/
def abandonSteps : State → State :=
  State.mapAxes fun u => u.each fun _ ax => { ax with steps := 0 }

/-- R142: the controlled stop ends in IDLE with an empty latch and in FAULT with a cause. -/
def enterStopEnd (s : State) : State :=
  if s.guard.latch = 0 then setJobState .idle s else setJobState .fault (abandonSteps s)

/-- R142: the controlled stop ends at the rest report. -/
def controlledStopEnd (s : State) : State :=
  let entered := stopEntered s
  let s := stopPath entered (coastRequest s)
  let s := s.mapAxes fun u => { u with traverse := none, timer := none }
  let s := enterStopEnd s
  let s := s.mapGuard fun g => { g with stop := none }
  queueNotice (.stopped .controlled entered s.guard.latch) s

/-- R87: an immediate stop in the Feed Governor. -/
def Governor.halt (g : Governor) : Governor :=
  { g with v := 0, vprev := 0, stage := .zero }

/-- R143: the immediate stop. -/
def immediateStop (k : Cause) (s : State) : State :=
  let entered := stopEntered s
  let s := latchCause k s
  let s := s.mapGov Governor.halt
  let s := endHome s
  let s := dropEnables s
  let s := stopPath entered (coastRequest s)
  let s := s.mapJob fun j => { j with state := .fault, held := false, dwell := none }
  let s := s.mapGuard fun g => { g with stop := none }
  queueNotice (.stopped .immediate entered s.guard.latch) s

/-- R145: a cause in job IDLE latches, coasts the blade and puts the job in FAULT, where no steps are issued (R140). -/
def faultFromIdle (cat : Category) (k : Cause) (s : State) : State :=
  let s := setJobState .fault (abandonSteps (coastRequest (latchCause k s)))
  queueNotice (.stopped cat .idle s.guard.latch) s

/-- R145: a cause taken in job IDLE. -/
def causeInIdle (cat : Category) (k : Cause) (s : State) : State :=
  match cat with
  | .immediate => faultFromIdle .immediate k (dropEnables s)
  | .controlled =>
    match k with
    | .spinupFail => faultFromIdle .controlled k s
    | .input _ => if s.stroke.state.driven then faultFromIdle .controlled k s else s
    | .bladeStall => s
    | .bladeJam => s
    | .starved => s

/-- R144: a cause taken in job FAULT joins the latch; an immediate one drops the enables that are not OFF. -/
def causeInFault (cat : Category) (k : Cause) (s : State) : State :=
  let s := latchCause k s
  match cat with
  | .controlled => s
  | .immediate => coastRequest (if s.axes.anyEnabled then dropEnables s else s)

/-- R140, R141, R143, R144, R145: a cause is taken. The STOP category is `controlled`. -/
def takeCause (cat : Category) (k : Cause) (s : State) : State :=
  match s.job.state with
  | .idle => causeInIdle cat k s
  | .fault => causeInFault cat k s
  | .stopping =>
    match cat with
    | .immediate => immediateStop k s
    | .controlled => latchCause k s
  | .motion =>
    match cat with
    | .immediate => immediateStop k s
    | .controlled => controlledStop (latchCause k s)
  | .warmup =>
    match cat with
    | .immediate => immediateStop k s
    | .controlled => controlledStop (latchCause k s)
  | .cutting =>
    match cat with
    | .immediate => immediateStop k s
    | .controlled => controlledStop (latchCause k s)
  | .holding =>
    match cat with
    | .immediate => immediateStop k s
    | .controlled => controlledStop (latchCause k s)
  | .starved =>
    match cat with
    | .immediate => immediateStop k s
    | .controlled => controlledStop (latchCause k s)

/-! ## Edges -/

/-- R136: the action of an input at its activation edge. -/
def activationAction (i : InputId) (s : State) : State :=
  match (s.guard.input i).action with
  | .ignore => s
  | .notice => queueNotice (.edge i true) s
  | .hold => if s.job.state.holdable then holdRequest s else queueNotice (.edge i true) s
  | .stop => takeCause .controlled (.input i) s
  | .halt => takeCause .immediate (.input i) s

/-- R137: the release edge of an input. -/
def releaseAction (i : InputId) (s : State) : State :=
  if (s.guard.input i).notifyRelease then queueNotice (.edge i false) s else s

/-- R136, R137: what an accepted level does beside the report to the Axis Unit. -/
def edgeAction (i : InputId) (active : Bool) (s : State) : State :=
  if active then activationAction i s else releaseAction i s

/-- R128, R129, R136: an axis told of every accepted level of an input, and what it does with it. -/
def axisReport : InputId → Option (Axis × (Bool → AxisState → AxisState))
  | .limitX => some (.x, AxisState.limitReported)
  | .limitY => some (.y, AxisState.limitReported)
  | .homeX => some (.x, AxisState.homeReported)
  | .homeY => some (.y, AxisState.homeReported)
  | .homeC => some (.c, AxisState.homeReported)
  | .estop => none
  | .door => none
  | .bladeGuard => none
  | .driveFaultX => none
  | .driveFaultY => none
  | .driveFaultC => none
  | .aux => none

/-- R136: an input's new level, accepted, with its report and its action. When both could act, their order is a free
choice (R129, R132; log entry 6). -/
def levelEffects (i : InputId) (active : Bool) (s : State) : State :=
  match axisReport i with
  | none => edgeAction i active s
  | some (a, f) =>
    if (s.axes.get a).searching && s.job.state = .motion then
      let quiet := if active then decide ((s.guard.input i).action = .ignore) else !(s.guard.input i).notifyRelease
      if quiet then reportToAxis a (f active) s
      else
        let choice := Config.reportFirst s.free
        let s := { s with free := s.free + 1 }
        if choice then edgeAction i active (reportToAxis a (f active) s)
        else reportToAxis a (f active) (edgeAction i active s)
    else edgeAction i active s

/-- R135: the raw level becomes the accepted level and the timer stops. -/
def acceptLevel (i : InputId) (s : State) : State :=
  let active := (s.guard.input i).raw
  levelEffects i active
    (s.mapGuard fun g => g.updateInput i fun inp => { inp with accepted := active, timer := none })

/-- R135: the filter timer of an input ends with its raw level, which becomes the accepted one when the two differ. -/
def filterEnds (i : InputId) (s : State) : State :=
  let inp := s.guard.input i
  if inp.raw = inp.accepted then s.mapGuard fun g => g.updateInput i fun inp => { inp with timer := none }
  else acceptLevel i s

/-- R135: the filter timer of an input has reached FILTER. -/
def filterReached (i : InputId) (s : State) : State :=
  if reached (s.guard.input i).timer (s.guard.input i).filter then filterEnds i s else s

/-- R135: a change of the raw level restarts the filter timer, which with FILTER 0 has reached its limit at once. -/
def rawChange (i : InputId) (active : Bool) (s : State) : State :=
  if (s.guard.input i).raw = active then s
  else
    filterReached i
      (s.mapGuard fun g => g.updateInput i fun inp => { inp with raw := active, timer := some 0 })

end Sys2Proof.Machine
end

