-- ==== Sys2Proof/Machine/Motion.lean ====
section
/-! DEFINITION. Chapter 8: the traverse period expiry. -/

namespace Sys2Proof.Machine

/-- The filtered level of an axis's home input. -/
def homeLevel (g : Guard) : Axis → Bool
  | .x => (g.input .homeX).accepted
  | .y => (g.input .homeY).accepted
  | .c => (g.input .homeC).accepted

/-- R128: every homing axis is advanced by one period. -/
def advanceHoming (s : State) : State :=
  s.mapAxes fun u => u.each fun a ax => if ax.searching then ax.homeStep s.params a (homeLevel s.guard a) else ax

/-- R131: the MOVE is advanced by one period. -/
def advanceMove (s : State) : State :=
  match s.axes.traverse with
  | none => s
  | some t => s.mapAxes (handTraverse s.params (t.step s.params))

/-- R132: the homing axes and the MOVE are advanced by one period of a controlled stop. -/
def slowMotion (s : State) : State :=
  let s := s.mapAxes fun u => u.each fun a ax => if ax.searching then ax.homeSlow s.params a else ax
  match s.axes.traverse with
  | none => s
  | some t => s.mapAxes (handTraverse s.params (t.slow s.params))

/-- R132, R142: rest is reported, and the controlled stop ends. -/
def restInMotion (s : State) : State :=
  if s.axes.atRest then controlledStopEnd (endHome s) else s

/-- R122: the steps of the period that ends are issued; the traverse timer starts anew. -/
def beginTraversePeriod : State → State :=
  State.mapAxes fun u => { u.each AxisState.issueRest with timer := some 0 }

/-- R126: one expiry of the traverse period timer. -/
def traverseExpiry (s : State) : State :=
  let s := beginTraversePeriod s
  if s.job.state = .stopping then restInMotion (slowMotion s) else finishMove (finishHome (advanceMove (advanceHoming s)))

end Sys2Proof.Machine
end

