-- ==== Sys2Proof/Machine/Trig.lean ====
section
/-! DEFINITION. The sine and cosine values of R10: S(h) = round(65536 × sin(h × 0.01°)) and C(h) likewise, formed in
fixed point with 64 fraction bits. -/

namespace Sys2Proof.Machine

/-- π in fixed point, 64 fraction bits. -/
def piFixed : Nat :=
  57952155664616982739

/-- One level of the nested sine series: 1 − x² / (2k (2k + 1)) × rest, in fixed point. -/
def sineLevel (xx : Nat) (rest k : Nat) : Nat :=
  2 ^ 64 - xx * rest / (2 ^ 64 * (2 * k * (2 * k + 1)))

/-- round(65536 × sin(h × 0.01°)) for a heading of the first quarter, 0..9000. -/
def quarterSine (h : Nat) : Nat :=
  let x := h * piFixed / 18000
  let xx := x * x / 2 ^ 64
  let series := [12, 11, 10, 9, 8, 7, 6, 5, 4, 3, 2, 1].foldl (sineLevel xx) (2 ^ 64)
  (x * series / 2 ^ 64 + 2 ^ 47) / 2 ^ 48

/-- S(h) of R10, for every heading 0..35999. -/
def sine (h : Nat) : Int :=
  if h ≤ 9000 then quarterSine h
  else if h ≤ 18000 then quarterSine (18000 - h)
  else if h ≤ 27000 then -(quarterSine (h - 18000) : Int)
  else -(quarterSine (36000 - h) : Int)

/-- C(h) of R10, for every heading 0..35999. -/
def cosine (h : Nat) : Int :=
  sine ((h + 9000) % 36000)

end Sys2Proof.Machine
end

