-- ==== Sys2Proof/Machine/Arrival.lean ====
section
/-! DEFINITION. Chapter 1: the segment body (R173), the arrival checks in their order (R8) and what they decide. -/

namespace Sys2Proof.Machine

/-- The host-supplied fields of a segment body as the line carries them. -/
structure RawSegment where
  kind : SegmentKind
  pivotOk : Bool
  last : Bool
  stopX : Int
  stopY : Int
  centreX : Int
  centreY : Int
  length : Nat
  duration : Nat
  entryHeading : Nat
  exitHeading : Nat
  feed : Nat
  tag : Option Nat
  hint : Option Nat
  advance : Option Nat
  deriving DecidableEq, Repr

/-- An optional u8 field, sent only when marked present (R173). -/
def optional8 (present : Bool) (bs : List Byte) : Option (Option Nat × List Byte) :=
  if present then
    match bs with
    | b :: rest => some (some b.toNat, rest)
    | [] => none
  else some (none, bs)

/-- An optional u16 field. -/
def optional16 (present : Bool) (bs : List Byte) : Option (Option Nat × List Byte) :=
  if present then
    match bs with
    | b0 :: b1 :: rest => some (some (rd16 b0 b1).toNat, rest)
    | [_] => none
    | [] => none
  else some (none, bs)

/-- The optional fields in their order, which must end the body (R173). -/
def optionalFields (presence : Byte) (bs : List Byte) : Option (Option Nat × Option Nat × Option Nat) :=
  match optional8 (presence.getLsbD 0) bs with
  | none => none
  | some (tag, bs) =>
    match optional8 (presence.getLsbD 1) bs with
    | none => none
    | some (hint, bs) =>
      match optional16 (presence.getLsbD 2) bs with
      | some (adv, []) => some (tag, hint, adv)
      | some (_, _ :: _) => none
      | none => none

/-- A segment body after its three opening bytes, for a kind with its flags (R173). -/
def bodyFields (kind : SegmentKind) (flags presence : Byte) (bs : List Byte) : Option RawSegment :=
  let base : RawSegment :=
    { kind := kind, pivotOk := flags.getLsbD 0, last := flags.getLsbD 1, stopX := 0, stopY := 0, centreX := 0,
      centreY := 0, length := 0, duration := 0, entryHeading := 0, exitHeading := 0, feed := 0, tag := none,
      hint := none, advance := none }
  let finish (raw : RawSegment) (rest : List Byte) : Option RawSegment :=
    (optionalFields presence rest).map fun o => { raw with tag := o.1, hint := o.2.1, advance := o.2.2 }
  match kind, bs with
  | .line, x0 :: x1 :: x2 :: x3 :: y0 :: y1 :: y2 :: y3 :: l0 :: l1 :: l2 :: l3 :: h0 :: h1 :: k0 :: k1 :: f0 :: f1 :: rest =>
    finish
      { base with
        stopX := (rd32 x0 x1 x2 x3).toInt, stopY := (rd32 y0 y1 y2 y3).toInt, length := (rd32 l0 l1 l2 l3).toNat,
        entryHeading := (rd16 h0 h1).toNat, exitHeading := (rd16 k0 k1).toNat, feed := (rd16 f0 f1).toNat } rest
  | .pause, d0 :: d1 :: rest => finish { base with duration := (rd16 d0 d1).toNat } rest
  | .arcCw, x0 :: x1 :: x2 :: x3 :: y0 :: y1 :: y2 :: y3 :: a0 :: a1 :: a2 :: a3 :: b0 :: b1 :: b2 :: b3 ::
      l0 :: l1 :: l2 :: l3 :: h0 :: h1 :: k0 :: k1 :: f0 :: f1 :: rest =>
    finish
      { base with
        stopX := (rd32 x0 x1 x2 x3).toInt, stopY := (rd32 y0 y1 y2 y3).toInt, centreX := (rd32 a0 a1 a2 a3).toInt,
        centreY := (rd32 b0 b1 b2 b3).toInt, length := (rd32 l0 l1 l2 l3).toNat, entryHeading := (rd16 h0 h1).toNat,
        exitHeading := (rd16 k0 k1).toNat, feed := (rd16 f0 f1).toNat } rest
  | .arcCcw, x0 :: x1 :: x2 :: x3 :: y0 :: y1 :: y2 :: y3 :: a0 :: a1 :: a2 :: a3 :: b0 :: b1 :: b2 :: b3 ::
      l0 :: l1 :: l2 :: l3 :: h0 :: h1 :: k0 :: k1 :: f0 :: f1 :: rest =>
    finish
      { base with
        stopX := (rd32 x0 x1 x2 x3).toInt, stopY := (rd32 y0 y1 y2 y3).toInt, centreX := (rd32 a0 a1 a2 a3).toInt,
        centreY := (rd32 b0 b1 b2 b3).toInt, length := (rd32 l0 l1 l2 l3).toNat, entryHeading := (rd16 h0 h1).toNat,
        exitHeading := (rd16 k0 k1).toNat, feed := (rd16 f0 f1).toNat } rest
  | _, _ => none

/-- The segment kind of a code (12.2). -/
def kindOfCode (n : Nat) : Option SegmentKind :=
  match n with
  | 0 => some .line
  | 1 => some .arcCw
  | 2 => some .arcCcw
  | 3 => some .pause
  | _ => none

/-- R9, R173: a segment body whose kind, flag, presence and size are as they must be. -/
def parseSegment (body : List Byte) : Option RawSegment :=
  match body with
  | kindCode :: flags :: presence :: rest =>
    match kindOfCode kindCode.toNat with
    | none => none
    | some kind =>
      if 4 ≤ flags.toNat ∨ 8 ≤ presence.toNat ∨ (kind = .pause ∧ 2 ≤ presence.toNat) then none
      else bodyFields kind flags presence rest
  | _ => none

/-- R1, R2: the ranges of the checked optional fields. -/
def RawSegment.optionsInRange (raw : RawSegment) : Bool :=
  (match raw.tag with | none => true | some t => decide (1 ≤ t ∧ t ≤ 255)) &&
    (match raw.hint with | none => true | some h => decide (h ≤ 3))

/-- R1: a value lies within a range. -/
def within (x lo hi : Int) : Bool :=
  decide (lo ≤ x ∧ x ≤ hi)

/-- R1, R9: the ranges of the checked fields, and an arc's unequal headings. -/
def RawSegment.inRange (raw : RawSegment) : Bool :=
  raw.optionsInRange &&
    match raw.kind with
    | .pause => within raw.duration 1 60000
    | .line =>
      within raw.stopX 0 250000 && within raw.stopY 0 150000 && within raw.length 1 300000 &&
        within raw.entryHeading 0 35999 && within raw.exitHeading 0 35999
    | .arcCw =>
      within raw.stopX 0 250000 && within raw.stopY 0 150000 && within raw.length 1 300000 &&
        within raw.entryHeading 0 35999 && within raw.exitHeading 0 35999 && within raw.centreX (-1000000) 1000000 &&
        within raw.centreY (-1000000) 1000000 && raw.entryHeading ≠ raw.exitHeading
    | .arcCcw =>
      within raw.stopX 0 250000 && within raw.stopY 0 150000 && within raw.length 1 300000 &&
        within raw.entryHeading 0 35999 && within raw.exitHeading 0 35999 && within raw.centreX (-1000000) 1000000 &&
        within raw.centreY (-1000000) 1000000 && raw.entryHeading ≠ raw.exitHeading

/-- R4: the feed request is clamped. -/
def clampFeed (f : Nat) : Nat :=
  (clamp f 100 30000).toNat

/-- R4: a present advance limit is clamped. -/
def clampAdvance (a : Nat) : Nat :=
  (clamp a 10 1000).toNat

/-- R4: some field of the body is clamped. -/
def RawSegment.clamped (raw : RawSegment) : Bool :=
  (raw.kind.moving && clampFeed raw.feed ≠ raw.feed) ||
    match raw.advance with
    | none => false
    | some a => clampAdvance a ≠ a

/-- R10: the sweep of an arc, in its direction. -/
def sweepOf (kind : SegmentKind) (entry exit : Nat) : Nat :=
  match kind with
  | .arcCcw => mod36000 ((exit : Int) - entry)
  | .arcCw => mod36000 ((entry : Int) - exit)
  | .line => 0
  | .pause => 0

/-- R10, R63: the radial angle at a heading, from the centre to the blade. -/
def radialAngle (kind : SegmentKind) (heading : Nat) : Nat :=
  match kind with
  | .arcCcw => mod36000 ((heading : Int) - 9000)
  | .arcCw => mod36000 ((heading : Int) + 9000)
  | .line => heading
  | .pause => heading

/-- The point of a circle at a radial angle (R14, R63). -/
def circlePoint (centre : Point) (r rho : Nat) : Point :=
  ⟨centre.x + roundDiv (r * cosine rho) 65536, centre.y + roundDiv (r * sine rho) 65536⟩

/-- R11: an arc passes the axis point at radial angle `q`. -/
def passesAxis (kind : SegmentKind) (rhoStart sweep q : Nat) : Bool :=
  match kind with
  | .arcCcw => decide (mod36000 ((q : Int) - rhoStart) ≤ sweep)
  | .arcCw => decide (mod36000 ((rhoStart : Int) - q) ≤ sweep)
  | .line => false
  | .pause => false

/-- The smallest box with a point added. -/
def Box.extend (b : Box) (q : Point) : Box :=
  ⟨min b.minX q.x, max b.maxX q.x, min b.minY q.y, max b.maxY q.y⟩

/-- The box of one point. -/
def Box.point (q : Point) : Box :=
  ⟨q.x, q.x, q.y, q.y⟩

/-- R11: the extent box of a record. -/
def extentBox (seg : Segment) : Box :=
  let ends := (Box.point seg.startAt).extend seg.stopAt
  let rho := radialAngle seg.kind seg.entryHeading
  let r : Int := seg.radius
  let axisPoints : List (Nat × Point) :=
    [(0, ⟨seg.centre.x + r, seg.centre.y⟩), (9000, ⟨seg.centre.x, seg.centre.y + r⟩),
      (18000, ⟨seg.centre.x - r, seg.centre.y⟩), (27000, ⟨seg.centre.x, seg.centre.y - r⟩)]
  axisPoints.foldl (fun b e => if passesAxis seg.kind rho seg.sweep e.1 then b.extend e.2 else b) ends

/-- R12: a box shifted by an offset leaves travel. -/
def Box.outside (prm : Params) (b : Box) (dx dy : Int) : Bool :=
  decide (b.minX + dx < 0) || decide (b.minY + dy < 0) || decide ((prm.travelX : Int) < b.maxX + dx) ||
    decide ((prm.travelY : Int) < b.maxY + dy)

/-- The record an arrival would leave, before its checks: host fields after clamping (R4), flags as they are stored
(R3) and the fields derived from the start point (R10, R11). -/
def draftRecord (mode : Mode) (start : Point) (raw : RawSegment) : Segment :=
  let moving := raw.kind.moving
  let centre : Point := ⟨raw.centreX, raw.centreY⟩
  let seg : Segment :=
    { kind := raw.kind
      stopAt := if moving then ⟨raw.stopX, raw.stopY⟩ else start
      centre := centre
      length := raw.length
      duration := raw.duration
      entryHeading := raw.entryHeading
      exitHeading := raw.exitHeading
      feed := if moving then clampFeed raw.feed else 0
      pivotOk := moving && raw.pivotOk
      last := mode = .stream && raw.last
      tag := raw.tag
      hint := raw.hint
      advance := raw.advance.map clampAdvance
      number := 0
      startAt := start
      box := Box.point start
      radius := if raw.kind.isArc then chord (start.x - raw.centreX) (start.y - raw.centreY) else 0
      sweep := sweepOf raw.kind raw.entryHeading raw.exitHeading
      delta := 0
      opening := false
      junction := none
      entrySpeed := 0
      exitSpeed := 0 }
  { seg with box := extentBox seg }

/-- What the arrival checks decide (R8). -/
inductive Judgement where
  | badField
  | outOfTravel
  | rejected (cls : GeometryClass) (hold : Bool)
  /-- The record to store, and the result code of its reply. -/
  | accepted (seg : Segment) (code : ResultCode)
  deriving DecidableEq, Repr

/-- The policy of a geometry class (R17). -/
def policyOf (prm : Params) : GeometryClass → PolicyAction
  | .length => prm.polLength
  | .radius => prm.polRadius
  | .heading => prm.polHeading
  | .pivot => prm.polPivot

/-- R18: a geometry class fails with its action. -/
def geometryFailure (prm : Params) (cls : GeometryClass) : Judgement :=
  .rejected cls (policyOf prm cls = .halt)

/-- The components of the line from the start point to the end point (1.5). -/
def Segment.dx (seg : Segment) : Int :=
  seg.stopAt.x - seg.startAt.x

/-- The Y component of the line from the start point to the end point (1.5). -/
def Segment.dy (seg : Segment) : Int :=
  seg.stopAt.y - seg.startAt.y

/-- R13: the LENGTH class of a LINE fails. -/
def lineLengthFails (seg : Segment) : Bool :=
  decide (1 < ((seg.length : Int) - chord seg.dx seg.dy).natAbs)

/-- R13: the HEADING class of a LINE fails. -/
def lineHeadingFails (seg : Segment) : Bool :=
  let s := sine seg.entryHeading
  let c := cosine seg.entryHeading
  seg.exitHeading ≠ seg.entryHeading || decide (2 < roundNat (seg.dx * s - seg.dy * c).natAbs 65536) ||
    decide (seg.dx * c + seg.dy * s ≤ 0)

/-- R10: the end radius of an arc. -/
def endRadius (seg : Segment) : Nat :=
  chord (seg.stopAt.x - seg.centre.x) (seg.stopAt.y - seg.centre.y)

/-- R14: the RADIUS class of an arc fails. -/
def arcRadiusFails (seg : Segment) : Bool :=
  decide (seg.radius < 50) || decide (2 < ((seg.radius : Int) - endRadius seg).natAbs)

/-- R14: a point differs from an implied one by more than 3 counts in X or Y. -/
def farFrom (q implied : Point) : Bool :=
  decide (3 < (q.x - implied.x).natAbs) || decide (3 < (q.y - implied.y).natAbs)

/-- R14: the HEADING class of an arc fails. -/
def arcHeadingFails (seg : Segment) : Bool :=
  farFrom seg.startAt (circlePoint seg.centre seg.radius (radialAngle seg.kind seg.entryHeading)) ||
    farFrom seg.stopAt (circlePoint seg.centre (endRadius seg) (radialAngle seg.kind seg.exitHeading))

/-- R15: the LENGTH class of an arc fails. -/
def arcLengthFails (seg : Segment) : Bool :=
  let expected := (seg.length * 5729578 + seg.radius * 500) / (seg.radius * 1000)
  decide (50 < ((expected : Int) - seg.sweep).natAbs)

/-- R16, R19: check 4, PIVOT, and the stored delta; R41: the opening mark. -/
def judgePivot (prm : Params) (tailHeading : Option Nat) (code : ResultCode) (seg : Segment) : Judgement :=
  match tailHeading with
  | none => .accepted { seg with delta := 0, opening := true } code
  | some h1 =>
    let delta := turn h1 seg.entryHeading
    if decide (prm.pivotLimit < delta.natAbs) && !seg.pivotOk then
      if prm.polPivot = .accept then .accepted { seg with delta := delta, pivotOk := true } code
      else geometryFailure prm .pivot
    else .accepted { seg with delta := delta } code

/-- R13, R19: check 3 of a LINE, then check 4. LENGTH is judged before HEADING (R8) for a zero displacement too,
whatever R13's last paragraph says of it: the model's reading (log entry 34). -/
def judgeLine (prm : Params) (tailHeading : Option Nat) (code : ResultCode) (seg : Segment) : Judgement :=
  let corrects := lineLengthFails seg && prm.polLength = .correct
  if lineLengthFails seg && !corrects then geometryFailure prm .length
  else
    let seg := if corrects then { seg with length := chord seg.dx seg.dy } else seg
    let code := if corrects then .corrected else code
    if lineHeadingFails seg then geometryFailure prm .heading else judgePivot prm tailHeading code seg

/-- R14, R15: check 3 of an arc, then check 4. The action CORRECT acts as REJECT (R19). -/
def judgeArc (prm : Params) (tailHeading : Option Nat) (code : ResultCode) (seg : Segment) : Judgement :=
  if arcRadiusFails seg then geometryFailure prm .radius
  else if arcHeadingFails seg then geometryFailure prm .heading
  else if arcLengthFails seg then geometryFailure prm .length
  else judgePivot prm tailHeading code seg

/-- R7: the start point of an arriving record. -/
def arrivalStart (s : State) : Point :=
  if s.store.tailOpen then s.store.tailPoint.getD s.axes.point else s.axes.point

/-- R8: an arrival is submitted to the four checks in order. -/
def judgeArrival (s : State) (body : List Byte) : Judgement :=
  match parseSegment body with
  | none => .badField
  | some raw =>
    if raw.inRange then
      let seg := draftRecord s.store.mode (arrivalStart s) raw
      let code : ResultCode := if raw.clamped then .clamped else .ok
      if seg.box.outside s.params 0 0 then .outOfTravel
      else
        match raw.kind with
        | .pause => .accepted seg code
        | .line => judgeLine s.params s.store.tailHeading code seg
        | .arcCw => judgeArc s.params s.store.tailHeading code seg
        | .arcCcw => judgeArc s.params s.store.tailHeading code seg
    else .badField

end Sys2Proof.Machine
end

