-- ==== Sys2Proof/Machine/FeedGovernor.lean ====
section
/-! DEFINITION. Chapter 5: the inputs of one evaluation, the caps, the slew and the ramps. -/

namespace Sys2Proof.Machine

/-- The path inputs of an evaluation (R78). -/
structure PathInput where
  feed : Nat
  hint : Option Nat
  advance : Nat
  vexit : Nat
  rem : Nat
  deriving DecidableEq, Repr

/-- The three caps of R79 to R81. -/
structure Caps where
  vreq : Nat
  vplan : Nat
  vstroke : Nat
  deriving DecidableEq, Repr

/-- R79: the load derate of a band, and of a hint when there is one. -/
def loadDerate (prm : Params) (band : Nat) (hint : Option Nat) : Nat :=
  match hint with
  | none => derateFactor prm band
  | some h => min (derateFactor prm band) (derateFactor prm h)

/-- R79: the requested feed. -/
def requestedFeed (prm : Params) (band feed : Nat) (hint : Option Nat) : Nat :=
  feed * prm.overridePct / 100 * loadDerate prm band hint / 256

/-- R80: the planned cap. -/
def plannedCap (a vexit rem : Nat) : Nat :=
  isqrt (vexit * vexit + 2000 * a * rem)

/-- R81: the stroke cap. -/
def strokeCap (state : StrokeState) (m advance : Nat) : Nat :=
  if state = .run then m * advance / 60 else 0

/-- The caps on the inputs as they stand (R77). -/
def capsOf (s : State) (q : PathInput) : Caps :=
  { vreq := requestedFeed s.params s.load.band q.feed q.hint
    vplan := plannedCap s.params.accel q.vexit q.rem
    vstroke := strokeCap s.stroke.state s.stroke.m q.advance }

/-- R82: the target. -/
def Caps.target (k : Caps) : Nat :=
  min k.vreq (min k.vplan (min k.vstroke 30000))

/-- R83: the target under the slew. -/
def slewed (a vprev target : Nat) : Nat :=
  min target (vprev + a)

/-- R90: the first of REQUEST, PLAN, STROKE and CEILING whose value equals the target. -/
def Caps.stage (k : Caps) : Stage :=
  if k.vreq = k.target then .request
  else if k.vplan = k.target then .plan
  else if k.vstroke = k.target then .stroke
  else .ceiling

/-- The ramp in force: none, or its step and its stage (R84, R85). -/
def rampOf (s : State) : Option (Nat × Stage) :=
  match s.job.state with
  | .holding => some (s.params.accel, .holdRamp)
  | .stopping => some (s.params.stopDecel, .stopRamp)
  | .idle => none
  | .motion => none
  | .warmup => none
  | .cutting => none
  | .starved => none
  | .fault => none

/-- R83 to R85, R90: V and the limiting stage. -/
def governedFeed (a vprev : Nat) (ramp : Option (Nat × Stage)) (k : Caps) : Nat × Stage :=
  let base := slewed a vprev k.target
  let plain : Stage := if vprev + a < k.target then .slew else k.stage
  match ramp with
  | none => (base, plain)
  | some (decel, stage) => if vprev - decel < base then (vprev - decel, stage) else (base, plain)

/-- The active segment, if any. -/
def activeSegment (s : State) : Option Segment :=
  match s.interp.active with
  | none => none
  | some i => (s.store.slot i).map Slot.seg

/-- R78: the path inputs, when there is something to move along. -/
def pathInput (s : State) : Option PathInput :=
  match activeSegment s with
  | some seg =>
    if seg.kind.moving then
      some
        { feed := seg.feed
          hint := seg.hint
          advance := seg.advance.getD s.params.advanceLimit
          vexit := seg.exitSpeed
          rem := remaining seg.length s.interp.p }
    else none
  | none =>
    match s.interp.link with
    | none => none
    | some lk =>
      some
        { feed := s.params.linkFeed
          hint := none
          advance := s.params.advanceLimit
          vexit := 0
          rem := remaining lk.length s.interp.p }

/-- R86: the zero-feed cases besides having nothing to move along. -/
def feedBarred (s : State) : Bool :=
  decide (0 < s.interp.pivot) || s.job.state = .warmup || (s.job.state = .holding && s.job.held)

/-- R77: one evaluation. Vprev takes V; an expiry whose feed is to be taken as 0 sets it to 0 afterwards (R64). -/
def evaluateGovernor (s : State) : State :=
  match (if feedBarred s then none else pathInput s) with
  | none => s.mapGov fun _ => { v := 0, vprev := 0, stage := .zero, vreq := 0, vplan := 0, vstroke := 0 }
  | some q =>
    let k := capsOf s q
    let r := governedFeed s.params.accel s.gov.vprev (rampOf s) k
    s.mapGov fun _ => { v := r.1, vprev := r.1, stage := r.2, vreq := k.vreq, vplan := k.vplan, vstroke := k.vstroke }

/-- R64, R74: the feed of this period is to be taken as 0. -/
def takeFeedAsZero : State → State :=
  State.mapGov fun g => { g with vprev := 0 }

end Sys2Proof.Machine
end

