-- ==== Sys2Proof/Machine/Interpolator.lean ====
section
/-! DEFINITION. Chapter 4 and the ends of a job (R156): taking a segment, its motion, completion and carry, pivots,
pauses, passes and link moves, and the whole interpolation period expiry (R60). -/

namespace Sys2Proof.Machine

/-! ## Targets -/

/-- R62: the shift of pass `k`. -/
def passShift (s : State) : Point :=
  match s.store.mode with
  | .stream => ⟨0, 0⟩
  | .repeating => ⟨s.interp.pass * s.job.offX, s.interp.pass * s.job.offY⟩

/-- A point shifted. -/
def Point.shift (q o : Point) : Point :=
  ⟨q.x + o.x, q.y + o.y⟩

/-- R63: the heading at progress `p`. -/
def headingAt (seg : Segment) (p : Nat) : Nat :=
  match seg.kind with
  | .line => seg.entryHeading
  | .arcCcw => mod36000 ((seg.entryHeading : Int) + roundNat (seg.sweep * p) (seg.length * 1000))
  | .arcCw => mod36000 ((seg.entryHeading : Int) - roundNat (seg.sweep * p) (seg.length * 1000))
  | .pause => seg.entryHeading

/-- A point on the straight from `a` to `b` of length `len` at progress `p` (R62, R74). -/
def alongLine (a b : Point) (len p : Nat) : Point :=
  ⟨a.x + roundDiv ((b.x - a.x) * p) (len * 1000), a.y + roundDiv ((b.y - a.y) * p) (len * 1000)⟩

/-- R62, R63: the point at progress `p` of a moving segment, unshifted. -/
def pointAt (seg : Segment) (p : Nat) : Point :=
  match seg.kind with
  | .line => alongLine seg.startAt seg.stopAt seg.length p
  | .arcCw => circlePoint seg.centre seg.radius (radialAngle seg.kind (headingAt seg p))
  | .arcCcw => circlePoint seg.centre seg.radius (radialAngle seg.kind (headingAt seg p))
  | .pause => seg.startAt

/-- Set the X and Y targets. -/
def targetPoint (q : Point) : State → State :=
  State.mapInterp fun n => { n with targetX := q.x, targetY := q.y }

/-- Set the C target. -/
def targetHeading (h : Nat) : State → State :=
  State.mapInterp fun n => { n with targetC := h }

/-- The targets at the present progress of a moving segment. -/
def targetSegment (seg : Segment) (s : State) : State :=
  targetHeading (headingAt seg s.interp.p) (targetPoint ((pointAt seg s.interp.p).shift (passShift s)) s)

/-- R64: the head is snapped to the end of a moving segment. -/
def snapToEnd (seg : Segment) (s : State) : State :=
  targetHeading seg.exitHeading (targetPoint (seg.stopAt.shift (passShift s)) s)

/-! ## Pivots -/

/-- A pivot of a signed turn is set (R61, R67). -/
def setPivot (t : Int) : State → State :=
  State.mapInterp fun n => { n with pivot := t.natAbs, pivotNeg := decide (t < 0) }

/-- R67: the first moving segment at or after the execution pointer. -/
def firstMoving (st : Store) : Option Segment :=
  ((st.runFrom 512 st.execPtr).find? fun e => e.2.seg.kind.moving).map fun e => e.2.seg

/-- R67: the start pivot is begun; with no moving segment or no turn it is complete at once. -/
def startPivot (s : State) : State :=
  match firstMoving s.store with
  | none => s.mapInterp fun n => { n with pivot := 0, startPending := false }
  | some seg =>
    let t := turn s.interp.targetC seg.entryHeading
    setPivot t (s.mapInterp fun n => { n with startPending := decide (t ≠ 0) })

/-- R66: one step of the pivot in progress. -/
def Interp.stepPivot (rate : Nat) (n : Interp) : Interp :=
  let d := min rate n.pivot
  { n with
    pivot := n.pivot - d
    targetC := mod36000 (if n.pivotNeg then (n.targetC : Int) - d else (n.targetC : Int) + d)
    startPending := n.startPending && decide (n.pivot - d ≠ 0) }

/-! ## Taking -/

/-- R22, R61: the Store makes the taken slot ACTIVE, and sets its executed heading for a LINE or arc. -/
def Store.activate (i : Nat) (seg : Segment) (st : Store) : Store :=
  { st with
    slots := slotPut st.slots i ⟨.active, seg⟩
    executedHeading := if seg.kind.moving then some seg.exitHeading else st.executedHeading }

/-- R61: what the taking does at the start junction. -/
def junctionAction (seg : Segment) (s : State) : State :=
  if !seg.kind.moving then s.mapInterp fun n => { n with pause := seg.duration }
  else
    match seg.junction with
    | some .start => setPivot (turn s.interp.targetC seg.entryHeading) s
    | some .pivot => setPivot seg.delta s
    | some .stop => targetHeading seg.entryHeading s
    | some .smooth => targetHeading (headingAt seg s.interp.p) s
    | some .blend => targetHeading (headingAt seg s.interp.p) s
    | none => s

/-- R61: the notice TAG of a tagged segment. -/
def tagNotice (seg : Segment) (s : State) : State :=
  match seg.tag with
  | none => s
  | some t => queueNotice (.tag t seg.number s.interp.pass) s

/-- R61: a segment is taken with progress `p`. -/
def takeSegment (i : Nat) (seg : Segment) (p : Nat) (s : State) : State :=
  let s := s.mapStore (Store.activate i seg)
  let s := s.mapInterp fun n => { n with active := some i, p := p }
  tagNotice seg (junctionAction seg s)

/-- The PLANNED segment at the execution pointer, if there is one. -/
def nextPlanned (s : State) : Option Segment :=
  match s.store.slot s.store.execPtr with
  | none => none
  | some sl => if sl.state = .planned then some sl.seg else none

/-- R60, step 1: the taking at the opening of an expiry. -/
def openingTake (s : State) : State :=
  if s.job.state = .cutting && s.interp.active.isNone && s.interp.link.isNone && s.interp.pivot = 0 then
    match nextPlanned s with
    | none => s
    | some seg => takeSegment s.store.execPtr seg 0 s
  else s

/-! ## The ends of the path -/

/-- R156: the end of a job. -/
def endJob (s : State) : State :=
  let s := s.mapJob fun j => if j.mode = .stream then { j with passesDone := 1 } else j
  let s := storeJobEnd (coastRequest s)
  let s := s.mapInterp fun n => { n with timer := none }
  let s := s.mapJob fun j => { j with held := false, state := .idle }
  queueNotice (.done s.job.executed s.job.passesDone) s

/-- R71, R154: at a frontier arrival V is 0 and so is the previous feed (log entry 31). -/
def standAtFrontier : State → State :=
  State.mapGov fun g => { g with v := 0, vprev := 0 }

/-- R71, R152, R154: arrival at the frontier. -/
def frontierArrival (s : State) : State :=
  match s.job.state with
  | .cutting => becomeStarved (idleRequest s)
  | .holding => if s.job.held then s else setHeld s
  | .idle => s
  | .motion => s
  | .warmup => s
  | .starved => s
  | .stopping => s
  | .fault => s

/-- R74: the link move from the end of the pass just ended to the origin of the pass now indexed. -/
def beginLink (pathEnd : Point) (s : State) : State :=
  let target := (s.store.origin.getD ⟨0, 0⟩).shift (passShift s)
  let len := chord (target.x - pathEnd.x) (target.y - pathEnd.y)
  if len = 0 then startPivot s
  else s.mapInterp fun n => { n with link := some ⟨pathEnd, target, len⟩, p := 0 }

/-- R73: the end of a pass, completed by `seg` at the fill end. -/
def endPass (seg : Segment) (s : State) : State :=
  let pathEnd := seg.stopAt.shift (passShift s)
  let s := s.mapJob fun j => { j with passesDone := j.passesDone + 1 }
  if s.interp.pass + 1 < s.job.passesProgrammed then
    beginLink pathEnd
      ((queueNotice (.pass (s.interp.pass + 1)) s).mapInterp fun n => { n with pass := n.pass + 1 })
  else endJob s

/-- R147: a completion is counted. Past the top of the count the value is free (log entry 8). -/
def Job.count (seg : Segment) (j : Job) : Job :=
  { j with
    executed := if j.executed < 4294967295 then j.executed + 1 else Config.executedPastTop.toNat
    lastCompleted := some seg.number }

/-- The segment at the execution pointer is the fill end of a REPEAT window. -/
def atFillEnd (s : State) : Bool :=
  s.store.mode = .repeating && s.store.execPtr + 1 = s.store.writePtr

/-- R30, R64, R68: the active segment is reported complete to the Store, the Planner and the Job Controller. That p is 0
after it, until a segment or a link move sets it, is the model's choice (log entry 29). -/
def reportCompletion (seg : Segment) (s : State) : State :=
  let s := storeCompletion seg (s.mapJob (Job.count seg))
  s.mapInterp fun n => { n with active := none, p := 0 }

/-- A class at which progress is carried through the junction (R65). -/
def JunctionClass.carries : JunctionClass → Bool
  | .smooth => true
  | .blend => true
  | .start => false
  | .pivot => false
  | .stop => false

/-- What follows a completion with an overshoot (R64). -/
inductive AfterEnd where
  /-- The completed segment carried LAST in STREAM mode (R72). -/
  | chainEnd
  /-- It was the fill end in REPEAT mode (R73). -/
  | passEnd
  /-- The next segment is taken with the overshoot (R65). -/
  | carry (next : Segment)
  /-- The next segment is taken from rest. -/
  | fromRest (next : Segment)
  /-- No PLANNED slot follows (R71). -/
  | frontier
  deriving DecidableEq, Repr

/-- R64, R71 to R73: which case follows the completion of `seg`; `fillEnd` says it stood at the fill end. -/
def afterEnd (seg : Segment) (fillEnd : Bool) (s : State) : AfterEnd :=
  if s.store.mode = .stream && seg.last then .chainEnd
  else if fillEnd then .passEnd
  else
    match nextPlanned s with
    | none => .frontier
    | some next =>
      if (next.junction.map JunctionClass.carries).getD false then .carry next else .fromRest next

/-- R64, R65, R68, R71 to R73: the active segment `seg` is complete with an overshoot; `fuel` bounds the carries of one
expiry, each of which uses at least 1000 mc. -/
def completeSegment : Nat → Segment → Nat → State → State
  | 0, _, _, s => s
  | fuel + 1, seg, past, s =>
    let fillEnd := atFillEnd s
    let s := reportCompletion seg s
    let stopping : Bool := s.job.state = .stopping
    match afterEnd seg fillEnd s with
    | .chainEnd => if stopping then takeFeedAsZero s else endJob (takeFeedAsZero s)
    | .passEnd => if stopping then takeFeedAsZero s else endPass seg (takeFeedAsZero s)
    | .frontier => if stopping then takeFeedAsZero s else frontierArrival (standAtFrontier s)
    | .fromRest next =>
      if stopping then takeFeedAsZero s else takeSegment s.store.execPtr next 0 (takeFeedAsZero s)
    | .carry next =>
      let s := takeSegment s.store.execPtr next past s
      if next.length * 1000 ≤ past then completeSegment fuel next (past - next.length * 1000) (snapToEnd next s)
      else targetSegment next s

/-- Enough fuel for the carries an overshoot can make. -/
def carryFuel (past : Nat) : Nat :=
  past / 1000 + 2

/-! ## Motion -/

/-- R68: one expiry of an active PAUSE. -/
def countPause (seg : Segment) (s : State) : State :=
  if s.job.state = .stopping then s.mapInterp fun n => { n with pause := 0 }
  else if s.job.state = .cutting || (s.job.state = .holding && !s.job.held) then
    let s := s.mapInterp fun n => { n with pause := n.pause - 1 }
    if s.interp.pause = 0 then completeSegment (carryFuel 0) seg 0 s else s
  else s

/-- R60, R62 to R64: the active moving segment advances by V, and the targets are those of its progress. In WARMUP and
with the held flag set the targets stand (R69, log entry 11). -/
def advanceSegment (seg : Segment) (s : State) : State :=
  let s := s.mapInterp fun n => { n with p := n.p + s.gov.v }
  if seg.length * 1000 ≤ s.interp.p then
    let past := s.interp.p - seg.length * 1000
    completeSegment (carryFuel past) seg past (snapToEnd seg s)
  else if feedBarred s then s
  else targetSegment seg s

/-- R74: the link move ends. With the job STOPPING no start pivot is made. That p is 0 after it is the model's choice
(log entry 29). -/
def endLink (lk : LinkMove) (s : State) : State :=
  let s := takeFeedAsZero (targetPoint lk.stopAt s)
  let s := s.mapInterp fun n => { n with link := none, p := 0 }
  if s.job.state = .stopping then s else startPivot s

/-- R74: the link move advances by V; in WARMUP and with the held flag set the targets stand. -/
def advanceLink (lk : LinkMove) (s : State) : State :=
  let s := s.mapInterp fun n => { n with p := n.p + s.gov.v }
  if lk.length * 1000 ≤ s.interp.p then endLink lk s
  else if feedBarred s then s
  else targetPoint (alongLine lk.startAt lk.stopAt lk.length s.interp.p) s

/-- R60, steps 3 and 4. In STOPPING a pivot is halted where it stands (R66). -/
def motionAndEnds (s : State) : State :=
  if 0 < s.interp.pivot then
    if s.job.state = .stopping then s.mapInterp fun n => { n with pivot := 0 }
    else s.mapInterp (Interp.stepPivot s.params.pivotRate)
  else
    match activeSegment s with
    | some seg => if seg.kind.moving then advanceSegment seg s else countPause seg s
    | none =>
      match s.interp.link with
      | none => s
      | some lk => advanceLink lk s

/-- R60, step 5: the targets are handed to the Axis Unit. -/
def handInterpTargets (s : State) : State :=
  s.mapAxes (handTargets s.params s.interp.targetX s.interp.targetY s.interp.targetC)

/-- R77: the Governor's report of rest. -/
def reportRest (s : State) : State :=
  match s.job.state with
  | .holding => if !s.job.held && s.gov.v = 0 && s.interp.pivot = 0 then setHeld s else s
  | .stopping => if s.gov.v = 0 then controlledStopEnd s else s
  | .idle => s
  | .motion => s
  | .warmup => s
  | .cutting => s
  | .starved => s
  | .fault => s

/-- R38: the low-water evaluation after an expiry, while a job runs (log entry 10). -/
def lowWaterAfter (s : State) : State :=
  if s.job.state.inJob then lowWater s else s

/-- R122: the steps of the period that ends are all issued before the new targets; the period timer starts anew. -/
def beginPeriod (s : State) : State :=
  (s.mapAxes fun u => u.each AxisState.issueRest).mapInterp fun n => { n with timer := some 0 }

/-- R60: one expiry of the interpolation period timer. -/
def interpolationExpiry (s : State) : State :=
  warmupPassage (lowWaterAfter (reportRest (handInterpTargets (motionAndEnds (evaluateGovernor (openingTake (beginPeriod s)))))))

end Sys2Proof.Machine
end

