-- ==== Sys2Proof/Machine/Flags.lean ====
section
/-! DEFINITION. The status digest (R168): the one byte of flags that opens every body the part sends. -/

namespace Sys2Proof.Machine

/-- The state code of the digest (R168). -/
def JobState.code : JobState → Nat
  | .idle => 0
  | .motion => 1
  | .warmup => 2
  | .cutting => 3
  | .holding => 4
  | .starved => 5
  | .stopping => 6
  | .fault => 7

/-- R168, 12.1: bits 0 to 2 the state code, bit 3 F, bit 4 H, bit 5 N, bit 6 E, bit 7 L. -/
def digest (s : State) : Byte :=
  BitVec.ofNat 8
    (s.job.state.code +
      8 * bits [s.guard.latch ≠ 0, s.store.flowHeld, !s.link.notices.isEmpty, s.link.rxFault, s.link.noticeLost])

end Sys2Proof.Machine
end

