-- ==== Sys2Proof/Machine/Blade.lean ====
section
/-! DEFINITION. Chapters 6 and 7: index arrivals, the timers of the blade and the conversions, with what they report to
the Guard Unit and the Job Controller. -/

namespace Sys2Proof.Machine

/-- R96: an index arrival taken in SPINUP, RUN or IDLE. -/
def drivenIndex (t : Word) (s : State) : State :=
  let formed := s.stroke.index.isSome
  let s := s.mapStroke (Stroke.timestamp t)
  let s := if formed then s.mapStroke (Stroke.control s.params) else s
  let s := warmupPassage (strokeTo (Stroke.countLock s.params formed) s)
  let s := s.mapStroke fun k => { k with stallTimer := some 0 }
  s.mapLoad (Load.indexReported s.params.samplePhase)

/-- R96: an index arrival taken in COAST. -/
def coastIndex (t : Word) : State → State :=
  State.mapStroke fun k => { k.timestamp t with stallTimer := some 0 }

/-- R95: an index arrival, by the stroke state; it is not taken in OFF and STALLED. -/
def indexTaken (t : Word) (s : State) : State :=
  match s.stroke.state with
  | .spinup => drivenIndex t s
  | .run => drivenIndex t s
  | .idle => drivenIndex t s
  | .coast => coastIndex t s
  | .off => s
  | .stalled => s

/-- R103: the spin-up timer has reached SPINUP_LIMIT in SPINUP. -/
def spinupFailed (s : State) : State :=
  if s.stroke.state = .spinup && reached s.stroke.spinTimer s.params.spinupLimit then
    takeCause .controlled .spinupFail (strokeTo Stroke.enterCoast s)
  else s

/-- R104: the stall timer has reached STALL_TIME in SPINUP, RUN or IDLE. An index taken first has restarted it, and then
no stall is found. -/
def stallReached (s : State) : State :=
  if s.stroke.state.driven && reached s.stroke.stallTimer s.params.stallTime then
    if s.stroke.duty = 0 then s.mapStroke (Stroke.zeroDutyRestart s.params.startDuty)
    else takeCause .immediate .bladeStall (strokeTo Stroke.enterStalled s)
  else s

/-- R105: the coast timer has reached STALL_TIME in COAST. -/
def coastReached (s : State) : State :=
  if s.stroke.state = .coast && reached s.stroke.stallTimer s.params.stallTime then strokeTo Stroke.enterOff s else s

/-- R109: the phase-delay timer has no µs left to run. -/
def phaseReached (s : State) : State :=
  if s.load.phase = some 0 then s.mapLoad fun m => { m with phase := none }.startConversion false else s

/-- R111: a settling conversion has run its time, and a measuring one is begun for the same requesters. -/
def settled (s : State) : State :=
  match s.load.inFlight with
  | some (.settling t) =>
    if conversionTime ≤ t then s.mapLoad fun m => { m with settled := true, inFlight := some (.measuring 0) } else s
  | some (.measuring _) => s
  | none => s

/-- R119: the overload run counter takes a stroke sample in RUN; BLADE_JAM is reported at OVERLOAD_COUNT. -/
def countOverload (sample : Nat) (s : State) : State :=
  if s.stroke.state = .run then
    let n := if s.params.overload ≤ sample then s.load.run + 1 else 0
    if s.params.overloadCount ≤ n then takeCause .immediate .bladeJam (s.mapLoad fun m => { m with run := 0 })
    else s.mapLoad fun m => { m with run := n }
  else s

/-- R111: STROKE is served. -/
def serveStroke (sample : Nat) (s : State) : State :=
  countOverload sample (evaluateBand (s.mapLoad (Load.accumulate sample)))

/-- The stroke state code (12.2). -/
def StrokeState.code : StrokeState → Nat
  | .off => 0
  | .spinup => 1
  | .run => 2
  | .idle => 3
  | .coast => 4
  | .stalled => 5

/-- R114: the data of a SAMPLE reply, with the stroke state at the completion. -/
def sampleReply (strokeState : StrokeState) (m : Load) : Reply :=
  ⟨.ok, u16 m.result ++ u16 m.average ++ u8 m.band ++ u8 strokeState.code⟩

/-- R111, R114: every awaiting SAMPLE request is answered. -/
def serveLink (reply : Reply) : State → State :=
  State.mapLink fun l =>
    { l with
      requests := l.requests.map fun e => if e.mark = .awaiting then { e with mark := .ready reply } else e }

/-- R111: power-down after serving, when the stroke is OFF and no requester is left. -/
def powerDownIfOff (s : State) : State :=
  if s.stroke.state = .off && !s.load.reqStroke && !s.load.reqLink then s.mapLoad Load.powerDown else s

/-- R111: the requesters of a measuring conversion are served with its code. -/
def serve (code : Nat) (s : State) : State :=
  let forStroke := s.load.reqStroke
  let forLink := s.load.reqLink
  let strokeState := s.stroke.state
  let s := s.mapLoad fun m =>
    { m with inFlight := none, reqStroke := false, reqLink := false, result := code, valid := true }
  let s := if forStroke then serveStroke code s else s
  let s := if forLink then serveLink (sampleReply strokeState s.load) s else s
  powerDownIfOff s

/-- R111: a measuring conversion has run its time and completes with a code. -/
def measured (code : Nat) (s : State) : State :=
  match s.load.inFlight with
  | some (.measuring t) => if conversionTime ≤ t then serve code s else s
  | some (.settling _) => s
  | none => s

end Sys2Proof.Machine
end

