-- ==== Sys2Proof/Machine/Records.lean ====
section
/-! DEFINITION. What the part sends: the codes of 12.2, the IDENT, SLOT and STATUS records (12.3, 12.4) and the notice
data (12.5). A field that is absent is sent as zero (R172, log entry 20). -/

namespace Sys2Proof.Machine

/-! ## Codes -/

/-- The result code of a reply (R172). -/
def ResultCode.code : ResultCode → Nat
  | .ok => 0
  | .clamped => 1
  | .corrected => 2
  | .busy => 3
  | .full => 4
  | .rejected => 5
  | .badKind => 6
  | .badSize => 7
  | .badField => 8
  | .outOfTravel => 9
  | .notReferenced => 10
  | .notAtOrigin => 11
  | .empty => 12
  | .notEmpty => 13
  | .faultLatched => 14
  | .inputActive => 15
  | .chainClosed => 16
  | .wrongMode => 17
  | .fixed => 18
  | .noJob => 19
  | .notHeld => 20

/-- Geometry class (12.2). -/
def GeometryClass.code : GeometryClass → Nat
  | .length => 0
  | .radius => 1
  | .heading => 2
  | .pivot => 3

/-- Segment kind (12.2). -/
def SegmentKind.code : SegmentKind → Nat
  | .line => 0
  | .arcCw => 1
  | .arcCcw => 2
  | .pause => 3

/-- Slot state (12.2). -/
def SlotState.code : SlotState → Nat
  | .empty => 0
  | .queued => 1
  | .planned => 2
  | .active => 3

/-- Junction class (12.2). -/
def JunctionClass.code : JunctionClass → Nat
  | .start => 0
  | .smooth => 1
  | .blend => 2
  | .pivot => 3
  | .stop => 4

/-- Window mode and job mode (12.2). -/
def Mode.code : Mode → Nat
  | .stream => 0
  | .repeating => 1

/-- Limiting stage (12.2). -/
def Stage.code : Stage → Nat
  | .zero => 0
  | .request => 1
  | .plan => 2
  | .stroke => 3
  | .ceiling => 4
  | .slew => 5
  | .holdRamp => 6
  | .stopRamp => 7

/-- Reference state (12.2). -/
def RefState.code : RefState → Nat
  | .unreferenced => 0
  | .homing => 1
  | .referenced => 2

/-- Homing phase (12.2). -/
def HomingPhase.code : HomingPhase → Nat
  | .none => 0
  | .search => 1
  | .brake => 2
  | .backoffSeek => 3
  | .backoff => 4
  | .done => 5
  | .failed => 6

/-- Homing outcome (12.2). -/
def HomingOutcome.code : HomingOutcome → Nat
  | .none => 0
  | .referenced => 1
  | .search => 2
  | .switch => 3
  | .limit => 4
  | .aborted => 5

/-- Stop category (12.2). -/
def Category.code : Category → Nat
  | .controlled => 0
  | .immediate => 1

/-- Axis set (12.2). -/
def AxisSet.code (w : AxisSet) : Nat :=
  bits [w.x, w.y, w.c]

/-! ## IDENT -/

/-- R170, 12.3: the IDENT data. -/
def identData (s : State) : List Byte :=
  u16 0x0C34 ++ u16 3408 ++ [Config.siliconRevision] ++ u16 512 ++ u8 8 ++ u8 16 ++ u32 s.link.rate.bits ++
    u8 s.link.straps.toNat

/-! ## SLOT -/

/-- Slot `i` lies inside the window (R40). -/
def Store.inWindow (st : Store) (i : Nat) : Bool :=
  decide (st.winBegin ≤ i ∧ i ≤ st.winEnd)

/-- The presence byte of a record (12.4). -/
def Segment.presence (seg : Segment) : Nat :=
  bits [seg.tag.isSome, seg.hint.isSome, seg.advance.isSome, seg.kind.isArc, seg.kind.moving, seg.junction.isSome]

/-- 12.4: the 75 bytes of a record, with the progress `p`. -/
def recordBytes (seg : Segment) (p : Nat) : List Byte :=
  u8 seg.kind.code ++ u8 (bits [seg.pivotOk, seg.last]) ++ i32 seg.stopAt.x ++ i32 seg.stopAt.y ++ i32 seg.centre.x ++
    i32 seg.centre.y ++ u32 (if seg.kind.moving then seg.length else seg.duration) ++ u16 seg.entryHeading ++
    u16 seg.exitHeading ++ u16 seg.feed ++ u8 (seg.tag.getD 0) ++ u8 (seg.hint.getD 0) ++ u16 (seg.advance.getD 0) ++
    u16 seg.number ++ i32 seg.startAt.x ++ i32 seg.startAt.y ++ i32 seg.box.minX ++ i32 seg.box.maxX ++
    i32 seg.box.minY ++ i32 seg.box.maxY ++ u32 seg.radius ++ u16 seg.sweep ++ i16 seg.delta ++
    u8 (match seg.junction with | none => 0 | some j => j.code) ++ u16 seg.entrySpeed ++ u16 seg.exitSpeed ++ u32 p

/-- R40, 12.4: the SLOT data of slot `i`: 3 bytes when it is EMPTY, 78 otherwise. -/
def slotData (s : State) (i : Nat) : List Byte :=
  u8 (s.store.slotState i).code ++ flag8 (s.store.inWindow i) ++
    match s.store.slot i with
    | none => u8 0
    | some sl => u8 sl.seg.presence ++ recordBytes sl.seg (if sl.state = .active then s.interp.p else 0)

/-! ## STATUS -/

/-- The job group, 23 bytes. -/
def jobBytes (j : Job) : List Byte :=
  u8 j.state.code ++ u8 j.mode.code ++ flag8 j.held ++ u8 j.passesProgrammed ++ u8 j.passesDone ++ i32 j.offX ++
    i32 j.offY ++ u32 j.executed ++ flag8 j.dwell.isSome ++ u16 (j.dwell.getD 0 / 1000) ++
    flag8 j.lastCompleted.isSome ++ u16 (j.lastCompleted.getD 0)

/-- The frontier slot of a non-empty plan span (R48). -/
def Planner.frontierSlot (pl : Planner) : Option Nat :=
  if pl.spanCount = 0 then none else some pl.frontier

/-- The store group, 31 bytes. -/
def storeBytes (st : Store) (pl : Planner) : List Byte :=
  let origin := st.origin.getD ⟨0, 0⟩
  u16 st.winBegin ++ u16 st.winEnd ++ u8 st.mode.code ++ u16 st.writePtr ++ u16 st.execPtr ++ u16 st.occupied ++
    u16 st.free ++ flag8 st.tailOpen ++ i32 origin.x ++ i32 origin.y ++ flag8 st.chainClosed ++
    u16 (st.executedHeading.getD 0) ++ flag8 st.flowHeld ++ flag8 st.armed ++ u8 pl.spanCount ++
    u16 (pl.frontierSlot.getD 0) ++
    u8 (bits [st.origin.isSome, st.executedHeading.isSome, pl.frontierSlot.isSome])

/-- The interpolator group, 20 bytes. -/
def interpBytes (n : Interp) : List Byte :=
  u16 (n.active.getD 0) ++ u32 n.p ++ u16 n.pivot ++ flag8 (n.pivotNeg && decide (n.pivot ≠ 0)) ++ u16 n.pause ++
    u8 n.pass ++ flag8 n.startPending ++ u32 (match n.link with | none => 0 | some lk => lk.length) ++ u16 n.targetC ++
    u8 (bits [n.active.isSome, n.link.isSome])

/-- The governor group, 15 bytes. -/
def govBytes (g : Governor) : List Byte :=
  u16 g.v ++ u16 g.vprev ++ u8 g.stage.code ++ u16 g.vreq ++ u32 g.vplan ++ u32 g.vstroke

/-- The stroke group, 8 bytes. -/
def strokeBytes (prm : Params) (k : Stroke) : List Byte :=
  u8 k.state.code ++ u16 (targetRate prm k.state) ++ u16 k.duty ++ u16 k.m ++ u8 k.lock

/-- The code of the conversion in flight (12.4). -/
def conversionCode : Option Conversion → Nat
  | none => 0
  | some (.settling _) => 1
  | some (.measuring _) => 2

/-- The load group, 13 bytes. -/
def loadBytes (m : Load) : List Byte :=
  flag8 m.powered ++ flag8 m.settled ++ u8 (conversionCode m.inFlight) ++ u8 (bits [m.reqStroke, m.reqLink]) ++
    u16 m.result ++ flag8 m.valid ++ u16 m.acc ++ u16 m.average ++ u8 m.band ++ u8 m.run

/-- The group of one axis, 7 bytes. -/
def axisBytes (ax : AxisState) : List Byte :=
  i32 ax.pos ++ u8 ax.ref.code ++ flag8 ax.enable ++ u8 ax.phase.code

/-- The traverse group, 10 bytes; zero with no MOVE. -/
def traverseBytes : Option Traverse → List Byte
  | none => u32 0 ++ u32 0 ++ u16 0
  | some t => u32 t.length ++ u32 t.p ++ u16 t.v

/-- The guard group, 8 bytes. -/
def guardBytes (g : Guard) : List Byte :=
  u16 (bits (allInputs.map fun i => (g.input i).raw)) ++ u16 (bits (allInputs.map fun i => (g.input i).accepted)) ++
    u16 g.latch.toNat ++ flag8 g.stop.isSome ++ u8 (match g.stop with | none => 0 | some j => j.code)

/-- The link group, 5 bytes. -/
def linkBytes (l : Link) : List Byte :=
  u8 l.requests.length ++ u8 l.notices.length ++ flag8 l.held ++ flag8 l.rxFault ++ flag8 l.noticeLost

/-- R170, 12.4: the 154 bytes of the STATUS record. -/
def statusData (s : State) : List Byte :=
  jobBytes s.job ++ storeBytes s.store s.planner ++ interpBytes s.interp ++ govBytes s.gov ++
    strokeBytes s.params s.stroke ++ loadBytes s.load ++ axisBytes s.axes.x ++ axisBytes s.axes.y ++
    axisBytes s.axes.c ++ traverseBytes s.axes.traverse ++ guardBytes s.guard ++ linkBytes s.link

/-! ## Notices -/

/-- The kind of a notice's frame (12.1). -/
def Notice.kind : Notice → Byte
  | .tag _ _ _ => 0x81
  | .pass _ => 0x82
  | .done _ _ => 0x83
  | .stopped _ _ _ => 0x84
  | .held _ _ => 0x85
  | .low _ => 0x86
  | .starved _ _ => 0x87
  | .edge _ _ => 0x88
  | .band _ _ _ => 0x89
  | .homed _ _ _ _ => 0x8A
  | .moved _ _ _ => 0x8B

/-- The data of a notice (12.5). -/
def Notice.data : Notice → List Byte
  | .tag t n k => u8 t ++ u16 n ++ u8 k
  | .pass n => u8 n
  | .done n k => u32 n ++ u8 k
  | .stopped cat j latch => u8 cat.code ++ u8 j.code ++ u16 latch.toNat
  | .held none p => u8 0 ++ u16 0 ++ u16 0 ++ u32 p
  | .held (some (n, i)) p => u8 1 ++ u16 n ++ u16 i ++ u32 p
  | .low n => u32 n
  | .starved none k => u8 0 ++ u16 0 ++ u8 k
  | .starved (some n) k => u8 1 ++ u16 n ++ u8 k
  | .edge i active => u8 (inputIndex i).val ++ flag8 active
  | .band now before average => u8 now ++ u8 before ++ u16 average
  | .homed w x y c =>
    u8 w.code ++ u8 x.1.code ++ i32 x.2 ++ u8 y.1.code ++ i32 y.2 ++ u8 c.1.code ++ i32 c.2
  | .moved x y c => i32 x ++ i32 y ++ u16 c

end Sys2Proof.Machine
end

