-- ==== Sys2Proof/Machine/Link.lean ====
section
/-! DEFINITION. Chapter 11: frames and their escaping, the request queue, the taking of a request, receive errors, and the
transmitter. The bytes of a frame are taken in Receiver.lean. -/

namespace Sys2Proof.Machine

/-! ## Frames -/

/-- FRAME_START (R161). -/
def frameStart : Byte := 0xA5

/-- ESCAPE (R161). -/
def escapeByte : Byte := 0xA6

/-- The HOLD flow mark (R161). -/
def holdByte : Byte := 0xA7

/-- The GO flow mark (R161). -/
def goByte : Byte := 0xA8

/-- The four reserved values (R161). -/
def reserved (b : Byte) : Bool :=
  b = frameStart || b = escapeByte || b = holdByte || b = goByte

/-- R161: a byte after FRAME_START as it stands on the line. -/
def escaped (b : Byte) : List Byte :=
  if reserved b then [escapeByte, b ^^^ 0x20] else [b]

/-- The sum of bytes modulo 256. -/
def byteSum : List Byte → Byte
  | [] => 0
  | b :: rest => b + byteSum rest

/-- R161: the length, the kind and the body of a frame. -/
def frameContent (kind : Byte) (body : List Byte) : List Byte :=
  BitVec.ofNat 8 (body.length + 1) :: kind :: body

/-- R161: the check that makes the sum 0. -/
def frameCheck (kind : Byte) (body : List Byte) : Byte :=
  -byteSum (frameContent kind body)

/-- R161: a frame as it stands on the line. -/
def frameLine (kind : Byte) (body : List Byte) : List Byte :=
  frameStart :: (frameContent kind body ++ [frameCheck kind body]).flatMap escaped

/-! ## The request queue -/

/-- R165: the Link answers an entry whose kind or length it refuses. -/
def judgeEntry (e : Entry) : Entry :=
  match e.mark with
  | .untaken =>
    match judgeRequest e.kind e.body with
    | .badKind => { e with mark := .ready ⟨.badKind, []⟩ }
    | .badSize => { e with mark := .ready ⟨.badSize, []⟩ }
    | .request _ => e
  | .awaiting => e
  | .ready _ => e

/-- R165: the entries in queue order, up to the first that waits for its block, are judged by the Link. -/
def judgeEntries : List Entry → List Entry
  | [] => []
  | e :: rest => if (judgeEntry e).mark = .untaken then e :: rest else judgeEntry e :: judgeEntries rest

/-- R165, R171: the Link judges what it can, unless it has stopped taking. -/
def Link.judge (l : Link) : Link :=
  if l.stopped then l else { l with requests := judgeEntries l.requests }

/-- R165, R171: the entry to be handed to its block next. -/
def Link.nextUntaken (l : Link) : Option Entry :=
  if l.stopped then none else l.requests.find? fun e => e.mark = .untaken

/-- The awaiting list of the Load Monitor (R108): the entries marked awaiting, in order. -/
def Link.awaiting (l : Link) : List Entry :=
  l.requests.filter fun e => e.mark = .awaiting

/-- The first untaken entry takes a mark. -/
def markFirst (m : Mark) : List Entry → List Entry
  | [] => []
  | e :: rest => if e.mark = .untaken then { e with mark := m } :: rest else e :: markFirst m rest

/-- R162: a complete frame is appended to the request queue as an untaken entry, or discarded with RX_FAULT. -/
def appendRequest (kind : Byte) (body : List Byte) (s : State) : State :=
  if s.link.requests.length < 8 then
    s.mapLink fun l => Link.judge { l with requests := l.requests ++ [⟨kind, body, .untaken⟩] }
  else setRxFault s

/-- The entry the Link hands next carries this frame. -/
def Link.handsNext (kind : Byte) (body : List Byte) (l : Link) : Bool :=
  match l.nextUntaken with
  | none => false
  | some e => e.kind = kind && e.body = body

/-- R165: the owning block takes a request; its entry is marked, and the Link judges on. -/
def answerNext (take : State → State × Mark) (s : State) : State :=
  let r := take s
  r.1.mapLink fun l => Link.judge { l with requests := markFirst r.2 l.requests }

/-- R165, log entry 4: a request row takes the entry the Link hands next when that is this request; otherwise its frame
arrives as a complete frame does and is taken when its turn has come with it. -/
def takeRequest (i : Instr) (take : State → State × Mark) (s : State) : State :=
  match requestFrame i with
  | none => s
  | some (kind, body) =>
    let s := if s.link.handsNext kind body then s else appendRequest kind body s
    if s.link.handsNext kind body then answerNext take s else s

/-! ## The receiver -/

/-- The receiver goes back to HUNT, with the escape-pending flag clear and the gap timer stopped (R162). -/
def Link.hunt (l : Link) : Link :=
  { l with rx := .hunt, esc := false, gap := none }

/-- R162: a receive error. -/
def receiveError (s : State) : State :=
  setRxFault (s.mapLink Link.hunt)

/-- R162: a frame begins. -/
def Link.beginFrame (l : Link) : Link :=
  { l with rx := .length, esc := false, gap := some 0 }

/-- R162: the gap timer, when it runs, is restarted by every received byte. -/
def Link.restartGap (l : Link) : Link :=
  { l with gap := l.gap.map fun _ => 0 }

/-- R163: a flow mark of the host, removed from the stream. -/
def hostMark (held : Bool) : State → State :=
  State.mapLink fun l => { l.restartGap with held := held }

/-- R162: the gap timer has reached FRAME_TIMEOUT inside a frame. -/
def gapReached (s : State) : State :=
  if s.link.rx ≠ .hunt && reached s.link.gap s.params.frameTimeout then receiveError s else s

/-! ## The transmitter -/

/-- The kind of a reply's frame (12.1). -/
def replyKind (kind : Byte) (r : Reply) : Byte :=
  if r.code = .badKind then 0x7F else kind + 0x40

/-- R166, R168: a frame begins; its digest is formed now. -/
def beginTx (isReply resets : Bool) (kind : Byte) (data : List Byte) (s : State) : State :=
  s.mapLink fun l =>
    { l with
      tx :=
        some
          { line := frameLine kind (digest s :: data)
            sent := 0
            isReply := isReply
            resets := resets
            clearsRx := l.rxFault
            clearsLost := l.noticeLost }
      charTime := 0 }

/-- R166: the notices' turn: the oldest leaves its queue and is sent. -/
def beginNotice (s : State) : State :=
  match s.link.notices with
  | [] => s
  | n :: rest => beginTx false false n.kind n.data (s.mapLink fun l => { l with notices := rest })

/-- R166: the transmitter, with no frame, chooses the next one. -/
def chooseFrame (s : State) : State :=
  match s.link.requests with
  | [] => beginNotice s
  | e :: _ =>
    match e.mark with
    | .ready r => beginTx true (e.kind = 0x12 && r.code = .ok) (replyKind e.kind r) (BitVec.ofNat 8 r.code.code :: r.data) s
    | .untaken => beginNotice s
    | .awaiting => beginNotice s

/-- R166: the idle transmitter chooses, with the transmit-held flag clear. -/
def txStart (s : State) : State :=
  if s.link.tx.isNone && !s.link.held then chooseFrame s else s

/-- R163, R164: the last byte of the frame can have been sent: nothing holds the transmitter from it, or its character
was in progress already. -/
def Link.canFinish (l : Link) (f : TxFrame) : Bool :=
  (!l.held && l.marks.isEmpty) || decide (f.line.length ≤ f.sent) ||
    (f.sent + 1 = f.line.length && decide (0 < l.charTime))

/-- R166, R168: the Link after the last byte of a frame. -/
def Link.frameSent (f : TxFrame) (l : Link) : Link :=
  { l with
    tx := none
    charTime := 0
    requests := if f.isReply then l.requests.tail else l.requests
    rxFault := l.rxFault && !f.clearsRx
    noticeLost := l.noticeLost && !f.clearsLost }

/-- R171: the reset of the RESET request. -/
def partReset (s : State) : State :=
  s.resetTo s.link.rate s.link.straps

/-- R166, R168, R171: the last byte of the frame being sent has been sent. -/
def txEnd (s : State) : State :=
  match s.link.tx with
  | none => s
  | some f =>
    if s.link.canFinish f then
      if f.resets then partReset s else txStart (s.mapLink (Link.frameSent f))
    else s

/-- R164: the oldest flow mark is sent, when the character in progress has ended. -/
def Link.sendMark (l : Link) : Link :=
  match l.marks with
  | [] => l
  | _ :: rest =>
    { l with
      marks := rest
      tx := if 0 < l.charTime then l.tx.map fun f => { f with sent := f.sent + 1 } else l.tx
      charTime := 0 }

end Sys2Proof.Machine
end

