-- ==== Sys2Proof/Machine/Parameters.lean ====
section
/-! DEFINITION. The parameters (12.6) and how SET judges, holds and stores a value (R169 and the rules of the owning
chapters: R17, R37, R39, R47, R75, R92, R107, R120, R125, R133, R138, R159, R160). -/

namespace Sys2Proof.Machine

/-- The parameters of 12.6. -/
inductive ParamId where
  | accel
  | stopDecel
  | overridePct
  | advanceLimit
  | blendAngle
  | pivotLimit
  | cornerFloor
  | pivotRate
  | linkFeed
  | strokeCut
  | strokeIdle
  | startDuty
  | ki
  | lockBand
  | lockCount
  | stallTime
  | spinupLimit
  | t1
  | t2
  | t3
  | d0
  | d1
  | d2
  | d3
  | hyst
  | overload
  | overloadCount
  | samplePhase
  | bandNotice
  | travelX
  | travelY
  | traverseFeed
  | homeFeed
  | homeSearch
  | starveDwell
  | flowHold
  | flowGo
  | lowWater
  | frameTimeout
  | filter (i : InputId)
  | action (i : InputId)
  | notifyRelease (i : InputId)
  | policy (cls : GeometryClass)
  deriving DecidableEq, Repr

/-- The geometry class of a code (12.2). -/
def classOfCode (n : Nat) : Option GeometryClass :=
  match n with
  | 0 => some .length
  | 1 => some .radius
  | 2 => some .heading
  | 3 => some .pivot
  | _ => none

/-- The parameter of an identifier (12.6); every other identifier names none. -/
def paramOfId (id : Nat) : Option ParamId :=
  if id < 0x40 then
    match id with
    | 0x01 => some .accel
    | 0x02 => some .stopDecel
    | 0x03 => some .overridePct
    | 0x04 => some .advanceLimit
    | 0x05 => some .blendAngle
    | 0x06 => some .pivotLimit
    | 0x07 => some .cornerFloor
    | 0x08 => some .pivotRate
    | 0x09 => some .linkFeed
    | 0x0A => some .strokeCut
    | 0x0B => some .strokeIdle
    | 0x0C => some .startDuty
    | 0x0D => some .ki
    | 0x0E => some .lockBand
    | 0x0F => some .lockCount
    | 0x10 => some .stallTime
    | 0x11 => some .spinupLimit
    | 0x12 => some .t1
    | 0x13 => some .t2
    | 0x14 => some .t3
    | 0x15 => some .d0
    | 0x16 => some .d1
    | 0x17 => some .d2
    | 0x18 => some .d3
    | 0x19 => some .hyst
    | 0x1A => some .overload
    | 0x1B => some .overloadCount
    | 0x1C => some .samplePhase
    | 0x1D => some .bandNotice
    | 0x1E => some .travelX
    | 0x1F => some .travelY
    | 0x20 => some .traverseFeed
    | 0x21 => some .homeFeed
    | 0x22 => some .homeSearch
    | 0x23 => some .starveDwell
    | 0x24 => some .flowHold
    | 0x25 => some .flowGo
    | 0x26 => some .lowWater
    | 0x27 => some .frameTimeout
    | _ => none
  else if id < 0x50 then (inputOfIndex (id - 0x40)).map ParamId.filter
  else if id < 0x60 then (inputOfIndex (id - 0x50)).map ParamId.action
  else if id < 0x70 then (inputOfIndex (id - 0x60)).map ParamId.notifyRelease
  else (classOfCode (id - 0x70)).map ParamId.policy

/-! ## Codes -/

/-- Input action (12.2). -/
def InputAction.code : InputAction → Nat
  | .ignore => 0
  | .notice => 1
  | .hold => 2
  | .stop => 3
  | .halt => 4

/-- The input action of a defined code. -/
def actionOfCode (n : Nat) : InputAction :=
  match n with
  | 0 => .ignore
  | 1 => .notice
  | 2 => .hold
  | 3 => .stop
  | _ => .halt

/-- Policy action (12.2). -/
def PolicyAction.code : PolicyAction → Nat
  | .reject => 0
  | .halt => 1
  | .correct => 2
  | .accept => 3

/-- The policy action of a defined code. -/
def policyOfCode (n : Nat) : PolicyAction :=
  match n with
  | 0 => .reject
  | 1 => .halt
  | 2 => .correct
  | _ => .accept

/-- R17: the allowed actions of a class. -/
def policyAllowed : GeometryClass → PolicyAction → Bool
  | _, .reject => true
  | _, .halt => true
  | .length, .correct => true
  | .pivot, .accept => true
  | .length, .accept => false
  | .pivot, .correct => false
  | .radius, .correct => false
  | .radius, .accept => false
  | .heading, .correct => false
  | .heading, .accept => false

/-- Off or on (12.2). -/
def onOff (b : Bool) : Int :=
  if b then 1 else 0

/-! ## Reading -/

/-- R169: the stored value of a parameter. -/
def ParamId.read (s : State) : ParamId → Int
  | .accel => s.params.accel
  | .stopDecel => s.params.stopDecel
  | .overridePct => s.params.overridePct
  | .advanceLimit => s.params.advanceLimit
  | .blendAngle => s.params.blendAngle
  | .pivotLimit => s.params.pivotLimit
  | .cornerFloor => s.params.cornerFloor
  | .pivotRate => s.params.pivotRate
  | .linkFeed => s.params.linkFeed
  | .strokeCut => s.params.strokeCut
  | .strokeIdle => s.params.strokeIdle
  | .startDuty => s.params.startDuty
  | .ki => s.params.ki
  | .lockBand => s.params.lockBand
  | .lockCount => s.params.lockCount
  | .stallTime => s.params.stallTime
  | .spinupLimit => s.params.spinupLimit
  | .t1 => s.params.t1
  | .t2 => s.params.t2
  | .t3 => s.params.t3
  | .d0 => s.params.d0
  | .d1 => s.params.d1
  | .d2 => s.params.d2
  | .d3 => s.params.d3
  | .hyst => s.params.hyst
  | .overload => s.params.overload
  | .overloadCount => s.params.overloadCount
  | .samplePhase => s.params.samplePhase
  | .bandNotice => onOff s.params.bandNotice
  | .travelX => s.params.travelX
  | .travelY => s.params.travelY
  | .traverseFeed => s.params.traverseFeed
  | .homeFeed => s.params.homeFeed
  | .homeSearch => s.params.homeSearch
  | .starveDwell => s.params.starveDwell
  | .flowHold => s.params.flowHold
  | .flowGo => s.params.flowGo
  | .lowWater => s.params.lowWater
  | .frameTimeout => s.params.frameTimeout
  | .filter i => (s.guard.input i).filter
  | .action i => (s.guard.input i).action.code
  | .notifyRelease i => onOff (s.guard.input i).notifyRelease
  | .policy cls => (policyOf s.params cls).code

/-! ## Judging -/

/-- R138: the ACTION of ESTOP and of the DRIVE_FAULT inputs is fixed. -/
def actionFixed : InputId → Bool
  | .estop => true
  | .driveFaultX => true
  | .driveFaultY => true
  | .driveFaultC => true
  | .door => false
  | .bladeGuard => false
  | .limitX => false
  | .limitY => false
  | .homeX => false
  | .homeY => false
  | .homeC => false
  | .aux => false

/-- R169, check 2: a parameter that SET never changes. -/
def ParamId.fixed : ParamId → Bool
  | .action i => actionFixed i
  | _ => false

/-- R169, check 3: the parameters that may be changed only in job IDLE. -/
def ParamId.idleOnly : ParamId → Bool
  | .accel => true
  | .stopDecel => true
  | .blendAngle => true
  | .pivotLimit => true
  | .cornerFloor => true
  | .pivotRate => true
  | .linkFeed => true
  | .travelX => true
  | .travelY => true
  | .traverseFeed => true
  | .homeFeed => true
  | .homeSearch => true
  | _ => false

/-- R169, check 4: how many codes an enumerated parameter defines. -/
def ParamId.codes : ParamId → Option Nat
  | .action _ => some 5
  | .notifyRelease _ => some 2
  | .bandNotice => some 2
  | .policy _ => some 4
  | _ => none

/-- R169, check 4: the value is not a defined code of an enumerated parameter. -/
def ParamId.undefinedCode (p : ParamId) (v : Int) : Bool :=
  match p.codes with
  | none => false
  | some n => decide (v < 0) || decide ((n : Int) ≤ v)

/-! ## Holding -/

/-- The greatest value of a function of the records the window holds, at least `base` (R125). -/
def greatest (f : Segment → Int) (base : Int) (slots : List (Nat × Slot)) : Int :=
  slots.foldl (fun m e => max m (f e.2.seg)) base

/-- The position of an axis when it is REFERENCED, otherwise 0. -/
def AxisState.referencedPos (ax : AxisState) : Int :=
  if ax.ref = .referenced then ax.pos else 0

/-- R125: what TRAVEL_X is raised to. -/
def travelFloorX (s : State) : Int :=
  greatest (fun seg => seg.box.maxX) s.axes.x.referencedPos s.store.slots

/-- R125: what TRAVEL_Y is raised to. -/
def travelFloorY (s : State) : Int :=
  greatest (fun seg => seg.box.maxY) s.axes.y.referencedPos s.store.slots

/-- R169, check 5: the value clamped into the parameter's range and held against its related parameters. -/
def ParamId.hold (s : State) (v : Int) : ParamId → Int
  | .accel => clamp v 5 200
  | .stopDecel => clamp v s.params.accel 400
  | .overridePct => clamp v 10 150
  | .advanceLimit => clamp v 10 1000
  | .blendAngle => clamp v 0 1500
  | .pivotLimit => clamp v 1000 18000
  | .cornerFloor => clamp v 0 5000
  | .pivotRate => clamp v 1 100
  | .linkFeed => clamp v 100 30000
  | .strokeCut => clamp v 1200 9000
  | .strokeIdle => clamp v 600 s.params.strokeCut
  | .startDuty => clamp v 0 1000
  | .ki => clamp v 1 64
  | .lockBand => clamp v 20 600
  | .lockCount => clamp v 2 64
  | .stallTime => clamp v 20 500
  | .spinupLimit => clamp v 100 5000
  | .t1 => min (clamp v 0 1023) (s.params.t2 - 1)
  | .t2 => min (max (clamp v 0 1023) (s.params.t1 + 1)) (s.params.t3 - 1)
  | .t3 => max (clamp v 0 1023) (s.params.t2 + 1)
  | .d0 => clamp v 0 256
  | .d1 => clamp v 0 256
  | .d2 => clamp v 0 256
  | .d3 => clamp v 0 256
  | .hyst => clamp v 0 63
  | .overload => clamp v 0 1023
  | .overloadCount => clamp v 1 32
  | .samplePhase => clamp v 0 5000
  | .bandNotice => v
  | .travelX => max (clamp v 1000 250000) (travelFloorX s)
  | .travelY => max (clamp v 1000 150000) (travelFloorY s)
  | .traverseFeed => clamp v 100 50000
  | .homeFeed => clamp v 100 5000
  | .homeSearch => clamp v 1000 260000
  | .starveDwell => clamp v 100 30000
  | .flowHold => clamp v 1 64
  | .flowGo => clamp v (s.params.flowHold + 1) 128
  | .lowWater => clamp v 0 300000
  | .frameTimeout => clamp v 5 500
  | .filter _ => clamp v 0 15
  | .action _ => v
  | .notifyRelease _ => v
  | .policy cls => if policyAllowed cls (policyOfCode v.toNat) then v else 0

/-! ## Storing -/

/-- Store the policy of a class. -/
def Params.setPolicy (cls : GeometryClass) (a : PolicyAction) (q : Params) : Params :=
  match cls with
  | .length => { q with polLength := a }
  | .radius => { q with polRadius := a }
  | .heading => { q with polHeading := a }
  | .pivot => { q with polPivot := a }

/-- R169, check 5: the value is stored, and a related parameter moves with it (R37, R92, R107). -/
def ParamId.write (n : Nat) (s : State) : ParamId → State
  | .accel => s.mapParams fun q => { q with accel := n, stopDecel := max q.stopDecel n }
  | .stopDecel => s.mapParams fun q => { q with stopDecel := n }
  | .overridePct => s.mapParams fun q => { q with overridePct := n }
  | .advanceLimit => s.mapParams fun q => { q with advanceLimit := n }
  | .blendAngle => s.mapParams fun q => { q with blendAngle := n }
  | .pivotLimit => s.mapParams fun q => { q with pivotLimit := n }
  | .cornerFloor => s.mapParams fun q => { q with cornerFloor := n }
  | .pivotRate => s.mapParams fun q => { q with pivotRate := n }
  | .linkFeed => s.mapParams fun q => { q with linkFeed := n }
  | .strokeCut => s.mapParams fun q => { q with strokeCut := n, strokeIdle := min q.strokeIdle n }
  | .strokeIdle => s.mapParams fun q => { q with strokeIdle := n }
  | .startDuty => s.mapParams fun q => { q with startDuty := n }
  | .ki => s.mapParams fun q => { q with ki := n }
  | .lockBand => s.mapParams fun q => { q with lockBand := n }
  | .lockCount => s.mapParams fun q => { q with lockCount := n }
  | .stallTime => s.mapParams fun q => { q with stallTime := n }
  | .spinupLimit => s.mapParams fun q => { q with spinupLimit := n }
  | .t1 => s.mapParams fun q => { q with t1 := n }
  | .t2 => s.mapParams fun q => { q with t2 := n }
  | .t3 => s.mapParams fun q => { q with t3 := n }
  | .d0 => s.mapParams fun q => { q with d0 := n }
  | .d1 => s.mapParams fun q => { q with d1 := n }
  | .d2 => s.mapParams fun q => { q with d2 := n }
  | .d3 => s.mapParams fun q => { q with d3 := n }
  | .hyst => s.mapParams fun q => { q with hyst := n }
  | .overload => s.mapParams fun q => { q with overload := n }
  | .overloadCount => s.mapParams fun q => { q with overloadCount := n }
  | .samplePhase => s.mapParams fun q => { q with samplePhase := n }
  | .bandNotice => s.mapParams fun q => { q with bandNotice := decide (n = 1) }
  | .travelX => s.mapParams fun q => { q with travelX := n }
  | .travelY => s.mapParams fun q => { q with travelY := n }
  | .traverseFeed => s.mapParams fun q => { q with traverseFeed := n }
  | .homeFeed => s.mapParams fun q => { q with homeFeed := n }
  | .homeSearch => s.mapParams fun q => { q with homeSearch := n }
  | .starveDwell => s.mapParams fun q => { q with starveDwell := n }
  | .flowHold => s.mapParams fun q => { q with flowHold := n, flowGo := if q.flowGo ≤ n then n + 1 else q.flowGo }
  | .flowGo => s.mapParams fun q => { q with flowGo := n }
  | .lowWater => s.mapParams fun q => { q with lowWater := n }
  | .frameTimeout => s.mapParams fun q => { q with frameTimeout := n }
  | .filter i => s.mapGuard fun g => g.updateInput i fun inp => { inp with filter := n }
  | .action i => s.mapGuard fun g => g.updateInput i fun inp => { inp with action := actionOfCode n }
  | .notifyRelease i => s.mapGuard fun g => g.updateInput i fun inp => { inp with notifyRelease := decide (n = 1) }
  | .policy cls => s.mapParams (Params.setPolicy cls (policyOfCode n))

/-- R155: the starve dwell timer has reached STARVE_DWELL. -/
def dwellReached (s : State) : State :=
  if reached s.job.dwell s.params.starveDwell then
    takeCause .controlled .starved (s.mapJob fun j => { j with dwell := none })
  else s

/-- R102: a change of STROKE_CUT in SPINUP sets the lock counter to 0 (log entry 22). -/
def relock (k : Stroke) : Stroke :=
  if k.state = .spinup then { k with lock := 0 } else k

/-- What a SET makes happen in its own step: a timer whose limit has come to or below its elapsed time reaches it
(R103, R104, R105, R135, R155, R162). `before` is the value stored earlier. -/
def ParamId.afterSet (before : Int) (s : State) : ParamId → State
  | .strokeCut => if before = s.params.strokeCut then s else s.mapStroke relock
  | .stallTime => if s.stroke.state.driven then stallReached s else coastReached s
  | .spinupLimit => spinupFailed s
  | .starveDwell => dwellReached s
  | .frameTimeout => gapReached s
  | .filter i => filterReached i s
  | _ => s

/-- R169, checks 1 to 4: the refusal of a SET, or the parameter it sets. -/
def judgeSet (s : State) (id : Nat) (v : Int) : Except ResultCode ParamId :=
  match paramOfId id with
  | none => .error .badField
  | some p =>
    if p.fixed then .error .fixed
    else if p.idleOnly && s.job.state ≠ .idle then .error .busy
    else if p.undefinedCode v then .error .badField
    else .ok p

/-- R169, check 5: the state after an accepted SET. -/
def applySet (p : ParamId) (v : Int) (s : State) : State :=
  p.afterSet (p.read s) (p.write (p.hold s v).toNat s)

/-- R169: the reply of an accepted SET carries the stored value, CLAMPED when it is not the value sent. -/
def setReply (p : ParamId) (v : Int) (s : State) : Reply :=
  ⟨if p.hold s v = v then .ok else .clamped, i32 (p.hold s v)⟩

end Sys2Proof.Machine
end

