-- ==== Sys2Proof/Machine/Requests.lean ====
section
/-! DEFINITION. The eighteen requests of the host: what the owning block does and answers, and the meaning of each
request row, which takes it through the Link (R165). -/

namespace Sys2Proof.Machine

/-- The result of a step of the part. -/
abbrev Result := Host.Outcome State Fault Refusal

/-- A reply without data: a refusal, or OK of a request that lists none (R172). -/
def answer (code : ResultCode) (s : State) : State × Mark :=
  (s, .ready ⟨code, []⟩)

/-- A reply OK with data. -/
def answerData (data : List Byte) (s : State) : State × Mark :=
  (s, .ready ⟨.ok, data⟩)

/-- A request judged: refused as it stands, or accepted, acting and answered OK without data. -/
def judged (refusal : Option ResultCode) (act : State → State) (s : State) : State × Mark :=
  match refusal with
  | some code => answer code s
  | none => answer .ok (act s)

/-- The first refusal of a list of checks in order. -/
def firstRefusal : List (Bool × ResultCode) → Option ResultCode
  | [] => none
  | (fails, code) :: rest => if fails then some code else firstRefusal rest

/-! ## IDENT, STATUS, SLOT, SET, GET, RESET -/

/-- R170. -/
def takeIdent (s : State) : State × Mark :=
  answerData (identData s) s

/-- R170. -/
def takeStatus (s : State) : State × Mark :=
  answerData (statusData s) s

/-- R40. -/
def takeSlot (index : Half) (s : State) : State × Mark :=
  if index.toNat ≤ 511 then answerData (slotData s index.toNat) s else answer .badField s

/-- R169. -/
def takeSet (id : Byte) (value : Word) (s : State) : State × Mark :=
  match judgeSet s id.toNat value.toInt with
  | .error code => answer code s
  | .ok p => (applySet p value.toInt s, .ready (setReply p value.toInt s))

/-- R169. -/
def takeGet (id : Byte) (s : State) : State × Mark :=
  match paramOfId id.toNat with
  | none => answer .badField s
  | some p => answerData (i32 (p.read s)) s

/-- R171: the Link takes no further entry. -/
def takeReset (s : State) : State × Mark :=
  answer .ok (s.mapLink fun l => { l with stopped := true })

/-! ## WINDOW, APPEND, FLUSH -/

/-- The window mode of a code (12.2). -/
def modeOfCode (m : Nat) : Option Mode :=
  match m with
  | 0 => some .stream
  | 1 => some .repeating
  | _ => none

/-- R23: a window of these slots can be set. -/
def windowFits (b e : Nat) : Bool :=
  decide (b ≤ 511 ∧ e ≤ 511 ∧ b ≤ e ∧ 8 ≤ e - b + 1)

/-- R23: the window is set. -/
def setWindow (b e : Nat) (mode : Mode) : State → State :=
  State.mapStore fun st => { st with winBegin := b, winEnd := e, mode := mode, writePtr := b, execPtr := b }

/-- R23. -/
def takeWindow (b e : Half) (m : Byte) (s : State) : State × Mark :=
  if s.job.state ≠ .idle then answer .busy s
  else if s.store.slots ≠ [] then answer .notEmpty s
  else
    match modeOfCode m.toNat with
    | none => answer .badField s
    | some mode =>
      if windowFits b.toNat e.toNat then answer .ok (setWindow b.toNat e.toNat mode s) else answer .badField s

/-- R26, step 1: the job state and the mode. -/
def appendByState (s : State) : Option ResultCode :=
  match s.job.state with
  | .idle => none
  | .motion => some .busy
  | .stopping => some .busy
  | .fault => some .faultLatched
  | .warmup => if s.store.mode = .stream then none else some .wrongMode
  | .cutting => if s.store.mode = .stream then none else some .wrongMode
  | .holding => if s.store.mode = .stream then none else some .wrongMode
  | .starved => if s.store.mode = .stream then none else some .wrongMode

/-- R26: the admission of an APPEND; none when it is admitted. -/
def appendRefusal (s : State) : Option ResultCode :=
  match appendByState s with
  | some code => some code
  | none =>
    firstRefusal
      [(s.store.mode = .stream && s.store.chainClosed, .chainClosed), (decide (s.store.free = 0), .full)]

/-- R18: a geometry failure under HALT requests a hold. -/
def rejectRecord (hold : Bool) (s : State) : State :=
  if hold then holdRequest s else s

/-- R8, R26, R27, R155. -/
def takeAppend (body : List Byte) (s : State) : State × Mark :=
  match appendRefusal s with
  | some code => answer code s
  | none =>
    match judgeArrival s body with
    | .badField => answer .badField s
    | .outOfTravel => answer .outOfTravel s
    | .rejected cls hold => (rejectRecord hold s, .ready ⟨.rejected, u8 cls.code ++ flag8 hold⟩)
    | .accepted seg code =>
      (starvedAcceptance (acceptRecord seg s), .ready ⟨code, u16 s.store.nextNumber ++ u16 s.store.writePtr⟩)

/-- R33, R53: a FLUSH answered OK is reported to the Planner. -/
def flushPartly (s : State) : State × Mark :=
  if s.store.mode = .stream then answer .ok (replan none (partialFlush s)) else answer .wrongMode s

/-- R33. -/
def takeFlush (s : State) : State × Mark :=
  match s.job.state with
  | .idle => answer .ok (replan none (emptyWindow s))
  | .holding => if s.job.held then flushPartly s else answer .busy s
  | .starved => flushPartly s
  | .motion => answer .busy s
  | .warmup => answer .busy s
  | .cutting => answer .busy s
  | .stopping => answer .busy s
  | .fault => answer .busy s

/-! ## START -/

/-- The refusal of the requests that need job IDLE (R127, R130, R148). -/
def idleRefusal (s : State) : Option ResultCode :=
  match s.job.state with
  | .idle => none
  | .fault => some .faultLatched
  | .motion => some .busy
  | .warmup => some .busy
  | .cutting => some .busy
  | .holding => some .busy
  | .starved => some .busy
  | .stopping => some .busy

/-- The smallest box containing two boxes. -/
def Box.union (a b : Box) : Box :=
  ⟨min a.minX b.minX, max a.maxX b.maxX, min a.minY b.minY, max a.maxY b.maxY⟩

/-- R148: the window extent; none for an empty window. -/
def windowExtent : List (Nat × Slot) → Option Box
  | [] => none
  | e :: rest => some (rest.foldl (fun b f => b.union f.2.seg.box) e.2.seg.box)

/-- R148: some pass of the window leaves travel. -/
def passesOutside (prm : Params) (n : Nat) (offX offY : Int) (b : Box) : Bool :=
  (List.range n).any fun k => b.outside prm (k * offX) (k * offY)

/-- R148, check 6. -/
def repeatRefusal (n : Nat) (offX offY : Int) (s : State) : Option ResultCode :=
  match s.store.mode with
  | .stream => none
  | .repeating =>
    if within n 1 64 && within offX (-250000) 250000 && within offY (-250000) 250000 then
      match windowExtent s.store.slots with
      | none => none
      | some b => if passesOutside s.params n offX offY b then some .outOfTravel else none
    else some .badField

/-- R148: the refusal of a START. -/
def startRefusal (n : Nat) (offX offY : Int) (s : State) : Option ResultCode :=
  match idleRefusal s with
  | some code => some code
  | none =>
    match
      firstRefusal
        [(!s.axes.allReferenced, .notReferenced), (decide (s.store.slots = []), .empty),
          (decide (s.store.origin ≠ some s.axes.point), .notAtOrigin), (s.guard.cutBlocked, .inputActive)] with
    | some code => some code
    | none => repeatRefusal n offX offY s

/-- R149: the record of the job. -/
def Job.begin (mode : Mode) (n : Nat) (offX offY : Int) (j : Job) : Job :=
  { j with
    mode := mode
    passesProgrammed := if mode = .repeating then n else 1
    offX := if mode = .repeating then offX else 0
    offY := if mode = .repeating then offY else 0
    passesDone := 0
    executed := 0
    lastCompleted := none
    held := false
    dwell := none
    state := .warmup }

/-- R149, step 4: the Interpolator's part of the entry into WARMUP, before the start pivot. -/
def Interp.begin (u : Axes) (n : Interp) : Interp :=
  { n with pass := 0, targetX := u.x.pos, targetY := u.y.pos, targetC := mod36000 u.c.pos, timer := some 0 }

/-- R149: an accepted START. The replan is made in job IDLE (R43). -/
def beginJob (n : Nat) (offX offY : Int) (s : State) : State :=
  let s := (replan none s).mapJob (Job.begin s.store.mode n offX offY)
  let s := spinUpRequest (s.mapGov fun g => { g with v := 0, vprev := 0 })
  warmupPassage (startPivot (s.mapInterp (Interp.begin s.axes)))

/-- R148, R149. -/
def takeStart (passes : Byte) (offX offY : Word) (s : State) : State × Mark :=
  judged (startRefusal passes.toNat offX.toInt offY.toInt s) (beginJob passes.toNat offX.toInt offY.toInt) s

/-! ## HOLD, RESUME, ABORT, CLEAR -/

/-- R151. -/
def takeHold (s : State) : State × Mark :=
  judged (if s.job.state.holdable then none else some .noJob) holdRequest s

/-- R153: there is something to move along. -/
def movable (s : State) : Bool :=
  s.interp.active.isSome || s.interp.link.isSome || (nextPlanned s).isSome

/-- R153: an accepted RESUME. With the held flag clear and the stroke not RUN, or a start pivot pending, the job returns
to WARMUP (log entry 16). -/
def resumeJob (s : State) : State :=
  if s.job.held then
    if movable s then
      warmupPassage (spinUpRequest (s.mapJob fun j => { j with held := false, state := .warmup }))
    else becomeStarved s
  else if s.stroke.state = .run && !s.interp.startPending then setJobState .cutting s
  else setJobState .warmup s

/-- R153: the refusal of a RESUME. -/
def resumeRefusal (s : State) : Option ResultCode :=
  firstRefusal [(decide (s.job.state ≠ .holding), .notHeld), (s.guard.cutBlocked, .inputActive)]

/-- R153. -/
def takeResume (s : State) : State × Mark :=
  judged (resumeRefusal s) resumeJob s

/-- R157. -/
def takeAbort (s : State) : State × Mark :=
  match s.job.state with
  | .idle => answer .noJob s
  | .fault => answer .faultLatched s
  | .stopping => answer .ok s
  | .motion => answer .ok (controlledStop s)
  | .warmup => answer .ok (controlledStop s)
  | .cutting => answer .ok (controlledStop s)
  | .holding => answer .ok (controlledStop s)
  | .starved => answer .ok (controlledStop s)

/-- R146: a cause in the latch is the name of an input that is ACTIVE. -/
def Guard.latchedActive (g : Guard) : Bool :=
  allInputs.any fun i => g.latch.getLsbD (Cause.input i).bit && (g.input i).accepted

/-- R146: the refusal of a CLEAR. -/
def clearRefusal (s : State) : Option ResultCode :=
  firstRefusal [(decide (s.job.state ≠ .fault), .noJob), (s.guard.latchedActive, .inputActive)]

/-- R106: a STALLED stroke enters OFF at an accepted CLEAR. -/
def Stroke.unstall (k : Stroke) : Stroke :=
  if k.state = .stalled then k.enterOff else k

/-- R146: an accepted CLEAR. -/
def clearLatch (s : State) : State :=
  setJobState .idle (strokeTo Stroke.unstall (s.mapGuard fun g => { g with latch := 0 }))

/-- R146. -/
def takeClear (s : State) : State × Mark :=
  judged (clearRefusal s) clearLatch s

/-! ## HOME, MOVE, BLADE, SAMPLE -/

/-- The axis set of a byte (12.2). -/
def axisSetOf (b : Byte) : AxisSet :=
  ⟨b.getLsbD 0, b.getLsbD 1, b.getLsbD 2⟩

/-- R127: the refusal of a HOME. A set bit above bit 2 names no axis (12.3). -/
def homeRefusal (axes : Byte) (s : State) : Option ResultCode :=
  match idleRefusal s with
  | some code => some code
  | none =>
    firstRefusal
      [(decide (axes.toNat = 0) || decide (8 ≤ axes.toNat), .badField), (s.guard.motionBlocked, .inputActive)]

/-- The filtered level of an axis's limit input; C has none (R127). -/
def limitLevel (g : Guard) : Axis → Bool
  | .x => (g.input .limitX).accepted
  | .y => (g.input .limitY).accepted
  | .c => false

/-- The position a named axis begins its HOME with (R127). -/
def homePos (a : Axis) (pos : Int) : Int :=
  match a with
  | .x => 0
  | .y => 0
  | .c => pos

/-- R127: a named axis at the acceptance of a HOME. -/
def AxisState.beginHome (g : Guard) (a : Axis) (ax : AxisState) : AxisState :=
  let ax := { ax with enable := true, ref := .homing, outcome := .none, speed := 0, moved := 0, pos := homePos a ax.pos }
  if limitLevel g a then ax.fail .limit
  else if homeLevel g a then { ax with phase := .backoff }
  else { ax with phase := .search }

/-- R127: an accepted HOME. -/
def beginHome (w : AxisSet) (s : State) : State :=
  setJobState .motion
    (s.mapAxes fun u =>
      { u.each (fun a ax => if w.has a then ax.beginHome s.guard a else ax) with home := some w, timer := some 0 })

/-- R127. -/
def takeHome (axes : Byte) (s : State) : State × Mark :=
  judged (homeRefusal axes s) (beginHome (axisSetOf axes)) s

/-- R130: the refusal of a MOVE. -/
def moveRefusal (x y : Int) (c : Nat) (s : State) : Option ResultCode :=
  match idleRefusal s with
  | some code => some code
  | none =>
    firstRefusal
      [(!(within x 0 250000 && within y 0 150000 && within c 0 35999), .badField),
        (!s.axes.allReferenced, .notReferenced),
        (decide ((s.params.travelX : Int) < x) || decide ((s.params.travelY : Int) < y), .outOfTravel),
        (s.guard.motionBlocked, .inputActive)]

/-- R130: the traverse of an accepted MOVE. -/
def traverseTo (x y : Int) (c : Nat) (u : Axes) : Traverse :=
  let t := turn (mod36000 u.c.pos) c
  { startAt := u.point
    stopAt := ⟨x, y⟩
    goalC := c
    length := chord (x - u.x.pos) (y - u.y.pos)
    p := 0
    v := 0
    vprev := 0
    turnLeft := t.natAbs
    turnNeg := decide (t < 0)
    targetC := mod36000 u.c.pos }

/-- R130: an accepted MOVE. -/
def beginMove (x y : Int) (c : Nat) (s : State) : State :=
  setJobState .motion (s.mapAxes fun u => { u with traverse := some (traverseTo x y c u), timer := some 0 })

/-- R130. -/
def takeMove (x y : Word) (c : Half) (s : State) : State × Mark :=
  judged (moveRefusal x.toInt y.toInt c.toNat s) (beginMove x.toInt y.toInt c.toNat) s

/-- R158. -/
def takeBlade (value : Byte) (s : State) : State × Mark :=
  if s.job.state ≠ .idle then answer .busy s
  else
    match value.toNat with
    | 0 => answer .ok (spinUpRequest s)
    | 1 => answer .ok (idleRequest s)
    | 2 => answer .ok (coastRequest s)
    | _ => answer .badField s

/-- R114: the reply is deferred. -/
def takeSample (s : State) : State × Mark :=
  (s.mapLoad fun m => m.powerUp.startConversion true, .awaiting)

/-! ## The request rows -/

/-- What the owning block does with a request (R165); an event is no request. -/
def requestTake : Instr → Option (State → State × Mark)
  | .ident => some takeIdent
  | .set id value => some (takeSet id value)
  | .get id => some (takeGet id)
  | .window first last mode => some (takeWindow first last mode)
  | .append body => some (takeAppend body)
  | .flush => some takeFlush
  | .slot index => some (takeSlot index)
  | .start passes offX offY => some (takeStart passes offX offY)
  | .hold => some takeHold
  | .resume => some takeResume
  | .abort => some takeAbort
  | .clear => some takeClear
  | .home axes => some (takeHome axes)
  | .move x y c => some (takeMove x y c)
  | .blade value => some (takeBlade value)
  | .status => some takeStatus
  | .sample => some takeSample
  | .reset => some takeReset
  | .hardwareReset _ => none
  | .frameReceived _ _ => none
  | .gapTimerExpiry => none
  | .holdFlowMark => none
  | .goFlowMark => none
  | .txFrameStart => none
  | .txFrameEnd => none
  | .flowMarkSend => none
  | .interpolationPeriodExpiry => none
  | .indexArrival _ => none
  | .spinupTimerExpiry => none
  | .stallTimerExpiry => none
  | .coastTimerExpiry => none
  | .phaseDelayExpiry => none
  | .settlingComplete => none
  | .measuringComplete _ => none
  | .inputRawChange _ _ => none
  | .filterTimerExpiry _ => none
  | .traversePeriodExpiry => none
  | .starveDwellExpiry => none
  | .receivedByte _ _ => none
  | .stepIssued _ => none

/-- IDENT. -/
def execIdent (s : State) : Result :=
  .next (takeRequest .ident takeIdent s)

/-- SET. -/
def execSet (id : Byte) (value : Word) (s : State) : Result :=
  .next (takeRequest (.set id value) (takeSet id value) s)

/-- GET. -/
def execGet (id : Byte) (s : State) : Result :=
  .next (takeRequest (.get id) (takeGet id) s)

/-- WINDOW. -/
def execWindow (first last : Half) (mode : Byte) (s : State) : Result :=
  .next (takeRequest (.window first last mode) (takeWindow first last mode) s)

/-- APPEND. -/
def execAppend (body : List Byte) (s : State) : Result :=
  .next (takeRequest (.append body) (takeAppend body) s)

/-- FLUSH. -/
def execFlush (s : State) : Result :=
  .next (takeRequest .flush takeFlush s)

/-- SLOT. -/
def execSlot (index : Half) (s : State) : Result :=
  .next (takeRequest (.slot index) (takeSlot index) s)

/-- START. -/
def execStart (passes : Byte) (offX offY : Word) (s : State) : Result :=
  .next (takeRequest (.start passes offX offY) (takeStart passes offX offY) s)

/-- HOLD, the request. -/
def execHold (s : State) : Result :=
  .next (takeRequest .hold takeHold s)

/-- RESUME. -/
def execResume (s : State) : Result :=
  .next (takeRequest .resume takeResume s)

/-- ABORT. -/
def execAbort (s : State) : Result :=
  .next (takeRequest .abort takeAbort s)

/-- CLEAR. -/
def execClear (s : State) : Result :=
  .next (takeRequest .clear takeClear s)

/-- HOME. -/
def execHome (axes : Byte) (s : State) : Result :=
  .next (takeRequest (.home axes) (takeHome axes) s)

/-- MOVE. -/
def execMove (x y : Word) (c : Half) (s : State) : Result :=
  .next (takeRequest (.move x y c) (takeMove x y c) s)

/-- BLADE. -/
def execBlade (value : Byte) (s : State) : Result :=
  .next (takeRequest (.blade value) (takeBlade value) s)

/-- STATUS. -/
def execStatus (s : State) : Result :=
  .next (takeRequest .status takeStatus s)

/-- SAMPLE. -/
def execSample (s : State) : Result :=
  .next (takeRequest .sample takeSample s)

/-- RESET, the request. -/
def execReset (s : State) : Result :=
  .next (takeRequest .reset takeReset s)

end Sys2Proof.Machine
end

