-- ==== Sys2Proof/Machine/Receiver.lean ====
section
/-! DEFINITION. Chapter 11: the receiver. The bytes of a frame are taken one by one, and the request of a complete frame
is handed to its block at once when every earlier entry has been taken (R165). -/

namespace Sys2Proof.Machine

/-- The request the Link hands next (R165). -/
def State.dueRequest (s : State) : Option Instr :=
  match s.link.nextUntaken with
  | none => none
  | some e =>
    match judgeRequest e.kind e.body with
    | .request i => some i
    | .badKind => none
    | .badSize => none

/-- R165: the entry whose turn has come is handed to its block, which takes it at once. -/
def handDue (s : State) : State :=
  match s.dueRequest with
  | none => s
  | some i =>
    match requestTake i with
    | none => s
    | some take => answerNext take s

/-- R162, R165: a complete frame is appended to the request queue and taken when its turn has come with it; with the
queue full it is discarded with RX_FAULT. -/
def arriveRequest (kind : Byte) (body : List Byte) (s : State) : State :=
  if s.link.requests.length < 8 then handDue (appendRequest kind body s) else setRxFault s

/-- R161, R162: a complete frame with a correct check. A body longer than a frame can carry is a receive error. -/
def completeFrame (kind : Byte) (body : List Byte) (s : State) : State :=
  let s := s.mapLink Link.hunt
  if body.length ≤ 249 then arriveRequest kind body s else setRxFault s

/-- R162: a byte of a frame, after its escape has been undone. -/
def takeFrameByte (b : Byte) (s : State) : State :=
  match s.link.rx with
  | .hunt => s
  | .length =>
    if 1 ≤ b.toNat ∧ b.toNat ≤ 250 then s.mapLink fun l => { l with rx := .content b.toNat [] } else receiveError s
  | .content len taken =>
    s.mapLink fun l =>
      { l with rx := if taken.length + 1 < len then .content len (taken ++ [b]) else .check len (taken ++ [b]) }
  | .check len taken =>
    match taken with
    | [] => receiveError s
    | kind :: body =>
      if BitVec.ofNat 8 len + byteSum taken + b = 0 then completeFrame kind body s else receiveError s

/-- R162: a byte received outside HUNT that is no flow mark. -/
def frameByte (b : Byte) (s : State) : State :=
  if b = frameStart then (receiveError s).mapLink Link.beginFrame
  else if s.link.esc then
    if reserved (b ^^^ 0x20) then
      takeFrameByte (b ^^^ 0x20) (s.mapLink fun l => { l.restartGap with esc := false })
    else receiveError s
  else if b = escapeByte then s.mapLink fun l => { l.restartGap with esc := true }
  else takeFrameByte b (s.mapLink Link.restartGap)

/-- R162: a byte received in HUNT that is no flow mark. -/
def huntByte (b : Byte) (s : State) : State :=
  if b = frameStart then s.mapLink Link.beginFrame else s

/-- R160, R162: a received character. -/
def receiveByte (b : Byte) (stopHigh : Bool) (s : State) : State :=
  if stopHigh then
    if b = holdByte then hostMark true s
    else if b = goByte then hostMark false s
    else if s.link.rx = .hunt then huntByte b s
    else frameByte b s
  else if s.link.rx = .hunt then s
  else receiveError s

end Sys2Proof.Machine
end

