-- ==== Sys2Proof/Machine/Events.lean ====
section
/-! DEFINITION. The events at the line, at the pins and in the timers of the part: the meaning of each event row. An
event whose timer, frame or conversion is not there, or whose timer or conversion has not run its time, has no effect;
the two period timers are the sender's clock (log entry 2). -/

namespace Sys2Proof.Machine

/-! ## The line -/

/-- HARDWARE_RESET (R160, R171): every block is reset, and the straps give the line rate. -/
def execHardwareReset (straps : BitVec 2) (s : State) : Result :=
  .next (s.resetTo (.ofStraps straps) straps)

/-- FRAME_RECEIVED (R162). -/
def execFrameReceived (kind : Byte) (body : List Byte) (s : State) : Result :=
  .next (completeFrame kind body s)

/-- RECEIVED_BYTE (R160, R162, R163). -/
def execReceivedByte (b : Byte) (stopHigh : Bool) (s : State) : Result :=
  .next (receiveByte b stopHigh s)

/-- GAP_TIMER_EXPIRY (R162). -/
def execGapTimerExpiry (s : State) : Result :=
  .next (gapReached s)

/-- HOLD_FLOW_MARK (R163). -/
def execHoldFlowMark (s : State) : Result :=
  .next (hostMark true s)

/-- GO_FLOW_MARK (R163). -/
def execGoFlowMark (s : State) : Result :=
  .next (hostMark false s)

/-- TX_FRAME_START (R166). -/
def execTxFrameStart (s : State) : Result :=
  .next (txStart s)

/-- TX_FRAME_END (R166, R168, R171). -/
def execTxFrameEnd (s : State) : Result :=
  .next (txEnd s)

/-- FLOW_MARK_SEND (R164). -/
def execFlowMarkSend (s : State) : Result :=
  .next (s.mapLink Link.sendMark)

/-! ## Motion -/

/-- INTERPOLATION_PERIOD_EXPIRY (R60). -/
def execInterpolationPeriodExpiry (s : State) : Result :=
  .next (if s.interp.timer.isSome then interpolationExpiry s else s)

/-- TRAVERSE_PERIOD_EXPIRY (R126). -/
def execTraversePeriodExpiry (s : State) : Result :=
  .next (if s.axes.timer.isSome then traverseExpiry s else s)

/-- STEP_ISSUED (R122). -/
def execStepIssued (a : Axis) (s : State) : Result :=
  .next (s.mapAxes fun u => u.update a (AxisState.issueOne a))

/-- STARVE_DWELL_EXPIRY (R155). -/
def execStarveDwellExpiry (s : State) : Result :=
  .next (dwellReached s)

/-! ## The blade -/

/-- INDEX_ARRIVAL (R95, R96) at a reading of the time base. -/
def execIndexArrival (t : Word) (s : State) : Result :=
  .next (indexTaken t (elapseTo t s))

/-- SPINUP_TIMER_EXPIRY (R103). -/
def execSpinupTimerExpiry (s : State) : Result :=
  .next (spinupFailed s)

/-- STALL_TIMER_EXPIRY (R104). -/
def execStallTimerExpiry (s : State) : Result :=
  .next (stallReached s)

/-- COAST_TIMER_EXPIRY (R105). -/
def execCoastTimerExpiry (s : State) : Result :=
  .next (coastReached s)

/-- PHASE_DELAY_EXPIRY (R109). -/
def execPhaseDelayExpiry (s : State) : Result :=
  .next (phaseReached s)

/-- SETTLING_COMPLETE (R111). -/
def execSettlingComplete (s : State) : Result :=
  .next (settled s)

/-- MEASURING_COMPLETE (R111) with the converted code. -/
def execMeasuringComplete (code : BitVec 10) (s : State) : Result :=
  .next (measured code.toNat s)

/-! ## The guard inputs -/

/-- INPUT_RAW_CHANGE (R135). -/
def execInputRawChange (i : InputId) (active : Bool) (s : State) : Result :=
  .next (rawChange i active s)

/-- FILTER_TIMER_EXPIRY (R135). -/
def execFilterTimerExpiry (i : InputId) (s : State) : Result :=
  .next (filterReached i s)

end Sys2Proof.Machine
end

