-- ==== Sys2Proof/Machine/Dispatch.lean ====
section
/-! DEFINITION. One arm per command. -/

namespace Sys2Proof.Machine

/-- The effect of a command on everything but the queue. -/
def exec (i : Instr) (s : State) : Host.Outcome State Fault Refusal :=
  match i with
  | .ident => Sys2Proof.Machine.execIdent s
  | .set id value => Sys2Proof.Machine.execSet id value s
  | .get id => Sys2Proof.Machine.execGet id s
  | .window first last mode => Sys2Proof.Machine.execWindow first last mode s
  | .append body => Sys2Proof.Machine.execAppend body s
  | .flush => Sys2Proof.Machine.execFlush s
  | .slot index => Sys2Proof.Machine.execSlot index s
  | .start passes offX offY => Sys2Proof.Machine.execStart passes offX offY s
  | .hold => Sys2Proof.Machine.execHold s
  | .resume => Sys2Proof.Machine.execResume s
  | .abort => Sys2Proof.Machine.execAbort s
  | .clear => Sys2Proof.Machine.execClear s
  | .home axes => Sys2Proof.Machine.execHome axes s
  | .move x y c => Sys2Proof.Machine.execMove x y c s
  | .blade value => Sys2Proof.Machine.execBlade value s
  | .status => Sys2Proof.Machine.execStatus s
  | .sample => Sys2Proof.Machine.execSample s
  | .reset => Sys2Proof.Machine.execReset s
  | .hardwareReset straps => Sys2Proof.Machine.execHardwareReset straps s
  | .frameReceived kind body => Sys2Proof.Machine.execFrameReceived kind body s
  | .gapTimerExpiry => Sys2Proof.Machine.execGapTimerExpiry s
  | .holdFlowMark => Sys2Proof.Machine.execHoldFlowMark s
  | .goFlowMark => Sys2Proof.Machine.execGoFlowMark s
  | .txFrameStart => Sys2Proof.Machine.execTxFrameStart s
  | .txFrameEnd => Sys2Proof.Machine.execTxFrameEnd s
  | .flowMarkSend => Sys2Proof.Machine.execFlowMarkSend s
  | .interpolationPeriodExpiry => Sys2Proof.Machine.execInterpolationPeriodExpiry s
  | .indexArrival timestamp => Sys2Proof.Machine.execIndexArrival timestamp s
  | .spinupTimerExpiry => Sys2Proof.Machine.execSpinupTimerExpiry s
  | .stallTimerExpiry => Sys2Proof.Machine.execStallTimerExpiry s
  | .coastTimerExpiry => Sys2Proof.Machine.execCoastTimerExpiry s
  | .phaseDelayExpiry => Sys2Proof.Machine.execPhaseDelayExpiry s
  | .settlingComplete => Sys2Proof.Machine.execSettlingComplete s
  | .measuringComplete code => Sys2Proof.Machine.execMeasuringComplete code s
  | .inputRawChange input active => Sys2Proof.Machine.execInputRawChange input active s
  | .filterTimerExpiry input => Sys2Proof.Machine.execFilterTimerExpiry input s
  | .traversePeriodExpiry => Sys2Proof.Machine.execTraversePeriodExpiry s
  | .starveDwellExpiry => Sys2Proof.Machine.execStarveDwellExpiry s
  | .receivedByte byte stopHigh => Sys2Proof.Machine.execReceivedByte byte stopHigh s
  | .stepIssued axis => Sys2Proof.Machine.execStepIssued axis s

end Sys2Proof.Machine
end

