-- ==== Sys2Proof/Machine/Step.lean ====
section
/-! DEFINITION. One step of the part: the command at the front of the queue, or, with none waiting, the Link's next
untaken request or the passing of 1 µs (log entry 1). -/

namespace Sys2Proof.Machine

/-- A step with no command waiting (log entry 1). -/
def idleStep (s : State) : Host.Outcome State Fault Refusal :=
  match s.dueRequest with
  | some i => exec i s
  | none => .next (elapse 1 s)

/-- One step of the part. -/
def step (s : State) : Host.Outcome State Fault Refusal :=
  match s.pending with
  | [] => idleStep s
  | c :: rest => exec c { s with pending := rest }

/-- The command a table word spells is put at the front of the queue; no row of the table gives bits. -/
def State.withFetchWord (s : State) (nbits w : Nat) : State :=
  match decodeTableWord nbits w with
  | none => s
  | some c => { s with pending := c :: s.pending }

end Sys2Proof.Machine
end

