-- ==== Sys2Proof/Safety.lean ====
section
/-! DEFINITION. The terms the statements use: when the Link can take a request at once, the entry a request leaves in
the queue, the parameters and the checks of the requests spelt out, what a replan, a completion, a taking, an expiry and
the judgement of a HOME leave, the record an arrival draws up, and the conditions on a state that every step keeps. -/

namespace Sys2Proof.Machine

/-! ## Requests -/

/-- The Link takes a request at once: it has not stopped taking, it has room, and every earlier entry has been taken
(R162, R165, R171). -/
def State.ready (s : State) : Prop :=
  s.link.stopped = false ∧ s.link.requests.length < 8 ∧ ∀ e ∈ s.link.requests, e.mark ≠ .untaken

/-- The entry of a request with a mark, as a list; an event has none. -/
def entryOf (i : Instr) (m : Mark) : List Entry :=
  match requestFrame i with
  | none => []
  | some (kind, body) => [⟨kind, body, m⟩]

/-- The state with the frame of a request arrived and its entry untaken. -/
def State.arrived (i : Instr) (s : State) : State :=
  s.mapLink fun l => { l with requests := l.requests ++ entryOf i .untaken }

/-- The request queue holds what it held, and then the entry of `i` with the mark `m`. -/
def queuedAs (i : Instr) (m : Mark) (s t : State) : Prop :=
  t.link.requests = s.link.requests ++ entryOf i m

/-- The request is answered with a result code and no data. -/
def answered (i : Instr) (code : ResultCode) (s t : State) : Prop :=
  queuedAs i (.ready ⟨code, []⟩) s t

/-- The state whose one change is the entry of `i` with the mark `m`. -/
def State.withEntry (i : Instr) (m : Mark) (s : State) : State :=
  s.mapLink fun l => { l with requests := l.requests ++ entryOf i m }

/-- The bytes of a line received one after another with high stop bits, as RECEIVED_BYTE commands. -/
def receiveBytes : List Byte → State → Option State
  | [], s => some s
  | b :: rest, s =>
    match exec (.receivedByte b true) s with
    | .next t => receiveBytes rest t
    | .fault _ => none
    | .refused _ => none

/-! ## Frames -/

/-- The parts of the state. -/
inductive Block where
  | pending
  | timeBase
  | free
  | params
  | store
  | planner
  | interp
  | gov
  | stroke
  | load
  | axes
  | guard
  | job
  | link
  deriving DecidableEq, Repr

/-- A part of the state is the same in two states. -/
def Block.same (s t : State) : Block → Prop
  | .pending => t.pending = s.pending
  | .timeBase => t.timeBase = s.timeBase
  | .free => t.free = s.free
  | .params => t.params = s.params
  | .store => t.store = s.store
  | .planner => t.planner = s.planner
  | .interp => t.interp = s.interp
  | .gov => t.gov = s.gov
  | .stroke => t.stroke = s.stroke
  | .load => t.load = s.load
  | .axes => t.axes = s.axes
  | .guard => t.guard = s.guard
  | .job => t.job = s.job
  | .link => t.link = s.link

/-- Every part of the state but the touched ones is unchanged. -/
def Keeps (touched : List Block) (s t : State) : Prop :=
  ∀ b, b ∉ touched → b.same s t

/-! ## Parameters -/

/-- The value stored under a parameter identifier (12.6), an enumerated one by its code; none for an identifier that
names no parameter. -/
def State.storedAt (s : State) (id : Nat) : Option Int :=
  let q := s.params
  let scalars : List Nat :=
    [q.accel, q.stopDecel, q.overridePct, q.advanceLimit, q.blendAngle, q.pivotLimit, q.cornerFloor, q.pivotRate,
      q.linkFeed, q.strokeCut, q.strokeIdle, q.startDuty, q.ki, q.lockBand, q.lockCount, q.stallTime, q.spinupLimit,
      q.t1, q.t2, q.t3, q.d0, q.d1, q.d2, q.d3, q.hyst, q.overload, q.overloadCount, q.samplePhase,
      (if q.bandNotice then 1 else 0), q.travelX, q.travelY, q.traverseFeed, q.homeFeed, q.homeSearch, q.starveDwell,
      q.flowHold, q.flowGo, q.lowWater, q.frameTimeout]
  let policies : List PolicyAction := [q.polLength, q.polRadius, q.polHeading, q.polPivot]
  let ofInput (n : Nat) (f : InputState → Int) : Option Int := allInputs[n]?.map fun i => f (s.guard.input i)
  if id = 0 then none
  else if id < 0x40 then scalars[id - 1]?.map fun n => (n : Int)
  else if id < 0x50 then ofInput (id - 0x40) fun inp => inp.filter
  else if id < 0x60 then ofInput (id - 0x50) fun inp => inp.action.code
  else if id < 0x70 then ofInput (id - 0x60) fun inp => if inp.notifyRelease then 1 else 0
  else policies[id - 0x70]?.map fun a => (a.code : Int)

/-- The range of a parameter, as its related parameters bound it (R17, R37, R39, R47, R75, R92, R107, R120, R133, R138,
R159, R160); of an enumerated one, its codes. -/
def State.rangeAt (s : State) (id : Nat) : Int × Int :=
  let q := s.params
  match id with
  | 0x01 => (5, 200)
  | 0x02 => (q.accel, 400)
  | 0x03 => (10, 150)
  | 0x04 => (10, 1000)
  | 0x05 => (0, 1500)
  | 0x06 => (1000, 18000)
  | 0x07 => (0, 5000)
  | 0x08 => (1, 100)
  | 0x09 => (100, 30000)
  | 0x0A => (1200, 9000)
  | 0x0B => (600, q.strokeCut)
  | 0x0C => (0, 1000)
  | 0x0D => (1, 64)
  | 0x0E => (20, 600)
  | 0x0F => (2, 64)
  | 0x10 => (20, 500)
  | 0x11 => (100, 5000)
  | 0x12 => (0, (q.t2 : Int) - 1)
  | 0x13 => ((q.t1 : Int) + 1, (q.t3 : Int) - 1)
  | 0x14 => ((q.t2 : Int) + 1, 1023)
  | 0x15 => (0, 256)
  | 0x16 => (0, 256)
  | 0x17 => (0, 256)
  | 0x18 => (0, 256)
  | 0x19 => (0, 63)
  | 0x1A => (0, 1023)
  | 0x1B => (1, 32)
  | 0x1C => (0, 5000)
  | 0x1D => (0, 1)
  | 0x1E => (1000, 250000)
  | 0x1F => (1000, 150000)
  | 0x20 => (100, 50000)
  | 0x21 => (100, 5000)
  | 0x22 => (1000, 260000)
  | 0x23 => (100, 30000)
  | 0x24 => (1, 64)
  | 0x25 => ((q.flowHold : Int) + 1, 128)
  | 0x26 => (0, 300000)
  | 0x27 => (5, 500)
  | _ =>
    if id < 0x50 then (0, 15)
    else if id < 0x60 then (0, 4)
    else if id < 0x70 then (0, 1)
    else (0, 3)

/-- R169, check 5: `h` is what a SET of `v` stores: `v` within the range; for a travel, no less than the position of its
axis when REFERENCED and than the boxes of the window's records (R125); for a policy, REJECT in place of an action its
class does not allow (R17). -/
def State.holds (s : State) (id : Nat) (v h : Int) : Prop :=
  let inRange := max (s.rangeAt id).1 (min v (s.rangeAt id).2)
  if id = 0x1E then
    ∀ n : Int, h ≤ n ↔ inRange ≤ n ∧ (s.axes.x.ref = .referenced → s.axes.x.pos ≤ n) ∧
      ∀ e ∈ s.store.slots, e.2.seg.box.maxX ≤ n
  else if id = 0x1F then
    ∀ n : Int, h ≤ n ↔ inRange ≤ n ∧ (s.axes.y.ref = .referenced → s.axes.y.pos ≤ n) ∧
      ∀ e ∈ s.store.slots, e.2.seg.box.maxY ≤ n
  else if 0x70 ≤ id then h = if v ≤ 1 ∨ (id = 0x70 ∧ v = 2) ∨ (id = 0x73 ∧ v = 3) then v else 0
  else h = inRange

/-- R138, R169, check 2: the fixed parameters, ACTION of ESTOP and of the DRIVE_FAULT inputs. -/
def setFixed (id : Nat) : Prop :=
  id ∈ [0x50, 0x55, 0x56, 0x57]

/-- R169, check 3: the parameters that change only in job IDLE: ACCEL, STOP_DECEL, BLEND_ANGLE, PIVOT_LIMIT,
CORNER_FLOOR, PIVOT_RATE, LINK_FEED, TRAVEL_X, TRAVEL_Y, TRAVERSE_FEED, HOME_FEED, HOME_SEARCH. -/
def setIdleOnly (id : Nat) : Prop :=
  id ∈ [0x01, 0x02, 0x05, 0x06, 0x07, 0x08, 0x09, 0x1E, 0x1F, 0x20, 0x21, 0x22]

/-- R169, check 4: a value that is no code of an enumerated parameter: BAND_NOTICE, ACTION, NOTIFY_RELEASE, POLICY. -/
def setUndefined (id : Nat) (v : Int) : Prop :=
  (id = 0x1D ∧ ¬(0 ≤ v ∧ v ≤ 1)) ∨ (0x50 ≤ id ∧ id < 0x60 ∧ ¬(0 ≤ v ∧ v ≤ 4)) ∨
    (0x60 ≤ id ∧ id < 0x70 ∧ ¬(0 ≤ v ∧ v ≤ 1)) ∨ (0x70 ≤ id ∧ ¬(0 ≤ v ∧ v ≤ 3))

/-- The expiry that a SET brings about when it leaves a running timer at or above its new limit `h` ms (R103, R104,
R105, R135, R155, R162). -/
def State.expiryOf (s : State) (id : Nat) (h : Int) : Option Instr :=
  let run (timer : Option Nat) : Bool := match timer with | none => false | some us => decide (h * 1000 ≤ us)
  if id = 0x10 ∧ run s.stroke.stallTimer then
    some (if s.stroke.state ∈ [.spinup, .run, .idle] then .stallTimerExpiry else .coastTimerExpiry)
  else if id = 0x11 ∧ run s.stroke.spinTimer then some .spinupTimerExpiry
  else if id = 0x23 ∧ run s.job.dwell then some .starveDwellExpiry
  else if id = 0x27 ∧ run s.link.gap then some .gapTimerExpiry
  else if 0x40 ≤ id ∧ id < 0x50 then
    (allInputs[id - 0x40]?).bind fun i => if run (s.guard.input i).timer then some (.filterTimerExpiry i) else none
  else none

/-- A timer that runs has counted `ms` ms. -/
def timerOut (timer : Option Nat) (ms : Nat) : Prop :=
  ∃ us, timer = some us ∧ ms * 1000 ≤ us

/-! ## Checks of the requests -/

/-- R139, cut check: an input whose action is HOLD, STOP or HALT is ACTIVE. -/
def Guard.barsCut (g : Guard) : Prop :=
  ∃ i, (g.input i).accepted = true ∧ (g.input i).action ∈ [.hold, .stop, .halt]

/-- R139, motion check: an input whose action is STOP or HALT is ACTIVE. -/
def Guard.barsMotion (g : Guard) : Prop :=
  ∃ i, (g.input i).accepted = true ∧ (g.input i).action ∈ [.stop, .halt]

/-- Every axis is REFERENCED. -/
def Axes.located (u : Axes) : Prop :=
  ∀ a, (u.get a).ref = .referenced

/-! ## The Load Monitor -/

/-- The Load Monitor after the stroke has changed from one state to another: leaving OFF it powers up, unless powered,
and clears the accumulator, the band and the run counter (R112); entering or leaving RUN clears the run counter (R119);
entering COAST or STALLED stops the phase-delay timer (R109); entering OFF takes STROKE from the requesters, and with no
LINK among them it powers down and abandons the conversion (R113). -/
def Load.told (before now : StrokeState) (m : Load) : Load :=
  let down := now = .off ∧ m.reqLink = false
  if before = now then m
  else
    { powered := if before = .off then true else if down then false else m.powered
      settled := if before = .off then m.powered && m.settled else if down then false else m.settled
      inFlight := if down then none else m.inFlight
      reqStroke := if now = .off then false else m.reqStroke
      reqLink := m.reqLink
      result := m.result
      valid := if down then false else m.valid
      phase := if now = .coast ∨ now = .stalled then none else m.phase
      acc := if before = .off then 0 else m.acc
      band := if before = .off then 0 else m.band
      run := if before = .off ∨ before = .run ∨ now = .run then 0 else m.run }

/-! ## The path -/

/-- This expiry brings the active segment to its end with an overshoot: V carries p to the end of a moving segment or
past it (R64), or the last ms of a PAUSE runs out (R68). -/
def State.atEndOf (s : State) (seg : Segment) (past : Nat) : Prop :=
  if seg.kind.moving then s.interp.p + (evaluateGovernor s).gov.v = seg.length * 1000 + past
  else s.interp.pause ≤ 1 ∧ past = 0

/-- The start pivot as it is begun from the C target (R67): the short way to the entry heading of the first moving
segment of the Store at or after its execution pointer, pending until it is made; none with no such segment or no turn.
-/
def Interp.inStartPivot (st : Store) (n : Interp) : Prop :=
  let first : Option Nat :=
    ((st.runFrom 512 st.execPtr).find? fun e => e.2.seg.kind ≠ .pause).map fun e => e.2.seg.entryHeading
  match first with
  | none => n.pivot = 0 ∧ n.startPending = false
  | some h =>
    let d := ((h : Int) - n.targetC) % 36000
    let k := if d ≤ 18000 then d else d - 36000
    n.pivot = k.natAbs ∧ n.pivotNeg = decide (k < 0) ∧ n.startPending = decide (k ≠ 0)

/-- An expiry whose V is 0 in WARMUP, CUTTING or HOLDING: in HOLDING with the held flag clear and no pivot left the head
rests, the flag is set, the blade is sent to idle and HELD is queued with the active segment, if any, and p (R152);
WARMUP passes to CUTTING with the stroke in RUN and no start pivot pending (R150); the low-water evaluation may follow
(log entry 10). -/
def State.stoodIn (s t : State) : Prop :=
  let rests := s.job.state = .holding ∧ s.job.held = false ∧ t.gov.v = 0 ∧ t.interp.pivot = 0
  let passes := s.job.state = .warmup ∧ s.stroke.state = .run ∧ t.interp.startPending = false
  let segment := s.interp.active.bind fun i => (s.store.slot i).map fun sl => (sl.seg.number, i)
  t.job =
      (if rests then { s.job with held := true } else if passes then { s.job with state := .cutting } else s.job) ∧
    t.stroke = (if rests then s.stroke.toIdle s.params.startDuty else s.stroke) ∧
    t.load = s.load.told s.stroke.state t.stroke.state ∧
    (rests → s.link.notices.length < 16 →
      ∃ rest, t.link.notices = s.link.notices ++ .held segment t.interp.p :: rest) ∧
    t.store = { s.store with armed := t.store.armed } ∧ t.link.requests = s.link.requests ∧
    t.link.marks = s.link.marks

/-- The queued path ahead (R38). -/
def State.ahead (s : State) : Nat :=
  (s.store.slots.map fun e =>
    if e.2.state = .active then
      if e.2.seg.kind.moving then (e.2.seg.length * 1000 - s.interp.p + 999) / 1000 else 0
    else e.2.seg.length).sum

/-- What the low-water evaluation that ends in `t` has queued, the low-water flag having stood as in `s` (R38). -/
def State.lowQueued (s t : State) : List Notice :=
  if t.store.mode = .stream ∧ t.store.chainClosed = false ∧ s.store.armed = true ∧ t.ahead < s.params.lowWater then
    [.low t.ahead]
  else []

/-- The head goes on along the path: the job cuts, or holds and has not come to rest (R69, R84). -/
def State.cuts (s : State) : Prop :=
  s.job.state = .cutting ∨ (s.job.state = .holding ∧ s.job.held = false)

/-! ## The plan -/

/-- `n` is isqrt(d): the largest integer whose square does not exceed `d`. -/
def isRoot (n d : Nat) : Prop :=
  n * n ≤ d ∧ d < (n + 1) * (n + 1)

/-- The effective feed request of a segment (R42, R43). -/
def Segment.plannedFeed (pl : Planner) (seg : Segment) : Nat :=
  let derate (n : Nat) : Nat := if n = 0 then pl.p0 else if n = 1 then pl.p1 else if n = 2 then pl.p2 else pl.p3
  if seg.kind = .pause then 0 else (seg.hint.map fun n => seg.feed * derate n / 256).getD seg.feed

/-- The junction class of a segment after its predecessor, none when that is not held (R44). -/
def Segment.classAfter (blendAngle : Nat) (pred : Option Segment) (seg : Segment) : JunctionClass :=
  if seg.kind = .pause then .stop
  else if seg.opening then .start
  else if blendAngle < seg.delta.natAbs then .pivot
  else if (pred.map Segment.kind).getD .pause = .pause then .stop
  else if seg.delta = 0 then .smooth
  else .blend

/-- The corner speed of a segment after its predecessor (R45). -/
def Segment.cornerAfter (prm : Params) (pl : Planner) (pred : Option Segment) (seg : Segment) : Nat :=
  let cap := min (seg.plannedFeed pl) ((pred.map (Segment.plannedFeed pl)).getD 0)
  let j := seg.classAfter prm.blendAngle pred
  if j = .smooth then cap
  else if j = .blend then
    min cap (max prm.cornerFloor (cap * (prm.blendAngle - seg.delta.natAbs) / prm.blendAngle))
  else 0

/-- The plan span (R48): from the ACTIVE slot, or with none from the slot at the execution pointer, the non-EMPTY slots
in execution order, up to the 64th, the slot before the write pointer or the last non-EMPTY one. -/
structure Store.spans (st : Store) (span : List (Nat × Slot)) : Prop where
  held : ∀ e ∈ span, st.slot e.1 = some e.2
  first :
    let start := ((st.slots.find? fun e => e.2.state = .active).map Prod.fst).getD st.execPtr
    span.head? = (st.slot start).map fun sl => (start, sl)
  next : ∀ k e e', span[k]? = some e → span[k + 1]? = some e' → e'.1 = st.after e.1 ∧ e'.1 ≠ st.writePtr
  bound : span.length ≤ 64
  whole : ∀ e, span.getLast? = some e → span.length < 64 → st.after e.1 = st.writePtr ∨ st.slot (st.after e.1) = none

/-- What a replan makes of a state (R43, R44, R48 to R51, R58); `completed` is the segment that has just completed, if
any, which in STREAM mode is the predecessor of the first of the span. -/
def State.replanned (completed : Option Segment) (s t : State) : Prop :=
  Keeps [.store, .planner] s t ∧ t.store = { s.store with slots := t.store.slots } ∧
  ∃ (span : List (Nat × Slot)) (entry exit : Nat → Nat), s.store.spans span ∧
    t.planner =
      { spanFirst := t.planner.spanFirst
        spanCount := span.length
        frontier := t.planner.frontier
        p0 := if s.job.state = .idle then s.params.d0 else s.planner.p0
        p1 := if s.job.state = .idle then s.params.d1 else s.planner.p1
        p2 := if s.job.state = .idle then s.params.d2 else s.planner.p2
        p3 := if s.job.state = .idle then s.params.d3 else s.planner.p3 } ∧
    (∀ e, span.head? = some e → t.planner.spanFirst = e.1) ∧ (∀ e, span.getLast? = some e → t.planner.frontier = e.1) ∧
    (∀ i, (∀ e ∈ span, e.1 ≠ i) → t.store.slot i = s.store.slot i) ∧
    ∀ k i sl, span[k]? = some (i, sl) →
      let pred : Option Segment :=
        if k = 0 then
          match s.store.mode with
          | .stream => completed
          | .repeating => if i = s.store.winBegin then none else (s.store.slot (i - 1)).map Slot.seg
        else (span[k - 1]?).map fun e => e.2.seg
      let seg := sl.seg
      let restsAfter (next : Segment) : Prop :=
        seg.last = true ∨ seg.kind = .pause ∨
          next.classAfter s.params.blendAngle (some seg) ∈ [.start, .pivot, .stop]
      (span[k + 1]? = none → exit k = 0) ∧
      (∀ e, span[k + 1]? = some e → (restsAfter e.2.seg → exit k = 0) ∧ (¬restsAfter e.2.seg → exit k = entry (k + 1))) ∧
      (∃ r, isRoot r (exit k * exit k + 2000 * s.params.accel * seg.length) ∧
        entry k = min (seg.cornerAfter s.params t.planner pred) (min (seg.plannedFeed t.planner) r)) ∧
      t.store.slot i =
        some
          (if sl.state = .active then { sl with seg := { seg with exitSpeed := exit k } }
          else
            { state := .planned
              seg :=
                { seg with
                  junction := some (seg.classAfter s.params.blendAngle pred), entrySpeed := entry k,
                  exitSpeed := exit k } })

/-! ## Completing and taking -/

/-- The Store after the completion of the segment in slot `i`, before the replan (R30, R36): in STREAM mode the slot is
EMPTY, the pointer goes on, and the flow state is OPEN when enough is free; in REPEAT mode the slot is QUEUED with its
record, and the pointer goes on, from the fill end to the begin slot. -/
def Store.completedAt (flowGo i : Nat) (st : Store) : Store :=
  match st.mode with
  | .stream =>
    let slots := st.slots.filter fun e => e.1 ≠ i
    { st with
      slots := slots
      execPtr := st.after i
      flowHeld := st.flowHeld && decide (st.size - slots.length < min flowGo st.size) }
  | .repeating =>
    { st with
      slots := st.slots.map fun e => if e.1 = i then (e.1, { e.2 with state := .queued }) else e
      execPtr := if i + 1 = st.writePtr then st.winBegin else i + 1 }

/-- The Store and the Planner of `v` are those of `s` after the completion of `seg` in slot `i` and the replan it brings
about, with `seg` the predecessor of the first of the span in STREAM mode (R30, R55, R58). -/
def State.completed (i : Nat) (seg : Segment) (s v : State) : Prop :=
  ({ s with store := s.store.completedAt s.params.flowGo i } : State).replanned (some seg) v

/-- The Store with the segment in slot `k` taken (R22, R61). -/
def Store.takenAt (k : Nat) (seg : Segment) (st : Store) : Store :=
  { st with
    slots := st.slots.map fun e => if e.1 = k then (k, ⟨.active, seg⟩) else e
    executedHeading := if seg.kind = .pause then st.executedHeading else some seg.exitHeading }

/-- The Interpolator as it takes a segment from slot `k` with progress `p` (R61): a PAUSE starts its duration; START
asks for the short turn from the C target to the entry heading, PIVOT for the turn of its delta; STOP sets the C target
to the entry heading, SMOOTH and BLEND to the heading at `p`. -/
def Interp.taking (k : Nat) (seg : Segment) (p : Nat) (n : Interp) : Interp :=
  let d := ((seg.entryHeading : Int) - n.targetC) % 36000
  let short := if d ≤ 18000 then d else d - 36000
  let n := { n with active := some k, p := p }
  if seg.kind = .pause then { n with pause := seg.duration }
  else
    match seg.junction with
    | some .start => { n with pivot := short.natAbs, pivotNeg := decide (short < 0) }
    | some .pivot => { n with pivot := seg.delta.natAbs, pivotNeg := decide (seg.delta < 0) }
    | some .stop => { n with targetC := seg.entryHeading }
    | some .smooth => { n with targetC := headingAt seg p }
    | some .blend => { n with targetC := headingAt seg p }
    | none => n

/-- The notice TAG of a segment as it is taken (R61). -/
def State.tagOf (s : State) (seg : Segment) : List Notice :=
  (seg.tag.map fun tag => Notice.tag tag seg.number s.interp.pass).toList

/-- The Interpolator at the end of the completed segment `seg`, with nothing taken after it (R64, R68; p 0: log entry
29). -/
def State.atEnd (s : State) (seg : Segment) : Interp :=
  let n := { s.interp with timer := some 0, active := none, p := 0 }
  if seg.kind = .pause then { n with pause := 0 }
  else
    { n with
      targetX := (seg.stopAt.shift (passShift s)).x
      targetY := (seg.stopAt.shift (passShift s)).y
      targetC := seg.exitHeading }

/-- A junction class through which progress is carried (R65). -/
def Segment.carried (seg : Segment) : Prop :=
  seg.junction = some .smooth ∨ seg.junction = some .blend

/-- The segment `nx` in slot `k` of `v` is taken after a completion that left the Interpolator as `n`: at a SMOOTH or
BLEND junction with the overshoot `past` and the targets there; at any other from rest, with the previous feed 0 for the
slew of the next period (R61, R64, R65). -/
def State.wentOn (n : Interp) (k past : Nat) (nx : Segment) (s v t : State) : Prop :=
  t.store = { v.store.takenAt k nx with armed := t.store.armed } ∧ t.planner = v.planner ∧
  (nx.carried →
    t.interp =
      { n.taking k nx past with
        targetX := ((pointAt nx past).shift (passShift s)).x
        targetY := ((pointAt nx past).shift (passShift s)).y
        targetC := headingAt nx past } ∧
    t.gov = (evaluateGovernor s).gov) ∧
  (¬nx.carried → t.interp = n.taking k nx 0 ∧ t.gov = { (evaluateGovernor s).gov with vprev := 0 })

/-- Nothing is taken after a completion in STOPPING: the head stands at the end of `seg` (R64, R70). -/
def State.ranOut (seg : Segment) (s v t : State) : Prop :=
  t.store = { v.store with armed := t.store.armed } ∧ t.planner = v.planner ∧ t.interp = s.atEnd seg ∧
    t.gov = { (evaluateGovernor s).gov with vprev := 0 }

/-- What an expiry leaves beside the Store, the plan, the Interpolator, the Governor and the axes when it has made the
job `job` and queued `queued`: in HOLDING with V 0 and no pivot the head rests, the held flag is set, the blade is sent
to idle and HELD is queued with the segment then active, if any, and p (R77, R84, R152); LOW comes last (log entry 10).
-/
def State.restJudged (job : Job) (queued : List Notice) (s t : State) : Prop :=
  let rests := s.job.state = .holding ∧ s.job.held = false ∧ t.gov.v = 0 ∧ t.interp.pivot = 0
  let segment := t.interp.active.bind fun i => (t.store.slot i).map fun sl => (sl.seg.number, i)
  t.job = (if rests then { job with held := true } else job) ∧
    t.stroke = (if rests then s.stroke.toIdle s.params.startDuty else s.stroke) ∧
    t.load = s.load.told s.stroke.state t.stroke.state ∧ t.link.requests = s.link.requests ∧
    (s.link.notices.length + queued.length < 15 → t.link.notices =
      s.link.notices ++ queued ++ (if rests then [.held segment t.interp.p] else []) ++ s.lowQueued t)

/-- The flow marks after an expiry that may open the flow state: GO when it was HELD and is OPEN (R29, R36). -/
def State.goMarked (s t : State) : Prop :=
  t.link.marks = if s.store.flowHeld = true ∧ t.store.flowHeld = false then s.link.marks ++ [.go] else s.link.marks

/-! ## Targets -/

/-- The targets X, Y and C are handed to the axes at the end of a period (R60 step 5, R122, R123, R125): the steps still
left are issued (log entry 9); X and Y, held within their travel when REFERENCED, and C, the short way, are the steps of
the next period; a direction output follows its steps and keeps its level when there are none. -/
def Axes.handed (prm : Params) (x y : Int) (c : Nat) (u v : Axes) : Prop :=
  v.home = u.home ∧ v.traverse = u.traverse ∧ v.timer = u.timer ∧
    ∀ a, v.get a =
      let ax := u.get a
      let pos : Int :=
        match a with
        | .x => ax.pos + ax.steps
        | .y => ax.pos + ax.steps
        | .c => (ax.pos + ax.steps) % 36000
      let short := ((c : Int) - pos) % 36000
      let n : Int :=
        match a with
        | .x => (if ax.ref = .referenced then max 0 (min x prm.travelX) else x) - pos
        | .y => (if ax.ref = .referenced then max 0 (min y prm.travelY) else y) - pos
        | .c => if short ≤ 18000 then short else short - 36000
      { ax with pos := pos, steps := n, dirHigh := if n = 0 then ax.dirHigh else decide (0 < n) }

/-! ## Homing -/

/-- The home input of an axis (R136). -/
def homeInputOf : Axis → InputId
  | .x => .homeX
  | .y => .homeY
  | .c => .homeC

/-- The limit input of an axis; C has none (R127, R136). -/
def limitInputOf : Axis → Option InputId
  | .x => some .limitX
  | .y => some .limitY
  | .c => none

/-- An axis whose period ends with no target handed: the steps left are issued (R122, log entry 9), C mod 36000. -/
def AxisState.standing (a : Axis) (ax : AxisState) : AxisState :=
  { ax with
    pos :=
      match a with
      | .x => ax.pos + ax.steps
      | .y => ax.pos + ax.steps
      | .c => (ax.pos + ax.steps) % 36000
    steps := 0 }

/-- A homing axis whose milli-counts come to `m` at the speed `v`: the steps left are issued, and the steps of the next
period are round(m / 1000) less the same before, negative in SEARCH and BRAKE and positive in BACKOFF_SEEK and BACKOFF,
for C the short way (R122, R123, R128). -/
def AxisState.homeMoved (a : Axis) (v m : Nat) (ax : AxisState) : AxisState :=
  let n : Int := (roundNat m 1000 : Int) - roundNat ax.moved 1000
  let k : Int := if ax.phase = .search ∨ ax.phase = .brake then -n else n
  let steps : Int :=
    match a with
    | .x => k
    | .y => k
    | .c => if k % 36000 ≤ 18000 then k % 36000 else k % 36000 - 36000
  { ax.standing a with
    steps := steps, dirHigh := if steps = 0 then ax.dirHigh else decide (0 < steps), speed := v, moved := m }

/-- A homing axis that becomes FAILED with an outcome, its milli-counts reset with the entry into that phase (R121,
R128, R129). -/
def AxisState.failedWith (outcome : HomingOutcome) (ax : AxisState) : AxisState :=
  { ax with phase := .failed, moved := 0, speed := 0, ref := .unreferenced, outcome := outcome }

/-- The notice HOMED of the axes `w` (12.5). -/
def Axes.homedNotice (w : AxisSet) (u : Axes) : Notice :=
  let item (a : Axis) : HomingOutcome × Int := if w.has a then ((u.get a).outcome, (u.get a).pos) else (.none, 0)
  .homed w (item .x) (item .y) (item .c)

/-- The completion of the HOME of the axes `w` is judged from `s` on the axes of `t` (R129): with every named axis DONE
or FAILED the HOME and the traverse period timer end, the job is IDLE and HOMED is queued; otherwise it goes on. -/
def State.homeJudged (w : AxisSet) (s t : State) : Prop :=
  let ended (a : Axis) : Prop := (t.axes.get a).phase = .done ∨ (t.axes.get a).phase = .failed
  ((∀ a, w.has a = true → ended a) →
    t.axes.home = none ∧ t.axes.timer = none ∧ t.job = { s.job with state := .idle } ∧
      (s.link.notices.length < 16 → t.link.notices = s.link.notices ++ [t.axes.homedNotice w])) ∧
  ((∃ a, w.has a = true ∧ ¬ ended a) →
    t.axes.home = some w ∧ t.axes.timer.isSome = true ∧ t.job = s.job ∧ t.link = s.link)

/-! ## Arrivals -/

/-- A segment body (R173): the kind, the flags and the presence byte, the fixed fields of the kind, and the optional
fields marked present. -/
def RawSegment.body (raw : RawSegment) : List Byte :=
  let flags := bits [raw.pivotOk, raw.last]
  let presence := bits [raw.tag.isSome, raw.hint.isSome, raw.advance.isSome]
  let ends := i32 raw.stopX ++ i32 raw.stopY
  let rest := u32 raw.length ++ u16 raw.entryHeading ++ u16 raw.exitHeading ++ u16 raw.feed
  let optional :=
    ((raw.tag.map u8).getD []) ++ ((raw.hint.map u8).getD []) ++ ((raw.advance.map u16).getD [])
  match raw.kind with
  | .line => [0, BitVec.ofNat 8 flags, BitVec.ofNat 8 presence] ++ ends ++ rest ++ optional
  | .arcCw =>
    [1, BitVec.ofNat 8 flags, BitVec.ofNat 8 presence] ++ ends ++ i32 raw.centreX ++ i32 raw.centreY ++ rest ++ optional
  | .arcCcw =>
    [2, BitVec.ofNat 8 flags, BitVec.ofNat 8 presence] ++ ends ++ i32 raw.centreX ++ i32 raw.centreY ++ rest ++ optional
  | .pause => [3, BitVec.ofNat 8 flags, BitVec.ofNat 8 presence] ++ u16 raw.duration ++ optional

/-- The fields a body can carry: each within the width of its field, those of another kind at 0, a density hint and an
advance limit absent on a PAUSE (R2, R173). -/
structure RawSegment.plain (raw : RawSegment) : Prop where
  ends : -2147483648 ≤ raw.stopX ∧ raw.stopX < 2147483648 ∧ -2147483648 ≤ raw.stopY ∧ raw.stopY < 2147483648
  centre : -2147483648 ≤ raw.centreX ∧ raw.centreX < 2147483648 ∧ -2147483648 ≤ raw.centreY ∧ raw.centreY < 2147483648
  numbers : raw.length < 4294967296 ∧ raw.duration < 65536 ∧ raw.entryHeading < 65536 ∧ raw.exitHeading < 65536 ∧
    raw.feed < 65536
  optional : (∀ n, raw.tag = some n → n < 256) ∧ (∀ n, raw.hint = some n → n < 256) ∧
    ∀ n, raw.advance = some n → n < 65536
  ofLine : raw.kind = .line ∨ raw.kind = .pause → raw.centreX = 0 ∧ raw.centreY = 0
  ofPause : raw.kind = .pause → raw.stopX = 0 ∧ raw.stopY = 0 ∧ raw.length = 0 ∧ raw.entryHeading = 0 ∧
    raw.exitHeading = 0 ∧ raw.feed = 0 ∧ raw.hint = none ∧ raw.advance = none
  moving : raw.kind ≠ .pause → raw.duration = 0

/-- The checked fields lie in their ranges, and the headings of an arc differ (R1, R2, R9). -/
structure RawSegment.checked (raw : RawSegment) : Prop where
  tag : ∀ n, raw.tag = some n → 1 ≤ n ∧ n ≤ 255
  hint : ∀ n, raw.hint = some n → n ≤ 3
  pause : raw.kind = .pause → 1 ≤ raw.duration ∧ raw.duration ≤ 60000
  moving : raw.kind ≠ .pause → 0 ≤ raw.stopX ∧ raw.stopX ≤ 250000 ∧ 0 ≤ raw.stopY ∧ raw.stopY ≤ 150000 ∧
    1 ≤ raw.length ∧ raw.length ≤ 300000 ∧ raw.entryHeading ≤ 35999 ∧ raw.exitHeading ≤ 35999
  arc : raw.kind = .arcCw ∨ raw.kind = .arcCcw → -1000000 ≤ raw.centreX ∧ raw.centreX ≤ 1000000 ∧
    -1000000 ≤ raw.centreY ∧ raw.centreY ≤ 1000000 ∧ raw.entryHeading ≠ raw.exitHeading

/-- The squared distance of two points. -/
def Point.square (p q : Point) : Nat :=
  (q.x - p.x).natAbs ^ 2 + (q.y - p.y).natAbs ^ 2

/-- The radial angle of an arc at a heading (R10). -/
def Segment.angleAt (seg : Segment) (heading : Nat) : Int :=
  (if seg.kind = .arcCcw then (heading : Int) - 9000 else heading + 9000) % 36000

/-- The point a heading implies on an arc of radius `r` (R14). -/
def Segment.implied (seg : Segment) (r heading : Nat) : Point :=
  let rho := (seg.angleAt heading).toNat
  ⟨seg.centre.x + roundDiv (r * cosine rho) 65536, seg.centre.y + roundDiv (r * sine rho) 65536⟩

/-- The points the extent box contains (R11): the ends, and each axis point an arc passes. -/
def Segment.extentPoints (seg : Segment) : List Point :=
  let arc : Bool := seg.kind = .arcCw || seg.kind = .arcCcw
  let from0 := seg.angleAt seg.entryHeading
  let passed (q : Int) : Bool :=
    arc && (if seg.kind = .arcCcw then (q - from0) % 36000 else (from0 - q) % 36000) ≤ (seg.sweep : Int)
  [seg.startAt, seg.stopAt] ++ (if passed 0 then [⟨seg.centre.x + seg.radius, seg.centre.y⟩] else []) ++
    (if passed 9000 then [⟨seg.centre.x, seg.centre.y + seg.radius⟩] else []) ++
    (if passed 18000 then [⟨seg.centre.x - seg.radius, seg.centre.y⟩] else []) ++
    (if passed 27000 then [⟨seg.centre.x, seg.centre.y - seg.radius⟩] else [])

/-- The smallest box that contains the points of a list. -/
structure Box.bounds (b : Box) (qs : List Point) : Prop where
  contains : ∀ q ∈ qs, b.minX ≤ q.x ∧ q.x ≤ b.maxX ∧ b.minY ≤ q.y ∧ q.y ≤ b.maxY
  reached : (∃ q ∈ qs, q.x = b.minX) ∧ (∃ q ∈ qs, q.x = b.maxX) ∧ (∃ q ∈ qs, q.y = b.minY) ∧
    ∃ q ∈ qs, q.y = b.maxY

/-- A box lies within travel (R12). -/
def Box.inTravel (prm : Params) (b : Box) : Prop :=
  0 ≤ b.minX ∧ 0 ≤ b.minY ∧ b.maxX ≤ prm.travelX ∧ b.maxY ≤ prm.travelY

/-- The record an arrival draws up before its checks: the start point (R7), the host fields (R1, R2) clamped (R4), the
flags as they are stored (R3), and the fields derived from the start point (R5, R10, R11). -/
structure Segment.drawnFrom (seg : Segment) (raw : RawSegment) (s : State) : Prop where
  start : seg.startAt = if s.store.tailOpen then s.store.tailPoint.getD s.axes.point else s.axes.point
  kind : seg.kind = raw.kind
  stop : seg.stopAt = if raw.kind = .pause then seg.startAt else ⟨raw.stopX, raw.stopY⟩
  centre : seg.centre = ⟨raw.centreX, raw.centreY⟩
  carried : seg.length = raw.length ∧ seg.duration = raw.duration ∧ seg.entryHeading = raw.entryHeading ∧
    seg.exitHeading = raw.exitHeading ∧ seg.tag = raw.tag ∧ seg.hint = raw.hint
  feed : seg.feed = if raw.kind = .pause then 0 else max 100 (min raw.feed 30000)
  advance : seg.advance = raw.advance.map fun a => max 10 (min a 1000)
  flags : (seg.pivotOk = true ↔ raw.kind ≠ .pause ∧ raw.pivotOk = true) ∧
    (seg.last = true ↔ s.store.mode = .stream ∧ raw.last = true)
  radius : if raw.kind = .arcCw ∨ raw.kind = .arcCcw then isRoot seg.radius (seg.centre.square seg.startAt)
    else seg.radius = 0
  sweep : (seg.sweep : Int) =
    match raw.kind with
    | .arcCcw => ((raw.exitHeading : Int) - raw.entryHeading) % 36000
    | .arcCw => ((raw.entryHeading : Int) - raw.exitHeading) % 36000
    | .line => 0
    | .pause => 0
  box : seg.box.bounds seg.extentPoints
  unset : seg.number = 0 ∧ seg.delta = 0 ∧ seg.opening = false ∧ seg.junction = none ∧ seg.entrySpeed = 0 ∧
    seg.exitSpeed = 0

/-- The class LENGTH fails: of a LINE (R13), of an arc (R15). -/
def Segment.lengthOff (seg : Segment) : Prop :=
  if seg.kind = .line then ∀ n, isRoot n (seg.startAt.square seg.stopAt) → 1 < ((seg.length : Int) - n).natAbs
  else
    50 < ((((seg.length * 5729578 + seg.radius * 500) / (seg.radius * 1000) : Nat) : Int) - seg.sweep).natAbs

/-- The class RADIUS of an arc fails (R14). -/
def Segment.radiusOff (seg : Segment) : Prop :=
  seg.radius < 50 ∨ ∀ n, isRoot n (seg.centre.square seg.stopAt) → 2 < ((seg.radius : Int) - n).natAbs

/-- Two points lie more than 3 counts apart in X or in Y. -/
def Point.apart (p q : Point) : Prop :=
  3 < (p.x - q.x).natAbs ∨ 3 < (p.y - q.y).natAbs

/-- The class HEADING fails: of a LINE (R13), of an arc (R14). -/
def Segment.headingOff (seg : Segment) : Prop :=
  let dx := seg.stopAt.x - seg.startAt.x
  let dy := seg.stopAt.y - seg.startAt.y
  if seg.kind = .line then
    seg.exitHeading ≠ seg.entryHeading ∨
      2 < roundNat (dx * sine seg.entryHeading - dy * cosine seg.entryHeading).natAbs 65536 ∨
      dx * cosine seg.entryHeading + dy * sine seg.entryHeading ≤ 0
  else
    seg.startAt.apart (seg.implied seg.radius seg.entryHeading) ∨
      ∀ n, isRoot n (seg.centre.square seg.stopAt) → seg.stopAt.apart (seg.implied n seg.exitHeading)

/-- The junction delta from the tail heading (R16). -/
def Segment.deltaFrom (seg : Segment) (tail : Nat) : Int :=
  let d := ((seg.entryHeading : Int) - tail) % 36000
  if d ≤ 18000 then d else d - 36000

/-- The class PIVOT fails, and its action is not ACCEPT (R16, R19). -/
def Segment.pivotOff (seg : Segment) (s : State) : Prop :=
  s.params.polPivot ≠ .accept ∧ seg.pivotOk = false ∧
    ∃ h1, s.store.tailHeading = some h1 ∧ s.params.pivotLimit < (seg.deltaFrom h1).natAbs

/-! ## What every step keeps -/

/-- How far after the execution pointer a slot of the window stands, in ring order (R24). -/
def Store.place (st : Store) (i : Nat) : Nat :=
  if st.execPtr ≤ i then i - st.execPtr else i + st.size - st.execPtr

/-- The window of the Store: the slots in their canonical form, slot numbers strictly rising; a window that fits, with
no slot outside it and its pointers within it (R21, R23); in STREAM mode an unbroken run of slots from the execution
pointer up to the write pointer, in ring order (R24); in REPEAT mode the slots below the write pointer filled and no
other (R25); and the slot `active`, if there is one, is the one at the execution pointer, and the only ACTIVE slot
(R22). -/
structure Store.windowOk (st : Store) (active : Option Nat) : Prop where
  order : st.wf = true
  window : st.winBegin + 7 ≤ st.winEnd ∧ st.winEnd ≤ 511
  inside : ∀ i, st.slot i ≠ none → st.winBegin ≤ i ∧ i ≤ st.winEnd
  execPtr : st.winBegin ≤ st.execPtr ∧ st.execPtr ≤ st.winEnd
  writePtr : st.winBegin ≤ st.writePtr ∧ (st.writePtr ≤ st.winEnd ∨ (st.mode = .repeating ∧ st.writePtr = st.winEnd + 1))
  ring : st.mode = .stream →
    st.writePtr = (if st.execPtr + st.slots.length ≤ st.winEnd then st.execPtr + st.slots.length
      else st.execPtr + st.slots.length - st.size) ∧
    st.slots.length ≤ st.size ∧
    ∀ i, st.winBegin ≤ i → i ≤ st.winEnd → (st.slot i ≠ none ↔ st.place i < st.slots.length)
  filled : st.mode = .repeating →
    st.winBegin + st.slots.length = st.writePtr ∧ (st.execPtr < st.writePtr ∨ st.execPtr = st.winBegin) ∧
    ∀ i, st.slot i ≠ none ↔ st.winBegin ≤ i ∧ i < st.writePtr
  oneActive : ∀ i sl, st.slot i = some sl → sl.state = .active → active = some i
  taken : ∀ i, active = some i → i = st.execPtr ∧ ∃ sl, st.slot i = some sl ∧ sl.state = .active

/-- The Store with the segment the Interpolator is on: the window stands as its rules say, a segment is active only
while a job runs (R59, R70), and a controlled stop is in progress only in STOPPING, with no active segment when it was
entered from MOTION (R141). -/
structure State.slotsOk (s : State) : Prop where
  window : s.store.windowOk s.interp.active
  running : s.interp.active.isSome = true → s.job.state.inJob = true
  stop : s.guard.stop.isSome = true → s.job.state = .stopping
  motion : s.guard.stop = some .motion → s.interp.active = none

/-- The request queue holds at most 8 entries and the notice queue at most 16 notices (R160); while the Link hands
requests on, every entry of the queue has been taken (R165). -/
def State.queuesOk (s : State) : Prop :=
  s.link.requests.length ≤ 8 ∧ s.link.notices.length ≤ 16 ∧
    (s.link.stopped = false → ∀ e ∈ s.link.requests, e.mark ≠ .untaken)

/-- What the job state goes with: a non-empty latch (R140), the period timer (R60) and the mode the job was started in
(R147), a traverse (R130), a HOME (R127), the traverse period timer (R121), the held flag (R147), the starve dwell
(R154), and in FAULT no steps to issue (R140). -/
structure State.modesOk (s : State) : Prop where
  latch : s.guard.latch ≠ 0 → s.job.state = .stopping ∨ s.job.state = .fault
  period : s.interp.timer.isSome = true → s.job.state.inJob = true
  move : s.axes.traverse.isSome = true → s.job.state = .motion ∨ s.job.state = .stopping
  homing : s.axes.home.isSome = true → s.job.state = .motion ∨ s.job.state = .stopping
  oneMotion : s.axes.traverse.isSome = true → s.axes.home = none
  apart : s.interp.timer.isSome = true → s.axes.home = none
  held : s.job.held = true → s.job.state = .holding
  dwell : s.job.dwell.isSome = true → s.job.state = .starved
  starved : s.job.state = .starved → s.interp.active = none
  mode : s.interp.timer.isSome = true → s.job.mode = s.store.mode
  traversing : s.axes.timer.isSome = true → s.job.state = .motion ∨ s.job.state = .stopping
  still : s.job.state = .fault → ∀ a, (s.axes.get a).steps = 0

/-- In FAULT the blade is not driven: the PWM duty is 0 (R140). -/
def State.faultOk (s : State) : Prop :=
  s.job.state = .fault → s.stroke.state.driven = false ∧ s.stroke.duty = 0

/-- The blade is driven only in SPINUP, RUN and IDLE (R94, R101, R104, R105): elsewhere the duty is 0; at rest the
index record, M and the timers are cleared. -/
structure State.bladeOk (s : State) : Prop where
  undriven : s.stroke.state.driven = false → s.stroke.duty = 0
  atRest : s.stroke.state = .off ∨ s.stroke.state = .stalled →
    s.stroke.index = none ∧ s.stroke.m = 0 ∧ s.stroke.stallTimer = none
  spinup : s.stroke.spinTimer.isSome = true → s.stroke.state = .spinup
  duty : s.stroke.duty ≤ 1000
  cycle : s.stroke.pwmDuty ≤ 1000
  rate : s.stroke.m ≤ 9000
  startDuty : s.params.startDuty ≤ 1000

/-- Every parameter lies in its range and holds against its related parameters (12.6 and the rules it names). -/
structure State.paramsOk (s : State) : Prop where
  accel : 5 ≤ s.params.accel ∧ s.params.accel ≤ s.params.stopDecel ∧ s.params.stopDecel ≤ 400 ∧ s.params.accel ≤ 200
  overridePct : 10 ≤ s.params.overridePct ∧ s.params.overridePct ≤ 150
  advanceLimit : 10 ≤ s.params.advanceLimit ∧ s.params.advanceLimit ≤ 1000
  blendAngle : s.params.blendAngle ≤ 1500
  pivotLimit : 1000 ≤ s.params.pivotLimit ∧ s.params.pivotLimit ≤ 18000
  cornerFloor : s.params.cornerFloor ≤ 5000
  pivotRate : 1 ≤ s.params.pivotRate ∧ s.params.pivotRate ≤ 100
  linkFeed : 100 ≤ s.params.linkFeed ∧ s.params.linkFeed ≤ 30000
  strokes : 600 ≤ s.params.strokeIdle ∧ s.params.strokeIdle ≤ s.params.strokeCut ∧ 1200 ≤ s.params.strokeCut ∧
    s.params.strokeCut ≤ 9000
  startDuty : s.params.startDuty ≤ 1000
  ki : 1 ≤ s.params.ki ∧ s.params.ki ≤ 64
  lockBand : 20 ≤ s.params.lockBand ∧ s.params.lockBand ≤ 600
  lockCount : 2 ≤ s.params.lockCount ∧ s.params.lockCount ≤ 64
  stallTime : 20 ≤ s.params.stallTime ∧ s.params.stallTime ≤ 500
  spinupLimit : 100 ≤ s.params.spinupLimit ∧ s.params.spinupLimit ≤ 5000
  thresholds : s.params.t1 < s.params.t2 ∧ s.params.t2 < s.params.t3 ∧ s.params.t3 ≤ 1023
  derates : s.params.d0 ≤ 256 ∧ s.params.d1 ≤ 256 ∧ s.params.d2 ≤ 256 ∧ s.params.d3 ≤ 256
  hyst : s.params.hyst ≤ 63
  overload : s.params.overload ≤ 1023
  overloadCount : 1 ≤ s.params.overloadCount ∧ s.params.overloadCount ≤ 32
  samplePhase : s.params.samplePhase ≤ 5000
  travel : 1000 ≤ s.params.travelX ∧ 1000 ≤ s.params.travelY
  traverseFeed : 100 ≤ s.params.traverseFeed ∧ s.params.traverseFeed ≤ 50000
  homeFeed : 100 ≤ s.params.homeFeed ∧ s.params.homeFeed ≤ 5000
  homeSearch : 1000 ≤ s.params.homeSearch ∧ s.params.homeSearch ≤ 260000
  starveDwell : 100 ≤ s.params.starveDwell ∧ s.params.starveDwell ≤ 30000
  flow : 1 ≤ s.params.flowHold ∧ s.params.flowHold ≤ 64 ∧ s.params.flowHold < s.params.flowGo ∧ s.params.flowGo ≤ 128
  lowWater : s.params.lowWater ≤ 300000
  frameTimeout : 5 ≤ s.params.frameTimeout ∧ s.params.frameTimeout ≤ 500
  policies : policyAllowed .length s.params.polLength = true ∧ policyAllowed .radius s.params.polRadius = true ∧
    policyAllowed .heading s.params.polHeading = true ∧ policyAllowed .pivot s.params.polPivot = true
  inputs : ∀ i, (s.guard.input i).filter ≤ 15 ∧ (actionFixed i = true → (s.guard.input i).action = .halt)

/-- Ranges the rules promise: the accumulator, the band, the result and its flag (R108, R110, R115), the governed feed
(R82), the C position (R123), the plan span (R48), and an axis that is not enabled is UNREFERENCED (R124). -/
structure State.rangesOk (s : State) : Prop where
  acc : s.load.acc ≤ 8184
  band : s.load.band ≤ 3
  result : s.load.result ≤ 1023
  valid : s.load.inFlight.isSome = true → s.load.valid = false
  feed : s.gov.v ≤ 30000 ∧ s.gov.vprev ≤ 30000
  cPosition : 0 ≤ s.axes.c.pos ∧ s.axes.c.pos ≤ 35999
  span : s.planner.spanCount ≤ 64
  enabled : ∀ a, (s.axes.get a).enable = false → (s.axes.get a).ref = .unreferenced

end Sys2Proof.Machine
end

