-- ==== Sys2Proof/WellFormed.lean ====
section
/-! DEFINITION. Which commands can come from the line as they stand: the lengths the frame and the APPEND body allow. -/

namespace Sys2Proof

/-- An APPEND body lies within the bounds of BAD_SIZE, 5 to 33 bytes (R165, R173). A frame's length counts the kind and
the body and is at most 250 (R161). Every other operand is as wide as its field. -/
def Instr.wellFormed : Instr → Bool
  | .append body => 5 ≤ body.length && body.length ≤ 33
  | .frameReceived _ body => body.length ≤ 249
  | .ident => true
  | .set _ _ => true
  | .get _ => true
  | .window _ _ _ => true
  | .flush => true
  | .slot _ => true
  | .start _ _ _ => true
  | .hold => true
  | .resume => true
  | .abort => true
  | .clear => true
  | .home _ => true
  | .move _ _ _ => true
  | .blade _ => true
  | .status => true
  | .sample => true
  | .reset => true
  | .hardwareReset _ => true
  | .gapTimerExpiry => true
  | .holdFlowMark => true
  | .goFlowMark => true
  | .txFrameStart => true
  | .txFrameEnd => true
  | .flowMarkSend => true
  | .interpolationPeriodExpiry => true
  | .indexArrival _ => true
  | .spinupTimerExpiry => true
  | .stallTimerExpiry => true
  | .coastTimerExpiry => true
  | .phaseDelayExpiry => true
  | .settlingComplete => true
  | .measuringComplete _ => true
  | .inputRawChange _ _ => true
  | .filterTimerExpiry _ => true
  | .traversePeriodExpiry => true
  | .starveDwellExpiry => true
  | .receivedByte _ _ => true
  | .stepIssued _ => true

end Sys2Proof
end

