-- ==== Sys2Proof/Certificates/Slice0/Obligations.lean ====
section
/-! DEFINITION. The statements for the provers. -/

section

open Sys2Proof Sys2Proof.Machine

/-! ## The step -/

/-- A step runs the command at the front of the queue on the state with the rest of the queue. -/
def Obligations.StepRunsFront : Prop :=
  ∀ (c : Instr) (rest : List Instr) (s : State),
    s.pending = c :: rest → step s = exec c { s with pending := rest }

/-- The model's choice (log entry 1): with no command waiting, the step takes the request the Link hands next, and with
none of those either, 1 µs passes. The time base and every running timer count on, the phase delay counts down and the
conversion in flight on. A PWM cycle of 50 µs ends with its 50th µs, and the next takes the duty as it then stands (R94;
log entries 21 and 23). The transmitter's character in progress goes on and ends after ten bits; no further byte of the
frame begins while the host holds the transmitter or a flow mark waits, and a frame just begun has no character in
progress (R163, R164; log entry 33). Several µs at once, as INDEX_ARRIVAL lets pass, are so many of 1 µs. The blade
motor output is high for duty × 50 ns of each cycle from its begin (R94; log entry 21). -/
def Obligations.EmptyQueueStep : Prop :=
  (∀ s : State, s.pending = [] →
    (∀ i, s.dueRequest = some i → step s = exec i s) ∧
    (s.dueRequest = none → step s = .next (elapse 1 s))) ∧
  (∀ s : State,
    let t := elapse 1 s
    Keeps [.timeBase, .interp, .stroke, .load, .axes, .guard, .job, .link] s t ∧
    t.timeBase = s.timeBase + 1 ∧
    t.interp = { s.interp with timer := s.interp.timer.map (· + 1) } ∧
    t.axes = { s.axes with timer := s.axes.timer.map (· + 1) } ∧
    t.job = { s.job with dwell := s.job.dwell.map (· + 1) } ∧
    t.guard = { s.guard with inputs := t.guard.inputs } ∧
    (∀ i, t.guard.input i = { s.guard.input i with timer := (s.guard.input i).timer.map (· + 1) }) ∧
    t.stroke =
      { s.stroke with
        spinTimer := s.stroke.spinTimer.map (· + 1)
        stallTimer := s.stroke.stallTimer.map (· + 1)
        pwmDuty := if 50 ≤ s.stroke.pwmPhase + 1 then s.stroke.duty else s.stroke.pwmDuty
        pwmPhase := (s.stroke.pwmPhase + 1) % 50 } ∧
    t.load = { s.load with inFlight := t.load.inFlight, phase := s.load.phase.map (· - 1) } ∧
    (s.load.inFlight = none → t.load.inFlight = none) ∧
    (∀ n, s.load.inFlight = some (.settling n) → t.load.inFlight = some (.settling (n + 1))) ∧
    (∀ n, s.load.inFlight = some (.measuring n) → t.load.inFlight = some (.measuring (n + 1))) ∧
    t.link = { s.link with gap := s.link.gap.map (· + 1), tx := t.link.tx, charTime := t.link.charTime } ∧
    (s.link.tx = none → t.link.tx = none ∧ t.link.charTime = s.link.charTime) ∧
    ∀ f, s.link.tx = some f →
      let waits := s.link.held = true ∨ s.link.marks ≠ []
      let time := s.link.charTime + s.link.rate.bits
      (waits → s.link.charTime = 0 → t.link = { s.link with gap := t.link.gap }) ∧
      (waits → 0 < s.link.charTime →
        (time < 10000000 → t.link.tx = some f ∧ t.link.charTime = time) ∧
        (10000000 ≤ time → t.link.tx = some { f with sent := f.sent + 1 } ∧ t.link.charTime = 0)) ∧
      (¬waits →
        (f.sent + time / 10000000 < f.line.length →
          t.link.tx = some { f with sent := f.sent + time / 10000000 } ∧ t.link.charTime = time % 10000000) ∧
        (f.line.length ≤ f.sent + time / 10000000 →
          t.link.tx = some { f with sent := f.line.length } ∧ t.link.charTime = 0))) ∧
  (∀ (n : Nat) (s : State), elapse (n + 1) s = elapse 1 (elapse n s)) ∧
  ∀ (k : Stroke) (ns : Nat),
    (k.outputAt ns = true ↔ ns < k.pwmDuty * 50) ∧ k.output = k.outputAt (k.pwmPhase * 1000) ∧
    (k.pwmDuty = 0 → k.outputAt ns = false) ∧ (k.pwmDuty = 1000 → ns < 50000 → k.outputAt ns = true)

/-! ## Resets -/

/-- HARDWARE_RESET leaves every block and every parameter at its reset value, samples the straps for the line rate,
takes every accepted level from its pin, and sends nothing. The waiting commands, the time base, the pins, the place
within the PWM cycle and the model's own counter run on (log entry 26). That the empty plan span records the first slot
0 and the frontier 0 is the model's choice (log entry 32). -/
def Obligations.HardwareResetLeaves : Prop :=
  ∀ (straps : BitVec 2) (s : State), ∃ t,
    exec (.hardwareReset straps) s = .next t ∧
    Keeps [.params, .store, .planner, .interp, .gov, .stroke, .load, .axes, .guard, .job, .link] s t ∧
    t.params =
      { accel := 30, stopDecel := 100, overridePct := 100, advanceLimit := 300, blendAngle := 500, pivotLimit := 9000,
        cornerFloor := 500, pivotRate := 18, linkFeed := 20000, strokeCut := 4800, strokeIdle := 2400,
        startDuty := 350, ki := 8, lockBand := 120, lockCount := 8, stallTime := 120, spinupLimit := 1500, t1 := 300,
        t2 := 550, t3 := 800, d0 := 256, d1 := 224, d2 := 176, d3 := 128, hyst := 16, overload := 960,
        overloadCount := 6, samplePhase := 800, bandNotice := false, travelX := 220000, travelY := 130000,
        traverseFeed := 20000, homeFeed := 2000, homeSearch := 230000, starveDwell := 3000, flowHold := 4,
        flowGo := 16, lowWater := 5000, frameTimeout := 50, polLength := .reject, polRadius := .reject,
        polHeading := .reject, polPivot := .reject } ∧
    t.store =
      { slots := [], winBegin := 0, winEnd := 511, mode := .stream, writePtr := 0, execPtr := 0, tailOpen := false,
        tailPoint := none, tailHeading := none, origin := none, chainClosed := false, executedHeading := none,
        flowHeld := false, armed := false, arrival := 0 } ∧
    t.planner = { spanFirst := 0, spanCount := 0, frontier := 0, p0 := 256, p1 := 224, p2 := 176, p3 := 128 } ∧
    t.interp =
      { timer := none, active := none, p := 0, pivot := 0, pivotNeg := false, pause := 0, link := none, pass := 0,
        startPending := false, targetX := 0, targetY := 0, targetC := 0 } ∧
    t.gov = { v := 0, vprev := 0, stage := .zero, vreq := 0, vplan := 0, vstroke := 0 } ∧
    t.stroke =
      { state := .off, duty := 0, pwmDuty := 0, pwmPhase := s.stroke.pwmPhase, index := none, m := 0, lock := 0,
        spinTimer := none, stallTimer := none } ∧
    t.load =
      { powered := false, settled := false, inFlight := none, reqStroke := false, reqLink := false, result := 0,
        valid := false, phase := none, acc := 0, band := 0, run := 0 } ∧
    (∀ a, t.axes.get a =
      { pos := 0, ref := .unreferenced, enable := false, dirHigh := false, steps := 0, phase := .none, speed := 0,
        moved := 0, outcome := .none }) ∧
    t.axes.home = none ∧ t.axes.traverse = none ∧ t.axes.timer = none ∧
    t.guard.latch = 0 ∧ t.guard.stop = none ∧
    (∀ i, t.guard.input i =
      { raw := (s.guard.input i).raw
        accepted := (s.guard.input i).raw
        timer := none
        filter := 2
        action :=
          match i with
          | .door => .stop
          | .homeX => .ignore
          | .homeY => .ignore
          | .homeC => .ignore
          | .aux => .notice
          | _ => .halt
        notifyRelease := false }) ∧
    t.job =
      { state := .idle, mode := .stream, held := false, passesProgrammed := 1, passesDone := 0, offX := 0, offY := 0,
        executed := 0, lastCompleted := none, dwell := none } ∧
    t.link =
      { rate := t.link.rate, straps := straps, rx := .hunt, esc := false, gap := none, requests := [], stopped := false,
        notices := [], tx := none, charTime := 0, marks := [], held := false, rxFault := false, noticeLost := false } ∧
    t.link.rate.bits = (if straps = 0 then 115200 else if straps = 1 then 460800 else if straps = 2 then 921600
      else 2000000)

/-- The state after power-up meets every condition the steps keep. -/
def Obligations.ConditionsAtReset : Prop :=
  State.reset.slotsOk ∧ State.reset.queuesOk ∧ State.reset.modesOk ∧ State.reset.faultOk ∧ State.reset.bladeOk ∧
    State.reset.paramsOk ∧ State.reset.rangesOk

/-! ## Frames of the line -/

/-- A kind and a body spell a request if and only if they are that request's own frame and the request is well-formed:
every well-formed request is read back from its frame, every field at every value, and no other kind or body spells it.
-/
def Obligations.RequestRoundTrip : Prop :=
  ∀ (i : Instr) (kind : Byte) (body : List Byte),
    judgeRequest kind body = .request i ↔ requestFrame i = some (kind, body) ∧ i.wellFormed = true

/-- A frame on the line: FRAME_START, then the length, the kind, the body and the check, each reserved value sent as
ESCAPE and the value XOR 0x20, so that none of these bytes is FRAME_START, HOLD or GO; the length, the kind, the body
and the check sum to 0. -/
def Obligations.FrameOnTheLine : Prop :=
  (∀ (kind : Byte) (body : List Byte),
    frameLine kind body =
      0xA5 :: (BitVec.ofNat 8 (body.length + 1) :: kind :: body ++ [frameCheck kind body]).flatMap escaped ∧
    byteSum (BitVec.ofNat 8 (body.length + 1) :: kind :: body ++ [frameCheck kind body]) = 0 ∧
    ∃ rest, frameLine kind body = 0xA5 :: rest ∧ ∀ b ∈ rest, b ≠ 0xA5 ∧ b ≠ 0xA7 ∧ b ≠ 0xA8) ∧
  escaped 0xA5 = [0xA6, 0x85] ∧ escaped 0xA6 = [0xA6, 0x86] ∧ escaped 0xA7 = [0xA6, 0x87] ∧
  escaped 0xA8 = [0xA6, 0x88] ∧
  ∀ b : Byte, b ≠ 0xA5 → b ≠ 0xA6 → b ≠ 0xA7 → b ≠ 0xA8 → escaped b = [b]

/-- The bytes of a frame received from HUNT, one by one, leave what FRAME_RECEIVED of its kind and body leaves. -/
def Obligations.FrameBytesTaken : Prop :=
  ∀ (kind : Byte) (body : List Byte) (s : State), body.length ≤ 249 → s.link.rx = .hunt →
    ∃ t, receiveBytes (frameLine kind body) s = some t ∧ exec (.frameReceived kind body) s = .next t

/-- FRAME_RECEIVED: the receiver is in HUNT. With 8 entries in the request queue the frame is discarded with RX_FAULT.
With room and every earlier entry taken, the Link answers BAD_KIND and BAD_SIZE itself, and any other request is taken
at once, as its own command takes it; that command leaves the same whether its frame comes with it or already stands
untaken (log entry 4). After a RESET request the entry is left untaken. -/
def Obligations.CompleteFrameQueued : Prop :=
  (∀ (kind : Byte) (body : List Byte) (s : State), body.length ≤ 249 →
    let hunting := s.mapLink fun l => { l with rx := .hunt, esc := false, gap := none }
    let queued (m : Mark) : Host.Outcome State Fault Refusal :=
      .next (hunting.mapLink fun l => { l with requests := l.requests ++ [⟨kind, body, m⟩] })
    (8 ≤ s.link.requests.length → exec (.frameReceived kind body) s =
      .next (hunting.mapLink fun l =>
        { l with rxFault := true, tx := l.tx.map fun f => { f with clearsRx := false } })) ∧
    (s.ready → exec (.frameReceived kind body) s =
      match judgeRequest kind body with
      | .badKind => queued (.ready ⟨.badKind, []⟩)
      | .badSize => queued (.ready ⟨.badSize, []⟩)
      | .request i => exec i hunting) ∧
    (s.link.stopped = true → s.link.requests.length < 8 → exec (.frameReceived kind body) s = queued .untaken)) ∧
  ∀ (i : Instr) (kind : Byte) (body : List Byte) (s : State), i.wellFormed = true →
    requestFrame i = some (kind, body) → s.ready → exec i (s.arrived i) = exec i s

/-- RECEIVED_BYTE in HUNT: a low stop bit does nothing (R160); FRAME_START begins a frame and starts the gap timer; any
other byte that is no flow mark is discarded without an error and, the timer being stopped in HUNT, starts none (log
entry 14). -/
def Obligations.HuntTakesOnlyFrameStart : Prop :=
  ∀ (b : Byte) (s : State), s.link.rx = .hunt →
    exec (.receivedByte b false) s = .next s ∧
    (b ≠ 0xA7 → b ≠ 0xA8 → exec (.receivedByte b true) s =
      .next (if b = 0xA5 then s.mapLink fun l => { l with rx := .length, esc := false, gap := some 0 } else s))

/-- A receive error discards the frame in progress, sets RX_FAULT and returns the receiver to HUNT: a low stop bit, a
byte after ESCAPE that is no escaped value, a length outside 1..250, a check that does not make the sum of the length,
the bytes after it and the check 0 modulo 256, the gap timer's expiry; and an unescaped FRAME_START, which also begins a
new frame. A gap timer short of FRAME_TIMEOUT does nothing (log entry 2). -/
def Obligations.ReceiveErrors : Prop :=
  ∀ s : State, s.link.rx ≠ .hunt →
    let lost : Link :=
      { s.link with
        rx := .hunt, esc := false, gap := none, rxFault := true,
        tx := s.link.tx.map fun f => { f with clearsRx := false } }
    (∀ b, exec (.receivedByte b false) s = .next { s with link := lost }) ∧
    exec (.receivedByte 0xA5 true) s = .next { s with link := { lost with rx := .length, gap := some 0 } } ∧
    (s.link.esc = true → ∀ b : Byte, b ∉ [0xA5, 0xA7, 0xA8, 0x85, 0x86, 0x87, 0x88] →
      exec (.receivedByte b true) s = .next { s with link := lost }) ∧
    (s.link.rx = .length → s.link.esc = false → ∀ b : Byte, b.toNat = 0 ∨ 250 < b.toNat →
      exec (.receivedByte b true) s = .next { s with link := lost }) ∧
    (∀ (len : Nat) (taken : List Byte) (b check : Byte), s.link.rx = .check len taken →
      s.link.esc = false ∧ b ∉ [0xA5, 0xA6, 0xA7, 0xA8] ∧ check = b ∨
        s.link.esc = true ∧ b ∈ [0x85, 0x86, 0x87, 0x88] ∧ check = b ^^^ 0x20 →
      (len + (taken.map BitVec.toNat).sum + check.toNat) % 256 ≠ 0 →
      exec (.receivedByte b true) s = .next { s with link := lost }) ∧
    (timerOut s.link.gap s.params.frameTimeout → exec .gapTimerExpiry s = .next { s with link := lost }) ∧
    (¬timerOut s.link.gap s.params.frameTimeout → exec .gapTimerExpiry s = .next s)

/-- A HOLD of the host sets the transmit-held flag and a GO clears it; beside that they restart a running gap timer,
start none in HUNT (log entry 14) and change nothing. The byte 0xA7 or 0xA8 received is that flow mark, in every
receiver state and within an escape. -/
def Obligations.HostFlowMarks : Prop :=
  ∀ s : State,
    exec .holdFlowMark s = .next (s.mapLink fun l => { l with held := true, gap := l.gap.map fun _ => 0 }) ∧
    exec .goFlowMark s = .next (s.mapLink fun l => { l with held := false, gap := l.gap.map fun _ => 0 }) ∧
    exec (.receivedByte 0xA7 true) s = exec .holdFlowMark s ∧ exec (.receivedByte 0xA8 true) s = exec .goFlowMark s

/-! ## The transmitter -/

/-- The idle, unheld transmitter sends the reply of the oldest request when it is ready, otherwise the oldest notice,
which leaves its queue, otherwise nothing. The digest is formed from the state the frame begins in. The frame whose end
resets the part is the reply OK of a RESET request, and no other. A transmitter that is busy or held begins nothing. -/
def Obligations.TransmitterChoice : Prop :=
  ∀ s : State,
    ((s.link.tx ≠ none ∨ s.link.held = true) → exec .txFrameStart s = .next s) ∧
    (s.link.tx = none → s.link.held = false →
      (∀ e rest r, s.link.requests = e :: rest → e.mark = .ready r → ∃ t f,
        exec .txFrameStart s = .next t ∧ Keeps [.link] s t ∧ t.link = { s.link with tx := some f, charTime := 0 } ∧
        f.line = frameLine (if r.code = .badKind then 0x7F else e.kind + 0x40)
          (digest s :: BitVec.ofNat 8 r.code.code :: r.data) ∧
        f.sent = 0 ∧ f.isReply = true ∧ (f.resets = true ↔ e.kind = 0x12 ∧ r.code = .ok) ∧
        f.clearsRx = s.link.rxFault ∧ f.clearsLost = s.link.noticeLost) ∧
      ((∀ e rest r, s.link.requests = e :: rest → e.mark ≠ .ready r) →
        (∀ n rest, s.link.notices = n :: rest → ∃ t f,
          exec .txFrameStart s = .next t ∧ Keeps [.link] s t ∧
          t.link = { s.link with notices := rest, tx := some f, charTime := 0 } ∧
          f.line = frameLine n.kind (digest t :: n.data) ∧
          f.sent = 0 ∧ f.isReply = false ∧ f.resets = false ∧ f.clearsRx = s.link.rxFault ∧
          f.clearsLost = s.link.noticeLost) ∧
        (s.link.notices = [] → exec .txFrameStart s = .next s)))

/-- The last byte of a frame sent: a reply's entry leaves the request queue, RX_FAULT and NOTICE_LOST are cleared when
the frame's digest carried them, and the next frame is chosen as TX_FRAME_START chooses it, a ready reply before the
notices. The end of the RESET reply resets the part as a hardware reset does and keeps the line rate and the straps.
With no frame being sent, or its last byte still to come behind a flow mark or the host's HOLD, nothing happens, and no
frame is chosen while the host holds the transmitter (log entries 2 and 13). -/
def Obligations.FrameEnd : Prop :=
  ∀ s : State,
    (s.link.tx = none → exec .txFrameEnd s = .next s) ∧
    ∀ f, s.link.tx = some f →
      let sendable := (s.link.held = false ∧ s.link.marks = []) ∨ f.line.length ≤ f.sent ∨
        (f.sent + 1 = f.line.length ∧ 0 < s.link.charTime)
      (¬sendable → exec .txFrameEnd s = .next s) ∧
      (sendable → f.resets = false →
        (∃ t, exec .txFrameEnd s = .next t ∧ Keeps [.link] s t ∧
          t.link.requests = (if f.isReply then s.link.requests.tail else s.link.requests) ∧
          t.link.rxFault = (s.link.rxFault && !f.clearsRx) ∧
          t.link.noticeLost = (s.link.noticeLost && !f.clearsLost) ∧
          (t.link.requests = [] → s.link.notices = [] → t.link.tx = none) ∧
          (s.link.held = false → t.link.requests = [] → ∀ n rest, s.link.notices = n :: rest →
            t.link.notices = rest ∧ t.link.tx ≠ none) ∧
          (s.link.held = false → ∀ e rest r, t.link.requests = e :: rest → e.mark = .ready r →
            t.link.notices = s.link.notices ∧ ∃ g, t.link.tx = some g ∧ g.isReply = true)) ∧
        exec .txFrameEnd s = exec .txFrameStart (s.mapLink fun l =>
          { l with
            tx := none
            charTime := 0
            requests := if f.isReply then l.requests.tail else l.requests
            rxFault := l.rxFault && !f.clearsRx
            noticeLost := l.noticeLost && !f.clearsLost })) ∧
      (sendable → f.resets = true → ∃ t u,
        exec .txFrameEnd s = .next t ∧ exec (.hardwareReset s.link.straps) s = .next u ∧
        t = u.mapLink (fun l => { l with rate := s.link.rate }) ∧
        t.link.straps = s.link.straps ∧ t.link.requests = [] ∧ t.link.notices = [] ∧ t.link.tx = none)

/-- The oldest flow mark handed is sent, whether or not the host holds the transmitter; the frame it interrupts goes on
after it. A character in progress ends first; a frame just begun has none in progress, so the mark goes before its
FRAME_START (log entry 33). -/
def Obligations.FlowMarkSent : Prop :=
  ∀ (m : FlowMark) (rest : List FlowMark) (s : State), s.link.marks = m :: rest → ∃ t,
    exec .flowMarkSend s = .next t ∧ Keeps [.link] s t ∧
    t.link = { s.link with marks := rest, tx := t.link.tx, charTime := 0 } ∧
    (s.link.charTime = 0 → t.link.tx = s.link.tx) ∧
    (0 < s.link.charTime → t.link.tx = s.link.tx.map fun f => { f with sent := f.sent + 1 })

/-- The status digest: bits 0 to 2 the job's state code, bit 3 F, bit 4 H, bit 5 N, bit 6 E, bit 7 L. -/
def Obligations.StatusDigestBits : Prop :=
  ∀ s : State,
    (digest s).toNat % 8 = s.job.state.code ∧
    ((digest s).getLsbD 3 = true ↔ s.guard.latch ≠ 0) ∧
    (digest s).getLsbD 4 = s.store.flowHeld ∧
    ((digest s).getLsbD 5 = true ↔ s.link.notices ≠ []) ∧
    (digest s).getLsbD 6 = s.link.rxFault ∧
    (digest s).getLsbD 7 = s.link.noticeLost

/-- A notice handed joins the notice queue while it holds fewer than 16; otherwise it is dropped and NOTICE_LOST is set.
Nothing else changes but that a frame under way no longer clears the flag. -/
def Obligations.NoticeQueueing : Prop :=
  ∀ (n : Notice) (s : State), Keeps [.link] s (queueNotice n s) ∧
    (s.link.notices.length < 16 → (queueNotice n s).link = { s.link with notices := s.link.notices ++ [n] }) ∧
    (16 ≤ s.link.notices.length → (queueNotice n s).link =
      { s.link with noticeLost := true, tx := s.link.tx.map fun f => { f with clearsLost := false } })

/-! ## Requests that read and set -/

/-- IDENT and STATUS are answered OK with their records and change nothing but the request queue. The STATUS record is
the groups of 12.4 in their order, field by field; a field that is absent is sent as zero (log entry 20). -/
def Obligations.IdentAndStatus : Prop :=
  (∀ s : State, s.ready →
    exec .ident s = .next (s.withEntry .ident (.ready ⟨.ok, identData s⟩)) ∧
    exec .status s = .next (s.withEntry .status (.ready ⟨.ok, statusData (s.arrived .status)⟩)) ∧
    identData s = [0x34, 0x0C, 0x50, 0x0D, Config.siliconRevision, 0x00, 0x02, 8, 16] ++ u32 s.link.rate.bits ++
      [BitVec.ofNat 8 s.link.straps.toNat]) ∧
  ∀ s : State,
    let j := s.job
    let st := s.store
    let n := s.interp
    let g := s.gov
    let k := s.stroke
    let m := s.load
    let origin := st.origin.getD ⟨0, 0⟩
    let frontier := if s.planner.spanCount = 0 then none else some s.planner.frontier
    let axis (a : AxisState) := i32 a.pos ++ u8 a.ref.code ++ flag8 a.enable ++ u8 a.phase.code
    statusData s =
      (u8 j.state.code ++ u8 j.mode.code ++ flag8 j.held ++ u8 j.passesProgrammed ++ u8 j.passesDone ++ i32 j.offX ++
        i32 j.offY ++ u32 j.executed ++ flag8 j.dwell.isSome ++ u16 (j.dwell.getD 0 / 1000) ++
        flag8 j.lastCompleted.isSome ++ u16 (j.lastCompleted.getD 0)) ++
      (u16 st.winBegin ++ u16 st.winEnd ++ u8 st.mode.code ++ u16 st.writePtr ++ u16 st.execPtr ++
        u16 st.slots.length ++ u16 (st.winEnd - st.winBegin + 1 - st.slots.length) ++ flag8 st.tailOpen ++
        i32 origin.x ++ i32 origin.y ++ flag8 st.chainClosed ++ u16 (st.executedHeading.getD 0) ++
        flag8 st.flowHeld ++ flag8 st.armed ++ u8 s.planner.spanCount ++ u16 (frontier.getD 0) ++
        u8 (bits [st.origin.isSome, st.executedHeading.isSome, frontier.isSome])) ++
      (u16 (n.active.getD 0) ++ u32 n.p ++ u16 n.pivot ++ flag8 (n.pivotNeg && decide (n.pivot ≠ 0)) ++ u16 n.pause ++
        u8 n.pass ++ flag8 n.startPending ++ u32 ((n.link.map LinkMove.length).getD 0) ++ u16 n.targetC ++
        u8 (bits [n.active.isSome, n.link.isSome])) ++
      (u16 g.v ++ u16 g.vprev ++ u8 g.stage.code ++ u16 g.vreq ++ u32 g.vplan ++ u32 g.vstroke) ++
      (u8 k.state.code ++
        u16 (if k.state = .spinup ∨ k.state = .run then s.params.strokeCut
          else if k.state = .idle then s.params.strokeIdle else 0) ++
        u16 k.duty ++ u16 k.m ++ u8 k.lock) ++
      (flag8 m.powered ++ flag8 m.settled ++
        u8 (match m.inFlight with | none => 0 | some (.settling _) => 1 | some (.measuring _) => 2) ++
        u8 (bits [m.reqStroke, m.reqLink]) ++ u16 m.result ++ flag8 m.valid ++ u16 m.acc ++ u16 (m.acc / 8) ++
        u8 m.band ++ u8 m.run) ++
      (axis s.axes.x ++ axis s.axes.y ++ axis s.axes.c) ++
      (u32 ((s.axes.traverse.map Traverse.length).getD 0) ++ u32 ((s.axes.traverse.map Traverse.p).getD 0) ++
        u16 ((s.axes.traverse.map Traverse.v).getD 0)) ++
      (u16 (bits (allInputs.map fun i => (s.guard.input i).raw)) ++
        u16 (bits (allInputs.map fun i => (s.guard.input i).accepted)) ++ u16 s.guard.latch.toNat ++
        flag8 s.guard.stop.isSome ++ u8 ((s.guard.stop.map JobState.code).getD 0)) ++
      (u8 s.link.requests.length ++ u8 s.link.notices.length ++ flag8 s.link.held ++ flag8 s.link.rxFault ++
        flag8 s.link.noticeLost)

/-- The records and the notices have the sizes of chapter 12; each notice has its kind code and its fields in their
order; fields are little-endian and signed ones in two's complement; the codes are those of 12.2 and of the state code
of the digest; and a segment body is read as the one record whose body it is, every other body being refused. -/
def Obligations.RecordSizes : Prop :=
  (∀ s : State, (identData s).length = 14 ∧ (statusData s).length = 154 ∧
    ∀ i, (slotData s i).length = if s.store.slot i = none then 3 else 78) ∧
  (∀ (k : StrokeState) (m : Load), (sampleReply k m).data.length = 6) ∧
  (∀ n : Notice, n.data.length =
    match n with
    | .tag _ _ _ => 4
    | .pass _ => 1
    | .done _ _ => 5
    | .stopped _ _ _ => 4
    | .held _ _ => 9
    | .low _ => 4
    | .starved _ _ => 4
    | .edge _ _ => 2
    | .band _ _ _ => 4
    | .homed _ _ _ _ => 16
    | .moved _ _ _ => 10) ∧
  (∀ n : Notice, (n.kind, n.data) =
    match n with
    | .tag tag number pass => (0x81, u8 tag ++ u16 number ++ u8 pass)
    | .pass done => (0x82, u8 done)
    | .done executed passes => (0x83, u32 executed ++ u8 passes)
    | .stopped category entered latch => (0x84, u8 category.code ++ u8 entered.code ++ u16 latch.toNat)
    | .held segment p =>
      (0x85, flag8 segment.isSome ++ u16 ((segment.map Prod.fst).getD 0) ++ u16 ((segment.map Prod.snd).getD 0) ++ u32 p)
    | .low ahead => (0x86, u32 ahead)
    | .starved last passes => (0x87, flag8 last.isSome ++ u16 (last.getD 0) ++ u8 passes)
    | .edge input active => (0x88, u8 (inputIndex input).val ++ flag8 active)
    | .band now before average => (0x89, u8 now ++ u8 before ++ u16 average)
    | .homed w x y c =>
      (0x8A, u8 (bits [w.x, w.y, w.c]) ++ u8 x.1.code ++ i32 x.2 ++ u8 y.1.code ++ i32 y.2 ++ u8 c.1.code ++ i32 c.2)
    | .moved x y c => (0x8B, i32 x ++ i32 y ++ u16 c)) ∧
  allInputs =
    [.estop, .door, .bladeGuard, .limitX, .limitY, .driveFaultX, .driveFaultY, .driveFaultC, .homeX, .homeY, .homeC,
      .aux] ∧
  allInputs.map (fun i => (inputIndex i).val) = List.range 12 ∧
  (∀ (n : Nat) (z : Int) (b : Bool),
    u8 n = [BitVec.ofNat 8 n] ∧ u16 n = [BitVec.ofNat 8 n, BitVec.ofNat 8 (n / 256)] ∧
    u32 n = [BitVec.ofNat 8 n, BitVec.ofNat 8 (n / 256), BitVec.ofNat 8 (n / 65536), BitVec.ofNat 8 (n / 16777216)] ∧
    i16 z = u16 (z % 65536).toNat ∧ i32 z = u32 (z % 4294967296).toNat ∧ flag8 b = u8 (if b then 1 else 0)) ∧
  (∀ (l : List Bool) (i : Nat), (bits l).testBit i = l.getD i false) ∧
  [ResultCode.ok, .clamped, .corrected, .busy, .full, .rejected, .badKind, .badSize, .badField, .outOfTravel,
    .notReferenced, .notAtOrigin, .empty, .notEmpty, .faultLatched, .inputActive, .chainClosed, .wrongMode, .fixed,
    .noJob, .notHeld].map ResultCode.code = List.range 21 ∧
  [JobState.idle, .motion, .warmup, .cutting, .holding, .starved, .stopping, .fault].map JobState.code = List.range 8 ∧
  [GeometryClass.length, .radius, .heading, .pivot].map GeometryClass.code = List.range 4 ∧
  [PolicyAction.reject, .halt, .correct, .accept].map PolicyAction.code = List.range 4 ∧
  [SegmentKind.line, .arcCw, .arcCcw, .pause].map SegmentKind.code = List.range 4 ∧
  [SlotState.empty, .queued, .planned, .active].map SlotState.code = List.range 4 ∧
  [JunctionClass.start, .smooth, .blend, .pivot, .stop].map JunctionClass.code = List.range 5 ∧
  [Mode.stream, .repeating].map Mode.code = List.range 2 ∧
  [StrokeState.off, .spinup, .run, .idle, .coast, .stalled].map StrokeState.code = List.range 6 ∧
  [Stage.zero, .request, .plan, .stroke, .ceiling, .slew, .holdRamp, .stopRamp].map Stage.code = List.range 8 ∧
  [RefState.unreferenced, .homing, .referenced].map RefState.code = List.range 3 ∧
  [HomingPhase.none, .search, .brake, .backoffSeek, .backoff, .done, .failed].map HomingPhase.code = List.range 7 ∧
  [HomingOutcome.none, .referenced, .search, .switch, .limit, .aborted].map HomingOutcome.code = List.range 6 ∧
  [InputAction.ignore, .notice, .hold, .stop, .halt].map InputAction.code = List.range 5 ∧
  [Category.controlled, .immediate].map Category.code = List.range 2 ∧
  ∀ (body : List Byte) (raw : RawSegment), parseSegment body = some raw ↔ raw.plain ∧ raw.body = body

/-- GET answers the stored value of a parameter and SLOT the record of a slot, or BAD_FIELD; neither changes anything
but the request queue. The SLOT record is that of 12.4, field by field; a field that is absent is sent as zero (log
entry 20). -/
def Obligations.ReadsAnswer : Prop :=
  (∀ s : State, s.ready →
    (∀ id, exec (.get id) s = .next (s.withEntry (.get id) (.ready
      (match s.storedAt id.toNat with
      | none => ⟨.badField, []⟩
      | some h => ⟨.ok, i32 h⟩)))) ∧
    (∀ i, exec (.slot i) s = .next (s.withEntry (.slot i) (.ready
      (if i.toNat ≤ 511 then ⟨.ok, slotData s i.toNat⟩ else ⟨.badField, []⟩))))) ∧
  ∀ (i : Nat) (s : State),
    let inside : Bool := s.store.winBegin ≤ i && i ≤ s.store.winEnd
    (s.store.slot i = none → slotData s i = u8 SlotState.empty.code ++ flag8 inside ++ u8 0) ∧
    ∀ sl, s.store.slot i = some sl →
      let g := sl.seg
      let state : SlotState :=
        match sl.state with
        | .queued => .queued
        | .planned => .planned
        | .active => .active
      let arc : Bool := g.kind = .arcCw || g.kind = .arcCcw
      slotData s i =
        (u8 state.code ++ flag8 inside ++
          u8 (bits [g.tag.isSome, g.hint.isSome, g.advance.isSome, arc, decide (g.kind ≠ .pause), g.junction.isSome])) ++
        (u8 g.kind.code ++ u8 (bits [g.pivotOk, g.last]) ++ i32 g.stopAt.x ++ i32 g.stopAt.y ++ i32 g.centre.x ++
          i32 g.centre.y ++ u32 (if g.kind = .pause then g.duration else g.length) ++ u16 g.entryHeading ++
          u16 g.exitHeading ++ u16 g.feed ++ u8 (g.tag.getD 0) ++ u8 (g.hint.getD 0) ++ u16 (g.advance.getD 0) ++
          u16 g.number ++ i32 g.startAt.x ++ i32 g.startAt.y ++ i32 g.box.minX ++ i32 g.box.maxX ++ i32 g.box.minY ++
          i32 g.box.maxY ++ u32 g.radius ++ u16 g.sweep ++ i16 g.delta ++
          u8 ((g.junction.map JunctionClass.code).getD 0) ++ u16 g.entrySpeed ++ u16 g.exitSpeed ++
          u32 (if sl.state = .active then s.interp.p else 0))

/-- An accepted SET stores the value held in range, answers it, OK when it is the value sent and CLAMPED when not, and
leaves every other parameter but a related one. Beside the parameter it changes nothing but the request queue, except
that STROKE_CUT changed in SPINUP sets the lock counter to 0 (log entry 22), and that STALL_TIME, SPINUP_LIMIT,
STARVE_DWELL, FRAME_TIMEOUT and FILTER, set at or below what their running timer has counted, bring about its expiry in
the same step, which is the expiry command taken with the new limit stored. -/
def Obligations.SetStores : Prop :=
  ∀ (id : Byte) (v : Word) (old : Int) (s : State), s.ready → s.paramsOk → s.storedAt id.toNat = some old →
    ¬setFixed id.toNat → (setIdleOnly id.toNat → s.job.state = .idle) → ¬setUndefined id.toNat v.toInt →
    ∃ (h : Int) (u w : State),
      let n := id.toNat
      s.holds n v.toInt h ∧
      Keeps [.params, .guard] (s.arrived (.set id v)) u ∧ u.storedAt n = some h ∧
      (∀ k, k ≠ n → (n, k) ∉ [(0x01, 0x02), (0x0A, 0x0B), (0x24, 0x25)] → u.storedAt k = s.storedAt k) ∧
      u.guard = { s.guard with inputs := u.guard.inputs } ∧
      (∀ i, u.guard.input i =
        { s.guard.input i with
          filter := (u.guard.input i).filter
          action := (u.guard.input i).action
          notifyRelease := (u.guard.input i).notifyRelease }) ∧
      (match s.expiryOf n h with
        | some i => exec i u = .next w
        | none =>
          w = if n = 0x0A ∧ h ≠ old ∧ s.stroke.state = .spinup then u.mapStroke fun k => { k with lock := 0 } else u) ∧
      exec (.set id v) s =
        .next (w.mapLink fun l =>
          { l with
            requests := s.link.requests ++
              entryOf (.set id v) (.ready ⟨if h = v.toInt then .ok else .clamped, i32 h⟩) })

/-- A SET is refused BAD_FIELD for an unknown identifier, FIXED for a fixed ACTION, BUSY for a parameter of job IDLE in
another state and BAD_FIELD for an undefined code, in this order, and then changes nothing but the request queue. -/
def Obligations.SetRefused : Prop :=
  ∀ (id : Byte) (v : Word) (s : State), s.ready →
    let n := id.toNat
    let known := (1 ≤ n ∧ n ≤ 0x27) ∨ (0x40 ≤ n ∧ n ≤ 0x4B) ∨ (0x50 ≤ n ∧ n ≤ 0x5B) ∨ (0x60 ≤ n ∧ n ≤ 0x6B) ∨
      (0x70 ≤ n ∧ n ≤ 0x73)
    let refusedWith (code : ResultCode) := exec (.set id v) s = .next (s.withEntry (.set id v) (.ready ⟨code, []⟩))
    (¬known → refusedWith .badField) ∧
    (known →
      (setFixed n → refusedWith .fixed) ∧
      (¬setFixed n →
        (setIdleOnly n → s.job.state ≠ .idle → refusedWith .busy) ∧
        ((setIdleOnly n → s.job.state = .idle) → setUndefined n v.toInt → refusedWith .badField)))

/-- A SET of ACCEL above STOP_DECEL raises STOP_DECEL with it, one of STROKE_CUT below STROKE_IDLE lowers STROKE_IDLE,
and one of FLOW_HOLD at or above FLOW_GO raises FLOW_GO to one more. A SET of TRAVEL_X or TRAVEL_Y stores the least
value that is at least the clamped one, the position of the axis when it is REFERENCED, and the largest maximum of the
boxes of the window's records. -/
def Obligations.RelatedParameters : Prop :=
  ∀ (v : Word) (s : State), s.ready → s.paramsOk →
    (s.job.state = .idle → ∃ t, exec (.set 0x01 v) s = .next t ∧
      (t.params.accel : Int) = clamp v.toInt 5 200 ∧
      t.params.stopDecel = max s.params.stopDecel t.params.accel) ∧
    (∃ t, exec (.set 0x0A v) s = .next t ∧
      (t.params.strokeCut : Int) = clamp v.toInt 1200 9000 ∧
      t.params.strokeIdle = min s.params.strokeIdle t.params.strokeCut) ∧
    (∃ t, exec (.set 0x24 v) s = .next t ∧
      (t.params.flowHold : Int) = clamp v.toInt 1 64 ∧
      t.params.flowGo = max s.params.flowGo (t.params.flowHold + 1)) ∧
    (s.job.state = .idle → ∃ t, exec (.set 0x1E v) s = .next t ∧ ∀ n : Nat, t.params.travelX ≤ n ↔
      clamp v.toInt 1000 250000 ≤ n ∧ (s.axes.x.ref = .referenced → s.axes.x.pos ≤ n) ∧
        ∀ e ∈ s.store.slots, e.2.seg.box.maxX ≤ n) ∧
    (s.job.state = .idle → ∃ t, exec (.set 0x1F v) s = .next t ∧ ∀ n : Nat, t.params.travelY ≤ n ↔
      clamp v.toInt 1000 150000 ≤ n ∧ (s.axes.y.ref = .referenced → s.axes.y.pos ≤ n) ∧
        ∀ e ∈ s.store.slots, e.2.seg.box.maxY ≤ n)

/-! ## The Segment Store -/

/-- WINDOW is refused BUSY outside IDLE, NOT_EMPTY over a window that holds a record and BAD_FIELD for a window that
does not fit; otherwise it sets the window with both pointers at its begin and leaves the rest of the Store. -/
def Obligations.WindowSet : Prop :=
  ∀ (b e : Half) (m : Byte) (s : State), s.ready →
    let fits := b.toNat ≤ 511 ∧ e.toNat ≤ 511 ∧ b.toNat ≤ e.toNat ∧ 8 ≤ e.toNat - b.toNat + 1 ∧ m.toNat ≤ 1
    (s.job.state ≠ .idle → exec (.window b e m) s = .next (s.withEntry (.window b e m) (.ready ⟨.busy, []⟩))) ∧
    (s.job.state = .idle → s.store.slots ≠ [] →
      exec (.window b e m) s = .next (s.withEntry (.window b e m) (.ready ⟨.notEmpty, []⟩))) ∧
    (s.job.state = .idle → s.store.slots = [] → ¬fits →
      exec (.window b e m) s = .next (s.withEntry (.window b e m) (.ready ⟨.badField, []⟩))) ∧
    (s.job.state = .idle → s.store.slots = [] → fits → ∃ t,
      exec (.window b e m) s = .next t ∧ Keeps [.store, .link] s t ∧ answered (.window b e m) .ok s t ∧
      t.store =
        { s.store with
          winBegin := b.toNat, winEnd := e.toNat, mode := if m.toNat = 0 then .stream else .repeating,
          writePtr := b.toNat, execPtr := b.toNat })

/-- An accepted record stands in the slot the write pointer named, with its number; the chain is open with its tail at
the record's end, and its origin is where the head stood when it was opened; no other slot is filled or emptied. The
flow state becomes HELD with a HOLD mark when few slots are left free, the low-water flag follows the path ahead, and a
STARVED job warms up with the dwell stopped and the blade spun up. The Store and the plan are those of a replan after
the acceptance (R27, R53). An arrival whose checks all pass is accepted as the record drawn up from its body, with the
chord for a corrected length, its delta, and the result code of R19. -/
def Obligations.AppendAccepted : Prop :=
  (∀ (body : List Byte) (seg : Segment) (code : ResultCode) (s : State), s.ready → s.slotsOk →
    (Instr.append body).wellFormed = true →
    s.job.state = .idle ∨ s.store.mode = .stream ∧ (s.job.state.holdable = true ∨ s.job.state = .holding) →
    (s.store.mode = .stream → s.store.chainClosed = false) → s.store.slots.length < s.store.size →
    judgeArrival s body = .accepted seg code →
    ∃ (t v : State) (slots : List (Nat × Slot)), exec (.append body) s = .next t ∧
      Keeps [.store, .planner, .job, .stroke, .load, .link] s t ∧
      queuedAs (.append body) (.ready ⟨code, u16 s.store.nextNumber ++ u16 s.store.writePtr⟩) s t ∧
      s.store.nextNumber = (if s.store.tailOpen then s.store.arrival else 0) ∧
      (let accepted : Store :=
        { s.store with
          slots := slots
          writePtr :=
            if s.store.mode = .stream ∧ s.store.writePtr = s.store.winEnd then s.store.winBegin
            else s.store.writePtr + 1
          tailOpen := true
          tailPoint := some seg.stopAt
          tailHeading := if seg.kind.moving then some seg.exitHeading else s.store.tailHeading
          origin := if s.store.tailOpen then s.store.origin else some s.axes.point
          chainClosed := s.store.chainClosed || decide (s.store.mode = .stream ∧ seg.last = true)
          arrival := (s.store.nextNumber + 1) % 65536
          flowHeld := t.store.flowHeld
          armed := t.store.armed }
      accepted.wf = true ∧ accepted.slot s.store.writePtr = some ⟨.queued, { seg with number := s.store.nextNumber }⟩ ∧
      (∀ j, j ≠ s.store.writePtr → accepted.slot j = s.store.slot j) ∧
      ({ s with store := accepted } : State).replanned none v ∧ t.store = v.store ∧ t.planner = v.planner) ∧
      (let others := s.store.slots.filter fun e => e.1 ≠ s.store.writePtr
      let few := s.store.mode = .stream ∧ s.store.size - (others.length + 1) ≤ s.params.flowHold
      let ahead := (others.map fun e =>
        if e.2.state = .active then
          if e.2.seg.kind.moving then (e.2.seg.length * 1000 - s.interp.p + 999) / 1000 else 0
        else e.2.seg.length).sum + seg.length
      t.store.flowHeld = (s.store.flowHeld || decide few) ∧
      t.link.marks = (if s.store.flowHeld = false ∧ few then s.link.marks ++ [.hold] else s.link.marks) ∧
      (s.store.mode = .stream → t.store.chainClosed = false →
        t.store.armed = decide (s.params.lowWater ≤ ahead)) ∧
      (s.store.mode = .stream → t.store.chainClosed = false → s.store.armed = true → ahead < s.params.lowWater →
        s.link.notices.length < 16 → t.link.notices = s.link.notices ++ [.low ahead])) ∧
      (s.job.state = .starved →
        t.job =
          { s.job with
            state := if t.stroke.state = .run ∧ s.interp.startPending = false then .cutting else .warmup
            dwell := none } ∧
        t.stroke = s.stroke.spinUp s.params.startDuty ∧ t.load = s.load.told s.stroke.state t.stroke.state) ∧
      (s.job.state ≠ .starved → t.job = s.job ∧ t.stroke = s.stroke ∧ t.load = s.load)) ∧
  ∀ (body : List Byte) (raw : RawSegment) (s : State), parseSegment body = some raw → raw.checked →
    ∃ draft : Segment, draft.drawnFrom raw s ∧
      let corrected := raw.kind = .line ∧ draft.lengthOff
      let passes :=
        match raw.kind with
        | .pause => True
        | .line => (draft.lengthOff → s.params.polLength = .correct) ∧ ¬draft.headingOff ∧ ¬draft.pivotOff s
        | .arcCw => ¬draft.radiusOff ∧ ¬draft.headingOff ∧ ¬draft.lengthOff ∧ ¬draft.pivotOff s
        | .arcCcw => ¬draft.radiusOff ∧ ¬draft.headingOff ∧ ¬draft.lengthOff ∧ ¬draft.pivotOff s
      let clamped := (raw.kind ≠ .pause ∧ (raw.feed < 100 ∨ 30000 < raw.feed)) ∨
        ∃ a, raw.advance = some a ∧ (a < 10 ∨ 1000 < a)
      (draft.box.inTravel s.params → passes → ∃ seg code, judgeArrival s body = .accepted seg code ∧
        seg =
          { draft with length := seg.length, delta := seg.delta, pivotOk := seg.pivotOk, opening := seg.opening } ∧
        (corrected → isRoot seg.length (draft.startAt.square draft.stopAt) ∧ code = .corrected) ∧
        (¬corrected → seg.length = draft.length ∧ (clamped → code = .clamped) ∧ (¬clamped → code = .ok)) ∧
        (raw.kind = .pause → seg.delta = 0 ∧ seg.opening = false ∧ seg.pivotOk = false) ∧
        (raw.kind ≠ .pause → s.store.tailHeading = none →
          seg.delta = 0 ∧ seg.opening = true ∧ seg.pivotOk = draft.pivotOk) ∧
        ∀ h1, raw.kind ≠ .pause → s.store.tailHeading = some h1 →
          seg.delta = draft.deltaFrom h1 ∧ seg.opening = false ∧ -17999 ≤ seg.delta ∧ seg.delta ≤ 18000 ∧
          seg.pivotOk = (draft.pivotOk || decide (s.params.pivotLimit < seg.delta.natAbs)))

/-- A refused APPEND changes nothing but the request queue: refused by the job state and the mode, by a closed chain or
a full window, by BAD_FIELD or OUT_OF_TRAVEL, or by a geometry class under REJECT. Under HALT the reply carries the hold
flag and a job that takes a hold is held. The arrival checks decide in their order: the body and its fields, the extent
box, the geometry classes of the kind, the pivot; a class that fails refuses with the policy of that class. By that
order a LINE of zero displacement whose length is off is refused under LENGTH unless its action is CORRECT, though R13
says under HEADING whatever its length: the model's reading (log entry 34). -/
def Obligations.AppendRefused : Prop :=
  (∀ (body : List Byte) (s : State), s.ready → (Instr.append body).wellFormed = true →
    let refusedWith (r : Reply) := exec (.append body) s = .next (s.withEntry (.append body) (.ready r))
    (s.job.state = .motion ∨ s.job.state = .stopping → refusedWith ⟨.busy, []⟩) ∧
    (s.job.state = .fault → refusedWith ⟨.faultLatched, []⟩) ∧
    (s.job.state.holdable = true ∨ s.job.state = .holding → s.store.mode = .repeating →
      refusedWith ⟨.wrongMode, []⟩) ∧
    (s.job.state = .idle ∨ s.store.mode = .stream → s.job.state = .idle ∨ s.job.state.holdable = true ∨
        s.job.state = .holding →
      (s.store.mode = .stream → s.store.chainClosed = true → refusedWith ⟨.chainClosed, []⟩) ∧
      ((s.store.mode = .stream → s.store.chainClosed = false) →
        (s.store.free = 0 → refusedWith ⟨.full, []⟩) ∧
        (s.store.free ≠ 0 →
          (judgeArrival s body = .badField → refusedWith ⟨.badField, []⟩) ∧
          (judgeArrival s body = .outOfTravel → refusedWith ⟨.outOfTravel, []⟩) ∧
          ∀ cls,
            (judgeArrival s body = .rejected cls false → refusedWith ⟨.rejected, [BitVec.ofNat 8 cls.code, 0]⟩) ∧
            (judgeArrival s body = .rejected cls true → ∃ t, exec (.append body) s = .next t ∧
              Keeps [.job, .stroke, .load, .link] s t ∧
              queuedAs (.append body) (.ready ⟨.rejected, [BitVec.ofNat 8 cls.code, 1]⟩) s t ∧
              (s.job.state = .warmup ∨ s.job.state = .cutting →
                Keeps [.job, .link] s t ∧ t.job = { s.job with state := .holding, held := false }) ∧
              (s.job.state = .starved →
                t.job = { s.job with state := .holding, held := true, dwell := none } ∧
                t.stroke = s.stroke.toIdle s.params.startDuty ∧
                (s.link.notices.length < 16 →
                  t.link.notices = s.link.notices ++ [.held (activeNumber s) s.interp.p])) ∧
              (s.job.state.holdable = false → Keeps [.link] s t ∧ t.link.notices = s.link.notices)))))) ∧
  ∀ (body : List Byte) (s : State),
    (parseSegment body = none → judgeArrival s body = .badField) ∧
    ∀ raw, parseSegment body = some raw →
      (¬raw.checked → judgeArrival s body = .badField) ∧
      (raw.checked → ∃ draft : Segment, draft.drawnFrom raw s ∧
        let rejects (cls : GeometryClass) :=
          judgeArrival s body = .rejected cls (decide (policyOf s.params cls = .halt))
        let lengthFails := draft.lengthOff ∧ s.params.polLength ≠ .correct
        (¬draft.box.inTravel s.params → judgeArrival s body = .outOfTravel) ∧
        (draft.box.inTravel s.params →
          (raw.kind = .line →
            (lengthFails → rejects .length) ∧
            (¬lengthFails → draft.headingOff → rejects .heading) ∧
            (¬lengthFails → ¬draft.headingOff → draft.pivotOff s → rejects .pivot)) ∧
          (raw.kind = .arcCw ∨ raw.kind = .arcCcw →
            (draft.radiusOff → rejects .radius) ∧
            (¬draft.radiusOff → draft.headingOff → rejects .heading) ∧
            (¬draft.radiusOff → ¬draft.headingOff → draft.lengthOff → rejects .length) ∧
            (¬draft.radiusOff → ¬draft.headingOff → ¬draft.lengthOff → draft.pivotOff s → rejects .pivot))))

/-- FLUSH empties the window in IDLE and clears the chain with its tail and the executed heading, handing GO if the flow
state was HELD. In a held or starved STREAM job it keeps the chain open: with an active segment it leaves that segment
alone in the window, with its record and state and exit speed 0, and the chain open behind it; with none it empties the
window and continues the chain from where the head stands; an empty window stays as it is. The arrival counter returns
to the number of the first record discarded, the chain is no longer closed when LAST is among them, GO is handed if the
flow state was HELD, and the low-water evaluation follows. The Store and the plan are those of a replan of what is left
(R53). It is refused BUSY or WRONG_MODE elsewhere. -/
def Obligations.FlushActs : Prop :=
  ∀ s : State, s.ready →
    (s.job.state = .idle → ∃ t,
      exec .flush s = .next t ∧ Keeps [.store, .planner, .link] s t ∧ answered .flush .ok s t ∧
      t.store =
        { s.store with
          slots := [], writePtr := s.store.winBegin, execPtr := s.store.winBegin, tailOpen := false, tailPoint := none,
          tailHeading := none, origin := none, chainClosed := false, executedHeading := none, flowHeld := false,
          armed := false } ∧
      (∃ v, ({ s with store := t.store } : State).replanned none v ∧ v.store = t.store ∧ t.planner = v.planner) ∧
      t.planner.spanCount = 0 ∧ t.link.notices = s.link.notices ∧
      t.link.marks = (if s.store.flowHeld then s.link.marks ++ [.go] else s.link.marks)) ∧
    (s.slotsOk → s.store.mode = .stream → s.job.state = .starved ∨ (s.job.state = .holding ∧ s.job.held = true) →
      ∃ t,
      exec .flush s = .next t ∧ Keeps [.store, .planner, .link] s t ∧ answered .flush .ok s t ∧
      t.store.flowHeld = false ∧ t.store.origin = s.store.origin ∧ t.store.tailOpen = s.store.tailOpen ∧
      t.store.execPtr = s.store.execPtr ∧
      t.link.marks = (if s.store.flowHeld then s.link.marks ++ [.go] else s.link.marks) ∧
      (∃ v, ({ s with store := { t.store with slots := s.store.activeSlot.toList } } : State).replanned none v ∧
        t.store = v.store ∧ t.planner = v.planner) ∧
      t.store.armed = (if t.store.chainClosed then s.store.armed else decide (s.params.lowWater ≤ t.ahead)) ∧
      (s.link.notices.length < 16 → t.link.notices = s.link.notices ++ s.lowQueued t) ∧
      let counterAfter (discarded : List (Nat × Slot)) : Nat :=
        match discarded with
        | [] => s.store.arrival
        | e :: _ => e.2.seg.number
      (∀ i sl, s.store.activeSlot = some (i, sl) →
        let discarded := (s.store.runFrom 512 i).drop 1
        t.store =
          { s.store with
            slots := [(i, { sl with seg := { sl.seg with exitSpeed := 0 } })]
            writePtr := s.store.after i
            tailPoint := some sl.seg.stopAt
            tailHeading := if sl.seg.kind.moving then some sl.seg.exitHeading else s.store.executedHeading
            arrival := counterAfter discarded
            chainClosed := s.store.chainClosed && !discarded.any fun e => e.2.seg.last
            flowHeld := false
            armed := t.store.armed } ∧
        t.planner.spanCount = 1) ∧
      (s.store.activeSlot = none → s.store.slot s.store.execPtr ≠ none →
        let discarded := s.store.runFrom 512 s.store.execPtr
        t.store =
          { s.store with
            slots := []
            writePtr := s.store.execPtr
            tailPoint := some s.axes.point
            tailHeading := s.store.executedHeading
            arrival := counterAfter discarded
            chainClosed := s.store.chainClosed && !discarded.any fun e => e.2.seg.last
            flowHeld := false
            armed := t.store.armed } ∧
        t.planner.spanCount = 0) ∧
      (s.store.slots = [] → t.store = { s.store with flowHeld := false, armed := t.store.armed })) ∧
    (s.store.mode = .repeating → s.job.state = .holding → s.job.held = true →
      exec .flush s = .next (s.withEntry .flush (.ready ⟨.wrongMode, []⟩))) ∧
    (s.job.state = .motion ∨ s.job.state = .warmup ∨ s.job.state = .cutting ∨ s.job.state = .stopping ∨
        s.job.state = .fault ∨ (s.job.state = .holding ∧ s.job.held = false) →
      exec .flush s = .next (s.withEntry .flush (.ready ⟨.busy, []⟩)))

/-! ## The job -/

/-- An accepted START records the job, copies the derates, sets V and Vprev to 0, spins up the blade, sets the X, Y and
C targets to the head's position, starts the period timer and begins the start pivot: the short way to the entry heading
of the first moving segment at or after the execution pointer, none with no such segment or no turn. The job is in
WARMUP, or in CUTTING when the blade is in RUN and no start pivot is pending. The Store and the plan are those of a
replan made in IDLE (R43, R53). -/
def Obligations.StartBegins : Prop :=
  ∀ (n : Byte) (x y : Word) (s : State), s.ready → s.job.state = .idle → s.axes.located → s.store.slots ≠ [] →
    s.store.origin = some s.axes.point → ¬s.guard.barsCut →
    (s.store.mode = .repeating → 1 ≤ n.toNat ∧ n.toNat ≤ 64 ∧ x.toInt.natAbs ≤ 250000 ∧ y.toInt.natAbs ≤ 250000 ∧
      ∀ k : Nat, k < n.toNat → ∀ e ∈ s.store.slots,
        0 ≤ e.2.seg.box.minX + k * x.toInt ∧ 0 ≤ e.2.seg.box.minY + k * y.toInt ∧
        e.2.seg.box.maxX + k * x.toInt ≤ s.params.travelX ∧ e.2.seg.box.maxY + k * y.toInt ≤ s.params.travelY) → ∃ t,
    exec (.start n x y) s = .next t ∧
    Keeps [.store, .planner, .gov, .stroke, .load, .interp, .job, .link] s t ∧ answered (.start n x y) .ok s t ∧
    t.job =
      { state := if t.stroke.state = .run ∧ t.interp.startPending = false then .cutting else .warmup
        mode := s.store.mode
        held := false
        passesProgrammed := if s.store.mode = .repeating then n.toNat else 1
        passesDone := 0
        offX := if s.store.mode = .repeating then x.toInt else 0
        offY := if s.store.mode = .repeating then y.toInt else 0
        executed := 0
        lastCompleted := none
        dwell := none } ∧
    t.planner.p0 = s.params.d0 ∧ t.planner.p1 = s.params.d1 ∧ t.planner.p2 = s.params.d2 ∧
    t.planner.p3 = s.params.d3 ∧
    (s.slotsOk → ∃ v, s.replanned none v ∧ t.store = v.store ∧ t.planner = v.planner) ∧
    t.gov.v = 0 ∧ t.gov.vprev = 0 ∧ t.stroke = s.stroke.spinUp s.params.startDuty ∧
    t.interp.pass = 0 ∧ t.interp.timer = some 0 ∧ t.interp.targetX = s.axes.x.pos ∧ t.interp.targetY = s.axes.y.pos ∧
    (t.interp.targetC : Int) = s.axes.c.pos % 36000 ∧
    t.interp =
      { s.interp with
        pass := 0, timer := some 0, targetX := s.axes.x.pos, targetY := s.axes.y.pos, targetC := t.interp.targetC,
        pivot := t.interp.pivot, pivotNeg := t.interp.pivotNeg, startPending := t.interp.startPending } ∧
    t.interp.inStartPivot s.store

/-- A START is refused in the order of its checks, and then changes nothing but the request queue. -/
def Obligations.StartRefused : Prop :=
  ∀ (n : Byte) (x y : Word) (s : State), s.ready →
    let refusedWith (code : ResultCode) :=
      exec (.start n x y) s = .next (s.withEntry (.start n x y) (.ready ⟨code, []⟩))
    (s.job.state = .fault → refusedWith .faultLatched) ∧
    (s.job.state ≠ .fault → s.job.state ≠ .idle → refusedWith .busy) ∧
    (s.job.state = .idle →
      (¬s.axes.located → refusedWith .notReferenced) ∧
      (s.axes.located →
        (s.store.slots = [] → refusedWith .empty) ∧
        (s.store.slots ≠ [] →
          (s.store.origin ≠ some s.axes.point → refusedWith .notAtOrigin) ∧
          (s.store.origin = some s.axes.point →
            (s.guard.barsCut → refusedWith .inputActive) ∧
            (¬s.guard.barsCut → s.store.mode = .repeating →
              (¬(1 ≤ n.toNat ∧ n.toNat ≤ 64 ∧ x.toInt.natAbs ≤ 250000 ∧ y.toInt.natAbs ≤ 250000) →
                refusedWith .badField) ∧
              (1 ≤ n.toNat ∧ n.toNat ≤ 64 ∧ x.toInt.natAbs ≤ 250000 ∧ y.toInt.natAbs ≤ 250000 →
                ∀ k : Nat, k < n.toNat → ∀ e ∈ s.store.slots,
                  e.2.seg.box.minX + k * x.toInt < 0 ∨ e.2.seg.box.minY + k * y.toInt < 0 ∨
                    (s.params.travelX : Int) < e.2.seg.box.maxX + k * x.toInt ∨
                    (s.params.travelY : Int) < e.2.seg.box.maxY + k * y.toInt →
                  refusedWith .outOfTravel))))))

/-- A HOLD request takes a job in WARMUP or CUTTING to HOLDING with the held flag clear and the blade as it is, holds a
starved job at once with the dwell stopped, the blade sent to idle and HELD queued, and is refused NO_JOB elsewhere. In
HOLDING with the flag clear, an expiry whose V is 0 sets it, and so does arrival at the frontier, which starts no dwell:
the blade is sent to idle and HELD is queued with the active segment and its p, or with none and p 0 (log entry 29).
HELD is queued before the LOW of the same expiry (log entry 10); the arrival leaves the Governor with V and the previous
feed 0 and the rest of it as evaluated (log entry 31), and the Store and the plan as its completion and replan leave
them. The way to rest along the path, through completions, is stated by ActiveSegmentAdvances, past a pass end by
ControlledStopEnds, and the rest in a PAUSE, on a link move, at a pivot's end and with nothing to move along by
PivotSteps. -/
def Obligations.HoldRequested : Prop :=
  (∀ s : State, s.ready →
    (s.job.state = .warmup ∨ s.job.state = .cutting → ∃ t,
      exec .hold s = .next t ∧ Keeps [.job, .link] s t ∧ answered .hold .ok s t ∧
      t.job = { s.job with state := .holding, held := false }) ∧
    (s.job.state = .starved → ∃ t,
      exec .hold s = .next t ∧ Keeps [.job, .stroke, .load, .link] s t ∧ answered .hold .ok s t ∧
      t.job = { s.job with state := .holding, held := true, dwell := none } ∧
      t.stroke = s.stroke.toIdle s.params.startDuty ∧ t.load = s.load.told s.stroke.state t.stroke.state ∧
      (s.link.notices.length < 16 →
        t.link.notices = s.link.notices ++ [.held (activeNumber s) s.interp.p])) ∧
    (s.job.state.holdable = false → exec .hold s = .next (s.withEntry .hold (.ready ⟨.noJob, []⟩)))) ∧
  ∀ (i : Nat) (sl : Slot) (s : State), s.interp.timer.isSome = true → s.job.state = .holding → s.job.held = false →
    s.interp.active = some i → s.store.slot i = some sl → s.interp.pivot = 0 →
    (sl.seg.kind.moving = true → (evaluateGovernor s).gov.v = 0 → s.interp.p < sl.seg.length * 1000 → ∃ t,
      exec .interpolationPeriodExpiry s = .next t ∧
      Keeps [.store, .interp, .gov, .stroke, .load, .axes, .job, .link] s t ∧
      t.job = { s.job with held := true } ∧ t.stroke = s.stroke.toIdle s.params.startDuty ∧ t.gov.v = 0 ∧
      t.interp.active = some i ∧ t.interp.p = s.interp.p ∧ t.interp.timer = some 0 ∧
      (s.link.notices.length < 16 → ∃ rest,
        t.link.notices = s.link.notices ++ .held (some (sl.seg.number, i)) s.interp.p :: rest)) ∧
    ∀ past, s.store.mode = .stream → s.store.execPtr = i → s.atEndOf sl.seg past → sl.seg.last = false →
      s.store.slot (s.store.after i) = none → ∃ t,
      exec .interpolationPeriodExpiry s = .next t ∧
      Keeps [.store, .planner, .interp, .gov, .stroke, .load, .axes, .job, .link] s t ∧
      t.job =
        { s.job with held := true, executed := t.job.executed, lastCompleted := some sl.seg.number } ∧
      t.gov = { (evaluateGovernor s).gov with v := 0, vprev := 0 } ∧
      t.interp.active = none ∧ t.interp.p = 0 ∧ t.stroke = s.stroke.toIdle s.params.startDuty ∧
      t.store.slot i = none ∧
      (s.slotsOk → ∃ v, s.completed i sl.seg v ∧ t.store = { v.store with armed := t.store.armed } ∧
        t.planner = v.planner) ∧
      (s.link.notices.length < 16 → ∃ rest, t.link.notices = s.link.notices ++ .held none 0 :: rest)

/-- RESUME is refused NOT_HELD outside HOLDING and INPUT_ACTIVE while the cut check fails. With the held flag clear it
returns the job to CUTTING, or to WARMUP when the blade is not in RUN or a start pivot is pending (log entry 16 for a
pivot begun at a link's end), and makes no request of the blade; with it set it spins up the blade and warms up when
there is something to move along, and otherwise starves with the dwell started and STARVED queued. -/
def Obligations.ResumeActs : Prop :=
  ∀ s : State, s.ready →
    (s.job.state ≠ .holding → exec .resume s = .next (s.withEntry .resume (.ready ⟨.notHeld, []⟩))) ∧
    (s.job.state = .holding → s.guard.barsCut →
      exec .resume s = .next (s.withEntry .resume (.ready ⟨.inputActive, []⟩))) ∧
    (s.job.state = .holding → ¬s.guard.barsCut → ∃ t,
      exec .resume s = .next t ∧ Keeps [.job, .stroke, .load, .link] s t ∧ answered .resume .ok s t ∧
      t.job =
        { s.job with
          state := t.job.state
          held := false
          dwell := if t.job.state = .starved then some 0 else s.job.dwell } ∧
      t.load = s.load.told s.stroke.state t.stroke.state ∧
      (let planned := ∃ sl, s.store.slot s.store.execPtr = some sl ∧ sl.state = .planned
      let movable := s.interp.active.isSome = true ∨ s.interp.link.isSome = true ∨ planned
      (s.job.held = false ∨ movable →
        t.job.state = (if t.stroke.state = .run ∧ s.interp.startPending = false then .cutting else .warmup) ∧
        t.stroke = (if s.job.held then s.stroke.spinUp s.params.startDuty else s.stroke) ∧
        t.link.notices = s.link.notices) ∧
      (s.job.held = true → ¬movable →
        t.stroke = s.stroke ∧ t.job.state = .starved ∧
        (s.link.notices.length < 16 →
          t.link.notices = s.link.notices ++ [.starved s.job.lastCompleted s.job.passesDone]))))

/-- ABORT starts a controlled stop with no cause in a job or a traverse, with the held flag cleared and the dwell
stopped; it is answered OK without effect in STOPPING, and refused in IDLE and FAULT. -/
def Obligations.AbortStops : Prop :=
  ∀ s : State, s.ready →
    (s.job.state = .idle → exec .abort s = .next (s.withEntry .abort (.ready ⟨.noJob, []⟩))) ∧
    (s.job.state = .fault → exec .abort s = .next (s.withEntry .abort (.ready ⟨.faultLatched, []⟩))) ∧
    (s.job.state = .stopping → exec .abort s = .next (s.withEntry .abort (.ready ⟨.ok, []⟩))) ∧
    (s.job.state ≠ .idle → s.job.state ≠ .fault → s.job.state ≠ .stopping → ∃ t,
      exec .abort s = .next t ∧ Keeps [.guard, .job, .link] s t ∧ answered .abort .ok s t ∧
      t.job = { s.job with state := .stopping, held := false, dwell := none } ∧
      t.guard = { s.guard with stop := some s.job.state })

/-- CLEAR empties the latch and returns the job from FAULT to IDLE, taking a STALLED stroke to OFF with its record, M,
the lock counter and both timers cleared, of which the Load Monitor is told; it is refused NO_JOB outside FAULT and
INPUT_ACTIVE while an input named in the latch is ACTIVE. -/
def Obligations.ClearEmptiesLatch : Prop :=
  ∀ s : State, s.ready →
    let latched := ∃ i, s.guard.latch.getLsbD (inputIndex i).val = true ∧ (s.guard.input i).accepted = true
    (s.job.state ≠ .fault → exec .clear s = .next (s.withEntry .clear (.ready ⟨.noJob, []⟩))) ∧
    (s.job.state = .fault → latched → exec .clear s = .next (s.withEntry .clear (.ready ⟨.inputActive, []⟩))) ∧
    (s.job.state = .fault → ¬latched → ∃ t,
      exec .clear s = .next t ∧ Keeps [.job, .guard, .stroke, .load, .link] s t ∧ answered .clear .ok s t ∧
      t.job = { s.job with state := .idle } ∧ t.guard = { s.guard with latch := 0 } ∧
      (s.stroke.state = .stalled →
        t.stroke =
          { s.stroke with
            state := .off, duty := 0, index := none, m := 0, lock := 0, spinTimer := none, stallTimer := none } ∧
        t.load = s.load.told .stalled .off) ∧
      (s.stroke.state ≠ .stalled → t.stroke = s.stroke ∧ t.load = s.load))

/-- An accepted HOME records the named axes, enables them with their milli-counts and speed 0 and makes them HOMING, in
BACKOFF on an active home input and in SEARCH otherwise, or FAILED with LIMIT on an active limit input; the others are
as they were. A refused HOME changes nothing but the request queue. -/
def Obligations.HomeBegins : Prop :=
  ∀ (axes : Byte) (s : State), s.ready →
    (∀ code, homeRefusal axes s = some code →
      exec (.home axes) s = .next (s.withEntry (.home axes) (.ready ⟨code, []⟩))) ∧
    (s.job.state = .fault → homeRefusal axes s = some .faultLatched) ∧
    (s.job.state ≠ .fault → s.job.state ≠ .idle → homeRefusal axes s = some .busy) ∧
    (s.job.state = .idle → axes.toNat = 0 ∨ 8 ≤ axes.toNat → homeRefusal axes s = some .badField) ∧
    (s.job.state = .idle → axes.toNat ≠ 0 → axes.toNat < 8 → s.guard.barsMotion →
      homeRefusal axes s = some .inputActive) ∧
    (s.job.state = .idle → axes.toNat ≠ 0 → axes.toNat < 8 → ¬s.guard.barsMotion → ∃ t,
      exec (.home axes) s = .next t ∧ Keeps [.axes, .job, .link] s t ∧ answered (.home axes) .ok s t ∧
      t.job = { s.job with state := .motion } ∧ t.axes.timer = some 0 ∧ t.axes.traverse = s.axes.traverse ∧
      t.axes.home = some ⟨axes.getLsbD 0, axes.getLsbD 1, axes.getLsbD 2⟩ ∧
      ∀ a, let bit := match a with | .x => axes.getLsbD 0 | .y => axes.getLsbD 1 | .c => axes.getLsbD 2
        let limited := ∃ i, limitInputOf a = some i ∧ (s.guard.input i).accepted = true
        (bit = false → t.axes.get a = s.axes.get a) ∧
        (bit = true →
          let begun : AxisState :=
            { s.axes.get a with
              enable := true, speed := 0, moved := 0, pos := match a with | .x => 0 | .y => 0 | .c => s.axes.c.pos }
          (limited → t.axes.get a = { begun with phase := .failed, outcome := .limit, ref := .unreferenced }) ∧
          (¬limited → t.axes.get a =
            { begun with
              ref := .homing
              outcome := .none
              phase := if (s.guard.input (homeInputOf a)).accepted then .backoff else .search })))

/-- An accepted MOVE records the traverse from the present position to the target, with the C turn the short way from
the present C to the target C, and enters MOTION. A MOVE is refused in the order of its checks and then changes nothing
but the request queue. -/
def Obligations.MoveBegins : Prop :=
  ∀ (x y : Word) (c : Half) (s : State), s.ready →
    let refusedWith (code : ResultCode) :=
      exec (.move x y c) s = .next (s.withEntry (.move x y c) (.ready ⟨code, []⟩))
    let fields := 0 ≤ x.toInt ∧ x.toInt ≤ 250000 ∧ 0 ≤ y.toInt ∧ y.toInt ≤ 150000 ∧ c.toNat ≤ 35999
    let d := ((c.toNat : Int) - s.axes.c.pos) % 36000
    let n := if d ≤ 18000 then d else d - 36000
    (s.job.state = .fault → refusedWith .faultLatched) ∧
    (s.job.state ≠ .fault → s.job.state ≠ .idle → refusedWith .busy) ∧
    (s.job.state = .idle →
      (¬fields → refusedWith .badField) ∧
      (fields →
        (¬s.axes.located → refusedWith .notReferenced) ∧
        (s.axes.located →
          ((s.params.travelX : Int) < x.toInt ∨ (s.params.travelY : Int) < y.toInt → refusedWith .outOfTravel) ∧
          (x.toInt ≤ s.params.travelX → y.toInt ≤ s.params.travelY →
            (s.guard.barsMotion → refusedWith .inputActive) ∧
            (¬s.guard.barsMotion → ∃ t tr,
              exec (.move x y c) s = .next t ∧ Keeps [.axes, .job, .link] s t ∧ answered (.move x y c) .ok s t ∧
              t.job = { s.job with state := .motion } ∧
              t.axes = { s.axes with traverse := some tr, timer := some 0 } ∧
              tr.startAt = ⟨s.axes.x.pos, s.axes.y.pos⟩ ∧ tr.stopAt = ⟨x.toInt, y.toInt⟩ ∧
              tr.p = 0 ∧ tr.v = 0 ∧ tr.vprev = 0 ∧
              tr.goalC = c.toNat ∧ (tr.targetC : Int) = s.axes.c.pos % 36000 ∧
              tr.turnLeft = n.natAbs ∧ tr.turnNeg = decide (n < 0) ∧ tr.turnLeft ≤ 18000 ∧
              tr.length * tr.length ≤ (x.toInt - s.axes.x.pos).natAbs ^ 2 + (y.toInt - s.axes.y.pos).natAbs ^ 2 ∧
              (x.toInt - s.axes.x.pos).natAbs ^ 2 + (y.toInt - s.axes.y.pos).natAbs ^ 2 <
                (tr.length + 1) * (tr.length + 1))))))

/-- BLADE sends the Stroke Generator a spin-up, idle or coast request in job IDLE, leaves the job in IDLE, and is
refused BUSY in any other state and BAD_FIELD for any other value. What each of the three requests does in each stroke
state, and what the Load Monitor does on the change. -/
def Obligations.BladeByHand : Prop :=
  (∀ (v : Byte) (s : State), s.ready →
    (s.job.state ≠ .idle → exec (.blade v) s = .next (s.withEntry (.blade v) (.ready ⟨.busy, []⟩))) ∧
    (s.job.state = .idle → 2 < v.toNat →
      exec (.blade v) s = .next (s.withEntry (.blade v) (.ready ⟨.badField, []⟩))) ∧
    (s.job.state = .idle → v.toNat ≤ 2 → ∃ t,
      exec (.blade v) s = .next t ∧ Keeps [.stroke, .load, .link] s t ∧ answered (.blade v) .ok s t ∧
      t.stroke =
        (if v = 0 then s.stroke.spinUp s.params.startDuty
        else if v = 1 then s.stroke.toIdle s.params.startDuty
        else s.stroke.toCoast) ∧
      t.load = s.load.told s.stroke.state t.stroke.state)) ∧
  ∀ (duty : Nat) (k : Stroke),
    k.spinUp duty =
      (match k.state with
      | .off =>
        { k with
          state := .spinup, duty := duty, index := none, m := 0, lock := 0, spinTimer := some 0, stallTimer := some 0 }
      | .coast => { k with state := .spinup, duty := duty, lock := 0, spinTimer := some 0, stallTimer := some 0 }
      | .idle => { k with state := .spinup, lock := 0, spinTimer := some 0 }
      | _ => k) ∧
    k.toIdle duty =
      (match k.state with
      | .spinup => { k with state := .idle, spinTimer := none, lock := 0 }
      | .run => { k with state := .idle }
      | .off => { k with state := .idle, duty := duty, index := none, m := 0, stallTimer := some 0 }
      | .coast => { k with state := .idle, duty := duty, stallTimer := some 0 }
      | _ => k) ∧
    k.toCoast =
      (match k.state with
      | .off => k
      | .coast => k
      | .stalled => k
      | _ => { k with state := .coast, duty := 0, spinTimer := none, lock := 0, stallTimer := some 0 })

/-- SAMPLE joins the awaiting list with its reply deferred: the converter is UP, LINK is a requester, the result-valid
flag is clear and a conversion begins anew, a settling one unless the converter was UP and settled. -/
def Obligations.SampleDeferred : Prop :=
  ∀ s : State, s.ready → ∃ t,
    exec .sample s = .next t ∧ Keeps [.load, .link] s t ∧ queuedAs .sample .awaiting s t ∧
    t.load =
      { s.load with
        powered := true
        settled := s.load.powered && s.load.settled
        reqLink := true
        valid := false
        inFlight := some (if s.load.powered && s.load.settled then .measuring 0 else .settling 0) }

/-- A RESET request is answered OK, and the Link hands on no entry after it; frames received later are queued untaken
and not answered. -/
def Obligations.ResetStopsTaking : Prop :=
  (∀ s : State, s.ready → ∃ t,
    exec .reset s = .next t ∧ Keeps [.link] s t ∧ answered .reset .ok s t ∧ t.link.stopped = true ∧
    t.link.nextUntaken = none) ∧
  ∀ (kind : Byte) (body : List Byte) (s : State), s.link.stopped = true → body.length ≤ 249 →
    s.link.requests.length < 8 → ∃ t,
      exec (.frameReceived kind body) s = .next t ∧ t.link.stopped = true ∧
      t.link.requests = s.link.requests ++ [⟨kind, body, .untaken⟩] ∧ t.link.nextUntaken = none

/-! ## Motion -/

/-- The sine and cosine values of every heading: S(h) is 65536 × sin(h × 0.01°) rounded to the nearest integer and C(h)
is 65536 × cos(h × 0.01°) rounded so, each in −65536..65536. -/
def Obligations.SineAndCosine : Prop :=
  ∀ h : Nat, h < 36000 →
    |(sine h : ℝ) - 65536 * Real.sin (h * Real.pi / 18000)| < 1 / 2 ∧
    |(cosine h : ℝ) - 65536 * Real.cos (h * Real.pi / 18000)| < 1 / 2 ∧
    -65536 ≤ sine h ∧ sine h ≤ 65536 ∧ -65536 ≤ cosine h ∧ cosine h ≤ 65536

/-- An interpolation period expiry in CUTTING, and in HOLDING with the held flag clear. With no segment active, no link
move and no pivot in CUTTING, it opens by taking the PLANNED segment at the execution pointer with p 0: the slot ACTIVE,
the executed heading, TAG, and what its kind and junction ask for; then it goes on as an expiry with that segment active
does. Short of the end of a moving segment, p moves by the V the Governor yields, the targets are those of the new p,
and the axes are handed them (log entry 9). At its end, or at a PAUSE's, the head stands at the end with p 0 (log entry
29), the completion is counted, the slot is freed or re-queued and the pointer advances, GO is handed when enough is
free, the Planner replans, and the segment that follows is taken: at a SMOOTH or BLEND junction with the overshoot, at
any other from rest, with the pivot, the turn or the pause its junction asks for; an overshoot past the end of that
segment completes it too and carries into the slot after it, in STOPPING as well. In HOLDING the hold ramp governs V,
and an expiry that leaves V 0 with no pivot sets the held flag, HELD before LOW. The points and headings of a segment's
progress are those of R62 and R63. Every expiry of a running STREAM job with its chain open leaves the low-water flag by
the path ahead, evaluated last (log entry 10). -/
def Obligations.ActiveSegmentAdvances : Prop :=
  (∀ (seg : Segment) (p : Nat),
    let turned := (2 * (seg.sweep * p) + seg.length * 1000) / (2 * (seg.length * 1000))
    (headingAt seg p : Int) =
      (match seg.kind with
      | .arcCcw => (seg.entryHeading + turned : Int) % 36000
      | .arcCw => (seg.entryHeading - turned : Int) % 36000
      | _ => seg.entryHeading) ∧
    pointAt seg p =
      (match seg.kind with
      | .line => alongLine seg.startAt seg.stopAt seg.length p
      | .pause => seg.startAt
      | _ => seg.implied seg.radius (headingAt seg p))) ∧
  (∀ (a b : Point) (length p : Nat),
    let along (from0 to0 : Int) : Int :=
      from0 + (to0 - from0).sign * ((2 * ((to0 - from0).natAbs * p) + length * 1000) / (2 * (length * 1000)) : Nat)
    alongLine a b length p = ⟨along a.x b.x, along a.y b.y⟩) ∧
  (∀ (sl : Slot) (s : State), s.slotsOk → s.interp.timer.isSome = true → s.job.state = .cutting →
    s.interp.active = none → s.interp.link = none → s.interp.pivot = 0 →
    s.store.slot s.store.execPtr = some sl → sl.state = .planned → ∃ t u,
      exec .interpolationPeriodExpiry s = .next t ∧ exec .interpolationPeriodExpiry u = .next t ∧
      Keeps [.store, .interp, .link] s u ∧
      u.store = s.store.takenAt s.store.execPtr sl.seg ∧ u.store.slot s.store.execPtr = some ⟨.active, sl.seg⟩ ∧
      u.interp = s.interp.taking s.store.execPtr sl.seg 0 ∧
      u.link = { s.link with notices := u.link.notices, noticeLost := u.link.noticeLost, tx := u.link.tx } ∧
      (sl.seg.tag = none → u.link = s.link) ∧
      (s.link.notices.length < 16 → u.link = { s.link with notices := s.link.notices ++ s.tagOf sl.seg })) ∧
  (∀ (i : Nat) (sl : Slot) (s : State), s.interp.timer.isSome = true →
    s.job.state = .cutting ∨ (s.job.state = .holding ∧ s.job.held = false ∧ 0 < (evaluateGovernor s).gov.v) →
    s.interp.active = some i → s.store.slot i = some sl → sl.seg.kind.moving = true → s.interp.pivot = 0 →
    s.interp.p + (evaluateGovernor s).gov.v < sl.seg.length * 1000 → ∃ t,
      exec .interpolationPeriodExpiry s = .next t ∧ Keeps [.store, .interp, .gov, .axes, .link] s t ∧
      t.gov = (evaluateGovernor s).gov ∧
      t.interp =
        { s.interp with
          timer := some 0
          p := s.interp.p + t.gov.v
          targetX := ((pointAt sl.seg t.interp.p).shift (passShift s)).x
          targetY := ((pointAt sl.seg t.interp.p).shift (passShift s)).y
          targetC := headingAt sl.seg t.interp.p } ∧
      t.store = { s.store with armed := t.store.armed } ∧ t.link.requests = s.link.requests ∧
      t.link.marks = s.link.marks ∧
      (s.link.notices.length < 16 → t.link.notices = s.link.notices ++ s.lowQueued t) ∧
      Axes.handed s.params t.interp.targetX t.interp.targetY t.interp.targetC s.axes t.axes) ∧
  (∀ (i past : Nat) (sl : Slot) (s : State), s.slotsOk → s.interp.timer.isSome = true → s.cuts →
    s.interp.active = some i → s.store.slot i = some sl → s.interp.pivot = 0 → s.atEndOf sl.seg past →
    (s.store.mode = .stream ∧ sl.seg.last = false ∨ s.store.mode = .repeating ∧ i + 1 ≠ s.store.writePtr) →
    ∃ v, s.completed i sl.seg v ∧ ∀ nx, v.store.slot (s.store.after i) = some nx →
      past < nx.seg.length * 1000 ∨ ¬nx.seg.carried → ∃ t,
        exec .interpolationPeriodExpiry s = .next t ∧ nx.state = .planned ∧
        Keeps [.store, .planner, .interp, .gov, .stroke, .load, .axes, .job, .link] s t ∧
        s.wentOn (s.atEnd sl.seg) (s.store.after i) past nx.seg v t ∧
        s.restJudged { s.job with executed := t.job.executed, lastCompleted := some sl.seg.number } (s.tagOf nx.seg) t ∧
        (s.job.executed < 4294967295 → t.job.executed = s.job.executed + 1) ∧ s.goMarked t ∧
        Axes.handed s.params t.interp.targetX t.interp.targetY t.interp.targetC s.axes t.axes) ∧
  (∀ (i past : Nat) (sl : Slot) (s : State), s.slotsOk → s.interp.timer.isSome = true →
    s.cuts ∨ s.job.state = .stopping → s.interp.active = some i → s.store.slot i = some sl →
    sl.seg.kind.moving = true → s.interp.pivot = 0 → 0 < (evaluateGovernor s).gov.v → s.atEndOf sl.seg past →
    let j := s.store.after i
    let k := s.store.after j
    (s.store.mode = .stream ∧ sl.seg.last = false ∨ s.store.mode = .repeating ∧ i + 1 ≠ s.store.writePtr) →
    ∃ v, s.completed i sl.seg v ∧ ∀ nx, v.store.slot j = some nx → nx.seg.carried → nx.seg.length * 1000 ≤ past →
      (s.store.mode = .stream ∧ nx.seg.last = false ∨ s.store.mode = .repeating ∧ j + 1 ≠ s.store.writePtr) →
      let beyond := past - nx.seg.length * 1000
      let passing : State := { s with interp := (s.atEnd sl.seg).taking j nx.seg past }
      ∃ w, ({ s with store := v.store.takenAt j nx.seg, planner := v.planner } : State).completed j nx.seg w ∧
        ∀ third, w.store.slot k = some third → beyond < third.seg.length * 1000 ∨ ¬third.seg.carried → ∃ t,
          exec .interpolationPeriodExpiry s = .next t ∧
          Keeps [.store, .planner, .interp, .gov, .axes, .job, .link] s t ∧
          t.job = { s.job with executed := t.job.executed, lastCompleted := some nx.seg.number } ∧
          (s.job.executed < 4294967294 → t.job.executed = s.job.executed + 2) ∧
          t.link.requests = s.link.requests ∧ s.goMarked t ∧
          Axes.handed s.params t.interp.targetX t.interp.targetY t.interp.targetC s.axes t.axes ∧
          (s.cuts ∨ third.seg.carried →
            s.wentOn (passing.atEnd nx.seg) k beyond third.seg w t ∧
            (s.link.notices.length < 14 → t.link.notices =
              s.link.notices ++ s.tagOf nx.seg ++ s.tagOf third.seg ++ s.lowQueued t)) ∧
          (s.job.state = .stopping → ¬third.seg.carried →
            t.store = { w.store with armed := t.store.armed } ∧ t.planner = w.planner ∧
            t.interp = passing.atEnd nx.seg ∧ t.gov = { (evaluateGovernor s).gov with vprev := 0 } ∧
            (s.link.notices.length < 14 → t.link.notices =
              s.link.notices ++ s.tagOf nx.seg ++ s.lowQueued t))) ∧
  ∀ s : State, s.interp.timer.isSome = true → ∃ t, exec .interpolationPeriodExpiry s = .next t ∧
    (t.job.state ≠ .idle → t.job.state ≠ .motion → t.job.state ≠ .fault → t.store.mode = .stream →
      t.store.chainClosed = false →
      t.store.armed = decide (t.params.lowWater ≤ t.ahead))

/-- At every evaluation V is within the requested feed, the planned cap, the stroke cap and 30000 cps, and the target is
the least of the four. -/
def Obligations.GovernedFeedBounds : Prop :=
  (∀ k : Caps, k.target = min (min k.vreq k.vplan) (min k.vstroke 30000)) ∧
  ∀ s : State, let g := (evaluateGovernor s).gov
    g.v ≤ min (min g.vreq g.vplan) (min g.vstroke 30000) ∧ g.v ≤ 30000

/-- A pivot in progress moves the C target by at most PIVOT_RATE an expiry, in its direction, with V 0 and X and Y
standing; in STOPPING it is halted where it stands (log entry 12). The expiry that completes a start pivot lets a job in
WARMUP with the blade in RUN pass to CUTTING, and the one that completes a pivot in HOLDING sets the held flag. An
active PAUSE counts down by 1 ms in CUTTING and in HOLDING with the held flag clear, and is frozen in WARMUP and with
the flag set; in HOLDING its first expiry finds the head at rest and sets the flag. A link move goes along its straight
by the V of the Governor, with C standing, and at its end the head stands at the origin of the pass with the start pivot
begun and p 0 (log entry 29); in HOLDING an expiry with V 0 sets the held flag. In WARMUP and held, a segment or a link
move under way stands with its targets (R69; log entry 11); so does the head in WARMUP, CUTTING, HOLDING and STARVED
with nothing to move along, and HOLDING comes to rest there. The targets are handed to the axes with the steps left
issued (log entry 9); HELD is queued before the LOW of the same expiry (log entry 10). -/
def Obligations.PivotSteps : Prop :=
  (∀ s : State, s.interp.timer.isSome = true → 0 < s.interp.pivot →
    let d := min s.params.pivotRate s.interp.pivot
    (s.job.state = .warmup ∨ s.job.state = .cutting ∨ s.job.state = .holding → ∃ t,
      exec .interpolationPeriodExpiry s = .next t ∧
      Keeps [.store, .interp, .gov, .axes, .link, .job, .stroke, .load] s t ∧
      t.interp =
        { s.interp with
          timer := some 0, pivot := s.interp.pivot - d, targetC := t.interp.targetC,
          startPending := s.interp.startPending && decide (s.interp.pivot - d ≠ 0) } ∧
      (t.interp.targetC : Int) =
        (if s.interp.pivotNeg then (s.interp.targetC : Int) - d else s.interp.targetC + d) % 36000 ∧
      t.gov = { v := 0, vprev := 0, stage := .zero, vreq := 0, vplan := 0, vstroke := 0 } ∧ s.stoodIn t ∧
      Axes.handed s.params s.interp.targetX s.interp.targetY t.interp.targetC s.axes t.axes) ∧
    (s.job.state = .stopping → ∃ t,
      exec .interpolationPeriodExpiry s = .next t ∧ t.interp.pivot = 0 ∧ t.interp.targetC = s.interp.targetC ∧
      t.gov.v = 0)) ∧
  (∀ (i : Nat) (sl : Slot) (s : State), s.interp.timer.isSome = true → s.interp.active = some i →
    s.store.slot i = some sl → sl.seg.kind.moving = false → s.interp.pivot = 0 →
    s.job.state = .warmup ∨ s.job.state = .cutting ∨ s.job.state = .holding →
    let counting := s.job.state = .cutting ∨ (s.job.state = .holding ∧ s.job.held = false)
    (counting → 1 < s.interp.pause) → ∃ t,
      exec .interpolationPeriodExpiry s = .next t ∧
      Keeps [.store, .interp, .gov, .axes, .link, .job, .stroke, .load] s t ∧
      t.gov = { v := 0, vprev := 0, stage := .zero, vreq := 0, vplan := 0, vstroke := 0 } ∧ s.stoodIn t ∧
      t.interp = { s.interp with timer := some 0, pause := if counting then s.interp.pause - 1 else s.interp.pause } ∧
      Axes.handed s.params s.interp.targetX s.interp.targetY s.interp.targetC s.axes t.axes) ∧
  (∀ s : State, s.interp.timer.isSome = true → s.interp.pivot = 0 →
    let nothing := s.interp.active = none ∧ s.interp.link = none ∧
      (s.job.state = .warmup ∨ s.job.state = .holding ∨ s.job.state = .starved ∨
        (s.job.state = .cutting ∧ ∀ sl, s.store.slot s.store.execPtr = some sl → sl.state ≠ .planned))
    let onSegment := ∃ i sl, s.interp.active = some i ∧ s.store.slot i = some sl ∧ sl.seg.kind.moving = true ∧
      s.interp.p < sl.seg.length * 1000
    let onLink := ∃ lk, s.interp.active = none ∧ s.interp.link = some lk ∧ s.interp.p < lk.length * 1000
    nothing ∨
      ((s.job.state = .warmup ∨ (s.job.state = .holding ∧ s.job.held = true)) ∧ (onSegment ∨ onLink)) → ∃ t,
      exec .interpolationPeriodExpiry s = .next t ∧
      Keeps [.store, .interp, .gov, .axes, .link, .job, .stroke, .load] s t ∧
      t.gov = { v := 0, vprev := 0, stage := .zero, vreq := 0, vplan := 0, vstroke := 0 } ∧ s.stoodIn t ∧
      t.interp = { s.interp with timer := some 0 } ∧
      Axes.handed s.params s.interp.targetX s.interp.targetY s.interp.targetC s.axes t.axes) ∧
  ∀ (lk : LinkMove) (s : State), s.interp.timer.isSome = true →
    s.job.state = .cutting ∨ (s.job.state = .holding ∧ s.job.held = false) → s.interp.active = none →
    s.interp.link = some lk → s.interp.pivot = 0 →
    let p := s.interp.p + (evaluateGovernor s).gov.v
    ∃ t, exec .interpolationPeriodExpiry s = .next t ∧
      Keeps [.store, .interp, .gov, .axes, .link, .job, .stroke, .load] s t ∧ s.stoodIn t ∧
      (p < lk.length * 1000 →
        t.gov = (evaluateGovernor s).gov ∧
        t.interp =
          { s.interp with
            timer := some 0, p := p,
            targetX := (alongLine lk.startAt lk.stopAt lk.length p).x,
            targetY := (alongLine lk.startAt lk.stopAt lk.length p).y }) ∧
      (lk.length * 1000 ≤ p →
        t.gov = { (evaluateGovernor s).gov with vprev := 0 } ∧ t.interp.inStartPivot s.store ∧
        t.interp =
          { s.interp with
            timer := some 0, p := 0, link := none, targetX := lk.stopAt.x, targetY := lk.stopAt.y,
            pivot := t.interp.pivot, pivotNeg := t.interp.pivotNeg, startPending := t.interp.startPending }) ∧
      Axes.handed s.params t.interp.targetX t.interp.targetY t.interp.targetC s.axes t.axes

/-- One evaluation of the Governor. The path inputs are those of the active LINE or arc, or of a link move, and there
are none in a PAUSE or with neither (R78). With none, with a pivot in progress, in WARMUP and held, V, Vprev and the
three caps are 0 with the stage ZERO (R86). Otherwise the request is the feed scaled by OVERRIDE and then by the load
derate, the planned cap and the stroke cap are as R80 and R81 give, V is the target under the slew and the ramp of the
job state (R82 to R85), Vprev takes V, and the stage is the one that set V (R90). And with an exit speed the head can
stop from within a distance D at ACCEL, the V of an evaluation is one it can stop from within what remains of the
segment and D (R88). -/
def Obligations.StoppingDistance : Prop :=
  (∀ (q : PathInput) (D : Nat) (s : State), pathInput s = some q →
    q.vexit * q.vexit ≤ 2000 * s.params.accel * D →
    (evaluateGovernor s).gov.v * (evaluateGovernor s).gov.v ≤ 2000 * s.params.accel * (q.rem + D)) ∧
  (∀ s : State,
    (∀ (i : Nat) (sl : Slot), s.interp.active = some i → s.store.slot i = some sl →
      pathInput s =
        if sl.seg.kind = .pause then none
        else
          some
            { feed := sl.seg.feed, hint := sl.seg.hint, advance := sl.seg.advance.getD s.params.advanceLimit,
              vexit := sl.seg.exitSpeed, rem := (sl.seg.length * 1000 - s.interp.p + 999) / 1000 }) ∧
    (∀ lk : LinkMove, s.interp.active = none → s.interp.link = some lk →
      pathInput s =
        some
          { feed := s.params.linkFeed, hint := none, advance := s.params.advanceLimit, vexit := 0,
            rem := (lk.length * 1000 - s.interp.p + 999) / 1000 }) ∧
    (s.interp.active = none → s.interp.link = none → pathInput s = none)) ∧
  ∀ s : State,
    let g := (evaluateGovernor s).gov
    let barred := 0 < s.interp.pivot ∨ s.job.state = .warmup ∨ (s.job.state = .holding ∧ s.job.held = true)
    (barred ∨ pathInput s = none → g = { v := 0, vprev := 0, stage := .zero, vreq := 0, vplan := 0, vstroke := 0 }) ∧
    ∀ q : PathInput, pathInput s = some q → ¬ barred →
      let factor (n : Nat) : Nat :=
        if n = 0 then s.params.d0 else if n = 1 then s.params.d1 else if n = 2 then s.params.d2 else s.params.d3
      let derate : Nat := (q.hint.map fun h => min (factor s.load.band) (factor h)).getD (factor s.load.band)
      let target := min (min g.vreq g.vplan) (min g.vstroke 30000)
      let slew := min target (s.gov.vprev + s.params.accel)
      g.vreq = q.feed * s.params.overridePct / 100 * derate / 256 ∧
      isRoot g.vplan (q.vexit * q.vexit + 2000 * s.params.accel * q.rem) ∧
      g.vstroke = (if s.stroke.state = .run then s.stroke.m * q.advance / 60 else 0) ∧
      g.v =
        (if s.job.state = .holding then min slew (s.gov.vprev - s.params.accel)
        else if s.job.state = .stopping then min slew (s.gov.vprev - s.params.stopDecel)
        else slew) ∧
      g.vprev = g.v ∧
      g.stage =
        (if s.job.state = .holding ∧ g.v < slew then .holdRamp
        else if s.job.state = .stopping ∧ g.v < slew then .stopRamp
        else if s.gov.vprev + s.params.accel < target then .slew
        else if g.vreq = target then .request
        else if g.vplan = target then .plan
        else if g.vstroke = target then .stroke
        else .ceiling)

/-- The backward pass over the legs of a run of segments: the frontier exits at 0; entry and exit speeds are within the
segment's effective feed request; an entry is within reach of its exit over its own length; an exit is one the head can
stop from within the lengths after it. A replan, with the window of the Store in its form, plans the span from the first
slot on: each segment's junction class, its entry and exit speed by the corner speeds and the backward pass, written
into its slot, which becomes PLANNED; an ACTIVE slot keeps its class and entry and takes its exit speed; the derates are
copied first in IDLE; nothing else changes. -/
def Obligations.PlanWithinStopping : Prop :=
  (∀ (prm : Params) (pl : Planner) (pred : Option Segment) (segs : List Segment),
    let speeds := backwardPass prm.accel (legsOf prm pl pred segs)
    speeds.length = segs.length ∧
    ∀ (k : Nat) (seg : Segment) (sp : Speeds), segs[k]? = some seg → speeds[k]? = some sp →
      (k + 1 = segs.length → sp.exit = 0) ∧
      sp.entry ≤ effectiveFeed pl seg ∧ sp.exit ≤ effectiveFeed pl seg ∧
      sp.entry * sp.entry ≤ sp.exit * sp.exit + 2000 * prm.accel * seg.length ∧
      sp.exit * sp.exit ≤ 2000 * prm.accel * ((segs.drop (k + 1)).map Segment.length).sum) ∧
  ∀ (completed : Option Segment) (s : State), s.slotsOk → s.replanned completed (replan completed s)

/-- A traverse period expiry. A MOVE: V is within TRAVERSE_FEED, Vprev + ACCEL and the planned cap; p moves by V and
stops at the end with V 0, C turns by at most PIVOT_RATE, and the targets are handed to the axes; at the end with its
turn done the traverse is cleared, MOVED is queued and the job is IDLE. A HOME: each homing axis is advanced by the
speed of its phase and ends or fails as its phase does, and completion is judged. A controlled stop of a MOVE slows it
by STOP_DECEL with the turn halted; one of a HOME slows its homing axes in their phases. At rest a MOVE is cleared with
no MOVED, an axis not ended is UNREFERENCED with ABORTED and HOMED is queued, and then the stop ends as any does: coast
request, IDLE or FAULT by the latch, STOPPED. At every expiry the steps left of the period before are issued (log entry
9); in FAULT they are abandoned (log entry 30). A search ends at HOME_SEARCH counts, and an axis that fails with SWITCH
keeps the steps of its period (log entry 19). An axis given up by the stop has the phase none (log entry 17), and HOMED
carries none and 0 for an axis not named (log entry 18). -/
def Obligations.TraverseAdvances : Prop :=
  (∀ (tr : Traverse) (s : State), s.axes.timer.isSome = true → s.job.state = .motion → s.axes.home = none →
    (∀ a, (s.axes.get a).ref ≠ .homing) → s.axes.traverse = some tr →
    let whole := tr.length * 1000
    let v := min s.params.traverseFeed
      (min (tr.vprev + s.params.accel) (isqrt (2000 * s.params.accel * ((whole - tr.p + 999) / 1000))))
    let p := if whole ≤ tr.p then tr.p else min (tr.p + v) whole
    let speed := if p < whole then v else 0
    let n := min s.params.pivotRate tr.turnLeft
    let point := if p < whole then alongLine tr.startAt tr.stopAt tr.length p else tr.stopAt
    ∃ (t : State) (tr' : Traverse), exec .traversePeriodExpiry s = .next t ∧ Keeps [.axes, .job, .link] s t ∧
      tr' = { tr with p := p, v := speed, vprev := speed, turnLeft := tr.turnLeft - n, targetC := tr'.targetC } ∧
      (tr'.targetC : Int) = (if tr.turnNeg then (tr.targetC : Int) - n else tr.targetC + n) % 36000 ∧
      Axes.handed s.params point.x point.y tr'.targetC
        { s.axes with traverse := t.axes.traverse, timer := t.axes.timer } t.axes ∧
      (p < whole ∨ n < tr.turnLeft →
        t.axes.traverse = some tr' ∧ t.axes.timer = some 0 ∧ t.job = s.job ∧ t.link = s.link) ∧
      (whole ≤ p → tr.turnLeft ≤ n →
        t.axes.traverse = none ∧ t.axes.timer = none ∧ t.job = { s.job with state := .idle } ∧
        (s.link.notices.length < 16 →
          t.link.notices = s.link.notices ++ [.moved tr.stopAt.x tr.stopAt.y tr.goalC]))) ∧
  (∀ (w : AxisSet) (s : State), s.axes.timer.isSome = true → s.job.state = .motion → s.axes.home = some w →
    s.axes.traverse = none → ∃ t, exec .traversePeriodExpiry s = .next t ∧ Keeps [.axes, .job, .link] s t ∧
      s.homeJudged w t ∧
      ∀ a,
        let ax := s.axes.get a
        let whole := s.params.homeSearch * 1000
        let v := min s.params.homeFeed
          (min (ax.speed + s.params.accel) (isqrt (2000 * s.params.accel * ((whole - ax.moved + 999) / 1000))))
        let slower := ax.speed - s.params.accel
        let creep := min 200 (ax.speed + s.params.accel)
        (ax.ref ≠ .homing → t.axes.get a = ax.standing a) ∧
        (ax.ref = .homing → ax.phase = .search → t.axes.get a =
          if whole ≤ ax.moved + v then (ax.homeMoved a v whole).failedWith .search
          else ax.homeMoved a v (ax.moved + v)) ∧
        (ax.ref = .homing → ax.phase = .brake → t.axes.get a =
          if slower = 0 then
            { ax.homeMoved a 0 ax.moved with
              phase := if (s.guard.input (homeInputOf a)).accepted then .backoff else .backoffSeek, moved := 0 }
          else ax.homeMoved a slower (ax.moved + slower)) ∧
        (ax.ref = .homing → ax.phase = .backoffSeek ∨ ax.phase = .backoff → t.axes.get a =
          if 2000000 ≤ ax.moved + creep then (ax.homeMoved a creep (ax.moved + creep)).failedWith .switch
          else ax.homeMoved a creep (ax.moved + creep))) ∧
  (∀ (tr : Traverse) (s : State), s.axes.timer.isSome = true → s.job.state = .stopping →
    s.guard.stop = some .motion → s.axes.home = none → (∀ a, (s.axes.get a).ref ≠ .homing) →
    s.axes.traverse = some tr →
    let whole := tr.length * 1000
    let v := min
      (min s.params.traverseFeed
        (min (tr.vprev + s.params.accel) (isqrt (2000 * s.params.accel * ((whole - tr.p + 999) / 1000)))))
      (tr.vprev - s.params.stopDecel)
    let point := if tr.p + v < whole then alongLine tr.startAt tr.stopAt tr.length (tr.p + v) else tr.stopAt
    ∃ t, exec .traversePeriodExpiry s = .next t ∧ Keeps [.axes, .interp, .stroke, .load, .guard, .job, .link] s t ∧
      (tr.p + v < whole → 0 < v →
        Axes.handed s.params point.x point.y tr.targetC
          { s.axes with traverse := t.axes.traverse, timer := some 0 } t.axes ∧
        t.axes.traverse = some { tr with p := tr.p + v, v := v, vprev := v, turnLeft := 0 } ∧ t.job = s.job ∧
        t.guard = s.guard ∧ t.link = s.link ∧ t.stroke = s.stroke) ∧
      (whole ≤ tr.p + v ∨ v = 0 →
        (s.guard.latch = 0 → Axes.handed s.params point.x point.y tr.targetC
          { s.axes with traverse := none, timer := none } t.axes) ∧
        (∀ a, (t.axes.get a).enable = (s.axes.get a).enable ∧ (t.axes.get a).ref = (s.axes.get a).ref ∧
          (s.guard.latch ≠ 0 → (t.axes.get a).steps = 0)) ∧
        t.axes.traverse = none ∧ t.axes.timer = none ∧ t.stroke = s.stroke.toCoast ∧
        t.job = { s.job with state := if s.guard.latch = 0 then .idle else .fault } ∧
        t.guard = { s.guard with stop := none } ∧
        (s.link.notices.length < 16 →
          t.link.notices = s.link.notices ++ [.stopped .controlled .motion s.guard.latch]))) ∧
  ∀ (w : AxisSet) (s : State), s.axes.timer.isSome = true → s.job.state = .stopping →
    s.guard.stop = some .motion → s.axes.home = some w → s.axes.traverse = none →
    let moving (ax : AxisState) : Prop :=
      ax.phase = .search ∨ ax.phase = .brake ∨ ax.phase = .backoffSeek ∨ ax.phase = .backoff
    let slower (ax : AxisState) : Nat := if moving ax then ax.speed - s.params.stopDecel else ax.speed
    let moved (a : Axis) (ax : AxisState) : AxisState :=
      if ax.ref = .homing ∧ moving ax then ax.homeMoved a (slower ax) (ax.moved + slower ax) else ax.standing a
    ∃ t, exec .traversePeriodExpiry s = .next t ∧ Keeps [.axes, .interp, .stroke, .load, .guard, .job, .link] s t ∧
      ((∃ a, (s.axes.get a).ref = .homing ∧ slower (s.axes.get a) ≠ 0) →
        (∀ a, t.axes.get a = moved a (s.axes.get a)) ∧ t.axes.home = some w ∧ t.axes.timer = some 0 ∧
        t.job = s.job ∧ t.guard = s.guard ∧ t.link = s.link ∧ t.stroke = s.stroke) ∧
      ((∀ a, (s.axes.get a).ref = .homing → slower (s.axes.get a) = 0) →
        (∀ a, t.axes.get a =
          let ax := moved a (s.axes.get a)
          let kept : AxisState := { ax with steps := if s.guard.latch = 0 then ax.steps else 0 }
          if ax.ref = .homing then
            { kept with ref := .unreferenced, outcome := .aborted, phase := .none, speed := 0 }
          else kept) ∧
        t.axes.home = none ∧ t.axes.timer = none ∧ t.stroke = s.stroke.toCoast ∧
        t.job = { s.job with state := if s.guard.latch = 0 then .idle else .fault } ∧
        t.guard = { s.guard with stop := none } ∧
        (s.link.notices.length < 15 → t.link.notices =
          s.link.notices ++ [t.axes.homedNotice w, .stopped .controlled .motion s.guard.latch]))

/-- One step of an axis issued moves its position by 1 in the direction of its steps, C mod 36000, and leaves one step
fewer; with no step left nothing happens (log entry 2). -/
def Obligations.StepsIssued : Prop :=
  ∀ (a : Axis) (s : State),
    ((s.axes.get a).steps = 0 → exec (.stepIssued a) s = .next s) ∧
    ((s.axes.get a).steps ≠ 0 → ∃ t,
      exec (.stepIssued a) s = .next t ∧ Keeps [.axes] s t ∧
      (t.axes.get a).steps.natAbs + 1 = (s.axes.get a).steps.natAbs ∧
      (t.axes.get a).pos =
        (match a with
        | .x => s.axes.x.pos + s.axes.x.steps.sign
        | .y => s.axes.y.pos + s.axes.y.steps.sign
        | .c => (s.axes.c.pos + s.axes.c.steps.sign) % 36000) ∧
      ∀ b, b ≠ a → t.axes.get b = s.axes.get b)

/-! ## The blade -/

/-- An index arrival brings the time base to its timestamp (log entry 3). Taken in SPINUP, RUN or IDLE, it stores its
timestamp and restarts the stall timer. With a timestamp stored it forms M from the interval and makes the control step,
whose error lies in −8400..9000 with every parameter in range; with the record cleared it forms no M and makes no step.
In SPINUP it counts toward lock, and at LOCK_COUNT the stroke enters RUN, the run counter is cleared, and a job in
WARMUP with no start pivot pending passes to CUTTING. The Load Monitor starts its phase-delay timer, or with
SAMPLE_PHASE 0 a conversion for STROKE. In COAST the index stores its timestamp, forms M and restarts the timer, and
nothing else. In OFF and STALLED it is not taken. -/
def Obligations.IndexArrivals : Prop :=
  ∀ (now : Word) (s : State), ∃ t,
    let u := elapseTo now s
    exec (.indexArrival now) s = .next t ∧
    Keeps [.timeBase, .interp, .stroke, .load, .axes, .guard, .job, .link] s t ∧ t.timeBase = now ∧
    Keeps [.stroke, .load, .job] u t ∧
    (s.stroke.state = .off ∨ s.stroke.state = .stalled →
      t = u ∧ t.stroke.state = s.stroke.state ∧ t.stroke.m = s.stroke.m ∧ t.stroke.duty = s.stroke.duty ∧
      t.stroke.index = s.stroke.index ∧ t.stroke.lock = s.stroke.lock) ∧
    (s.stroke.state = .coast →
      t.load = u.load ∧ t.job = u.job ∧
      t.stroke.state = .coast ∧ t.stroke.duty = s.stroke.duty ∧ t.stroke.lock = s.stroke.lock ∧
      t.stroke.index = some now ∧ t.stroke.stallTimer = some 0 ∧
      (s.stroke.index = none → t.stroke.m = s.stroke.m) ∧
      ∀ earlier, s.stroke.index = some earlier →
        t.stroke.m = if (now - earlier).toNat = 0 then 9000 else min 9000 (60000000 / (now - earlier).toNat)) ∧
    (s.stroke.state.driven = true →
      t.stroke.index = some now ∧ t.stroke.stallTimer = some 0 ∧
      (s.stroke.state ≠ .spinup → t.stroke.state = s.stroke.state) ∧
      t.job =
        (if s.job.state = .warmup ∧ t.stroke.state = .run ∧ s.interp.startPending = false then
          { u.job with state := .cutting }
        else u.job) ∧
      (let m := u.load.told s.stroke.state t.stroke.state
      t.load =
        if s.params.samplePhase = 0 then
          { m with
            phase := none, reqStroke := true, valid := false,
            inFlight := some (if m.settled then .measuring 0 else .settling 0) }
        else { m with phase := some s.params.samplePhase }) ∧
      (s.stroke.index = none → t.stroke.m = s.stroke.m ∧ t.stroke.duty = s.stroke.duty ∧
        (s.stroke.state = .spinup → t.stroke.lock = 0)) ∧
      ∀ earlier, s.stroke.index = some earlier →
        let interval := (now - earlier).toNat
        let target : Int := if s.stroke.state = .idle then s.params.strokeIdle else s.params.strokeCut
        let e := target - t.stroke.m
        t.stroke.m = (if interval = 0 then 9000 else min 9000 (60000000 / interval)) ∧
        (t.stroke.duty : Int) = clamp (s.stroke.duty + (e * s.params.ki).tdiv 256) 0 1000 ∧
        (s.paramsOk → -8400 ≤ e ∧ e ≤ 9000) ∧
        (s.stroke.state = .spinup →
          ((s.params.strokeCut : Int) - t.stroke.m).natAbs ≤ s.params.lockBand →
            if s.params.lockCount ≤ s.stroke.lock + 1 then
              t.stroke.state = .run ∧ t.stroke.lock = 0 ∧ t.stroke.spinTimer = none
            else t.stroke.state = .spinup ∧ t.stroke.lock = s.stroke.lock + 1) ∧
        (s.stroke.state = .spinup → s.params.lockBand < ((s.params.strokeCut : Int) - t.stroke.m).natAbs →
          0 < s.params.lockCount → t.stroke.state = .spinup ∧ t.stroke.lock = 0))

/-- The spin-up timer's expiry, at SPINUP_LIMIT, takes the stroke to COAST with duty 0 and latches SPINUP_FAIL, and the
job is STOPPING or FAULT; the coast timer's expiry, at STALL_TIME, takes it from COAST to OFF with the record and M
cleared, of which the Load Monitor is told. A timer short of its limit, or a stroke in another state, leaves all as it
was (log entry 2). -/
def Obligations.SpinupAndCoastTimers : Prop :=
  ∀ s : State,
    (s.stroke.state = .spinup → timerOut s.stroke.spinTimer s.params.spinupLimit → ∃ t,
      exec .spinupTimerExpiry s = .next t ∧
      Keeps [.guard, .gov, .axes, .link, .stroke, .load, .interp, .store, .job] s t ∧
      t.stroke.state = .coast ∧ t.stroke.duty = 0 ∧ t.stroke.spinTimer = none ∧ t.stroke.lock = 0 ∧
      t.stroke.stallTimer = some 0 ∧ t.guard.latch = s.guard.latch ||| 0x1000#16 ∧
      t.job.state = (if s.job.state = .idle ∨ s.job.state = .fault then .fault else .stopping)) ∧
    (s.stroke.state ≠ .spinup ∨ ¬timerOut s.stroke.spinTimer s.params.spinupLimit →
      exec .spinupTimerExpiry s = .next s) ∧
    (s.stroke.state ≠ .coast ∨ ¬timerOut s.stroke.stallTimer s.params.stallTime →
      exec .coastTimerExpiry s = .next s) ∧
    (s.stroke.state = .coast → timerOut s.stroke.stallTimer s.params.stallTime → ∃ t,
      exec .coastTimerExpiry s = .next t ∧ Keeps [.stroke, .load] s t ∧
      t.stroke =
        { s.stroke with
          state := .off, duty := 0, index := none, m := 0, lock := 0, spinTimer := none, stallTimer := none } ∧
      t.load = s.load.told .coast .off)

/-- The stall timer's expiry under drive, at STALL_TIME: with duty above 0 the stroke is STALLED with duty 0 and M 0,
BLADE_STALL is latched and the job is in FAULT; with duty 0 the record and M are cleared, the duty is START_DUTY and the
timer starts anew. Short of STALL_TIME, or not under drive, no stall is found; so an index taken first, which restarts
the timer, or a coast request, leaves the expiry without effect. -/
def Obligations.StallStops : Prop :=
  (∀ s : State, s.stroke.state.driven = false ∨ ¬timerOut s.stroke.stallTimer s.params.stallTime →
    exec .stallTimerExpiry s = .next s) ∧
  (∀ (now : Word) (s t : State), 0 < s.params.stallTime → s.stroke.state.driven = true →
    exec (.indexArrival now) s = .next t → exec .stallTimerExpiry t = .next t) ∧
  ∀ s : State, s.stroke.state.driven = true → timerOut s.stroke.stallTimer s.params.stallTime →
    (0 < s.stroke.duty → ∃ t,
      exec .stallTimerExpiry s = .next t ∧
      Keeps [.guard, .gov, .axes, .link, .stroke, .load, .interp, .store, .job] s t ∧
      t.stroke.state = .stalled ∧ t.stroke.duty = 0 ∧ t.stroke.m = 0 ∧ t.stroke.index = none ∧
      t.stroke.spinTimer = none ∧ t.stroke.stallTimer = none ∧ t.guard.latch = s.guard.latch ||| 0x2000#16 ∧
      t.job.state = .fault) ∧
    (s.stroke.duty = 0 →
      exec .stallTimerExpiry s = .next (s.mapStroke fun k =>
        { k with index := none, m := 0, duty := s.params.startDuty, stallTimer := some 0 }))

/-- The phase-delay timer's expiry starts a conversion for STROKE; a settling conversion that completes sets the settled
flag and is followed by a measuring one for the same requesters; a measuring one sets the result, serves STROKE and then
answers every awaiting SAMPLE, from the accumulator and the band as STROKE left them and with the stroke state as it
stood at the completion, before a jam coasts the blade (log entry 15). A sample served to STROKE in RUN counts toward
BLADE_JAM when it is at least OVERLOAD and sets the count to 0 otherwise; at OVERLOAD_COUNT the count is set to 0,
BLADE_JAM is latched and the job is in FAULT with the blade coasting. The result is valid after it, and the converter
stays up, unless the stroke is OFF: then no requester is left and it powers down. A phase delay or a conversion that has
not run its time completes nothing (log entry 2). -/
def Obligations.ConversionsServe : Prop :=
  ∀ s : State,
    (s.load.phase ≠ some 0 → exec .phaseDelayExpiry s = .next s) ∧
    (s.load.phase = some 0 → exec .phaseDelayExpiry s = .next (s.mapLoad fun m =>
      { m with
        phase := none, reqStroke := true, valid := false,
        inFlight := some (if m.settled then .measuring 0 else .settling 0) })) ∧
    ((∀ k, s.load.inFlight = some (.settling k) → k < 24) → exec .settlingComplete s = .next s) ∧
    (∀ k, s.load.inFlight = some (.settling k) → 24 ≤ k → exec .settlingComplete s =
      .next (s.mapLoad fun m => { m with settled := true, inFlight := some (.measuring 0) })) ∧
    ((∀ k, s.load.inFlight = some (.measuring k) → k < 24) → ∀ code, exec (.measuringComplete code) s = .next s) ∧
    ∀ (k : Nat) (code : BitVec 10), s.load.inFlight = some (.measuring k) → 24 ≤ k → ∃ t,
      let band (y : Nat) := if s.params.t3 ≤ y then 3 else if s.params.t2 ≤ y then 2 else if s.params.t1 ≤ y then 1 else 0
      let on : Bool := s.stroke.state ≠ .off
      let counted := s.load.reqStroke = true ∧ s.stroke.state = .run
      let n := if s.params.overload ≤ code.toNat then s.load.run + 1 else 0
      let jams := counted ∧ s.params.overloadCount ≤ n
      exec (.measuringComplete code) s = .next t ∧
      Keeps [.guard, .gov, .axes, .link, .stroke, .load, .interp, .store, .job] s t ∧
      t.load =
        { powered := s.load.powered && on
          settled := s.load.settled && on
          inFlight := none
          reqStroke := false
          reqLink := false
          result := code.toNat
          valid := on
          phase := if jams then none else s.load.phase
          acc := if s.load.reqStroke then s.load.acc - s.load.acc / 8 + code.toNat else s.load.acc
          band :=
            if s.load.reqStroke then
              max (band (t.load.acc / 8)) (min s.load.band (band (t.load.acc / 8 + s.params.hyst)))
            else s.load.band
          run := if jams then 0 else if counted then n else s.load.run } ∧
      t.link.requests =
        (if s.load.reqLink then
          s.link.requests.map fun e =>
            if e.mark = .awaiting then
              { e with
                mark := .ready ⟨.ok, u16 code.toNat ++ u16 (t.load.acc / 8) ++ u8 t.load.band ++
                  u8 s.stroke.state.code⟩ }
            else e
        else s.link.requests) ∧
      (¬jams → t.guard = s.guard ∧ t.job = s.job ∧ t.stroke = s.stroke ∧ t.axes = s.axes) ∧
      (jams → t.guard.latch = s.guard.latch ||| 0x4000#16 ∧ t.job.state = .fault ∧ t.stroke = s.stroke.toCoast)

/-- The band after an evaluation: the greater of the band of the average and the lesser of the band before and the band
of the average with HYST added. So it rises at once; it leaves each level downward only with the average more than HYST
below that level's threshold; and with HYST 0 it is the band of the average. A change with BAND_NOTICE on queues BAND
with the new band, the band before and the average; nothing else changes. -/
def Obligations.BandHysteresis : Prop :=
  ∀ s : State, s.load.band ≤ 3 →
    let average := s.load.acc / 8
    let band (y : Nat) := if s.params.t3 ≤ y then 3 else if s.params.t2 ≤ y then 2 else if s.params.t1 ≤ y then 1 else 0
    let threshold (n : Nat) := if n = 3 then s.params.t3 else if n = 2 then s.params.t2 else s.params.t1
    let now := (evaluateBand s).load.band
    now = max (band average) (min s.load.band (band (average + s.params.hyst))) ∧
    band average ≤ now ∧ now ≤ max (band average) s.load.band ∧
    (∀ n, now < n → n ≤ s.load.band → average + s.params.hyst < threshold n) ∧
    (s.params.hyst = 0 → now = band average) ∧
    let evaluated := s.mapLoad fun m => { m with band := now }
    (now = s.load.band ∨ s.params.bandNotice = false → evaluateBand s = evaluated) ∧
    (now ≠ s.load.band → s.params.bandNotice = true →
      evaluateBand s = queueNotice (.band now s.load.band average) evaluated)

/-! ## Guard inputs and stops -/

/-- A raw change restarts the filter timer; at FILTER the raw level is accepted and the timer stops, or with the levels
equal the timer stops and nothing is accepted; with FILTER 0 a change is accepted at once. No other input changes. A
level accepted of an input no axis is told of, or with the job not in MOTION: a release queues EDGE with NOTIFY_RELEASE
on; an activation does nothing under IGNORE, queues EDGE under NOTICE, requests a hold or queues EDGE under HOLD, and is
a cause of its category under STOP and HALT, in a job and in MOTION, in STOPPING, in FAULT and in IDLE each as R141 to
R145 give. With the job in MOTION a home input's level ends the phase of its homing axis, and a limit input active makes
its homing axis FAILED with LIMIT; with the action HALT the job is in FAULT besides, with LIMIT or ABORTED by the order
of the two (log entry 6). The HOMED that may follow carries outcome NONE and position 0 for an axis not named (log entry
18). A timer short of FILTER does nothing (log entry 2). A cause of the STOP category in IDLE leaves every axis with no
steps (log entry 30). Left out, in MOTION: the level of a home or limit input whose axis is not HOMING, a home input's
activation with an action other than IGNORE and its release with NOTIFY_RELEASE on, a limit input's activation with
NOTICE, HOLD or STOP, and its release. -/
def Obligations.InputFilters : Prop :=
  (∀ (i : InputId) (active : Bool) (s : State),
    ((s.guard.input i).raw = active → exec (.inputRawChange i active) s = .next s) ∧
    ((s.guard.input i).raw ≠ active → (s.guard.input i).filter ≠ 0 →
      exec (.inputRawChange i active) s =
        .next (s.mapGuard fun g => g.updateInput i fun inp => { inp with raw := active, timer := some 0 })) ∧
    ((s.guard.input i).raw ≠ active → (s.guard.input i).filter = 0 → ∃ t,
      exec (.inputRawChange i active) s = .next t ∧ (t.guard.input i).raw = active ∧
      (t.guard.input i).accepted = active ∧ (t.guard.input i).timer = none ∧
      ∀ j, j ≠ i → t.guard.input j = s.guard.input j) ∧
    (¬timerOut (s.guard.input i).timer (s.guard.input i).filter → exec (.filterTimerExpiry i) s = .next s) ∧
    (timerOut (s.guard.input i).timer (s.guard.input i).filter → (s.guard.input i).raw = (s.guard.input i).accepted →
      exec (.filterTimerExpiry i) s =
        .next (s.mapGuard fun g => g.updateInput i fun inp => { inp with timer := none })) ∧
    (timerOut (s.guard.input i).timer (s.guard.input i).filter →
      (s.guard.input i).raw ≠ (s.guard.input i).accepted → ∃ t,
      exec (.filterTimerExpiry i) s = .next t ∧
      t.guard.input i = { s.guard.input i with accepted := (s.guard.input i).raw, timer := none } ∧
      ∀ j, j ≠ i → t.guard.input j = s.guard.input j)) ∧
  (∀ (i : InputId) (s : State), timerOut (s.guard.input i).timer (s.guard.input i).filter →
    (s.guard.input i).raw ≠ (s.guard.input i).accepted →
    s.job.state ≠ .motion ∨ (∀ a, i ≠ homeInputOf a ∧ limitInputOf a ≠ some i) →
    let inp := s.guard.input i
    let u := s.mapGuard fun g => g.updateInput i fun inp => { inp with accepted := inp.raw, timer := none }
    let bit := 1#16 <<< (inputIndex i).val
    let j := s.job.state
    let jobStop : Prop := j = .motion ∨ j = .warmup ∨ j = .cutting ∨ j = .holding ∨ j = .starved
    (inp.raw = false → exec (.filterTimerExpiry i) s =
      .next (if inp.notifyRelease then queueNotice (.edge i false) u else u)) ∧
    (inp.raw = true → inp.action = .ignore → exec (.filterTimerExpiry i) s = .next u) ∧
    (inp.raw = true → inp.action = .notice → exec (.filterTimerExpiry i) s = .next (queueNotice (.edge i true) u)) ∧
    (inp.raw = true → inp.action = .hold →
      (j = .warmup ∨ j = .cutting → exec (.filterTimerExpiry i) s =
        .next (u.mapJob fun job => { job with state := .holding, held := false })) ∧
      (j = .starved → ∃ t, exec (.filterTimerExpiry i) s = .next t ∧ Keeps [.guard, .job, .stroke, .load, .link] s t ∧
        t.job = { s.job with state := .holding, held := true, dwell := none } ∧
        t.stroke = s.stroke.toIdle s.params.startDuty ∧ t.load = s.load.told s.stroke.state t.stroke.state ∧
        (s.link.notices.length < 16 →
          t.link.notices = s.link.notices ++ [.held (activeNumber s) s.interp.p])) ∧
      (j ≠ .warmup → j ≠ .cutting → j ≠ .starved → exec (.filterTimerExpiry i) s =
        .next (queueNotice (.edge i true) u))) ∧
    (inp.raw = true → inp.action = .stop →
      (jobStop → exec (.filterTimerExpiry i) s =
        .next ((u.mapGuard fun g => { g with latch := g.latch ||| bit, stop := some j }).mapJob fun job =>
          { job with state := .stopping, held := false, dwell := none })) ∧
      (j = .stopping ∨ j = .fault → exec (.filterTimerExpiry i) s =
        .next (u.mapGuard fun g => { g with latch := g.latch ||| bit })) ∧
      (j = .idle → s.stroke.state.driven = false → exec (.filterTimerExpiry i) s = .next u) ∧
      (j = .idle → s.stroke.state.driven = true → ∃ t, exec (.filterTimerExpiry i) s = .next t ∧
        Keeps [.guard, .job, .stroke, .load, .axes, .link] s t ∧ t.job = { s.job with state := .fault } ∧
        t.guard = { u.guard with latch := s.guard.latch ||| bit } ∧ t.stroke = s.stroke.toCoast ∧
        (∀ a, t.axes.get a = { s.axes.get a with steps := 0 }) ∧
        (s.link.notices.length < 16 →
          t.link.notices = s.link.notices ++ [.stopped .controlled .idle (s.guard.latch ||| bit)]))) ∧
    (inp.raw = true → inp.action = .halt → ∃ t, exec (.filterTimerExpiry i) s = .next t ∧
      t.job.state = .fault ∧ t.guard.latch = s.guard.latch ||| bit ∧ t.stroke = s.stroke.toCoast ∧
      (j ≠ .fault → ∀ a, t.axes.get a = { t.axes.get a with enable := false, steps := 0, ref := .unreferenced }) ∧
      (j = .fault → t.link = s.link ∧
        ((∀ a, (s.axes.get a).enable = false) → t.axes = s.axes) ∧
        ((∃ a, (s.axes.get a).enable = true) →
          ∀ a, t.axes.get a = { s.axes.get a with enable := false, steps := 0, ref := .unreferenced })) ∧
      (j = .idle → s.link.notices.length < 16 →
        t.link.notices = s.link.notices ++ [.stopped .immediate .idle (s.guard.latch ||| bit)]))) ∧
  (∀ (a : Axis) (w : AxisSet) (s : State), s.job.state = .motion → s.axes.home = some w →
    s.axes.timer.isSome = true → (s.axes.get a).ref = .homing →
    let i := homeInputOf a
    let ax := s.axes.get a
    let active := (s.guard.input i).raw
    timerOut (s.guard.input i).timer (s.guard.input i).filter → active ≠ (s.guard.input i).accepted →
    (if active then (s.guard.input i).action = .ignore else (s.guard.input i).notifyRelease = false) →
    ∃ t, exec (.filterTimerExpiry i) s = .next t ∧ Keeps [.guard, .axes, .job, .link] s t ∧ s.homeJudged w t ∧
      (∀ b, b ≠ a → t.axes.get b = s.axes.get b) ∧
      t.axes.get a =
        (if active = true ∧ ax.phase = .search then { ax with phase := .brake, moved := 0 }
        else if active = true ∧ ax.phase = .backoffSeek then { ax with phase := .backoff }
        else if active = false ∧ ax.phase = .backoff then
          { ax with
            phase := .done, moved := 0, steps := 0, pos := 0, speed := 0, ref := .referenced, outcome := .referenced }
        else ax)) ∧
  ∀ (a : Axis) (i : InputId) (w : AxisSet) (s : State), limitInputOf a = some i → s.job.state = .motion →
    s.axes.home = some w → s.axes.timer.isSome = true → (s.axes.get a).ref = .homing →
    timerOut (s.guard.input i).timer (s.guard.input i).filter → (s.guard.input i).raw = true →
    (s.guard.input i).accepted = false →
    ((s.guard.input i).action = .ignore →
      ∃ t, exec (.filterTimerExpiry i) s = .next t ∧ Keeps [.guard, .axes, .job, .link] s t ∧ s.homeJudged w t ∧
        (∀ b, b ≠ a → t.axes.get b = s.axes.get b) ∧
        t.axes.get a = { (s.axes.get a).failedWith .limit with steps := 0 }) ∧
    ((s.guard.input i).action = .halt →
      ∃ t, exec (.filterTimerExpiry i) s = .next t ∧ t.job.state = .fault ∧
        t.guard.latch = s.guard.latch ||| 1#16 <<< (inputIndex i).val ∧
        ((t.axes.get a).outcome = .limit ∨ (t.axes.get a).outcome = .aborted) ∧
        ∀ b, (t.axes.get b).enable = false ∧ (t.axes.get b).steps = 0 ∧ (t.axes.get b).ref = .unreferenced)

/-- ESTOP accepted ACTIVE in a job, in MOTION or in STOPPING makes an immediate stop: V is 0 with the stage ZERO, every
axis is disabled and UNREFERENCED with no steps to issue, the blade is not driven, the period timers stop, the cause is
latched and the job is in FAULT. Entered from a job, it empties a STREAM window, with GO if the flow state was HELD, and
re-queues a REPEAT window from its begin; entered from MOTION it leaves the Store. A HOME in progress is ended with its
axes ABORTED and HOMED queued, which carries outcome NONE and position 0 for an axis not named (log entry 18), and then
STOPPED is queued with IMMEDIATE, the state the stop was entered from, and the latch. -/
def Obligations.ImmediateStopActs : Prop :=
  ∀ s : State, s.bladeOk → s.job.state ≠ .idle → s.job.state ≠ .fault →
    (s.guard.input .estop).action = .halt →
    timerOut (s.guard.input .estop).timer (s.guard.input .estop).filter →
    (s.guard.input .estop).raw = true → (s.guard.input .estop).accepted = false → ∃ t,
      let latch := s.guard.latch ||| 0x0001#16
      let entered := s.guard.stop.getD s.job.state
      exec (.filterTimerExpiry .estop) s = .next t ∧
      Keeps [.guard, .gov, .axes, .link, .stroke, .load, .interp, .store, .job] s t ∧
      t.job.state = .fault ∧ t.job.held = false ∧ t.job.dwell = none ∧
      t.guard.latch = latch ∧ t.guard.stop = none ∧
      t.gov = { s.gov with v := 0, vprev := 0, stage := .zero } ∧
      (∀ a, (t.axes.get a).enable = false ∧ (t.axes.get a).steps = 0 ∧ (t.axes.get a).ref = .unreferenced) ∧
      t.axes.traverse = none ∧ t.axes.timer = none ∧ t.axes.home = none ∧
      t.interp.timer = none ∧ t.interp.active = none ∧ t.interp.p = 0 ∧ t.interp.pivot = 0 ∧ t.interp.pause = 0 ∧
      t.interp.link = none ∧ t.interp.startPending = false ∧
      t.stroke.state.driven = false ∧ t.stroke.duty = 0 ∧ t.stroke = s.stroke.toCoast ∧
      t.load = s.load.told s.stroke.state t.stroke.state ∧
      (entered = .motion → t.store = s.store ∧ t.link.marks = s.link.marks) ∧
      (entered ≠ .motion → s.store.mode = .stream →
        t.store =
          { s.store with
            slots := [], writePtr := s.store.winBegin, execPtr := s.store.winBegin, tailOpen := false, tailPoint := none,
            tailHeading := none, origin := none, chainClosed := false, executedHeading := none, flowHeld := false,
            armed := false } ∧
        t.link.marks = (if s.store.flowHeld then s.link.marks ++ [.go] else s.link.marks)) ∧
      (entered ≠ .motion → s.store.mode = .repeating →
        t.store =
          { s.store with
            slots := s.store.slots.map fun e => (e.1, { e.2 with state := .queued }), execPtr := s.store.winBegin } ∧
        t.link.marks = s.link.marks) ∧
      (∀ w, s.axes.home = some w → ∀ a, (s.axes.get a).ref = .homing → (t.axes.get a).outcome = .aborted) ∧
      (s.link.notices.length < 15 →
        t.link.notices = s.link.notices ++ (s.axes.home.map fun w => t.axes.homedNotice w).toList ++
          [.stopped .immediate entered latch])

/-- A controlled stop of a job goes on along its segment or its link move while the Governor yields V above 0, and ends
at the first expiry whose V is 0, on a segment short of its end, on a link move, in a PAUSE, at a pivot or with nothing
to move along: the blade is sent a coast request, the job is in FAULT with a cause latched and in IDLE with none, a
STREAM window is emptied and a REPEAT window keeps its records, and the axes keep their enables and references, with no
steps left in FAULT (log entry 30). A job ends at the completion of a STREAM segment carrying LAST or of the fill end of
the last REPEAT pass, in CUTTING or in HOLDING with the held flag clear: the blade is sent a coast request, the window
is emptied or keeps its records QUEUED, the job is IDLE and DONE is queued, and no LOW follows it (log entry 10). A
pivot or a PAUSE is halted at the first expiry in STOPPING (log entry 12), and the targets are handed to the axes with
the steps left issued (log entry 9). The fill end of an earlier pass, completed in CUTTING, queues PASS and begins the
link move to the shifted origin, or the start pivot when its length is 0, with p 0 (log entry 29); completed in HOLDING
with the held flag clear it does the same, and an expiry that leaves V 0 with no pivot sets the flag. A segment that
reaches its end in STOPPING with V above 0 is completed and replanned; at a SMOOTH or BLEND junction with a PLANNED
segment that one is taken with the overshoot, and otherwise, at LAST and at the fill end too, the head stands at the end
with nothing taken and nothing but LOW reported, and the next expiry ends the stop. An emptied STREAM window hands GO if
the flow state was HELD. -/
def Obligations.ControlledStopEnds : Prop :=
  (∀ (entered : JobState) (s : State), s.interp.timer.isSome = true → s.job.state = .stopping →
    s.guard.stop = some entered → entered ≠ .motion → (evaluateGovernor s).gov.v = 0 →
    (∀ i sl, s.interp.active = some i → s.store.slot i = some sl → sl.seg.kind.moving = true →
      s.interp.p < sl.seg.length * 1000) → ∃ t,
      exec .interpolationPeriodExpiry s = .next t ∧
      Keeps [.job, .store, .interp, .gov, .stroke, .load, .axes, .guard, .link] s t ∧
      t.job = { s.job with state := if s.guard.latch = 0 then .idle else .fault } ∧
      t.guard = { s.guard with stop := none } ∧ t.stroke = s.stroke.toCoast ∧
      t.load = s.load.told s.stroke.state t.stroke.state ∧
      t.interp.timer = none ∧ t.interp.active = none ∧ t.interp.link = none ∧ t.interp.p = 0 ∧ t.interp.pivot = 0 ∧
      t.interp.pause = 0 ∧ t.interp.startPending = false ∧
      (s.store.mode = .stream →
        t.store =
          { s.store with
            slots := [], writePtr := s.store.winBegin, execPtr := s.store.winBegin, tailOpen := false, tailPoint := none,
            tailHeading := none, origin := none, chainClosed := false, executedHeading := none, flowHeld := false,
            armed := false }) ∧
      (s.store.mode = .repeating →
        t.store =
          { s.store with
            slots := s.store.slots.map fun e => (e.1, { e.2 with state := .queued }), execPtr := s.store.winBegin }) ∧
      t.link.marks = (if s.store.mode = .stream ∧ s.store.flowHeld = true then s.link.marks ++ [.go] else s.link.marks) ∧
      (∀ a, (t.axes.get a).enable = (s.axes.get a).enable ∧ (t.axes.get a).ref = (s.axes.get a).ref ∧
        (s.guard.latch ≠ 0 → (t.axes.get a).steps = 0)) ∧
      (s.link.notices.length < 16 →
        t.link.notices = s.link.notices ++ [.stopped .controlled entered s.guard.latch])) ∧
  (∀ s : State, s.interp.timer.isSome = true → s.job.state = .stopping → s.interp.pivot = 0 →
    0 < (evaluateGovernor s).gov.v →
    let p := s.interp.p + (evaluateGovernor s).gov.v
    (∀ (i : Nat) (sl : Slot), s.interp.active = some i → s.store.slot i = some sl → sl.seg.kind.moving = true →
      p < sl.seg.length * 1000 → ∃ t,
        exec .interpolationPeriodExpiry s = .next t ∧ Keeps [.store, .interp, .gov, .axes, .link] s t ∧
        t.gov = (evaluateGovernor s).gov ∧ t.store = { s.store with armed := t.store.armed } ∧
        t.interp =
          { s.interp with
            timer := some 0, p := p, targetX := ((pointAt sl.seg p).shift (passShift s)).x,
            targetY := ((pointAt sl.seg p).shift (passShift s)).y, targetC := headingAt sl.seg p } ∧
        Axes.handed s.params t.interp.targetX t.interp.targetY t.interp.targetC s.axes t.axes) ∧
    ∀ lk : LinkMove, s.interp.active = none → s.interp.link = some lk → ∃ t,
      exec .interpolationPeriodExpiry s = .next t ∧ Keeps [.store, .interp, .gov, .axes, .link] s t ∧
      t.store = { s.store with armed := t.store.armed } ∧
      (p < lk.length * 1000 →
        t.gov = (evaluateGovernor s).gov ∧
        t.interp =
          { s.interp with
            timer := some 0, p := p, targetX := (alongLine lk.startAt lk.stopAt lk.length p).x,
            targetY := (alongLine lk.startAt lk.stopAt lk.length p).y }) ∧
      (lk.length * 1000 ≤ p →
        t.gov = { (evaluateGovernor s).gov with vprev := 0 } ∧
        t.interp =
          { s.interp with timer := some 0, p := 0, link := none, targetX := lk.stopAt.x, targetY := lk.stopAt.y }) ∧
      Axes.handed s.params t.interp.targetX t.interp.targetY t.interp.targetC s.axes t.axes) ∧
  (∀ (i past : Nat) (sl : Slot) (s : State), s.slotsOk → s.interp.timer.isSome = true → s.job.state = .stopping →
    s.interp.active = some i → s.store.slot i = some sl → sl.seg.kind.moving = true → s.interp.pivot = 0 →
    0 < (evaluateGovernor s).gov.v → s.atEndOf sl.seg past → ∃ v, s.completed i sl.seg v ∧
      let follows (nx : Slot) : Prop :=
        (s.store.mode = .stream ∧ sl.seg.last = false ∨ s.store.mode = .repeating ∧ i + 1 ≠ s.store.writePtr) ∧
        v.store.slot (s.store.after i) = some nx ∧ nx.seg.carried
      (∀ nx, follows nx → past < nx.seg.length * 1000) → ∃ t,
        exec .interpolationPeriodExpiry s = .next t ∧
        Keeps [.store, .planner, .interp, .gov, .axes, .job, .link] s t ∧
        t.job = { s.job with executed := t.job.executed, lastCompleted := some sl.seg.number } ∧
        (s.job.executed < 4294967295 → t.job.executed = s.job.executed + 1) ∧
        t.link.requests = s.link.requests ∧ s.goMarked t ∧
        Axes.handed s.params t.interp.targetX t.interp.targetY t.interp.targetC s.axes t.axes ∧
        (∀ nx, follows nx → s.wentOn (s.atEnd sl.seg) (s.store.after i) past nx.seg v t ∧
          (s.link.notices.length < 15 → t.link.notices = s.link.notices ++ s.tagOf nx.seg ++ s.lowQueued t)) ∧
        ((∀ nx, ¬follows nx) → s.ranOut sl.seg v t ∧
          (s.link.notices.length < 16 → t.link.notices = s.link.notices ++ s.lowQueued t))) ∧
  ∀ (i past : Nat) (sl : Slot) (s : State), s.interp.timer.isSome = true → s.cuts →
    s.interp.active = some i → s.store.execPtr = i → s.store.slot i = some sl → s.interp.pivot = 0 →
    s.atEndOf sl.seg past → s.job.mode = s.store.mode →
    (s.store.mode = .stream ∧ sl.seg.last = true ∨
      s.store.mode = .repeating ∧ i + 1 = s.store.writePtr ∧ s.job.passesProgrammed ≤ s.interp.pass + 1 → ∃ t,
      exec .interpolationPeriodExpiry s = .next t ∧
      Keeps [.store, .planner, .interp, .gov, .stroke, .load, .axes, .job, .link] s t ∧
      t.job =
        { s.job with
          state := .idle, held := false
          passesDone := if s.store.mode = .stream then 1 else s.job.passesDone + 1
          executed := t.job.executed
          lastCompleted := some sl.seg.number } ∧
      t.stroke = s.stroke.toCoast ∧ t.load = s.load.told s.stroke.state t.stroke.state ∧
      t.interp.timer = none ∧ t.interp.active = none ∧
      t.link.marks = (if s.store.mode = .stream ∧ s.store.flowHeld = true then s.link.marks ++ [.go] else s.link.marks) ∧
      (s.store.mode = .stream → t.store.slots = [] ∧ t.store.writePtr = s.store.winBegin ∧
        t.store.execPtr = s.store.winBegin ∧ t.store.tailOpen = false ∧ t.store.origin = none ∧
        t.store.flowHeld = false) ∧
      (s.store.mode = .repeating → t.store.execPtr = s.store.winBegin ∧ t.store.origin = s.store.origin ∧
        (∀ j, (t.store.slot j).isSome = (s.store.slot j).isSome) ∧ ∀ e ∈ t.store.slots, e.2.state = .queued) ∧
      (s.link.notices.length < 16 →
        t.link.notices = s.link.notices ++ [.done t.job.executed t.job.passesDone])) ∧
    (s.store.mode = .repeating → i + 1 = s.store.writePtr → s.interp.pass + 1 < s.job.passesProgrammed → ∃ t,
      let pathEnd := sl.seg.stopAt.shift (passShift s)
      let origin := s.store.origin.getD ⟨0, 0⟩
      let next : Point := ⟨origin.x + (s.interp.pass + 1) * s.job.offX, origin.y + (s.interp.pass + 1) * s.job.offY⟩
      let square := (next.x - pathEnd.x).natAbs ^ 2 + (next.y - pathEnd.y).natAbs ^ 2
      exec .interpolationPeriodExpiry s = .next t ∧
      Keeps [.store, .planner, .interp, .gov, .stroke, .load, .axes, .job, .link] s t ∧
      s.restJudged
        { s.job with
          passesDone := s.job.passesDone + 1
          executed := t.job.executed
          lastCompleted := some sl.seg.number }
        [.pass (s.interp.pass + 1)] t ∧
      (s.job.executed < 4294967295 → t.job.executed = s.job.executed + 1) ∧
      t.gov = { (evaluateGovernor s).gov with vprev := 0 } ∧
      t.interp =
        { s.atEnd sl.seg with
          pass := s.interp.pass + 1, link := t.interp.link, pivot := t.interp.pivot, pivotNeg := t.interp.pivotNeg,
          startPending := t.interp.startPending } ∧
      Axes.handed s.params t.interp.targetX t.interp.targetY t.interp.targetC s.axes t.axes ∧
      t.store.execPtr = s.store.winBegin ∧ t.link.marks = s.link.marks ∧
      (s.slotsOk → ∃ v, s.completed i sl.seg v ∧ t.store = v.store ∧ t.planner = v.planner) ∧
      (square ≠ 0 → t.interp.pivot = 0 ∧ ∃ lk, t.interp.link = some lk ∧ lk.startAt = pathEnd ∧ lk.stopAt = next ∧
        lk.length * lk.length ≤ square ∧ square < (lk.length + 1) * (lk.length + 1)) ∧
      (square = 0 → t.interp.link = s.interp.link ∧ t.interp.inStartPivot t.store))

/-- A completion in CUTTING after which the slot at the execution pointer is EMPTY and the chain goes on is arrival at
the frontier: the head stands at the end with V and the previous feed 0 and p 0 (log entries 29 and 31), the job is
STARVED with the dwell begun, the blade is sent to idle and STARVED is queued. The targets are the end of the segment,
handed to the axes with the steps left issued (R64, R122, R125; log entry 9), and STARVED is queued before the LOW of
the same expiry (log entry 10). The Store and the plan are as the completion and its replan leave them. The dwell's
expiry, at STARVE_DWELL, stops the timer, latches STARVED and enters a controlled stop from STARVED; short of it,
nothing happens (log entry 2). -/
def Obligations.DwellExpires : Prop :=
  (∀ s : State, ¬timerOut s.job.dwell s.params.starveDwell → exec .starveDwellExpiry s = .next s) ∧
  (∀ s : State, s.job.state = .starved → timerOut s.job.dwell s.params.starveDwell → ∃ t,
    exec .starveDwellExpiry s = .next t ∧ Keeps [.guard, .job] s t ∧
    t.job = { s.job with state := .stopping, held := false, dwell := none } ∧
    t.guard = { s.guard with latch := s.guard.latch ||| 0x8000#16, stop := some .starved }) ∧
  ∀ (i past : Nat) (sl : Slot) (s : State), s.interp.timer.isSome = true → s.job.state = .cutting →
    s.store.mode = .stream → s.interp.active = some i → s.store.execPtr = i → s.store.slot i = some sl →
    s.interp.pivot = 0 → s.atEndOf sl.seg past → sl.seg.last = false → s.store.slot (s.store.after i) = none → ∃ t,
      exec .interpolationPeriodExpiry s = .next t ∧
      Keeps [.store, .planner, .interp, .gov, .stroke, .load, .axes, .job, .link] s t ∧
      t.job =
        { s.job with
          state := .starved, held := false, dwell := some 0
          executed := t.job.executed
          lastCompleted := some sl.seg.number } ∧
      t.gov = { (evaluateGovernor s).gov with v := 0, vprev := 0 } ∧
      t.interp.active = none ∧ t.interp.timer = some 0 ∧ t.interp.p = 0 ∧ t.interp.pivot = 0 ∧
      t.interp.targetX = (if sl.seg.kind.moving then (sl.seg.stopAt.shift (passShift s)).x else s.interp.targetX) ∧
      t.interp.targetY = (if sl.seg.kind.moving then (sl.seg.stopAt.shift (passShift s)).y else s.interp.targetY) ∧
      t.interp.targetC = (if sl.seg.kind.moving then sl.seg.exitHeading else s.interp.targetC) ∧
      t.stroke = s.stroke.toIdle s.params.startDuty ∧ t.load = s.load.told s.stroke.state t.stroke.state ∧
      t.store.slot i = none ∧ t.store.execPtr = s.store.after i ∧
      (s.slotsOk → ∃ v, s.completed i sl.seg v ∧ t.store = { v.store with armed := t.store.armed } ∧
        t.planner = v.planner) ∧
      t.store.tailOpen = s.store.tailOpen ∧ t.store.tailPoint = s.store.tailPoint ∧
      t.link.requests = s.link.requests ∧
      (s.link.notices.length < 16 → ∃ rest,
        t.link.notices = s.link.notices ++ .starved (some sl.seg.number) s.job.passesDone :: rest) ∧
      Axes.handed s.params t.interp.targetX t.interp.targetY t.interp.targetC s.axes t.axes

/-! ## What every step keeps -/

/-- Every step keeps the window of the Store in its form: the slots in order, none outside the window, the pointers
within it, the unbroken run of a STREAM window and the filled slots of a REPEAT window, and at most one ACTIVE slot, the
one at the execution pointer, which the Interpolator is on. -/
def Obligations.SlotsKept : Prop :=
  ∀ s t : State, s.modesOk → s.slotsOk → step s = .next t → t.slotsOk

/-- Every step keeps the request queue within 8 entries and the notice queue within 16, and, while the Link hands
requests on, leaves no entry untaken. -/
def Obligations.QueuesKept : Prop :=
  ∀ s t : State, s.queuesOk → step s = .next t → t.queuesOk

/-- Every step keeps what the job state goes with: above all, that a non-empty latch finds the job STOPPING or in FAULT,
and that in FAULT no axis has steps to issue, the blade is not driven and the duty is 0 (R140). -/
def Obligations.ModesKept : Prop :=
  ∀ s t : State, s.bladeOk → s.modesOk → s.faultOk → step s = .next t → t.modesOk ∧ t.faultOk

/-- Every step keeps the blade undriven outside SPINUP, RUN and IDLE, and cleared at rest. -/
def Obligations.BladeKept : Prop :=
  ∀ s t : State, s.bladeOk → step s = .next t → t.bladeOk

/-- Every step keeps every parameter in its range and held against its related parameters; of TRAVEL_X and TRAVEL_Y this
says only that they stay at least 1000, since R125 raises a value to the position or the extent boxes, which this
condition does not bound. -/
def Obligations.ParamsKept : Prop :=
  ∀ s t : State, s.paramsOk → step s = .next t → t.paramsOk

/-- Every step keeps the ranges of the accumulator, the band, the governed feed, the C position and the plan span, and
every axis that is not enabled UNREFERENCED. -/
def Obligations.RangesKept : Prop :=
  ∀ s t : State, s.rangesOk → step s = .next t → t.rangesOk

end
end

