-- ==== Sys2Proof/Laws/Arith.lean ====
section
/-! SUPPORT. The arithmetic conventions: what isqrt, clamp, the remainder mod 36000 and the signed turn give. -/

namespace Sys2Proof.Machine

set_option Elab.async false

/-- The bits found so far and those still to find bracket the root. -/
theorem isqrtBits_spec (n k r : Nat) (h1 : r * r ≤ n) (h2 : n < (r + 2 ^ k) * (r + 2 ^ k)) :
    isqrtBits n k r * isqrtBits n k r ≤ n ∧ n < (isqrtBits n k r + 1) * (isqrtBits n k r + 1) := by
  induction k generalizing r with
  | zero => exact ⟨h1, by simpa [isqrtBits] using h2⟩
  | succ k ih =>
    unfold isqrtBits
    have e : r + 2 ^ (k + 1) = r + 2 ^ k + 2 ^ k := by omega
    split
    · next h => exact ih _ h (by rw [← e]; exact h2)
    · next h => exact ih _ h1 (by omega)

/-- isqrt(n) is the largest integer whose square does not exceed n. -/
theorem isqrt_spec (n : Nat) : isqrt n * isqrt n ≤ n ∧ n < (isqrt n + 1) * (isqrt n + 1) := by
  unfold isqrt
  apply isqrtBits_spec
  · omega
  · rw [Nat.zero_add, ← Nat.pow_add]
    rcases Nat.eq_zero_or_pos n with h | h
    · subst h
      exact Nat.pow_pos (by omega)
    · refine Nat.lt_of_lt_of_le Nat.lt_log2_self (Nat.pow_le_pow_right (by omega) (by omega))

theorem isqrt_sq_le (n : Nat) : isqrt n * isqrt n ≤ n :=
  (isqrt_spec n).1

/-- A number whose square does not exceed n is at most isqrt(n). -/
theorem le_isqrt {m n : Nat} (h : m * m ≤ n) : m ≤ isqrt n := by
  by_contra hc
  have h1 := (isqrt_spec n).2
  have h2 : (isqrt n + 1) * (isqrt n + 1) ≤ m * m := Nat.mul_le_mul (by omega) (by omega)
  omega

theorem isqrt_mono {m n : Nat} (h : m ≤ n) : isqrt m ≤ isqrt n :=
  le_isqrt (Nat.le_trans (isqrt_sq_le m) h)

/-- clamp stays between its limits. -/
theorem clamp_bounds {x lo hi : Int} (h : lo ≤ hi) : lo ≤ clamp x lo hi ∧ clamp x lo hi ≤ hi := by
  unfold clamp
  omega

theorem clamp_of_within {x lo hi : Int} (h1 : lo ≤ x) (h2 : x ≤ hi) : clamp x lo hi = x := by
  unfold clamp
  omega

theorem mod36000_lt (x : Int) : mod36000 x < 36000 := by
  unfold mod36000
  omega

theorem mod36000_cast (x : Int) : (mod36000 x : Int) = x % 36000 := by
  unfold mod36000
  omega

/-- A turn is at most half a circle. -/
theorem turn_bounds (h1 h2 : Nat) : -17999 ≤ turn h1 h2 ∧ turn h1 h2 ≤ 18000 := by
  have h := mod36000_lt ((h2 : Int) - h1)
  unfold turn
  dsimp only
  split <;> omega

/-- The turn from a position to a heading is the signed remainder of their difference (R16, R123). -/
theorem turn_of_position (pos : Int) (h : Nat) :
    turn (mod36000 pos) h =
      if ((h : Int) - pos) % 36000 ≤ 18000 then ((h : Int) - pos) % 36000 else ((h : Int) - pos) % 36000 - 36000 := by
  have h1 := mod36000_cast pos
  have h2 := mod36000_cast ((h : Int) - mod36000 pos)
  unfold turn
  dsimp only
  split <;> split <;> omega

/-- The turn between two headings is the signed remainder of their difference (R16). -/
theorem turn_eq (h1 h2 : Nat) :
    turn h1 h2 =
      if ((h2 : Int) - h1) % 36000 ≤ 18000 then ((h2 : Int) - h1) % 36000 else ((h2 : Int) - h1) % 36000 - 36000 := by
  have h := mod36000_cast ((h2 : Int) - h1)
  unfold turn
  dsimp only
  split <;> split <;> omega

/-- A turn leads from the one heading to the other. -/
theorem turn_leads (h1 h2 : Nat) : mod36000 ((h1 : Int) + turn h1 h2) = mod36000 h2 := by
  have h := mod36000_cast ((h2 : Int) - h1)
  unfold turn
  dsimp only
  split <;> (unfold mod36000 at *; omega)

/-- The chord is the integer root of the squared distance. -/
theorem chord_spec (dx dy : Int) :
    chord dx dy * chord dx dy ≤ dx.natAbs * dx.natAbs + dy.natAbs * dy.natAbs ∧
      dx.natAbs * dx.natAbs + dy.natAbs * dy.natAbs < (chord dx dy + 1) * (chord dx dy + 1) :=
  isqrt_spec _

end Sys2Proof.Machine
end

