-- ==== Sys2Proof/Laws/State.lean ====
section
/-! SUPPORT. What each block update leaves and sets, field by field, and how two updates of one block compose. -/

namespace Sys2Proof.Machine

/-! `State.mapParams` -/

@[simp] theorem mapParams_pending (f : Params → Params) (s : State) : (s.mapParams f).pending = s.pending := rfl

@[simp] theorem mapParams_timeBase (f : Params → Params) (s : State) : (s.mapParams f).timeBase = s.timeBase := rfl

@[simp] theorem mapParams_free (f : Params → Params) (s : State) : (s.mapParams f).free = s.free := rfl

@[simp] theorem mapParams_params (f : Params → Params) (s : State) : (s.mapParams f).params = f s.params := rfl

@[simp] theorem mapParams_store (f : Params → Params) (s : State) : (s.mapParams f).store = s.store := rfl

@[simp] theorem mapParams_planner (f : Params → Params) (s : State) : (s.mapParams f).planner = s.planner := rfl

@[simp] theorem mapParams_interp (f : Params → Params) (s : State) : (s.mapParams f).interp = s.interp := rfl

@[simp] theorem mapParams_gov (f : Params → Params) (s : State) : (s.mapParams f).gov = s.gov := rfl

@[simp] theorem mapParams_stroke (f : Params → Params) (s : State) : (s.mapParams f).stroke = s.stroke := rfl

@[simp] theorem mapParams_load (f : Params → Params) (s : State) : (s.mapParams f).load = s.load := rfl

@[simp] theorem mapParams_axes (f : Params → Params) (s : State) : (s.mapParams f).axes = s.axes := rfl

@[simp] theorem mapParams_guard (f : Params → Params) (s : State) : (s.mapParams f).guard = s.guard := rfl

@[simp] theorem mapParams_job (f : Params → Params) (s : State) : (s.mapParams f).job = s.job := rfl

@[simp] theorem mapParams_link (f : Params → Params) (s : State) : (s.mapParams f).link = s.link := rfl

@[simp] theorem mapParams_mapParams (f g : Params → Params) (s : State) : (s.mapParams f).mapParams g = s.mapParams
    fun b => g (f b) :=
  rfl

/-! `State.mapStore` -/

@[simp] theorem mapStore_pending (f : Store → Store) (s : State) : (s.mapStore f).pending = s.pending := rfl

@[simp] theorem mapStore_timeBase (f : Store → Store) (s : State) : (s.mapStore f).timeBase = s.timeBase := rfl

@[simp] theorem mapStore_free (f : Store → Store) (s : State) : (s.mapStore f).free = s.free := rfl

@[simp] theorem mapStore_params (f : Store → Store) (s : State) : (s.mapStore f).params = s.params := rfl

@[simp] theorem mapStore_store (f : Store → Store) (s : State) : (s.mapStore f).store = f s.store := rfl

@[simp] theorem mapStore_planner (f : Store → Store) (s : State) : (s.mapStore f).planner = s.planner := rfl

@[simp] theorem mapStore_interp (f : Store → Store) (s : State) : (s.mapStore f).interp = s.interp := rfl

@[simp] theorem mapStore_gov (f : Store → Store) (s : State) : (s.mapStore f).gov = s.gov := rfl

@[simp] theorem mapStore_stroke (f : Store → Store) (s : State) : (s.mapStore f).stroke = s.stroke := rfl

@[simp] theorem mapStore_load (f : Store → Store) (s : State) : (s.mapStore f).load = s.load := rfl

@[simp] theorem mapStore_axes (f : Store → Store) (s : State) : (s.mapStore f).axes = s.axes := rfl

@[simp] theorem mapStore_guard (f : Store → Store) (s : State) : (s.mapStore f).guard = s.guard := rfl

@[simp] theorem mapStore_job (f : Store → Store) (s : State) : (s.mapStore f).job = s.job := rfl

@[simp] theorem mapStore_link (f : Store → Store) (s : State) : (s.mapStore f).link = s.link := rfl

@[simp] theorem mapStore_mapStore (f g : Store → Store) (s : State) : (s.mapStore f).mapStore g = s.mapStore fun b =>
    g (f b) :=
  rfl

/-! `State.mapPlanner` -/

@[simp] theorem mapPlanner_pending (f : Planner → Planner) (s : State) : (s.mapPlanner f).pending = s.pending := rfl

@[simp] theorem mapPlanner_timeBase (f : Planner → Planner) (s : State) : (s.mapPlanner f).timeBase = s.timeBase := rfl

@[simp] theorem mapPlanner_free (f : Planner → Planner) (s : State) : (s.mapPlanner f).free = s.free := rfl

@[simp] theorem mapPlanner_params (f : Planner → Planner) (s : State) : (s.mapPlanner f).params = s.params := rfl

@[simp] theorem mapPlanner_store (f : Planner → Planner) (s : State) : (s.mapPlanner f).store = s.store := rfl

@[simp] theorem mapPlanner_planner (f : Planner → Planner) (s : State) : (s.mapPlanner f).planner = f s.planner := rfl

@[simp] theorem mapPlanner_interp (f : Planner → Planner) (s : State) : (s.mapPlanner f).interp = s.interp := rfl

@[simp] theorem mapPlanner_gov (f : Planner → Planner) (s : State) : (s.mapPlanner f).gov = s.gov := rfl

@[simp] theorem mapPlanner_stroke (f : Planner → Planner) (s : State) : (s.mapPlanner f).stroke = s.stroke := rfl

@[simp] theorem mapPlanner_load (f : Planner → Planner) (s : State) : (s.mapPlanner f).load = s.load := rfl

@[simp] theorem mapPlanner_axes (f : Planner → Planner) (s : State) : (s.mapPlanner f).axes = s.axes := rfl

@[simp] theorem mapPlanner_guard (f : Planner → Planner) (s : State) : (s.mapPlanner f).guard = s.guard := rfl

@[simp] theorem mapPlanner_job (f : Planner → Planner) (s : State) : (s.mapPlanner f).job = s.job := rfl

@[simp] theorem mapPlanner_link (f : Planner → Planner) (s : State) : (s.mapPlanner f).link = s.link := rfl

@[simp] theorem mapPlanner_mapPlanner (f g : Planner → Planner) (s : State) : (s.mapPlanner f).mapPlanner g =
    s.mapPlanner fun b => g (f b) :=
  rfl

/-! `State.mapInterp` -/

@[simp] theorem mapInterp_pending (f : Interp → Interp) (s : State) : (s.mapInterp f).pending = s.pending := rfl

@[simp] theorem mapInterp_timeBase (f : Interp → Interp) (s : State) : (s.mapInterp f).timeBase = s.timeBase := rfl

@[simp] theorem mapInterp_free (f : Interp → Interp) (s : State) : (s.mapInterp f).free = s.free := rfl

@[simp] theorem mapInterp_params (f : Interp → Interp) (s : State) : (s.mapInterp f).params = s.params := rfl

@[simp] theorem mapInterp_store (f : Interp → Interp) (s : State) : (s.mapInterp f).store = s.store := rfl

@[simp] theorem mapInterp_planner (f : Interp → Interp) (s : State) : (s.mapInterp f).planner = s.planner := rfl

@[simp] theorem mapInterp_interp (f : Interp → Interp) (s : State) : (s.mapInterp f).interp = f s.interp := rfl

@[simp] theorem mapInterp_gov (f : Interp → Interp) (s : State) : (s.mapInterp f).gov = s.gov := rfl

@[simp] theorem mapInterp_stroke (f : Interp → Interp) (s : State) : (s.mapInterp f).stroke = s.stroke := rfl

@[simp] theorem mapInterp_load (f : Interp → Interp) (s : State) : (s.mapInterp f).load = s.load := rfl

@[simp] theorem mapInterp_axes (f : Interp → Interp) (s : State) : (s.mapInterp f).axes = s.axes := rfl

@[simp] theorem mapInterp_guard (f : Interp → Interp) (s : State) : (s.mapInterp f).guard = s.guard := rfl

@[simp] theorem mapInterp_job (f : Interp → Interp) (s : State) : (s.mapInterp f).job = s.job := rfl

@[simp] theorem mapInterp_link (f : Interp → Interp) (s : State) : (s.mapInterp f).link = s.link := rfl

@[simp] theorem mapInterp_mapInterp (f g : Interp → Interp) (s : State) : (s.mapInterp f).mapInterp g = s.mapInterp
    fun b => g (f b) :=
  rfl

/-! `State.mapGov` -/

@[simp] theorem mapGov_pending (f : Governor → Governor) (s : State) : (s.mapGov f).pending = s.pending := rfl

@[simp] theorem mapGov_timeBase (f : Governor → Governor) (s : State) : (s.mapGov f).timeBase = s.timeBase := rfl

@[simp] theorem mapGov_free (f : Governor → Governor) (s : State) : (s.mapGov f).free = s.free := rfl

@[simp] theorem mapGov_params (f : Governor → Governor) (s : State) : (s.mapGov f).params = s.params := rfl

@[simp] theorem mapGov_store (f : Governor → Governor) (s : State) : (s.mapGov f).store = s.store := rfl

@[simp] theorem mapGov_planner (f : Governor → Governor) (s : State) : (s.mapGov f).planner = s.planner := rfl

@[simp] theorem mapGov_interp (f : Governor → Governor) (s : State) : (s.mapGov f).interp = s.interp := rfl

@[simp] theorem mapGov_gov (f : Governor → Governor) (s : State) : (s.mapGov f).gov = f s.gov := rfl

@[simp] theorem mapGov_stroke (f : Governor → Governor) (s : State) : (s.mapGov f).stroke = s.stroke := rfl

@[simp] theorem mapGov_load (f : Governor → Governor) (s : State) : (s.mapGov f).load = s.load := rfl

@[simp] theorem mapGov_axes (f : Governor → Governor) (s : State) : (s.mapGov f).axes = s.axes := rfl

@[simp] theorem mapGov_guard (f : Governor → Governor) (s : State) : (s.mapGov f).guard = s.guard := rfl

@[simp] theorem mapGov_job (f : Governor → Governor) (s : State) : (s.mapGov f).job = s.job := rfl

@[simp] theorem mapGov_link (f : Governor → Governor) (s : State) : (s.mapGov f).link = s.link := rfl

@[simp] theorem mapGov_mapGov (f g : Governor → Governor) (s : State) : (s.mapGov f).mapGov g = s.mapGov fun b => g (f
    b) :=
  rfl

/-! `State.mapStroke` -/

@[simp] theorem mapStroke_pending (f : Stroke → Stroke) (s : State) : (s.mapStroke f).pending = s.pending := rfl

@[simp] theorem mapStroke_timeBase (f : Stroke → Stroke) (s : State) : (s.mapStroke f).timeBase = s.timeBase := rfl

@[simp] theorem mapStroke_free (f : Stroke → Stroke) (s : State) : (s.mapStroke f).free = s.free := rfl

@[simp] theorem mapStroke_params (f : Stroke → Stroke) (s : State) : (s.mapStroke f).params = s.params := rfl

@[simp] theorem mapStroke_store (f : Stroke → Stroke) (s : State) : (s.mapStroke f).store = s.store := rfl

@[simp] theorem mapStroke_planner (f : Stroke → Stroke) (s : State) : (s.mapStroke f).planner = s.planner := rfl

@[simp] theorem mapStroke_interp (f : Stroke → Stroke) (s : State) : (s.mapStroke f).interp = s.interp := rfl

@[simp] theorem mapStroke_gov (f : Stroke → Stroke) (s : State) : (s.mapStroke f).gov = s.gov := rfl

@[simp] theorem mapStroke_stroke (f : Stroke → Stroke) (s : State) : (s.mapStroke f).stroke = f s.stroke := rfl

@[simp] theorem mapStroke_load (f : Stroke → Stroke) (s : State) : (s.mapStroke f).load = s.load := rfl

@[simp] theorem mapStroke_axes (f : Stroke → Stroke) (s : State) : (s.mapStroke f).axes = s.axes := rfl

@[simp] theorem mapStroke_guard (f : Stroke → Stroke) (s : State) : (s.mapStroke f).guard = s.guard := rfl

@[simp] theorem mapStroke_job (f : Stroke → Stroke) (s : State) : (s.mapStroke f).job = s.job := rfl

@[simp] theorem mapStroke_link (f : Stroke → Stroke) (s : State) : (s.mapStroke f).link = s.link := rfl

@[simp] theorem mapStroke_mapStroke (f g : Stroke → Stroke) (s : State) : (s.mapStroke f).mapStroke g = s.mapStroke
    fun b => g (f b) :=
  rfl

/-! `State.mapLoad` -/

@[simp] theorem mapLoad_pending (f : Load → Load) (s : State) : (s.mapLoad f).pending = s.pending := rfl

@[simp] theorem mapLoad_timeBase (f : Load → Load) (s : State) : (s.mapLoad f).timeBase = s.timeBase := rfl

@[simp] theorem mapLoad_free (f : Load → Load) (s : State) : (s.mapLoad f).free = s.free := rfl

@[simp] theorem mapLoad_params (f : Load → Load) (s : State) : (s.mapLoad f).params = s.params := rfl

@[simp] theorem mapLoad_store (f : Load → Load) (s : State) : (s.mapLoad f).store = s.store := rfl

@[simp] theorem mapLoad_planner (f : Load → Load) (s : State) : (s.mapLoad f).planner = s.planner := rfl

@[simp] theorem mapLoad_interp (f : Load → Load) (s : State) : (s.mapLoad f).interp = s.interp := rfl

@[simp] theorem mapLoad_gov (f : Load → Load) (s : State) : (s.mapLoad f).gov = s.gov := rfl

@[simp] theorem mapLoad_stroke (f : Load → Load) (s : State) : (s.mapLoad f).stroke = s.stroke := rfl

@[simp] theorem mapLoad_load (f : Load → Load) (s : State) : (s.mapLoad f).load = f s.load := rfl

@[simp] theorem mapLoad_axes (f : Load → Load) (s : State) : (s.mapLoad f).axes = s.axes := rfl

@[simp] theorem mapLoad_guard (f : Load → Load) (s : State) : (s.mapLoad f).guard = s.guard := rfl

@[simp] theorem mapLoad_job (f : Load → Load) (s : State) : (s.mapLoad f).job = s.job := rfl

@[simp] theorem mapLoad_link (f : Load → Load) (s : State) : (s.mapLoad f).link = s.link := rfl

@[simp] theorem mapLoad_mapLoad (f g : Load → Load) (s : State) : (s.mapLoad f).mapLoad g = s.mapLoad fun b => g (f b) :=
  rfl

/-! `State.mapAxes` -/

@[simp] theorem mapAxes_pending (f : Axes → Axes) (s : State) : (s.mapAxes f).pending = s.pending := rfl

@[simp] theorem mapAxes_timeBase (f : Axes → Axes) (s : State) : (s.mapAxes f).timeBase = s.timeBase := rfl

@[simp] theorem mapAxes_free (f : Axes → Axes) (s : State) : (s.mapAxes f).free = s.free := rfl

@[simp] theorem mapAxes_params (f : Axes → Axes) (s : State) : (s.mapAxes f).params = s.params := rfl

@[simp] theorem mapAxes_store (f : Axes → Axes) (s : State) : (s.mapAxes f).store = s.store := rfl

@[simp] theorem mapAxes_planner (f : Axes → Axes) (s : State) : (s.mapAxes f).planner = s.planner := rfl

@[simp] theorem mapAxes_interp (f : Axes → Axes) (s : State) : (s.mapAxes f).interp = s.interp := rfl

@[simp] theorem mapAxes_gov (f : Axes → Axes) (s : State) : (s.mapAxes f).gov = s.gov := rfl

@[simp] theorem mapAxes_stroke (f : Axes → Axes) (s : State) : (s.mapAxes f).stroke = s.stroke := rfl

@[simp] theorem mapAxes_load (f : Axes → Axes) (s : State) : (s.mapAxes f).load = s.load := rfl

@[simp] theorem mapAxes_axes (f : Axes → Axes) (s : State) : (s.mapAxes f).axes = f s.axes := rfl

@[simp] theorem mapAxes_guard (f : Axes → Axes) (s : State) : (s.mapAxes f).guard = s.guard := rfl

@[simp] theorem mapAxes_job (f : Axes → Axes) (s : State) : (s.mapAxes f).job = s.job := rfl

@[simp] theorem mapAxes_link (f : Axes → Axes) (s : State) : (s.mapAxes f).link = s.link := rfl

@[simp] theorem mapAxes_mapAxes (f g : Axes → Axes) (s : State) : (s.mapAxes f).mapAxes g = s.mapAxes fun b => g (f b) :=
  rfl

/-! `State.mapGuard` -/

@[simp] theorem mapGuard_pending (f : Guard → Guard) (s : State) : (s.mapGuard f).pending = s.pending := rfl

@[simp] theorem mapGuard_timeBase (f : Guard → Guard) (s : State) : (s.mapGuard f).timeBase = s.timeBase := rfl

@[simp] theorem mapGuard_free (f : Guard → Guard) (s : State) : (s.mapGuard f).free = s.free := rfl

@[simp] theorem mapGuard_params (f : Guard → Guard) (s : State) : (s.mapGuard f).params = s.params := rfl

@[simp] theorem mapGuard_store (f : Guard → Guard) (s : State) : (s.mapGuard f).store = s.store := rfl

@[simp] theorem mapGuard_planner (f : Guard → Guard) (s : State) : (s.mapGuard f).planner = s.planner := rfl

@[simp] theorem mapGuard_interp (f : Guard → Guard) (s : State) : (s.mapGuard f).interp = s.interp := rfl

@[simp] theorem mapGuard_gov (f : Guard → Guard) (s : State) : (s.mapGuard f).gov = s.gov := rfl

@[simp] theorem mapGuard_stroke (f : Guard → Guard) (s : State) : (s.mapGuard f).stroke = s.stroke := rfl

@[simp] theorem mapGuard_load (f : Guard → Guard) (s : State) : (s.mapGuard f).load = s.load := rfl

@[simp] theorem mapGuard_axes (f : Guard → Guard) (s : State) : (s.mapGuard f).axes = s.axes := rfl

@[simp] theorem mapGuard_guard (f : Guard → Guard) (s : State) : (s.mapGuard f).guard = f s.guard := rfl

@[simp] theorem mapGuard_job (f : Guard → Guard) (s : State) : (s.mapGuard f).job = s.job := rfl

@[simp] theorem mapGuard_link (f : Guard → Guard) (s : State) : (s.mapGuard f).link = s.link := rfl

@[simp] theorem mapGuard_mapGuard (f g : Guard → Guard) (s : State) : (s.mapGuard f).mapGuard g = s.mapGuard fun b =>
    g (f b) :=
  rfl

/-! `State.mapJob` -/

@[simp] theorem mapJob_pending (f : Job → Job) (s : State) : (s.mapJob f).pending = s.pending := rfl

@[simp] theorem mapJob_timeBase (f : Job → Job) (s : State) : (s.mapJob f).timeBase = s.timeBase := rfl

@[simp] theorem mapJob_free (f : Job → Job) (s : State) : (s.mapJob f).free = s.free := rfl

@[simp] theorem mapJob_params (f : Job → Job) (s : State) : (s.mapJob f).params = s.params := rfl

@[simp] theorem mapJob_store (f : Job → Job) (s : State) : (s.mapJob f).store = s.store := rfl

@[simp] theorem mapJob_planner (f : Job → Job) (s : State) : (s.mapJob f).planner = s.planner := rfl

@[simp] theorem mapJob_interp (f : Job → Job) (s : State) : (s.mapJob f).interp = s.interp := rfl

@[simp] theorem mapJob_gov (f : Job → Job) (s : State) : (s.mapJob f).gov = s.gov := rfl

@[simp] theorem mapJob_stroke (f : Job → Job) (s : State) : (s.mapJob f).stroke = s.stroke := rfl

@[simp] theorem mapJob_load (f : Job → Job) (s : State) : (s.mapJob f).load = s.load := rfl

@[simp] theorem mapJob_axes (f : Job → Job) (s : State) : (s.mapJob f).axes = s.axes := rfl

@[simp] theorem mapJob_guard (f : Job → Job) (s : State) : (s.mapJob f).guard = s.guard := rfl

@[simp] theorem mapJob_job (f : Job → Job) (s : State) : (s.mapJob f).job = f s.job := rfl

@[simp] theorem mapJob_link (f : Job → Job) (s : State) : (s.mapJob f).link = s.link := rfl

@[simp] theorem mapJob_mapJob (f g : Job → Job) (s : State) : (s.mapJob f).mapJob g = s.mapJob fun b => g (f b) :=
  rfl

/-! `State.mapLink` -/

@[simp] theorem mapLink_pending (f : Link → Link) (s : State) : (s.mapLink f).pending = s.pending := rfl

@[simp] theorem mapLink_timeBase (f : Link → Link) (s : State) : (s.mapLink f).timeBase = s.timeBase := rfl

@[simp] theorem mapLink_free (f : Link → Link) (s : State) : (s.mapLink f).free = s.free := rfl

@[simp] theorem mapLink_params (f : Link → Link) (s : State) : (s.mapLink f).params = s.params := rfl

@[simp] theorem mapLink_store (f : Link → Link) (s : State) : (s.mapLink f).store = s.store := rfl

@[simp] theorem mapLink_planner (f : Link → Link) (s : State) : (s.mapLink f).planner = s.planner := rfl

@[simp] theorem mapLink_interp (f : Link → Link) (s : State) : (s.mapLink f).interp = s.interp := rfl

@[simp] theorem mapLink_gov (f : Link → Link) (s : State) : (s.mapLink f).gov = s.gov := rfl

@[simp] theorem mapLink_stroke (f : Link → Link) (s : State) : (s.mapLink f).stroke = s.stroke := rfl

@[simp] theorem mapLink_load (f : Link → Link) (s : State) : (s.mapLink f).load = s.load := rfl

@[simp] theorem mapLink_axes (f : Link → Link) (s : State) : (s.mapLink f).axes = s.axes := rfl

@[simp] theorem mapLink_guard (f : Link → Link) (s : State) : (s.mapLink f).guard = s.guard := rfl

@[simp] theorem mapLink_job (f : Link → Link) (s : State) : (s.mapLink f).job = s.job := rfl

@[simp] theorem mapLink_link (f : Link → Link) (s : State) : (s.mapLink f).link = f s.link := rfl

@[simp] theorem mapLink_mapLink (f g : Link → Link) (s : State) : (s.mapLink f).mapLink g = s.mapLink fun b => g (f b) :=
  rfl

end Sys2Proof.Machine
end

