-- ==== Sys2Proof/Laws/Frame.lean ====
section
/-! SUPPORT. Which blocks each shared operation touches, one lemma each; the rest of the state it leaves alone. -/

namespace Sys2Proof.Machine

set_option Elab.async false

/-! ## The relation -/

theorem Keeps.refl (m : List Block) (s : State) : Keeps m s s := by
  intro b _
  cases b <;> rfl

/-- Every block of one list is in another. -/
def blocksIn (m' m : List Block) : Bool :=
  m'.all fun b => m.contains b

theorem mem_of_blocksIn {m' m : List Block} (h : blocksIn m' m = true) {b : Block} (hb : b ∈ m') : b ∈ m := by
  have := List.all_eq_true.mp h b hb
  simpa using this

/-- An operation that touches no more than may be touched. -/
theorem Keeps.after {m m' : List Block} {s t u : State} (h' : Keeps m' t u) (h : Keeps m s t)
    (hm : blocksIn m' m = true := by rfl) : Keeps m s u := by
  intro b hb
  have h1 := h b hb
  have h2 := h' b fun hb' => hb (mem_of_blocksIn hm hb')
  cases b <;> exact h2.trans h1

/-- An operation may be said to touch more than it does. -/
theorem Keeps.mono {m m' : List Block} {s t : State} (h : Keeps m' s t) (hm : blocksIn m' m = true := by rfl) :
    Keeps m s t :=
  fun b hb => h b fun hb' => hb (mem_of_blocksIn hm hb')

theorem Keeps.ite {m : List Block} {c : Prop} [Decidable c] {s t u : State} (ht : Keeps m s t) (hu : Keeps m s u) :
    Keeps m s (if c then t else u) := by
  split
  · exact ht
  · exact hu

theorem mapParams_keeps (f : Params → Params) (s : State) : Keeps [.params] s (s.mapParams f) := by
  intro b hb; cases b <;> first | rfl | simp at hb

theorem mapStore_keeps (f : Store → Store) (s : State) : Keeps [.store] s (s.mapStore f) := by
  intro b hb; cases b <;> first | rfl | simp at hb

theorem mapPlanner_keeps (f : Planner → Planner) (s : State) : Keeps [.planner] s (s.mapPlanner f) := by
  intro b hb; cases b <;> first | rfl | simp at hb

theorem mapInterp_keeps (f : Interp → Interp) (s : State) : Keeps [.interp] s (s.mapInterp f) := by
  intro b hb; cases b <;> first | rfl | simp at hb

theorem mapGov_keeps (f : Governor → Governor) (s : State) : Keeps [.gov] s (s.mapGov f) := by
  intro b hb; cases b <;> first | rfl | simp at hb

theorem mapStroke_keeps (f : Stroke → Stroke) (s : State) : Keeps [.stroke] s (s.mapStroke f) := by
  intro b hb; cases b <;> first | rfl | simp at hb

theorem mapLoad_keeps (f : Load → Load) (s : State) : Keeps [.load] s (s.mapLoad f) := by
  intro b hb; cases b <;> first | rfl | simp at hb

theorem mapAxes_keeps (f : Axes → Axes) (s : State) : Keeps [.axes] s (s.mapAxes f) := by
  intro b hb; cases b <;> first | rfl | simp at hb

theorem mapGuard_keeps (f : Guard → Guard) (s : State) : Keeps [.guard] s (s.mapGuard f) := by
  intro b hb; cases b <;> first | rfl | simp at hb

theorem mapJob_keeps (f : Job → Job) (s : State) : Keeps [.job] s (s.mapJob f) := by
  intro b hb; cases b <;> first | rfl | simp at hb

theorem mapLink_keeps (f : Link → Link) (s : State) : Keeps [.link] s (s.mapLink f) := by
  intro b hb; cases b <;> first | rfl | simp at hb

/-! ## Ops -/

theorem queueNotice_keeps (n : Notice) (s : State) : Keeps [.link] s (queueNotice n s) :=
  mapLink_keeps _ s

theorem handMark_keeps (m : FlowMark) (s : State) : Keeps [.link] s (handMark m s) :=
  mapLink_keeps _ s

theorem setRxFault_keeps (s : State) : Keeps [.link] s (setRxFault s) :=
  mapLink_keeps _ s

theorem latchCause_keeps (k : Cause) (s : State) : Keeps [.guard] s (latchCause k s) :=
  mapGuard_keeps _ s

theorem setJobState_keeps (j : JobState) (s : State) : Keeps [.job] s (setJobState j s) :=
  mapJob_keeps _ s

/-! ## Planner and Segment Store -/

theorem copyDerates_keeps (s : State) : Keeps [.planner] s (copyDerates s) :=
  .ite (mapPlanner_keeps _ s) (.refl _ s)

theorem replan_keeps (completed : Option Segment) (s : State) : Keeps [.store, .planner] s (replan completed s) := by
  have h : Keeps [.store, .planner] (copyDerates s) (replan completed s) := by
    intro b hb
    cases b <;> first | rfl | simp at hb
  exact h.after (copyDerates_keeps s).mono

theorem openFlow_keeps (s : State) : Keeps [.store, .link] s (openFlow s) := by
  unfold openFlow
  refine .ite ?_ (.refl _ s)
  refine (handMark_keeps _ _).after ?_
  exact (mapStore_keeps _ s).mono

theorem emptyWindow_keeps (s : State) : Keeps [.store, .link] s (emptyWindow s) := by
  unfold emptyWindow
  refine (openFlow_keeps _).after ?_
  exact (mapStore_keeps _ s).mono

theorem holdMarkRule_keeps (s : State) : Keeps [.store, .link] s (holdMarkRule s) := by
  unfold holdMarkRule
  refine .ite ?_ (.refl _ s)
  refine (handMark_keeps _ _).after ?_
  exact (mapStore_keeps _ s).mono

theorem goMarkRule_keeps (s : State) : Keeps [.store, .link] s (goMarkRule s) :=
  .ite (openFlow_keeps s) (.refl _ s)

theorem lowWater_keeps (s : State) : Keeps [.store, .link] s (lowWater s) := by
  unfold lowWater
  refine .ite (.ite (.ite ?_ (.refl _ s)) (.ite (mapStore_keeps _ s).mono (.refl _ s))) (.refl _ s)
  refine (queueNotice_keeps _ _).after ?_
  exact (mapStore_keeps _ s).mono

theorem storeCompletion_keeps (seg : Segment) (s : State) :
    Keeps [.store, .planner, .link] s (storeCompletion seg s) := by
  unfold storeCompletion
  dsimp only
  refine (replan_keeps _ _).after ?_
  refine .ite ((goMarkRule_keeps _).after ?_) ?_ <;> exact (mapStore_keeps _ s).mono

theorem storeStop_keeps (s : State) : Keeps [.store, .link] s (storeStop s) := by
  unfold storeStop
  split
  · exact emptyWindow_keeps s
  · exact (mapStore_keeps _ s).mono

theorem storeJobEnd_keeps (s : State) : Keeps [.store, .link] s (storeJobEnd s) := by
  unfold storeJobEnd
  split
  · exact emptyWindow_keeps s
  · exact (mapStore_keeps _ s).mono

theorem partialFlush_keeps (s : State) : Keeps [.store, .link] s (partialFlush s) := by
  unfold partialFlush
  refine (lowWater_keeps _).after ?_
  refine (openFlow_keeps _).after ?_
  exact (mapStore_keeps _ s).mono

theorem acceptRecord_keeps (seg : Segment) (s : State) : Keeps [.store, .planner, .link] s (acceptRecord seg s) := by
  unfold acceptRecord
  refine (replan_keeps _ _).after ?_
  refine (lowWater_keeps _).after ?_
  refine (holdMarkRule_keeps _).after ?_
  exact (mapStore_keeps _ s).mono

/-! ## Stroke Generator and Load Monitor -/

theorem strokeTo_keeps (f : Stroke → Stroke) (s : State) : Keeps [.stroke, .load] s (strokeTo f s) := by
  intro b hb
  cases b <;> first | rfl | simp at hb

theorem spinUpRequest_keeps (s : State) : Keeps [.stroke, .load] s (spinUpRequest s) :=
  strokeTo_keeps _ s

theorem idleRequest_keeps (s : State) : Keeps [.stroke, .load] s (idleRequest s) :=
  strokeTo_keeps _ s

theorem coastRequest_keeps (s : State) : Keeps [.stroke, .load] s (coastRequest s) :=
  strokeTo_keeps _ s

theorem evaluateBand_keeps (s : State) : Keeps [.load, .link] s (evaluateBand s) := by
  unfold evaluateBand
  dsimp only
  refine .ite ((queueNotice_keeps _ _).after ?_) ?_ <;> exact (mapLoad_keeps _ s).mono

/-! ## Job Controller -/

theorem setHeld_keeps (s : State) : Keeps [.job, .stroke, .load, .link] s (setHeld s) := by
  unfold setHeld
  dsimp only
  refine (queueNotice_keeps _ _).after ?_
  refine (idleRequest_keeps _).after ?_
  exact (mapJob_keeps _ s).mono

theorem holdRequest_keeps (s : State) : Keeps [.job, .stroke, .load, .link] s (holdRequest s) := by
  unfold holdRequest
  split
  · exact (mapJob_keeps _ s).mono
  · exact (mapJob_keeps _ s).mono
  · refine (setHeld_keeps _).after ?_
    exact (mapJob_keeps _ s).mono
  all_goals exact .refl _ s

theorem warmupPassage_keeps (s : State) : Keeps [.job] s (warmupPassage s) :=
  .ite (setJobState_keeps _ s) (.refl _ s)

theorem becomeStarved_keeps (s : State) : Keeps [.job, .link] s (becomeStarved s) := by
  unfold becomeStarved
  refine (queueNotice_keeps _ _).after ?_
  exact (mapJob_keeps _ s).mono

theorem starvedAcceptance_keeps (s : State) : Keeps [.job, .stroke, .load] s (starvedAcceptance s) := by
  unfold starvedAcceptance
  refine .ite ?_ (.refl _ s)
  refine (warmupPassage_keeps _).after ?_
  refine (spinUpRequest_keeps _).after ?_
  exact (mapJob_keeps _ s).mono

/-! ## Axis Unit -/

theorem finishHome_keeps (s : State) : Keeps [.axes, .job, .link] s (finishHome s) := by
  unfold finishHome
  split
  · exact .refl _ s
  · refine .ite ?_ (.refl _ s)
    refine (queueNotice_keeps _ _).after ?_
    refine (setJobState_keeps _ _).after ?_
    exact (mapAxes_keeps _ s).mono

theorem finishMove_keeps (s : State) : Keeps [.axes, .job, .link] s (finishMove s) := by
  unfold finishMove
  split
  · exact .refl _ s
  · refine .ite ?_ (.refl _ s)
    refine (queueNotice_keeps _ _).after ?_
    refine (setJobState_keeps _ _).after ?_
    exact (mapAxes_keeps _ s).mono

theorem reportToAxis_keeps (a : Axis) (f : AxisState → AxisState) (s : State) :
    Keeps [.axes, .job, .link] s (reportToAxis a f s) := by
  unfold reportToAxis
  refine .ite ?_ (.refl _ s)
  refine (finishHome_keeps _).after ?_
  exact (mapAxes_keeps _ s).mono

theorem endHome_keeps (s : State) : Keeps [.axes, .link] s (endHome s) := by
  unfold endHome
  split
  · exact .refl _ s
  · dsimp only
    refine (queueNotice_keeps _ _).after ?_
    exact (mapAxes_keeps _ s).mono

theorem dropEnables_keeps (s : State) : Keeps [.axes] s (dropEnables s) :=
  mapAxes_keeps _ s

/-! ## Guard Unit -/

theorem stopPath_keeps (entered : JobState) (s : State) : Keeps [.interp, .store, .link] s (stopPath entered s) := by
  unfold stopPath
  dsimp only
  refine .ite ?_ ((storeStop_keeps _).after ?_) <;> exact (mapInterp_keeps _ s).mono

theorem controlledStop_keeps (s : State) : Keeps [.guard, .job] s (controlledStop s) := by
  unfold controlledStop
  refine (mapJob_keeps _ _).after ?_
  exact (mapGuard_keeps _ s).mono

theorem abandonSteps_keeps (s : State) : Keeps [.axes] s (abandonSteps s) :=
  mapAxes_keeps _ s

theorem enterStopEnd_keeps (s : State) : Keeps [.axes, .job] s (enterStopEnd s) := by
  unfold enterStopEnd
  refine .ite (setJobState_keeps _ s).mono ((setJobState_keeps _ _).after ?_)
  exact (abandonSteps_keeps s).mono

theorem controlledStopEnd_keeps (s : State) :
    Keeps [.stroke, .load, .interp, .store, .link, .axes, .job, .guard] s (controlledStopEnd s) := by
  unfold controlledStopEnd
  dsimp only
  refine (queueNotice_keeps _ _).after ?_
  refine (mapGuard_keeps _ _).after ?_
  refine (enterStopEnd_keeps _).after ?_
  refine (mapAxes_keeps _ _).after ?_
  refine (stopPath_keeps _ _).after ?_
  exact (coastRequest_keeps s).mono

theorem immediateStop_keeps (k : Cause) (s : State) :
    Keeps [.guard, .gov, .axes, .link, .stroke, .load, .interp, .store, .job] s (immediateStop k s) := by
  unfold immediateStop
  dsimp only
  refine (queueNotice_keeps _ _).after ?_
  refine (mapGuard_keeps _ _).after ?_
  refine (mapJob_keeps _ _).after ?_
  refine (stopPath_keeps _ _).after ?_
  refine (coastRequest_keeps _).after ?_
  refine (dropEnables_keeps _).after ?_
  refine (endHome_keeps _).after ?_
  refine (mapGov_keeps _ _).after ?_
  exact (latchCause_keeps k s).mono

theorem faultFromIdle_keeps (cat : Category) (k : Cause) (s : State) :
    Keeps [.guard, .stroke, .load, .job, .link, .axes] s (faultFromIdle cat k s) := by
  unfold faultFromIdle
  dsimp only
  refine (queueNotice_keeps _ _).after ?_
  refine (setJobState_keeps _ _).after ?_
  refine (abandonSteps_keeps _).after ?_
  refine (coastRequest_keeps _).after ?_
  exact (latchCause_keeps k s).mono

theorem causeInIdle_keeps (cat : Category) (k : Cause) (s : State) :
    Keeps [.guard, .stroke, .load, .job, .link, .axes] s (causeInIdle cat k s) := by
  unfold causeInIdle
  split
  · refine (faultFromIdle_keeps _ _ _).after ?_
    exact (dropEnables_keeps s).mono
  · split
    · exact (faultFromIdle_keeps _ _ s).mono
    · exact .ite (faultFromIdle_keeps _ _ s).mono (.refl _ s)
    all_goals exact .refl _ s

theorem causeInFault_keeps (cat : Category) (k : Cause) (s : State) :
    Keeps [.guard, .stroke, .load, .axes] s (causeInFault cat k s) := by
  unfold causeInFault
  dsimp only
  split
  · exact (latchCause_keeps k s).mono
  · refine (coastRequest_keeps _).after ?_
    refine .ite ((dropEnables_keeps _).after ?_) ?_ <;> exact (latchCause_keeps k s).mono

/-- R140 to R145: a cause touches neither the parameters nor the plan. -/
theorem takeCause_keeps (cat : Category) (k : Cause) (s : State) :
    Keeps [.guard, .gov, .axes, .link, .stroke, .load, .interp, .store, .job] s (takeCause cat k s) := by
  have hi := immediateStop_keeps k s
  have hc : Keeps [.guard, .gov, .axes, .link, .stroke, .load, .interp, .store,
      .job] s (controlledStop (latchCause k s)) := by
    refine (controlledStop_keeps _).after ?_
    exact (latchCause_keeps k s).mono
  unfold takeCause
  split
  · exact (causeInIdle_keeps cat k s).mono
  · exact (causeInFault_keeps cat k s).mono
  · split
    · exact hi
    · exact (latchCause_keeps k s).mono
  all_goals
    split
    · exact hi
    · exact hc

theorem activationAction_keeps (i : InputId) (s : State) :
    Keeps [.guard, .gov, .axes, .link, .stroke, .load, .interp, .store, .job] s (activationAction i s) := by
  unfold activationAction
  split
  · exact .refl _ s
  · exact (queueNotice_keeps _ s).mono
  · exact .ite (holdRequest_keeps s).mono (queueNotice_keeps _ s).mono
  · exact takeCause_keeps _ _ s
  · exact takeCause_keeps _ _ s

theorem edgeAction_keeps (i : InputId) (active : Bool) (s : State) :
    Keeps [.guard, .gov, .axes, .link, .stroke, .load, .interp, .store, .job] s (edgeAction i active s) := by
  unfold edgeAction releaseAction
  exact .ite (activationAction_keeps i s) (.ite (queueNotice_keeps _ s).mono (.refl _ s))

theorem levelEffects_keeps (i : InputId) (active : Bool) (s : State) :
    Keeps [.guard, .gov, .axes, .link, .stroke, .load, .interp, .store, .job, .free] s
      (levelEffects i active s) := by
  have hf : Keeps [.free] s { s with free := s.free + 1 } := by
    intro b hb
    cases b <;> first | rfl | simp at hb
  unfold levelEffects
  split
  · exact (edgeAction_keeps i active s).mono
  · split
    · dsimp only
      refine .ite (reportToAxis_keeps _ _ s).mono (.ite ?_ ?_)
      · refine (edgeAction_keeps _ _ _).after ?_
        refine (reportToAxis_keeps _ _ _).after ?_
        exact hf.mono
      · refine (reportToAxis_keeps _ _ _).after ?_
        refine (edgeAction_keeps _ _ _).after ?_
        exact hf.mono
    · exact (edgeAction_keeps i active s).mono

theorem filterEnds_keeps (i : InputId) (s : State) :
    Keeps [.guard, .gov, .axes, .link, .stroke, .load, .interp, .store, .job, .free] s (filterEnds i s) := by
  unfold filterEnds acceptLevel
  dsimp only
  refine .ite (mapGuard_keeps _ s).mono ?_
  refine (levelEffects_keeps _ _ _).after ?_
  exact (mapGuard_keeps _ s).mono

theorem filterReached_keeps (i : InputId) (s : State) :
    Keeps [.guard, .gov, .axes, .link, .stroke, .load, .interp, .store, .job, .free] s (filterReached i s) :=
  .ite (filterEnds_keeps i s) (.refl _ s)

theorem rawChange_keeps (i : InputId) (active : Bool) (s : State) :
    Keeps [.guard, .gov, .axes, .link, .stroke, .load, .interp, .store, .job, .free] s (rawChange i active s) := by
  unfold rawChange
  refine .ite (.refl _ s) ((filterReached_keeps _ _).after ?_)
  exact (mapGuard_keeps _ s).mono

/-! ## Feed Governor and Interpolator -/

theorem evaluateGovernor_keeps (s : State) : Keeps [.gov] s (evaluateGovernor s) := by
  unfold evaluateGovernor
  split <;> exact mapGov_keeps _ s

theorem takeFeedAsZero_keeps (s : State) : Keeps [.gov] s (takeFeedAsZero s) :=
  mapGov_keeps _ s

theorem standAtFrontier_keeps (s : State) : Keeps [.gov] s (standAtFrontier s) :=
  mapGov_keeps _ s

theorem targetPoint_keeps (q : Point) (s : State) : Keeps [.interp] s (targetPoint q s) :=
  mapInterp_keeps _ s

theorem targetHeading_keeps (h : Nat) (s : State) : Keeps [.interp] s (targetHeading h s) :=
  mapInterp_keeps _ s

theorem targetSegment_keeps (seg : Segment) (s : State) : Keeps [.interp] s (targetSegment seg s) := by
  unfold targetSegment
  refine (targetHeading_keeps _ _).after ?_
  exact targetPoint_keeps _ s

theorem snapToEnd_keeps (seg : Segment) (s : State) : Keeps [.interp] s (snapToEnd seg s) := by
  unfold snapToEnd
  refine (targetHeading_keeps _ _).after ?_
  exact targetPoint_keeps _ s

theorem setPivot_keeps (t : Int) (s : State) : Keeps [.interp] s (setPivot t s) :=
  mapInterp_keeps _ s

theorem startPivot_keeps (s : State) : Keeps [.interp] s (startPivot s) := by
  unfold startPivot
  split
  · exact mapInterp_keeps _ s
  · dsimp only
    refine (setPivot_keeps _ _).after ?_
    exact mapInterp_keeps _ s

theorem junctionAction_keeps (seg : Segment) (s : State) : Keeps [.interp] s (junctionAction seg s) := by
  unfold junctionAction
  refine .ite (mapInterp_keeps _ s) ?_
  split
  · exact setPivot_keeps _ s
  · exact setPivot_keeps _ s
  · exact targetHeading_keeps _ s
  · exact targetHeading_keeps _ s
  · exact targetHeading_keeps _ s
  · exact .refl _ s

theorem tagNotice_keeps (seg : Segment) (s : State) : Keeps [.link] s (tagNotice seg s) := by
  unfold tagNotice
  split
  · exact .refl _ s
  · exact queueNotice_keeps _ s

theorem takeSegment_keeps (i : Nat) (seg : Segment) (p : Nat) (s : State) :
    Keeps [.store, .interp, .link] s (takeSegment i seg p s) := by
  unfold takeSegment
  dsimp only
  refine (tagNotice_keeps _ _).after ?_
  refine (junctionAction_keeps _ _).after ?_
  refine (mapInterp_keeps _ _).after ?_
  exact (mapStore_keeps _ s).mono

theorem openingTake_keeps (s : State) : Keeps [.store, .interp, .link] s (openingTake s) := by
  unfold openingTake
  refine .ite ?_ (.refl _ s)
  split
  · exact .refl _ s
  · exact takeSegment_keeps _ _ _ s

theorem endJob_keeps (s : State) : Keeps [.job, .stroke, .load, .store, .interp, .link] s (endJob s) := by
  unfold endJob
  dsimp only
  refine (queueNotice_keeps _ _).after ?_
  refine (mapJob_keeps _ _).after ?_
  refine (mapInterp_keeps _ _).after ?_
  refine (storeJobEnd_keeps _).after ?_
  refine (coastRequest_keeps _).after ?_
  exact (mapJob_keeps _ s).mono

theorem frontierArrival_keeps (s : State) : Keeps [.job, .stroke, .load, .link] s (frontierArrival s) := by
  unfold frontierArrival
  split
  · refine (becomeStarved_keeps _).after ?_
    exact (idleRequest_keeps s).mono
  · exact .ite (.refl _ s) (setHeld_keeps s)
  all_goals exact .refl _ s

theorem beginLink_keeps (q : Point) (s : State) : Keeps [.interp] s (beginLink q s) := by
  unfold beginLink
  dsimp only
  exact .ite (startPivot_keeps s) (mapInterp_keeps _ s)

theorem endPass_keeps (seg : Segment) (s : State) :
    Keeps [.job, .stroke, .load, .store, .interp, .link] s (endPass seg s) := by
  unfold endPass
  dsimp only
  refine .ite ?_ ((endJob_keeps _).after ?_)
  · refine (beginLink_keeps _ _).after ?_
    refine (mapInterp_keeps _ _).after ?_
    refine (queueNotice_keeps _ _).after ?_
    exact (mapJob_keeps _ s).mono
  · exact (mapJob_keeps _ s).mono

theorem reportCompletion_keeps (seg : Segment) (s : State) :
    Keeps [.job, .store, .planner, .link, .interp] s (reportCompletion seg s) := by
  unfold reportCompletion
  dsimp only
  refine (mapInterp_keeps _ _).after ?_
  refine (storeCompletion_keeps _ _).after ?_
  exact (mapJob_keeps _ s).mono

theorem completeSegment_keeps (fuel : Nat) (seg : Segment) (past : Nat) (s : State) :
    Keeps [.job, .store, .planner, .link, .interp, .gov, .stroke, .load] s (completeSegment fuel seg past s) := by
  induction fuel generalizing seg past s with
  | zero => exact .refl _ s
  | succ n ih =>
    unfold completeSegment
    have h : Keeps [.job, .store, .planner, .link, .interp, .gov, .stroke, .load] s (reportCompletion seg s) :=
      (reportCompletion_keeps seg s).mono
    have hz : Keeps [.job, .store, .planner, .link, .interp, .gov, .stroke, .load] s
        (takeFeedAsZero (reportCompletion seg s)) := (takeFeedAsZero_keeps _).after h
    dsimp only
    split
    · exact .ite hz ((endJob_keeps _).after hz)
    · exact .ite hz ((endPass_keeps _ _).after hz)
    · exact .ite hz ((frontierArrival_keeps _).after ((standAtFrontier_keeps _).after h))
    · exact .ite hz ((takeSegment_keeps _ _ _ _).after hz)
    · refine .ite ((ih _ _ _).after ((snapToEnd_keeps _ _).after ?_)) ((targetSegment_keeps _ _).after ?_) <;>
        exact (takeSegment_keeps _ _ _ _).after h

theorem countPause_keeps (seg : Segment) (s : State) :
    Keeps [.job, .store, .planner, .link, .interp, .gov, .stroke, .load] s (countPause seg s) := by
  unfold countPause
  dsimp only
  refine .ite (mapInterp_keeps _ s).mono (.ite (.ite ((completeSegment_keeps _ _ _ _).after ?_) ?_) (.refl _ s)) <;>
    exact (mapInterp_keeps _ s).mono

theorem advanceSegment_keeps (seg : Segment) (s : State) :
    Keeps [.job, .store, .planner, .link, .interp, .gov, .stroke, .load] s (advanceSegment seg s) := by
  unfold advanceSegment
  dsimp only
  refine .ite ((completeSegment_keeps _ _ _ _).after ((snapToEnd_keeps _ _).after ?_))
    (.ite ?_ ((targetSegment_keeps _ _).after ?_)) <;> exact (mapInterp_keeps _ s).mono

theorem endLink_keeps (lk : LinkMove) (s : State) : Keeps [.interp, .gov] s (endLink lk s) := by
  unfold endLink
  dsimp only
  refine .ite ?_ ((startPivot_keeps _).after ?_) <;>
    exact (mapInterp_keeps _ _).after ((takeFeedAsZero_keeps _).after (targetPoint_keeps _ s).mono)

theorem advanceLink_keeps (lk : LinkMove) (s : State) : Keeps [.interp, .gov] s (advanceLink lk s) := by
  unfold advanceLink
  dsimp only
  refine .ite ((endLink_keeps _ _).after ?_) (.ite ?_ ((targetPoint_keeps _ _).after ?_)) <;>
    exact (mapInterp_keeps _ s).mono

/-- R60: what motion and the handling of ends touch. -/
theorem motionAndEnds_keeps (s : State) :
    Keeps [.job, .store, .planner, .link, .interp, .gov, .stroke, .load] s (motionAndEnds s) := by
  unfold motionAndEnds
  refine .ite (.ite (mapInterp_keeps _ s).mono (mapInterp_keeps _ s).mono) ?_
  split
  · exact .ite (advanceSegment_keeps _ s) (countPause_keeps _ s)
  · split
    · exact .refl _ s
    · exact (advanceLink_keeps _ s).mono

theorem reportRest_keeps (s : State) :
    Keeps [.stroke, .load, .interp, .store, .link, .axes, .job, .guard] s (reportRest s) := by
  unfold reportRest
  split
  · exact .ite (setHeld_keeps _).mono (.refl _ _)
  · exact .ite (controlledStopEnd_keeps _) (.refl _ _)
  all_goals exact .refl _ _

/-- R60: one expiry of the interpolation period timer touches neither the parameters nor the clock. -/
theorem interpolationExpiry_keeps (s : State) :
    Keeps [.job, .store, .planner, .link, .interp, .gov, .stroke, .load, .axes, .guard] s (interpolationExpiry s) := by
  unfold interpolationExpiry lowWaterAfter handInterpTargets beginPeriod
  refine (warmupPassage_keeps _).after ?_
  have h : ∀ t, Keeps [.store, .link] t (if t.job.state.inJob = true then lowWater t else t) :=
    fun t => .ite (lowWater_keeps t) (.refl _ t)
  refine (h _).after ?_
  refine (reportRest_keeps _).after ?_
  refine (mapAxes_keeps _ _).after ?_
  refine (motionAndEnds_keeps _).after ?_
  refine (evaluateGovernor_keeps _).after ?_
  refine (openingTake_keeps _).after ?_
  refine (mapInterp_keeps _ _).after ?_
  exact (mapAxes_keeps _ s).mono

/-! ## The blade and the traverse -/

theorem drivenIndex_keeps (t : Word) (s : State) : Keeps [.stroke, .load, .job] s (drivenIndex t s) := by
  unfold drivenIndex
  dsimp only
  refine (mapLoad_keeps _ _).after ?_
  refine (mapStroke_keeps _ _).after ?_
  refine (warmupPassage_keeps _).after ?_
  refine (strokeTo_keeps _ _).after ?_
  refine .ite ((mapStroke_keeps _ _).after ?_) ?_ <;> exact (mapStroke_keeps _ s).mono

theorem indexTaken_keeps (t : Word) (s : State) : Keeps [.stroke, .load, .job] s (indexTaken t s) := by
  have hd := drivenIndex_keeps t s
  unfold indexTaken
  split
  · exact hd
  · exact hd
  · exact hd
  · exact (mapStroke_keeps _ s).mono
  all_goals exact .refl _ s

theorem spinupFailed_keeps (s : State) :
    Keeps [.guard, .gov, .axes, .link, .stroke, .load, .interp, .store, .job] s (spinupFailed s) := by
  unfold spinupFailed
  refine .ite ((takeCause_keeps _ _ _).after ?_) (.refl _ s)
  exact (strokeTo_keeps _ s).mono

theorem stallReached_keeps (s : State) :
    Keeps [.guard, .gov, .axes, .link, .stroke, .load, .interp, .store, .job] s (stallReached s) := by
  unfold stallReached
  refine .ite (.ite (mapStroke_keeps _ s).mono ((takeCause_keeps _ _ _).after ?_)) (.refl _ s)
  exact (strokeTo_keeps _ s).mono

theorem coastReached_keeps (s : State) : Keeps [.stroke, .load] s (coastReached s) :=
  .ite (strokeTo_keeps _ s) (.refl _ s)

theorem dwellReached_keeps (s : State) :
    Keeps [.guard, .gov, .axes, .link, .stroke, .load, .interp, .store, .job] s (dwellReached s) := by
  unfold dwellReached
  refine .ite ((takeCause_keeps _ _ _).after ?_) (.refl _ s)
  exact (mapJob_keeps _ s).mono

theorem countOverload_keeps (sample : Nat) (s : State) :
    Keeps [.guard, .gov, .axes, .link, .stroke, .load, .interp, .store, .job] s (countOverload sample s) := by
  unfold countOverload
  dsimp only
  refine .ite (.ite ((takeCause_keeps _ _ _).after ?_) ?_) (.refl _ s) <;> exact (mapLoad_keeps _ s).mono

theorem serveStroke_keeps (sample : Nat) (s : State) :
    Keeps [.guard, .gov, .axes, .link, .stroke, .load, .interp, .store, .job] s (serveStroke sample s) := by
  unfold serveStroke
  refine (countOverload_keeps _ _).after ?_
  refine (evaluateBand_keeps _).after ?_
  exact (mapLoad_keeps _ s).mono

theorem powerDownIfOff_keeps (s : State) : Keeps [.load] s (powerDownIfOff s) :=
  .ite (mapLoad_keeps _ s) (.refl _ s)

theorem serveLink_keeps (r : Reply) (s : State) : Keeps [.link] s (serveLink r s) :=
  mapLink_keeps _ s

theorem serve_keeps (code : Nat) (s : State) :
    Keeps [.guard, .gov, .axes, .link, .stroke, .load, .interp, .store, .job] s (serve code s) := by
  unfold serve
  dsimp only
  refine (powerDownIfOff_keeps _).after ?_
  refine .ite ((serveLink_keeps _ _).after ?_) ?_ <;>
  · refine .ite ((serveStroke_keeps _ _).after ?_) ?_ <;> exact (mapLoad_keeps _ s).mono

theorem measured_keeps (code : Nat) (s : State) :
    Keeps [.guard, .gov, .axes, .link, .stroke, .load, .interp, .store, .job] s (measured code s) := by
  unfold measured
  split
  · exact .ite (serve_keeps code s) (.refl _ s)
  all_goals exact .refl _ s

theorem advanceMove_keeps (s : State) : Keeps [.axes] s (advanceMove s) := by
  unfold advanceMove
  split
  · exact .refl _ s
  · exact mapAxes_keeps _ s

theorem slowMotion_keeps (s : State) : Keeps [.axes] s (slowMotion s) := by
  unfold slowMotion
  dsimp only
  split
  · exact mapAxes_keeps _ s
  · refine (mapAxes_keeps _ _).after ?_
    exact mapAxes_keeps _ s

theorem restInMotion_keeps (s : State) : Keeps [.axes, .job, .link, .stroke, .load, .interp, .store,
    .guard] s (restInMotion s) := by
  unfold restInMotion
  refine .ite ?_ (.refl _ s)
  refine (controlledStopEnd_keeps _).after ?_
  exact (endHome_keeps s).mono

theorem traverseExpiry_keeps (s : State) : Keeps [.axes, .job, .link, .stroke, .load, .interp, .store,
    .guard] s (traverseExpiry s) := by
  unfold traverseExpiry beginTraversePeriod advanceHoming
  dsimp only
  refine .ite ?_ ?_
  · refine (restInMotion_keeps _).after ?_
    refine (slowMotion_keeps _).after ?_
    exact (mapAxes_keeps _ s).mono
  · refine (finishMove_keeps _).after ?_
    refine (finishHome_keeps _).after ?_
    refine (advanceMove_keeps _).after ?_
    refine (mapAxes_keeps _ _).after ?_
    exact (mapAxes_keeps _ s).mono

end Sys2Proof.Machine
end

