-- ==== Sys2Proof/Laws/Parts.lean ====
section
/-! SUPPORT. Reading an input, an axis or a queue after an update of one of them. -/

namespace Sys2Proof.Machine

set_option Elab.async false

/-! ## Inputs -/

theorem inputIndex_inj {i j : InputId} (h : inputIndex i = inputIndex j) : i = j := by
  revert h
  cases i <;> cases j <;> first | (intro _; rfl) | (intro h; exact absurd h (by decide))

@[simp] theorem inputsOf_getElem {α : Type} (f : InputId → α) (i : InputId) : (inputsOf f)[inputIndex i] = f i := by
  cases i <;> rfl

/-- An update of one input shows at that input and at no other. -/
theorem input_updateInput (g : Guard) (i j : InputId) (f : InputState → InputState) :
    (g.updateInput i f).input j = if j = i then f (g.input i) else g.input j := by
  unfold Guard.updateInput Guard.input
  simp only [Fin.getElem_fin, Vector.getElem_set]
  split
  · next h =>
    have : i = j := inputIndex_inj (Fin.ext h)
    subst this
    simp
  · next h =>
    rw [if_neg]
    intro hj
    subst hj
    exact h rfl

@[simp] theorem input_updateInput_self (g : Guard) (i : InputId) (f : InputState → InputState) :
    (g.updateInput i f).input i = f (g.input i) := by
  rw [input_updateInput, if_pos rfl]

theorem input_updateInput_other (g : Guard) {i j : InputId} (f : InputState → InputState) (h : j ≠ i) :
    (g.updateInput i f).input j = g.input j := by
  rw [input_updateInput, if_neg h]

@[simp] theorem updateInput_latch (g : Guard) (i : InputId) (f : InputState → InputState) :
    (g.updateInput i f).latch = g.latch := rfl

@[simp] theorem updateInput_stop (g : Guard) (i : InputId) (f : InputState → InputState) :
    (g.updateInput i f).stop = g.stop := rfl

/-- R134: an input after a reset has its level from its pin, no timer and its parameters at their reset values. -/
@[simp] theorem input_reset (raw : InputId → Bool) (i : InputId) :
    (Guard.reset raw).input i = .reset (raw i) (resetAction i) := by
  cases i <;> rfl

/-- Time passing counts the timer of an input on and does nothing else to it. -/
theorem input_elapse (us : Nat) (s : State) (i : InputId) :
    (elapse us s).guard.input i = { s.guard.input i with timer := runOn us (s.guard.input i).timer } := by
  cases i <;> rfl

/-! ## Axes -/

@[simp] theorem get_update (u : Axes) (a b : Axis) (f : AxisState → AxisState) :
    (u.update a f).get b = if b = a then f (u.get a) else u.get b := by
  cases a <;> cases b <;> rfl

@[simp] theorem get_each (u : Axes) (f : Axis → AxisState → AxisState) (a : Axis) :
    (u.each f).get a = f a (u.get a) := by
  cases a <;> rfl

@[simp] theorem each_home (u : Axes) (f : Axis → AxisState → AxisState) : (u.each f).home = u.home := rfl

@[simp] theorem each_traverse (u : Axes) (f : Axis → AxisState → AxisState) : (u.each f).traverse = u.traverse := rfl

@[simp] theorem each_timer (u : Axes) (f : Axis → AxisState → AxisState) : (u.each f).timer = u.timer := rfl

@[simp] theorem update_home (u : Axes) (a : Axis) (f : AxisState → AxisState) : (u.update a f).home = u.home := by
  cases a <;> rfl

@[simp] theorem update_traverse (u : Axes) (a : Axis) (f : AxisState → AxisState) :
    (u.update a f).traverse = u.traverse := by
  cases a <;> rfl

@[simp] theorem update_timer (u : Axes) (a : Axis) (f : AxisState → AxisState) : (u.update a f).timer = u.timer := by
  cases a <;> rfl

/-- R140: abandoning steps leaves everything else of every axis. -/
@[simp] theorem abandonSteps_get (s : State) (a : Axis) :
    (abandonSteps s).axes.get a = { s.axes.get a with steps := 0 } := by
  cases a <;> rfl

/-! ## The PWM output -/

/-- R94: with duty 0 the output is low throughout the cycle. -/
theorem outputAt_zero {k : Stroke} (h : k.pwmDuty = 0) (ns : Nat) : k.outputAt ns = false := by
  unfold Stroke.outputAt Stroke.highTime
  simp [h]

/-- R94: with duty 1000 the output is high throughout the cycle of 50 µs. -/
theorem outputAt_full {k : Stroke} (h : k.pwmDuty = 1000) {ns : Nat} (hn : ns < 50000) : k.outputAt ns = true := by
  unfold Stroke.outputAt Stroke.highTime
  rw [h]
  exact decide_eq_true (by omega)

/-! ## Notices -/

/-- R167: a queued notice leaves the requests, the frame's bytes and the marks, and loses no earlier notice. -/
theorem queueNotice_link (n : Notice) (s : State) :
    (queueNotice n s).link.requests = s.link.requests ∧ (queueNotice n s).link.marks = s.link.marks ∧
      (queueNotice n s).link.notices = if s.link.notices.length < 16 then s.link.notices ++ [n] else s.link.notices := by
  unfold queueNotice
  rw [mapLink_link]
  split
  · exact ⟨rfl, rfl, rfl⟩
  · exact ⟨rfl, rfl, rfl⟩

theorem queueNotice_link_congr {n : Notice} {s u : State} (h : u.link = s.link) :
    (queueNotice n u).link = (queueNotice n s).link := by
  unfold queueNotice
  rw [mapLink_link, mapLink_link, h]

end Sys2Proof.Machine
end

