-- ==== Sys2Proof/Laws/Slots.lean ====
section
/-! SUPPORT. The slots of the Store: reading a slot after each slot operation, and the canonical form each one keeps. -/

namespace Sys2Proof.Machine

/-! ## Reading after writing -/

theorem slotAt_slotPut_self (l : List (Nat × Slot)) (i : Nat) (sl : Slot) : slotAt (slotPut l i sl) i = some sl := by
  induction l with
  | nil => simp [slotPut, slotAt]
  | cons e rest ih =>
    obtain ⟨k, old⟩ := e
    unfold slotPut
    split
    · simp [slotAt]
    · split
      · simp [slotAt]
      · next h => simp [slotAt, h, ih]

theorem slotAt_slotPut_other (l : List (Nat × Slot)) {i j : Nat} (sl : Slot) (h : i ≠ j) :
    slotAt (slotPut l i sl) j = slotAt l j := by
  induction l with
  | nil => simp [slotPut, slotAt, h]
  | cons e rest ih =>
    obtain ⟨k, old⟩ := e
    unfold slotPut
    split
    · simp [slotAt, h]
    · split
      · next hk => subst hk; simp [slotAt, h]
      · simp [slotAt, ih]

/-- R22: every write of a slot shows at that slot and at no other. -/
theorem slotAt_slotPut (l : List (Nat × Slot)) (i j : Nat) (sl : Slot) :
    slotAt (slotPut l i sl) j = if i = j then some sl else slotAt l j := by
  split
  · next h => subst h; exact slotAt_slotPut_self l i sl
  · next h => exact slotAt_slotPut_other l sl h

/-- R22: a dropped slot is EMPTY and no other slot changes. -/
theorem slotAt_slotDrop (l : List (Nat × Slot)) (i j : Nat) :
    slotAt (slotDrop l i) j = if i = j then none else slotAt l j := by
  induction l with
  | nil => simp [slotDrop, slotAt]
  | cons e rest ih =>
    obtain ⟨k, sl⟩ := e
    simp only [slotDrop] at ih ⊢
    by_cases hk : k = i
    · subst hk
      simp only [List.filter_cons, ne_eq, not_true_eq_false, decide_false, Bool.false_eq_true, if_false, ih, slotAt]
      split
      · rfl
      · simp
    · simp only [List.filter_cons, ne_eq, hk, not_false_eq_true, decide_true, if_true, slotAt, ih]
      split
      · next h => subst h; simp [Ne.symm hk]
      · rfl

theorem slotAt_slotMap (f : Slot → Slot) (l : List (Nat × Slot)) (i : Nat) :
    slotAt (slotMap f l) i = (slotAt l i).map f := by
  induction l with
  | nil => rfl
  | cons e rest ih =>
    obtain ⟨k, sl⟩ := e
    simp only [slotMap, List.map_cons, slotAt] at ih ⊢
    split
    · rfl
    · exact ih

/-! ## The canonical form -/

theorem slotsWf_nil : slotsWf [] = true := rfl

theorem slotsWf_cons {k : Nat} {sl : Slot} {rest : List (Nat × Slot)} :
    slotsWf ((k, sl) :: rest) = true ↔ (∀ e ∈ rest, k < e.1) ∧ slotsWf rest = true := by
  simp [slotsWf]

theorem slotsWf_single (e : Nat × Slot) : slotsWf [e] = true := by
  obtain ⟨k, sl⟩ := e
  simp [slotsWf]

theorem mem_slotPut {l : List (Nat × Slot)} {i : Nat} {sl : Slot} {e : Nat × Slot} (h : e ∈ slotPut l i sl) :
    e = (i, sl) ∨ e ∈ l := by
  induction l with
  | nil => simpa [slotPut] using h
  | cons d rest ih =>
    obtain ⟨k, old⟩ := d
    unfold slotPut at h
    split at h
    · simpa using h
    · split at h
      · rcases List.mem_cons.mp h with h | h
        · exact .inl h
        · exact .inr (List.mem_cons_of_mem _ h)
      · rcases List.mem_cons.mp h with h | h
        · exact .inr (h ▸ List.mem_cons_self)
        · exact (ih h).imp_right (List.mem_cons_of_mem _)

theorem slotsWf_slotPut {l : List (Nat × Slot)} (i : Nat) (sl : Slot) (h : slotsWf l = true) :
    slotsWf (slotPut l i sl) = true := by
  induction l with
  | nil => exact slotsWf_single _
  | cons e rest ih =>
    obtain ⟨k, old⟩ := e
    have hc := slotsWf_cons.mp h
    unfold slotPut
    split
    · next hik =>
      refine slotsWf_cons.mpr ⟨?_, h⟩
      intro d hd
      rcases List.mem_cons.mp hd with hd | hd
      · subst hd; exact hik
      · exact Nat.lt_trans hik (hc.1 d hd)
    · next hik =>
      split
      · next hk => subst hk; exact slotsWf_cons.mpr hc
      · next hk =>
        refine slotsWf_cons.mpr ⟨?_, ih hc.2⟩
        intro d hd
        rcases mem_slotPut hd with hd | hd
        · subst hd; exact Nat.lt_of_le_of_ne (Nat.le_of_not_lt hik) hk
        · exact hc.1 d hd

/-- R22: in the canonical form, a written slot stands beside the others. -/
theorem slotPut_perm {l : List (Nat × Slot)} (i : Nat) (sl : Slot) (h : slotsWf l = true) :
    (slotPut l i sl).Perm ((i, sl) :: l.filter fun e => e.1 ≠ i) := by
  have keep : ∀ m : List (Nat × Slot), (∀ e ∈ m, i < e.1) → m.filter (fun e => e.1 ≠ i) = m := fun m hm =>
    List.filter_eq_self.mpr fun e he => decide_eq_true fun hi => Nat.lt_irrefl i (hi ▸ hm e he)
  induction l with
  | nil => exact List.Perm.refl _
  | cons e rest ih =>
    obtain ⟨k, old⟩ := e
    obtain ⟨hk, hr⟩ := slotsWf_cons.mp h
    unfold slotPut
    split
    · next hik =>
      have hm : ∀ e ∈ (k, old) :: rest, i < e.1 := fun e he => by
        rcases List.mem_cons.mp he with he | he
        · subst he
          exact hik
        · exact Nat.lt_trans hik (hk e he)
      rw [keep _ hm]
    · split
      · next hik =>
        subst hik
        rw [List.filter_cons, if_neg (by simp), keep _ hk]
      · next hik =>
        rw [List.filter_cons, if_pos (by simpa using hik)]
        exact ((ih hr).cons _).trans (List.Perm.swap _ _ _)

theorem slotsWf_filter {l : List (Nat × Slot)} (p : Nat × Slot → Bool) (h : slotsWf l = true) :
    slotsWf (l.filter p) = true := by
  induction l with
  | nil => rfl
  | cons e rest ih =>
    obtain ⟨k, sl⟩ := e
    have hc := slotsWf_cons.mp h
    rw [List.filter_cons]
    split
    · exact slotsWf_cons.mpr ⟨fun d hd => hc.1 d (List.mem_of_mem_filter hd), ih hc.2⟩
    · exact ih hc.2

theorem slotsWf_slotDrop {l : List (Nat × Slot)} (i : Nat) (h : slotsWf l = true) : slotsWf (slotDrop l i) = true :=
  slotsWf_filter _ h

theorem slotsWf_slotMap {l : List (Nat × Slot)} (f : Slot → Slot) (h : slotsWf l = true) :
    slotsWf (slotMap f l) = true := by
  induction l with
  | nil => rfl
  | cons e rest ih =>
    obtain ⟨k, sl⟩ := e
    have hc := slotsWf_cons.mp h
    refine slotsWf_cons.mpr ⟨?_, ih hc.2⟩
    intro d hd
    obtain ⟨d', hd', rfl⟩ := List.mem_map.mp hd
    exact hc.1 d' hd'

theorem slotsWf_slotsPut (ws : List (Nat × Slot)) {l : List (Nat × Slot)} (h : slotsWf l = true) :
    slotsWf (slotsPut l ws) = true := by
  induction ws generalizing l with
  | nil => exact h
  | cons e rest ih => exact ih (slotsWf_slotPut e.1 e.2 h)

/-! ## A replan's writes -/

/-- R51: a replan keeps everything of a record but its junction class and its planned speeds. -/
theorem plannedSlot_seg (sl : Slot) (leg : Leg) (sp : Speeds) :
    (plannedSlot sl leg sp).seg =
      { sl.seg with
        junction := (plannedSlot sl leg sp).seg.junction
        entrySpeed := (plannedSlot sl leg sp).seg.entrySpeed
        exitSpeed := (plannedSlot sl leg sp).seg.exitSpeed } := by
  unfold plannedSlot
  split <;> rfl

/-- R50: an ACTIVE slot stays ACTIVE under a replan; every other slot of the span becomes PLANNED. -/
theorem plannedSlot_state (sl : Slot) (leg : Leg) (sp : Speeds) :
    (plannedSlot sl leg sp).state = if sl.state = .active then .active else .planned := by
  unfold plannedSlot
  split <;> next h => simp [h]

theorem slotAt_slotsPut (ws l : List (Nat × Slot)) (i : Nat) :
    slotAt (slotsPut l ws) i = slotAt l i ∨ ∃ sl, (i, sl) ∈ ws ∧ slotAt (slotsPut l ws) i = some sl := by
  induction ws generalizing l with
  | nil => exact Or.inl rfl
  | cons e rest ih =>
    rcases ih (slotPut l e.1 e.2) with h | ⟨sl, hm, h⟩
    · by_cases he : e.1 = i
      · subst he
        exact Or.inr ⟨e.2, List.mem_cons_self, h.trans (slotAt_slotPut_self l e.1 e.2)⟩
      · exact Or.inl (h.trans (slotAt_slotPut_other l e.2 he))
    · exact Or.inr ⟨sl, List.mem_cons_of_mem _ hm, h⟩

/-- R48: every slot of a run is a slot of the Store. -/
theorem runFrom_slot {st : Store} {n i : Nat} {e : Nat × Slot} (h : e ∈ st.runFrom n i) : st.slot e.1 = some e.2 := by
  induction n generalizing i with
  | zero => exact absurd h (List.not_mem_nil)
  | succ n ih =>
    unfold Store.runFrom at h
    split at h
    · exact absurd h (List.not_mem_nil)
    · next sl hs =>
      rcases List.mem_cons.mp h with rfl | h
      · exact hs
      · split at h
        · exact absurd h (List.not_mem_nil)
        · exact ih h

theorem mem_plannedSlots {span : List (Nat × Slot)} {legs : List Leg} {sps : List Speeds} {e : Nat × Slot}
    (h : e ∈ plannedSlots span legs sps) : ∃ sl leg sp, (e.1, sl) ∈ span ∧ e.2 = plannedSlot sl leg sp := by
  induction span generalizing legs sps with
  | nil =>
    unfold plannedSlots at h
    exact absurd h (List.not_mem_nil)
  | cons d rest ih =>
    cases legs with
    | nil =>
      unfold plannedSlots at h
      exact absurd h (List.not_mem_nil)
    | cons leg legs =>
      cases sps with
      | nil =>
        unfold plannedSlots at h
        exact absurd h (List.not_mem_nil)
      | cons sp sps =>
        unfold plannedSlots at h
        rcases List.mem_cons.mp h with rfl | h
        · exact ⟨d.2, leg, sp, List.mem_cons_self, rfl⟩
        · obtain ⟨sl, leg, sp, hm, he⟩ := ih h
          exact ⟨sl, leg, sp, List.mem_cons_of_mem _ hm, he⟩

theorem copyDerates_store (s : State) : (copyDerates s).store = s.store := by
  unfold copyDerates
  split <;> rfl

/-- R50: the slots a replan writes. -/
theorem replan_slots (completed : Option Segment) (s : State) :
    (replan completed s).store.slots = slotsPut s.store.slots (plannedSlots s.store.span
      (spanLegs completed (copyDerates s)) (backwardPass (copyDerates s).params.accel (spanLegs completed (copyDerates s)))) := by
  show slotsPut (copyDerates s).store.slots _ = _
  rw [copyDerates_store]

/-- R50, R53: a replan leaves every slot as it is, or plans it. -/
theorem replan_slot (completed : Option Segment) (s : State) (i : Nat) :
    (replan completed s).store.slot i = s.store.slot i ∨
      ∃ sl leg sp, s.store.slot i = some sl ∧ (replan completed s).store.slot i = some (plannedSlot sl leg sp) := by
  unfold Store.slot
  rw [replan_slots]
  rcases slotAt_slotsPut (plannedSlots s.store.span (spanLegs completed (copyDerates s))
    (backwardPass (copyDerates s).params.accel (spanLegs completed (copyDerates s)))) s.store.slots i with h | ⟨sl, hm, h⟩
  · exact Or.inl h
  · obtain ⟨sl0, leg, sp, hs, he⟩ := mem_plannedSlots hm
    exact Or.inr ⟨sl0, leg, sp, runFrom_slot hs, h.trans (congrArg some he)⟩

/-- R53: a replan changes the Store nowhere but in its slots. -/
theorem replan_store (completed : Option Segment) (s : State) :
    (replan completed s).store = { s.store with slots := (replan completed s).store.slots } := by
  rw [replan_slots]
  show ({ (copyDerates s).store with slots := _ } : Store) = _
  rw [copyDerates_store]

/-! ## What a replan leaves of a record -/

/-- A record less what the Planner writes (R5). -/
def Segment.host (seg : Segment) : Segment :=
  { seg with junction := none, entrySpeed := 0, exitSpeed := 0 }

theorem plannedSlot_host (sl : Slot) (leg : Leg) (sp : Speeds) : (plannedSlot sl leg sp).seg.host = sl.seg.host := by
  rw [plannedSlot_seg]
  rfl

/-- R5, R51: a replan changes no field of a record but those the Planner writes. -/
theorem replan_host (completed : Option Segment) (s : State) (i : Nat) :
    ((replan completed s).store.slot i).map (fun sl => sl.seg.host) = (s.store.slot i).map fun sl => sl.seg.host := by
  rcases replan_slot completed s i with h | ⟨sl, leg, sp, h, h'⟩
  · rw [h]
  · rw [h, h', Option.map_some, Option.map_some, plannedSlot_host]

/-- R48: two Stores whose slots agree in some respect, in the same window, have runs that agree in it. -/
theorem runFrom_map {α : Type} {st st' : Store} (f : Slot → α) (hs : ∀ i, (st'.slot i).map f = (st.slot i).map f)
    (ha : ∀ i, st'.after i = st.after i) (hw : st'.writePtr = st.writePtr) (n i : Nat) :
    (st'.runFrom n i).map (fun e => f e.2) = (st.runFrom n i).map fun e => f e.2 := by
  induction n generalizing i with
  | zero => rfl
  | succ n ih =>
    have h := hs i
    unfold Store.runFrom
    cases h1 : st.slot i with
    | none =>
      rw [h1] at h
      rw [Option.map_eq_none_iff.mp h]
    | some sl =>
      rw [h1] at h
      obtain ⟨sl', h2, h3⟩ := Option.map_eq_some_iff.mp h
      rw [h2]
      dsimp only
      rw [List.map_cons, List.map_cons, h3, ha, hw]
      split
      · rfl
      · rw [ih]

theorem replan_runFrom (completed : Option Segment) (s : State) (n i : Nat) :
    ((replan completed s).store.runFrom n i).map (fun e => e.2.seg.host) =
      (s.store.runFrom n i).map fun e => e.2.seg.host := by
  refine runFrom_map (fun sl => sl.seg.host) (replan_host completed s) ?_ ?_ n i
  · intro j
    rw [replan_store]
    rfl
  · rw [replan_store]

end Sys2Proof.Machine
end

