-- ==== Sys2Proof/Laws/Terms.lean ====
section
/-! SUPPORT. The terms of the statements and the operations they spell out: the checks of the requests, the parameters,
and what the Load Monitor does on a change of stroke state. -/

namespace Sys2Proof.Machine

/-! ## Checks -/

theorem mem_allInputs (i : InputId) : i ∈ allInputs := by
  cases i <;> decide

theorem stopsCut_iff (a : InputAction) : a.stopsCut = true ↔ a ∈ [InputAction.hold, .stop, .halt] := by
  cases a <;> decide

theorem stopsMotion_iff (a : InputAction) : a.stopsMotion = true ↔ a ∈ [InputAction.stop, .halt] := by
  cases a <;> decide

theorem cutBlocked_iff (g : Guard) : g.cutBlocked = true ↔ g.barsCut := by
  unfold Guard.cutBlocked Guard.barsCut
  simp only [List.any_eq_true, Bool.and_eq_true, stopsCut_iff]
  exact ⟨fun ⟨i, _, h⟩ => ⟨i, h⟩, fun ⟨i, h⟩ => ⟨i, mem_allInputs i, h⟩⟩

theorem motionBlocked_iff (g : Guard) : g.motionBlocked = true ↔ g.barsMotion := by
  unfold Guard.motionBlocked Guard.barsMotion
  simp only [List.any_eq_true, Bool.and_eq_true, stopsMotion_iff]
  exact ⟨fun ⟨i, _, h⟩ => ⟨i, h⟩, fun ⟨i, h⟩ => ⟨i, mem_allInputs i, h⟩⟩

theorem allReferenced_iff (u : Axes) : u.allReferenced = true ↔ u.located := by
  unfold Axes.allReferenced Axes.located
  simp only [Bool.and_eq_true, decide_eq_true_eq]
  exact ⟨fun h a => by cases a <;> simp only [Axes.get, h], fun h => ⟨⟨h .x, h .y⟩, h .c⟩⟩

theorem homeLevel_eq (g : Guard) (a : Axis) : homeLevel g a = (g.input (homeInputOf a)).accepted := by
  cases a <;> rfl

theorem limitLevel_iff (g : Guard) (a : Axis) :
    limitLevel g a = true ↔ ∃ i, limitInputOf a = some i ∧ (g.input i).accepted = true := by
  cases a <;> simp [limitLevel, limitInputOf]

/-! ## The Load Monitor -/

/-- R109, R112, R113, R119: the Load Monitor at a change of stroke state, field by field. -/
theorem strokeChanged_eq (before now : StrokeState) (m : Load) : m.strokeChanged before now = m.told before now := by
  obtain ⟨powered, settled, inFlight, reqStroke, reqLink, result, valid, phase, acc, band, run⟩ := m
  cases before <;> cases now <;> cases powered <;> cases reqLink <;> rfl

theorem strokeTo_load (f : Stroke → Stroke) (s : State) :
    (strokeTo f s).load = s.load.told s.stroke.state (f s.stroke).state :=
  strokeChanged_eq ..

theorem told_same (k : StrokeState) (m : Load) : m.told k k = m := by
  unfold Load.told; rw [if_pos rfl]

/-! ## Parameters -/

/-- The inputs by their index, and their number. -/
theorem allInputs_length : allInputs.length = 12 := rfl

/-- 12.6: the value stored under an identifier is the one its parameter reads. -/
theorem storedAt_eq (s : State) (id : Nat) : s.storedAt id = (paramOfId id).map fun p => p.read s := by
  by_cases h29 : id = 0x1D
  · subst h29
    show some (((if s.params.bandNotice then 1 else 0 : Nat) : Int)) = some (onOff s.params.bandNotice)
    cases s.params.bandNotice <;> rfl
  by_cases h : id < 0x74
  · interval_cases id <;> first | rfl | exact absurd rfl h29
  · have h1 : s.storedAt id = none := by
      unfold State.storedAt
      simp only [show ¬id = 0 by omega, show ¬id < 0x40 by omega, show ¬id < 0x50 by omega, show ¬id < 0x60 by omega,
        show ¬id < 0x70 by omega, if_false]
      rw [List.getElem?_eq_none (by simp; omega)]; rfl
    have h2 : paramOfId id = none := by
      unfold paramOfId
      simp only [show ¬id < 0x40 by omega, show ¬id < 0x50 by omega, show ¬id < 0x60 by omega, show ¬id < 0x70 by omega,
        if_false]
      obtain ⟨n, hn⟩ : ∃ n, id - 0x70 = n + 4 := ⟨id - 0x74, by omega⟩
      rw [hn]; rfl
    rw [h1, h2]; rfl

/-- 12.6: the identifiers that name a parameter. -/
theorem paramOfId_isSome (id : Nat) : (paramOfId id).isSome = true ↔
    (1 ≤ id ∧ id ≤ 0x27) ∨ (0x40 ≤ id ∧ id ≤ 0x4B) ∨ (0x50 ≤ id ∧ id ≤ 0x5B) ∨ (0x60 ≤ id ∧ id ≤ 0x6B) ∨
      (0x70 ≤ id ∧ id ≤ 0x73) := by
  by_cases h : id < 0x74
  · interval_cases id <;> decide
  · have := storedAt_eq State.reset id
    unfold State.storedAt at this
    simp only [show ¬id = 0 by omega, show ¬id < 0x40 by omega, show ¬id < 0x50 by omega, show ¬id < 0x60 by omega,
      show ¬id < 0x70 by omega, if_false] at this
    rw [List.getElem?_eq_none (by simp; omega)] at this
    cases hp : paramOfId id with
    | none => simp; omega
    | some p => rw [hp] at this; simp at this

/-- The identifier of a parameter (12.6). -/
def ParamId.ident : ParamId → Nat
  | .accel => 0x01
  | .stopDecel => 0x02
  | .overridePct => 0x03
  | .advanceLimit => 0x04
  | .blendAngle => 0x05
  | .pivotLimit => 0x06
  | .cornerFloor => 0x07
  | .pivotRate => 0x08
  | .linkFeed => 0x09
  | .strokeCut => 0x0A
  | .strokeIdle => 0x0B
  | .startDuty => 0x0C
  | .ki => 0x0D
  | .lockBand => 0x0E
  | .lockCount => 0x0F
  | .stallTime => 0x10
  | .spinupLimit => 0x11
  | .t1 => 0x12
  | .t2 => 0x13
  | .t3 => 0x14
  | .d0 => 0x15
  | .d1 => 0x16
  | .d2 => 0x17
  | .d3 => 0x18
  | .hyst => 0x19
  | .overload => 0x1A
  | .overloadCount => 0x1B
  | .samplePhase => 0x1C
  | .bandNotice => 0x1D
  | .travelX => 0x1E
  | .travelY => 0x1F
  | .traverseFeed => 0x20
  | .homeFeed => 0x21
  | .homeSearch => 0x22
  | .starveDwell => 0x23
  | .flowHold => 0x24
  | .flowGo => 0x25
  | .lowWater => 0x26
  | .frameTimeout => 0x27
  | .filter i => 0x40 + (inputIndex i).val
  | .action i => 0x50 + (inputIndex i).val
  | .notifyRelease i => 0x60 + (inputIndex i).val
  | .policy cls => 0x70 + cls.code

/-- 12.6: no two parameters have one identifier, and no parameter two. -/
theorem ident_eq {id : Nat} {p : ParamId} (h : paramOfId id = some p) : p.ident = id := by
  have hid : id < 0x74 := by
    have := (paramOfId_isSome id).mp (by rw [h]; rfl); omega
  interval_cases id <;>
    first
    | exact nomatch show (none : Option ParamId) = some p from h
    | (injection h with h; subst h; rfl)

theorem fixed_iff {id : Nat} {p : ParamId} (h : paramOfId id = some p) : p.fixed = true ↔ setFixed id := by
  have hid : id < 0x74 := by
    have := (paramOfId_isSome id).mp (by rw [h]; rfl); omega
  unfold setFixed
  interval_cases id <;>
    first
    | exact nomatch show (none : Option ParamId) = some p from h
    | (injection h with h; subst h; decide)

theorem idleOnly_iff {id : Nat} {p : ParamId} (h : paramOfId id = some p) : p.idleOnly = true ↔ setIdleOnly id := by
  have hid : id < 0x74 := by
    have := (paramOfId_isSome id).mp (by rw [h]; rfl); omega
  unfold setIdleOnly
  interval_cases id <;>
    first
    | exact nomatch show (none : Option ParamId) = some p from h
    | (injection h with h; subst h; decide)

theorem undefinedCode_iff {id : Nat} {p : ParamId} (v : Int) (h : paramOfId id = some p) :
    p.undefinedCode v = true ↔ setUndefined id v := by
  have hid : id < 0x74 := by
    have := (paramOfId_isSome id).mp (by rw [h]; rfl); omega
  unfold setUndefined
  interval_cases id <;>
    first
    | exact nomatch show (none : Option ParamId) = some p from h
    | (injection h with h; subst h; simp [ParamId.undefinedCode, ParamId.codes]; try omega)

/-- The greatest value of a function of the records is the least bound of the base and of every record (R125). -/
theorem greatest_le (f : Segment → Int) (l : List (Nat × Slot)) (base n : Int) :
    greatest f base l ≤ n ↔ base ≤ n ∧ ∀ e ∈ l, f e.2.seg ≤ n := by
  unfold greatest
  induction l generalizing base with
  | nil => simp
  | cons e r ih => rw [List.foldl_cons, ih]; simp only [List.mem_cons, forall_eq_or_imp, Int.max_le, and_assoc]

theorem referencedPos_le (ax : AxisState) {n : Int} (hn : 0 ≤ n) :
    ax.referencedPos ≤ n ↔ (ax.ref = .referenced → ax.pos ≤ n) := by
  unfold AxisState.referencedPos; split <;> simp_all

theorem clamp_max (v : Int) {lo hi : Int} (h : lo ≤ hi) : clamp v lo hi = max lo (min v hi) := by
  unfold clamp; (repeat' split) <;> omega

/-- What is stored under an identifier that is no travel and no policy. -/
theorem holds_inRange {s : State} {id : Nat} {v h : Int} (hx : id ≠ 0x1E) (hy : id ≠ 0x1F) (hid : id < 0x70)
    (hr : h = max (s.rangeAt id).1 (min v (s.rangeAt id).2)) : s.holds id v h := by
  unfold State.holds
  rw [if_neg hx, if_neg hy, if_neg (by omega)]; exact hr

/-- R125: the least travel that a value, the position of a REFERENCED axis and the records allow. -/
theorem travel_le (f : Segment → Int) (ax : AxisState) (slots : List (Nat × Slot)) {x : Int} (hx : 0 ≤ x) (n : Int) :
    max x (greatest f ax.referencedPos slots) ≤ n ↔
      x ≤ n ∧ (ax.ref = .referenced → ax.pos ≤ n) ∧ ∀ e ∈ slots, f e.2.seg ≤ n := by
  rw [Int.max_le, greatest_le]
  constructor
  · rintro ⟨ha, hb, hc⟩; exact ⟨ha, (referencedPos_le ax (by omega)).mp hb, hc⟩
  · rintro ⟨ha, hb, hc⟩; exact ⟨ha, (referencedPos_le ax (by omega)).mpr hb, hc⟩

/-- The actions of a policy code (R17), for a code of an action. -/
theorem policy_holds (cls : GeometryClass) {v : Int} (h : 0 ≤ v ∧ v ≤ 3) :
    (if policyAllowed cls (policyOfCode v.toNat) then v else 0) =
      if v ≤ 1 ∨ (cls = .length ∧ v = 2) ∨ (cls = .pivot ∧ v = 3) then v else 0 := by
  have : v = 0 ∨ v = 1 ∨ v = 2 ∨ v = 3 := by omega
  rcases this with rfl | rfl | rfl | rfl <;> cases cls <;> rfl

/-- R169, check 5: what a SET stores, with every parameter in its range. -/
theorem hold_holds {id : Nat} {p : ParamId} (s : State) (v : Int) (hp : s.paramsOk) (h : paramOfId id = some p)
    (hv : ¬setUndefined id v) : s.holds id v (p.hold s v) := by
  have hid : id < 0x74 := by
    have := (paramOfId_isSome id).mp (by rw [h]; rfl); omega
  have h1 := hp.accel
  have h2 := hp.strokes
  have h3 := hp.thresholds
  have h4 := hp.flow
  unfold setUndefined at hv
  interval_cases id <;>
    first
    | exact nomatch show (none : Option ParamId) = some p from h
    | (injection h with h; subst h)
  all_goals
    first
    | exact holds_inRange (by decide) (by decide) (by decide) (clamp_max v (by decide))
    | exact holds_inRange (by decide) (by decide) (by decide) (clamp_max v (by omega))
    | exact holds_inRange (by decide) (by decide) (by decide) (show v = max 0 (min v 1) by omega)
    | exact holds_inRange (by decide) (by decide) (by decide) (show v = max 0 (min v 4) by omega)
    | exact holds_inRange (by decide) (by decide) (by decide)
        (show min (clamp v 0 1023) ((s.params.t2 : Int) - 1) = max 0 (min v ((s.params.t2 : Int) - 1)) by
          unfold clamp; (repeat' split) <;> omega)
    | exact holds_inRange (by decide) (by decide) (by decide)
        (show min (max (clamp v 0 1023) ((s.params.t1 : Int) + 1)) ((s.params.t3 : Int) - 1) =
            max ((s.params.t1 : Int) + 1) (min v ((s.params.t3 : Int) - 1)) by
          unfold clamp; (repeat' split) <;> omega)
    | exact holds_inRange (by decide) (by decide) (by decide)
        (show max (clamp v 0 1023) ((s.params.t2 : Int) + 1) = max ((s.params.t2 : Int) + 1) (min v 1023) by
          unfold clamp; (repeat' split) <;> omega)
    | (show ∀ n : Int, max (clamp v 1000 250000) (travelFloorX s) ≤ n ↔ max 1000 (min v 250000) ≤ n ∧ _ ∧ _
       rw [← clamp_max v (by decide)]
       exact travel_le _ _ _ (by unfold clamp; (repeat' split) <;> omega))
    | (show ∀ n : Int, max (clamp v 1000 150000) (travelFloorY s) ≤ n ↔ max 1000 (min v 150000) ≤ n ∧ _ ∧ _
       rw [← clamp_max v (by decide)]
       exact travel_le _ _ _ (by unfold clamp; (repeat' split) <;> omega))
    | (have hc : 0 ≤ v ∧ v ≤ 3 := by omega
       refine (policy_holds _ hc).trans ?_
       simp)

end Sys2Proof.Machine
end

