-- ==== Sys2Proof/Laws/Expiry.lean ====
section
/-! SUPPORT. The interpolation period expiry in its parts: the opening, the evaluation, the hand-over of the targets, the
low-water evaluation, and what a completion and the taking after it leave. -/

namespace Sys2Proof.Machine

set_option Elab.async false

/-! ## Opening and evaluation -/

/-- R77: an evaluation changes the Governor and nothing else. -/
theorem evaluateGovernor_eq (s : State) : evaluateGovernor s = { s with gov := (evaluateGovernor s).gov } := by
  unfold evaluateGovernor
  split <;> rfl

/-- R77: an evaluation reads the job, the pivot, the path, the parameters, the band, the blade and its own last feed. -/
theorem evaluateGovernor_congr {s u : State} (hj : u.job = s.job) (hn : u.interp.pivot = s.interp.pivot)
    (hq : pathInput u = pathInput s) (hp : u.params = s.params) (hl : u.load = s.load) (hk : u.stroke = s.stroke)
    (hg : u.gov = s.gov) : (evaluateGovernor u).gov = (evaluateGovernor s).gov := by
  have hb : feedBarred u = feedBarred s := by
    unfold feedBarred
    rw [hj, hn]
  have hc : ∀ q, capsOf u q = capsOf s q := fun q => by
    unfold capsOf
    rw [hp, hl, hk]
  have hr : rampOf u = rampOf s := by
    unfold rampOf
    rw [hj, hp]
  unfold evaluateGovernor
  rw [hb, hq]
  split
  · rfl
  · simp only [mapGov_gov, hc, hr, hp, hg]

/-- R60, R122: the opening of an expiry issues the steps still left and starts the period anew. -/
theorem beginPeriod_eq (s : State) :
    beginPeriod s =
      { s with axes := s.axes.each AxisState.issueRest, interp := { s.interp with timer := some 0 } } := rfl

/-- R60: an expiry with nothing to take at its opening evaluates the Governor on the state it finds. -/
theorem evaluated_eq (s : State) :
    evaluateGovernor (beginPeriod s) =
      { s with
        axes := s.axes.each AxisState.issueRest
        interp := { s.interp with timer := some 0 }
        gov := (evaluateGovernor s).gov } := by
  have h : (evaluateGovernor (beginPeriod s)).gov = (evaluateGovernor s).gov :=
    evaluateGovernor_congr rfl rfl rfl rfl rfl rfl rfl
  rw [evaluateGovernor_eq, h]
  rfl

/-- R60, step 1: with an active segment, a link move, a pivot, or a job not CUTTING, nothing is taken at the opening. -/
theorem openingTake_none {s : State} (h : s.job.state ≠ .cutting ∨ s.interp.active.isSome = true ∨
    s.interp.link.isSome = true ∨ s.interp.pivot ≠ 0) : openingTake s = s := by
  unfold openingTake
  rw [if_neg]
  simp only [Bool.and_eq_true, decide_eq_true_eq, Option.isNone_iff_eq_none, not_and]
  rintro ⟨⟨h1, h2⟩, h3⟩ h4
  rcases h with h | h | h | h
  · exact h h1
  · rw [h2] at h
    cases h
  · rw [h3] at h
    cases h
  · exact h h4

/-! ## The hand-over -/

theorem clamp_eq (x : Int) (hi : Nat) : clamp x 0 hi = max 0 (min x hi) := by
  unfold clamp
  omega

/-- R60 step 5, R122, R125: what an axis makes of the target it is handed when the period before it has ended. -/
theorem handTargets_handed (prm : Params) (x y : Int) (c : Nat) (u : Axes) :
    Axes.handed prm x y c u (handTargets prm x y c (u.each AxisState.issueRest)) := by
  refine ⟨rfl, rfl, rfl, fun a => ?_⟩
  have hc : mod36000 ((c : Nat) : Int) = c % 36000 := by
    unfold mod36000
    omega
  cases a
  · show AxisState.hand prm .x x (u.x.issueRest .x) = _
    unfold AxisState.hand limitTarget stepCount travelOf AxisState.issueRest addSteps
    dsimp only
    rw [clamp_eq]
    rfl
  · show AxisState.hand prm .y y (u.y.issueRest .y) = _
    unfold AxisState.hand limitTarget stepCount travelOf AxisState.issueRest addSteps
    dsimp only
    rw [clamp_eq]
    rfl
  · show AxisState.hand prm .c c (u.c.issueRest .c) = _
    unfold AxisState.hand limitTarget stepCount travelOf AxisState.issueRest addSteps
    dsimp only
    rw [turn_of_position, hc]
    have he : (((c % 36000 : Nat) : Int) - (u.c.pos + u.c.steps) % 36000) % 36000 =
        ((c : Int) - (u.c.pos + u.c.steps) % 36000) % 36000 := by
      omega
    rw [he]
    rfl

/-! ## Low water and the rest of the expiry -/

/-- R38: what the low-water evaluation does to the Store. -/
theorem lowWater_store (s : State) :
    (lowWater s).store =
      { s.store with
        armed := if s.store.mode = .stream ∧ s.store.chainClosed = false then decide (s.params.lowWater ≤ pathAhead s)
          else s.store.armed } := by
  unfold lowWater
  by_cases h : s.store.mode = .stream ∧ s.store.chainClosed = false
  · rw [if_pos (by simp [h]), if_pos h]
    by_cases ha : s.store.armed = true
    · rw [if_pos ha]
      by_cases hl : pathAhead s < s.params.lowWater
      · rw [if_pos hl, decide_eq_false (by omega)]
        rfl
      · rw [if_neg hl, decide_eq_true (by omega), ← ha]
    · rw [if_neg ha]
      by_cases hl : s.params.lowWater ≤ pathAhead s
      · rw [if_pos hl, decide_eq_true hl]
        rfl
      · rw [if_neg hl, decide_eq_false hl, ← Bool.not_eq_true _ |>.mp ha]
  · rw [if_neg (by simpa using h), if_neg h]

/-- R38: what it does to the Link: the notice LOW when the flag was set and the path has fallen short. -/
theorem lowWater_link (s : State) :
    (lowWater s).link =
      if s.store.mode = .stream ∧ s.store.chainClosed = false ∧ s.store.armed = true ∧
          pathAhead s < s.params.lowWater then
        (queueNotice (.low (pathAhead s)) s).link
      else s.link := by
  unfold lowWater
  by_cases h : s.store.mode = .stream ∧ s.store.chainClosed = false
  · rw [if_pos (by simp [h])]
    by_cases ha : s.store.armed = true
    · rw [if_pos ha]
      by_cases hl : pathAhead s < s.params.lowWater
      · rw [if_pos hl, if_pos ⟨h.1, h.2, ha, hl⟩]
        rfl
      · rw [if_neg hl, if_neg fun hh => hl hh.2.2.2]
    · have hn : ¬(s.store.mode = .stream ∧ s.store.chainClosed = false ∧ s.store.armed = true ∧
          pathAhead s < s.params.lowWater) := fun hh => ha hh.2.2.1
      rw [if_neg ha, if_neg hn]
      split <;> rfl
  · rw [if_neg (by simpa using h), if_neg fun hh => h ⟨hh.1, hh.2.1⟩]

theorem lowWater_queues (s : State) :
    (lowWater s).link.requests = s.link.requests ∧ (lowWater s).link.marks = s.link.marks ∧
      ∃ rest, (lowWater s).link.notices = s.link.notices ++ rest := by
  rw [lowWater_link]
  split
  · obtain ⟨h1, h2, h3⟩ := queueNotice_link (.low (pathAhead s)) s
    refine ⟨h1, h2, ?_⟩
    rw [h3]
    split
    · exact ⟨_, rfl⟩
    · exact ⟨[], (List.append_nil _).symm⟩
  · exact ⟨rfl, rfl, [], (List.append_nil _).symm⟩

theorem lowWaterAfter_job (s : State) : lowWaterAfter s = if s.job.state.inJob then lowWater s else s := rfl

/-- R150: outside WARMUP there is no passage. -/
theorem warmupPassage_other {s : State} (h : s.job.state ≠ .warmup) : warmupPassage s = s := by
  unfold warmupPassage
  rw [if_neg]
  simp [h]

/-- R77: rest is reported only in HOLDING and STOPPING. -/
theorem reportRest_other {s : State} (h : s.job.state ≠ .holding) (h' : s.job.state ≠ .stopping) : reportRest s = s := by
  unfold reportRest
  split
  all_goals first | rfl | (next hj => first | exact absurd hj h | exact absurd hj h')

/-- R38: the path ahead, slot by slot. -/
theorem pathAhead_eq (s : State) :
    pathAhead s = (s.store.slots.map fun e =>
      if e.2.state = .active then
        if e.2.seg.kind.moving then (e.2.seg.length * 1000 - s.interp.p + 999) / 1000 else 0
      else e.2.seg.length).sum := by
  unfold pathAhead
  congr 2
  funext e
  cases e.2.state <;> rfl

/-- R38: outside STREAM mode, or with the chain closed, the evaluation does nothing. -/
theorem lowWater_none {s : State} (h : s.store.mode = .repeating ∨ s.store.chainClosed = true) : lowWater s = s := by
  unfold lowWater
  rcases h with h | h <;> simp [h]

/-! ## Start pivots -/

/-- R67: what a start pivot sets. -/
theorem startPivot_eq (s : State) :
    ∃ n k b, startPivot s = { s with interp := { s.interp with pivot := n, pivotNeg := k, startPending := b } } := by
  unfold startPivot
  split
  · exact ⟨_, s.interp.pivotNeg, _, rfl⟩
  · exact ⟨_, _, _, rfl⟩

/-- R67: it is begun to the first moving segment of any Store whose run holds the same records. -/
theorem startPivot_begins {s : State} {st : Store}
    (h : (st.runFrom 512 st.execPtr).map (fun e => e.2.seg.host) =
      (s.store.runFrom 512 s.store.execPtr).map fun e => e.2.seg.host) : (startPivot s).interp.inStartPivot st := by
  have hf : ∀ st : Store, ((st.runFrom 512 st.execPtr).find? fun e => e.2.seg.kind ≠ .pause).map
      (fun e => e.2.seg.entryHeading) =
      (((st.runFrom 512 st.execPtr).map fun e => e.2.seg.host).find? fun g => g.kind ≠ .pause).map
          Segment.entryHeading := by
    intro st
    rw [List.find?_map, Option.map_map]
    rfl
  have hm : ((s.store.runFrom 512 s.store.execPtr).find? fun e => e.2.seg.kind ≠ .pause).map
      (fun e => e.2.seg.entryHeading) = (firstMoving s.store).map Segment.entryHeading := by
    unfold firstMoving
    rw [Option.map_map]
    congr 2
    funext e
    cases e.2.seg.kind <;> rfl
  unfold Interp.inStartPivot
  dsimp only
  rw [hf st, h, ← hf s.store, hm]
  unfold startPivot
  cases firstMoving s.store with
  | none => exact ⟨rfl, rfl⟩
  | some g =>
    dsimp only [Option.map_some]
    rw [← turn_eq]
    exact ⟨rfl, rfl, rfl⟩

/-! ## Completion -/

theorem replan_slot_none {completed : Option Segment} {s : State} {i : Nat} (h : s.store.slot i = none) :
    (replan completed s).store.slot i = none := by
  rcases replan_slot completed s i with h' | ⟨sl, _, _, h', _⟩
  · rw [h', h]
  · rw [h] at h'
    cases h'

/-- R50: a PLANNED slot stays PLANNED under a replan, with its record but for what the Planner writes. -/
theorem replan_slot_planned {completed : Option Segment} {s : State} {i : Nat} {sl : Slot}
    (h : s.store.slot i = some sl) (hs : sl.state = .planned) :
    ∃ seg, (replan completed s).store.slot i = some ⟨.planned, seg⟩ ∧
      seg = { sl.seg with junction := seg.junction, entrySpeed := seg.entrySpeed, exitSpeed := seg.exitSpeed } := by
  rcases replan_slot completed s i with h' | ⟨sl', leg, sp, h1, h2⟩
  · refine ⟨sl.seg, ?_, rfl⟩
    rw [h', h, ← hs]
  · rw [h] at h1
    cases h1
    refine ⟨(plannedSlot sl leg sp).seg, ?_, plannedSlot_seg sl leg sp⟩
    have hst := plannedSlot_state sl leg sp
    rw [hs, if_neg (by decide)] at hst
    rw [h2, ← hst]

/-- R36: what the GO rule does. -/
theorem goMarkRule_eq (s : State) :
    goMarkRule s =
      if min s.params.flowGo s.store.size ≤ s.store.free ∧ s.store.flowHeld = true then
        { s with
          store := { s.store with flowHeld := false }
          link := { s.link with marks := s.link.marks ++ [.go] } }
      else s := by
  unfold goMarkRule openFlow
  by_cases h1 : min s.params.flowGo s.store.size ≤ s.store.free
  · rw [if_pos h1]
    by_cases h2 : s.store.flowHeld = true
    · rw [if_pos h2, if_pos ⟨h1, h2⟩]
      rfl
    · rw [if_neg h2, if_neg fun h => h2 h.2]
  · rw [if_neg h1, if_neg fun h => h1 h.1]

/-- R30, R36: the flow state after a completion. -/
def completedFlow (s : State) : Bool :=
  s.store.flowHeld && !(s.store.mode = .stream && decide (min s.params.flowGo s.store.size ≤ s.store.complete.free))

theorem complete_mode (st : Store) : st.complete.mode = st.mode := by
  unfold Store.complete
  split <;> next h => exact h.symm ▸ rfl

theorem complete_size (st : Store) : st.complete.size = st.size := by
  unfold Store.complete
  split <;> rfl

theorem complete_flowHeld (st : Store) : st.complete.flowHeld = st.flowHeld := by
  unfold Store.complete
  split <;> rfl

/-- R30, R36, R55: what the completion of the active segment does to the Store and the Link. -/
theorem storeCompletion_eq (seg : Segment) (s : State) :
    (storeCompletion seg s).store =
        { s.store.complete with
          flowHeld := completedFlow s
          slots := (storeCompletion seg s).store.slots } ∧
      (storeCompletion seg s).link =
        { s.link with marks := if s.store.flowHeld && !completedFlow s then s.link.marks ++ [.go] else s.link.marks } ∧
      ∃ u, storeCompletion seg s = replan (some seg) u ∧ u.store.slots = s.store.complete.slots := by
  have hmode : (s.mapStore Store.complete).store.mode = s.store.mode := complete_mode _
  have hflow : s.store.complete.flowHeld = s.store.flowHeld := complete_flowHeld _
  have hl : ∀ u, (replan (some seg) u).link = u.link := fun u => replan_keeps (some seg) u .link (by decide)
  by_cases h : s.store.mode = .stream ∧ min s.params.flowGo s.store.size ≤ s.store.complete.free ∧ s.store.flowHeld = true
  · have hc : completedFlow s = false := by
      unfold completedFlow
      simp [h]
    have he : storeCompletion seg s = replan (some seg)
        { s.mapStore Store.complete with
          store := { s.store.complete with flowHeld := false }
          link := { s.link with marks := s.link.marks ++ [.go] } } := by
      unfold storeCompletion
      dsimp only
      rw [hmode, if_pos h.1, goMarkRule_eq, mapStore_params, mapStore_store, complete_size, hflow, if_pos h.2]
      rfl
    rw [hc, h.2.2]
    refine ⟨?_, ?_, _, he, rfl⟩
    · rw [he]
      exact replan_store _ _
    · rw [he, hl]
      rfl
  · have hc : completedFlow s = s.store.flowHeld := by
      unfold completedFlow
      cases hf : s.store.flowHeld
      · rfl
      · by_cases hm : s.store.mode = .stream
        · have hn : ¬min s.params.flowGo s.store.size ≤ s.store.complete.free := fun hh => h ⟨hm, hh, hf⟩
          simp [hn]
        · simp [hm]
    have he : storeCompletion seg s = replan (some seg) (s.mapStore Store.complete) := by
      unfold storeCompletion
      dsimp only
      rw [hmode, goMarkRule_eq, mapStore_params, mapStore_store, complete_size, hflow]
      split
      · next hm => rw [if_neg fun hh => h ⟨hm, hh⟩]
      · rfl
    rw [hc, ← hflow]
    refine ⟨?_, ?_, _, he, rfl⟩
    · rw [he]
      exact replan_store _ _
    · rw [he, hl]
      cases s.store.complete.flowHeld <;> rfl

/-- R30: the slots after a completion. -/
theorem complete_slot (st : Store) (i : Nat) :
    st.complete.slot i =
      if st.execPtr = i then (match st.mode with | .stream => none | .repeating => (st.slot i).map requeue)
      else st.slot i := by
  unfold Store.complete Store.slot
  cases hm : st.mode
  · dsimp only
    rw [slotAt_slotDrop]
  · dsimp only
    cases hs : slotAt st.slots st.execPtr with
    | none =>
      dsimp only
      split
      · next h => rw [← h, hs]; rfl
      · rfl
    | some sl =>
      dsimp only
      rw [slotAt_slotPut]
      split
      · next h => rw [← h, hs]; rfl
      · rfl

/-- R30, R64: what the report of a completion leaves beside the slots and the plan. -/
theorem reportCompletion_eq (seg : Segment) (s : State) :
    (reportCompletion seg s).job = s.job.count seg ∧
      (reportCompletion seg s).interp = { s.interp with active := none, p := 0 } ∧
      (reportCompletion seg s).store =
        { s.store.complete with flowHeld := completedFlow s, slots := (reportCompletion seg s).store.slots } ∧
      (reportCompletion seg s).link =
        { s.link with marks := if s.store.flowHeld && !completedFlow s then s.link.marks ++ [.go] else s.link.marks }
            := by
  obtain ⟨h1, h2, _⟩ := storeCompletion_eq seg (s.mapJob (Job.count seg))
  have hk := storeCompletion_keeps seg (s.mapJob (Job.count seg))
  refine ⟨hk .job (by decide), ?_, h1, h2⟩
  show ({ (storeCompletion seg (s.mapJob (Job.count seg))).interp with active := none, p := 0 } : Interp) = _
  rw [hk .interp (by decide)]
  rfl

/-- R30: the slots after the report are those of the completion, replanned. -/
theorem reportCompletion_slots (seg : Segment) (s : State) :
    ∃ u, u.store.slots = s.store.complete.slots ∧ ∀ i, (reportCompletion seg s).store.slot i = (replan (some seg)
        u).store.slot i := by
  obtain ⟨_, _, u, h1, h2⟩ := storeCompletion_eq seg (s.mapJob (Job.count seg))
  refine ⟨u, h2, fun i => ?_⟩
  rw [← h1]
  rfl

theorem reportCompletion_slot_none {seg : Segment} {s : State} {i : Nat} (h : s.store.complete.slot i = none) :
    (reportCompletion seg s).store.slot i = none := by
  obtain ⟨u, h1, h2⟩ := reportCompletion_slots seg s
  rw [h2]
  refine replan_slot_none ?_
  unfold Store.slot
  rw [h1]
  exact h

theorem reportCompletion_slot_planned {seg : Segment} {s : State} {i : Nat} {sl : Slot}
    (h : s.store.complete.slot i = some sl) (hs : sl.state = .planned) :
    ∃ nx, (reportCompletion seg s).store.slot i = some ⟨.planned, nx⟩ ∧
      nx = { sl.seg with junction := nx.junction, entrySpeed := nx.entrySpeed, exitSpeed := nx.exitSpeed } := by
  obtain ⟨u, h1, h2⟩ := reportCompletion_slots seg s
  rw [h2]
  refine replan_slot_planned ?_ hs
  unfold Store.slot
  rw [h1]
  exact h

theorem reportCompletion_execPtr (seg : Segment) (s : State) :
    (reportCompletion seg s).store.execPtr = s.store.complete.execPtr ∧
      (reportCompletion seg s).store.mode = s.store.mode := by
  rw [(reportCompletion_eq seg s).2.2.1]
  exact ⟨rfl, complete_mode _⟩

/-! ## What follows a completion -/

/-- R72: after the segment that carries LAST the job ends. -/
theorem completeSegment_chainEnd {n past : Nat} {seg : Segment} {s : State} (hj : s.job.state ≠ .stopping)
    (hm : s.store.mode = .stream) (hl : seg.last = true) :
    completeSegment (n + 1) seg past s = endJob (takeFeedAsZero (reportCompletion seg s)) := by
  have hs : ¬(reportCompletion seg s).job.state = .stopping := by
    rw [(reportCompletion_eq seg s).1]
    exact hj
  unfold completeSegment
  dsimp only
  unfold afterEnd
  rw [(reportCompletion_execPtr seg s).2, hm, hl, if_pos (by simp)]
  dsimp only
  rw [if_neg (by simpa using hs)]

/-- R73: after the fill end the pass ends. -/
theorem completeSegment_passEnd {n past : Nat} {seg : Segment} {s : State} (hj : s.job.state ≠ .stopping)
    (hm : s.store.mode = .repeating) (hf : s.store.execPtr + 1 = s.store.writePtr) :
    completeSegment (n + 1) seg past s = endPass seg (takeFeedAsZero (reportCompletion seg s)) := by
  have hs : ¬(reportCompletion seg s).job.state = .stopping := by
    rw [(reportCompletion_eq seg s).1]
    exact hj
  have ha : atFillEnd s = true := by
    unfold atFillEnd
    simp [hm, hf]
  unfold completeSegment
  dsimp only
  unfold afterEnd
  rw [(reportCompletion_execPtr seg s).2, hm, ha, if_neg (by simp), if_pos rfl]
  dsimp only
  rw [if_neg (by simpa using hs)]

/-- The completed segment ends neither the chain nor the pass (R64). -/
def pathGoesOn (seg : Segment) (st : Store) : Prop :=
  match st.mode with
  | .stream => seg.last = false
  | .repeating => st.execPtr + 1 ≠ st.writePtr

theorem afterEnd_goesOn {seg : Segment} {s u : State} (h : pathGoesOn seg s.store) (hm : u.store.mode = s.store.mode) :
    afterEnd seg (atFillEnd s) u =
      match nextPlanned u with
      | none => .frontier
      | some next => if (next.junction.map JunctionClass.carries).getD false then .carry next else .fromRest next := by
  unfold pathGoesOn at h
  unfold afterEnd
  rw [hm]
  cases hs : s.store.mode
  · rw [hs] at h
    have hl : seg.last = false := h
    have ha : atFillEnd s = false := by
      unfold atFillEnd
      simp [hs]
    rw [hl, ha]
    rfl
  · rw [hs] at h
    have hl : s.store.execPtr + 1 ≠ s.store.writePtr := h
    have ha : atFillEnd s = false := by
      unfold atFillEnd
      simp [hl]
    rw [ha]
    rfl

/-- R71: with no slot after it, the completion is arrival at the frontier. -/
theorem completeSegment_frontier {n past : Nat} {seg : Segment} {s : State} (hj : s.job.state ≠ .stopping)
    (hg : pathGoesOn seg s.store) (hn : s.store.complete.slot s.store.complete.execPtr = none) :
    completeSegment (n + 1) seg past s = frontierArrival (standAtFrontier (reportCompletion seg s)) := by
  have hs : ¬(reportCompletion seg s).job.state = .stopping := by
    rw [(reportCompletion_eq seg s).1]
    exact hj
  have hp : nextPlanned (reportCompletion seg s) = none := by
    unfold nextPlanned
    rw [(reportCompletion_execPtr seg s).1, reportCompletion_slot_none hn]
  unfold completeSegment
  dsimp only
  rw [afterEnd_goesOn hg (reportCompletion_execPtr seg s).2, hp]
  dsimp only
  rw [if_neg (by simpa using hs)]

/-- R64, R65: with a PLANNED slot after it, that slot is taken: with the overshoot carried at a SMOOTH or BLEND junction,
from rest at any other. -/
theorem completeSegment_takes {n past : Nat} {seg : Segment} {s : State} {nx : Slot} (hj : s.job.state ≠ .stopping)
    (hg : pathGoesOn seg s.store) (hn : s.store.complete.slot s.store.complete.execPtr = some nx)
    (hp : nx.state = .planned) :
    ∃ next : Segment,
      (reportCompletion seg s).store.slot s.store.complete.execPtr = some ⟨.planned, next⟩ ∧
      next = { nx.seg with junction := next.junction, entrySpeed := next.entrySpeed, exitSpeed := next.exitSpeed } ∧
      completeSegment (n + 1) seg past s =
        if (next.junction.map JunctionClass.carries).getD false then
          let u := takeSegment s.store.complete.execPtr next past (reportCompletion seg s)
          if next.length * 1000 ≤ past then completeSegment n next (past - next.length * 1000) (snapToEnd next u)
          else targetSegment next u
        else takeSegment s.store.complete.execPtr next 0 (takeFeedAsZero (reportCompletion seg s)) := by
  obtain ⟨next, h1, h2⟩ := reportCompletion_slot_planned (seg := seg) hn hp
  refine ⟨next, h1, h2, ?_⟩
  have hs : ¬(reportCompletion seg s).job.state = .stopping := by
    rw [(reportCompletion_eq seg s).1]
    exact hj
  have hq : nextPlanned (reportCompletion seg s) = some next := by
    unfold nextPlanned
    rw [(reportCompletion_execPtr seg s).1, h1]
    rfl
  have he : (takeFeedAsZero (reportCompletion seg s)).store.execPtr = s.store.complete.execPtr :=
    (reportCompletion_execPtr seg s).1
  conv_lhs => unfold completeSegment
  dsimp only
  rw [afterEnd_goesOn hg (reportCompletion_execPtr seg s).2, hq]
  dsimp only
  by_cases hc : (next.junction.map JunctionClass.carries).getD false = true
  · rw [if_pos hc, if_pos hc]
    dsimp only
    rw [(reportCompletion_execPtr seg s).1]
  · rw [if_neg hc, if_neg hc]
    dsimp only
    rw [if_neg (by simpa using hs), (reportCompletion_execPtr seg s).1]

/-! ## The frontier, the end of a job and the end of a pass -/

/-- R71, R154: arrival at the frontier in CUTTING. -/
theorem frontierArrival_cutting {s : State} (h : s.job.state = .cutting) :
    frontierArrival s = becomeStarved (idleRequest s) := by
  unfold frontierArrival
  rw [h]

/-- R152: arrival at the frontier in HOLDING with the held flag clear. -/
theorem frontierArrival_holding {s : State} (h : s.job.state = .holding) (hh : s.job.held = false) :
    frontierArrival s = setHeld s := by
  unfold frontierArrival
  rw [h]
  dsimp only
  rw [if_neg (by rw [hh]; decide)]

/-- R153, R154: what becoming STARVED leaves. -/
theorem becomeStarved_eq (s : State) :
    (becomeStarved s).job = { s.job with state := .starved, held := false, dwell := some 0 } ∧
      (becomeStarved s).link = (queueNotice (.starved s.job.lastCompleted s.job.passesDone) s).link ∧
      Keeps [.job, .link] s (becomeStarved s) :=
  ⟨rfl, queueNotice_link_congr rfl, (queueNotice_keeps _ _).after (mapJob_keeps _ s).mono⟩

/-- R100, R152: what the setting of the held flag leaves. -/
theorem setHeld_eq (s : State) :
    (setHeld s).job = { s.job with held := true } ∧ (setHeld s).stroke = s.stroke.toIdle s.params.startDuty ∧
      (setHeld s).link = (queueNotice (.held (activeNumber s) s.interp.p) s).link ∧
      Keeps [.job, .stroke, .load, .link] s (setHeld s) := by
  refine ⟨rfl, rfl, queueNotice_link_congr rfl, ?_⟩
  unfold setHeld
  exact (queueNotice_keeps _ _).after ((idleRequest_keeps _).after (mapJob_keeps _ s).mono)

/-- R32, R156: what the end of a job leaves in each part. -/
theorem endJob_eq (s : State) :
    (endJob s).job =
        { s.job with
          state := .idle
          held := false
          passesDone := if s.job.mode = .stream then 1 else s.job.passesDone } ∧
      (endJob s).stroke = s.stroke.toCoast ∧ (endJob s).interp = { s.interp with timer := none } ∧
      (endJob s).gov = s.gov ∧ (endJob s).axes = s.axes ∧
      (endJob s).store =
        (match s.store.mode with
        | .stream =>
          { s.store.clearChain with
            slots := [], writePtr := s.store.winBegin, execPtr := s.store.winBegin, armed := false, flowHeld := false }
        | .repeating => { s.store with slots := slotMap requeue s.store.slots }) ∧
      (s.link.notices.length < 16 → (endJob s).link.notices =
        s.link.notices ++ [.done s.job.executed (if s.job.mode = .stream then 1 else s.job.passesDone)]) := by
  have hj : ∀ j : Job, (if j.mode = .stream then { j with passesDone := 1 } else j) =
      { j with passesDone := if j.mode = .stream then 1 else j.passesDone } := by
    intro j
    split <;> rfl
  unfold endJob
  extract_lets s1 s2 s3 s4
  have h1 : s1.job = { s.job with passesDone := if s.job.mode = .stream then 1 else s.job.passesDone } := hj s.job
  have kc : Keeps [.stroke, .load] s1 (coastRequest s1) := (coastRequest_keeps s1).mono
  have ks : Keeps [.store, .link] (coastRequest s1) s2 := (storeJobEnd_keeps _).mono
  have h2 : s2.job = s1.job := (ks .job (by decide)).trans (kc .job (by decide))
  have hq := queueNotice_keeps (.done s4.job.executed s4.job.passesDone) s4
  have hs : s2.store =
      (match s.store.mode with
      | .stream =>
        { s.store.clearChain with
          slots := [], writePtr := s.store.winBegin, execPtr := s.store.winBegin, armed := false, flowHeld := false }
      | .repeating => { s.store with slots := slotMap requeue s.store.slots }) := by
    show (storeJobEnd (coastRequest s1)).store = _
    unfold storeJobEnd
    rw [show (coastRequest s1).store = s.store from rfl]
    cases s.store.mode
    · dsimp only
      unfold emptyWindow openFlow
      split
      · rfl
      · next hf =>
        have hb : s.store.flowHeld = false := Bool.not_eq_true _ |>.mp hf
        rw [← hb]
        rfl
    · rfl
  have hn : s2.link.notices = s.link.notices := by
    show (storeJobEnd (coastRequest s1)).link.notices = _
    unfold storeJobEnd emptyWindow openFlow
    split
    · split <;> rfl
    · rfl
  have h4 : s4.job =
      { s.job with
        state := .idle
        held := false
        passesDone := if s.job.mode = .stream then 1 else s.job.passesDone } := by
    show ({ s2.job with held := false, state := .idle } : Job) = _
    rw [h2, h1]
  refine ⟨?_, ?_, ?_, ?_, ?_, ?_, fun hl => ?_⟩
  · rw [show (queueNotice _ _).job = _ from hq .job (by decide), h4]
  · rw [show (queueNotice _ _).stroke = _ from hq .stroke (by decide)]
    exact ks .stroke (by decide)
  · rw [show (queueNotice _ _).interp = _ from hq .interp (by decide)]
    exact congrArg (fun n : Interp => { n with timer := none })
      ((ks .interp (by decide)).trans (kc .interp (by decide)))
  · rw [show (queueNotice _ _).gov = _ from hq .gov (by decide)]
    exact (ks .gov (by decide)).trans (kc .gov (by decide))
  · rw [show (queueNotice _ _).axes = _ from hq .axes (by decide)]
    exact (ks .axes (by decide)).trans (kc .axes (by decide))
  · rw [show (queueNotice _ _).store = _ from hq .store (by decide)]
    exact hs
  · rw [(queueNotice_link _ s4).2.2, show s4.link.notices = s.link.notices from hn, if_pos hl, h4]

/-! ## The end of the active segment -/

/-- R64, R68: the Interpolator as the active segment ends: a moving segment at its end, snapped, a PAUSE run out. -/
def atSegmentEnd (seg : Segment) (s : State) : State :=
  if seg.kind.moving then snapToEnd seg (s.mapInterp fun n => { n with p := n.p + s.gov.v })
  else s.mapInterp fun n => { n with pause := n.pause - 1 }

/-- R60, R64, R68: the end of the active segment, in a job that counts its pauses down. -/
theorem motionAndEnds_end {s : State} {seg : Segment} {past : Nat} (ha : activeSegment s = some seg)
    (hp : s.interp.pivot = 0) (hj : s.job.state = .cutting ∨ (s.job.state = .holding ∧ s.job.held = false))
    (he : if seg.kind.moving then s.interp.p + s.gov.v = seg.length * 1000 + past else s.interp.pause ≤ 1 ∧ past = 0) :
    motionAndEnds s = completeSegment (carryFuel past) seg past (atSegmentEnd seg s) := by
  unfold motionAndEnds
  rw [if_neg (by omega), ha]
  dsimp only
  by_cases hm : seg.kind.moving = true
  · rw [if_pos hm] at he
    have e : s.interp.p + s.gov.v - seg.length * 1000 = past := by omega
    have hle : seg.length * 1000 ≤ s.interp.p + s.gov.v := by omega
    rw [if_pos hm]
    unfold advanceSegment atSegmentEnd
    dsimp only
    refine (if_pos hle).trans ?_
    rw [if_pos hm, ← e]
    rfl
  · rw [if_neg hm] at he
    obtain ⟨h1, h2⟩ := he
    have e : s.interp.pause - 1 = 0 := by omega
    rw [if_neg hm]
    unfold countPause atSegmentEnd
    dsimp only
    rw [if_neg (by rcases hj with hj | hj <;> simp [hj]), if_pos (by rcases hj with hj | hj <;> simp [hj])]
    refine (if_pos e).trans ?_
    rw [if_neg hm, h2]

/-- The end of a segment touches the Interpolator and nothing else. -/
theorem atSegmentEnd_eq (seg : Segment) (s : State) :
    atSegmentEnd seg s = { s with interp := (atSegmentEnd seg s).interp } := by
  unfold atSegmentEnd
  split <;> rfl

/-- R64, R68: where the head stands at the end. -/
theorem atSegmentEnd_interp (seg : Segment) (s : State) :
    (atSegmentEnd seg s).interp =
      { s.interp with
        p := (atSegmentEnd seg s).interp.p
        pause := (atSegmentEnd seg s).interp.pause
        targetX := if seg.kind.moving then (seg.stopAt.shift (passShift s)).x else s.interp.targetX
        targetY := if seg.kind.moving then (seg.stopAt.shift (passShift s)).y else s.interp.targetY
        targetC := if seg.kind.moving then seg.exitHeading else s.interp.targetC } := by
  unfold atSegmentEnd
  split <;> rfl

/-! ## Taking a segment -/

theorem junctionAction_pass (seg : Segment) (s : State) : (junctionAction seg s).interp.pass = s.interp.pass := by
  unfold junctionAction
  split
  · rfl
  · split <;> rfl

theorem takeSegment_store (i : Nat) (seg : Segment) (p : Nat) (s : State) :
    (takeSegment i seg p s).store = s.store.activate i seg := by
  unfold takeSegment
  rw [show (tagNotice _ _).store = _ from (tagNotice_keeps _ _) .store (by decide),
    show (junctionAction _ _).store = _ from (junctionAction_keeps _ _) .store (by decide)]
  rfl

/-- R61: the Interpolator after a taking is as the junction makes it. -/
theorem takeSegment_interp (i : Nat) (seg : Segment) (p : Nat) (s : State) :
    (takeSegment i seg p s).interp =
      (junctionAction seg (s.mapInterp fun n => { n with active := some i, p := p })).interp := by
  unfold takeSegment
  rw [show (tagNotice _ _).interp = _ from (tagNotice_keeps _ _) .interp (by decide)]
  unfold junctionAction
  split
  · rfl
  · split <;> rfl

/-- R61: a taking queues TAG for a tagged segment and leaves the rest of the Link. -/
theorem takeSegment_link (i : Nat) (seg : Segment) (p : Nat) (s : State) :
    (takeSegment i seg p s).link =
      match seg.tag with
      | none => s.link
      | some g => (queueNotice (.tag g seg.number s.interp.pass) s).link := by
  have hj : ∀ u, (junctionAction seg u).link = u.link := fun u => junctionAction_keeps seg u .link (by decide)
  unfold takeSegment tagNotice
  dsimp only
  cases seg.tag with
  | none => exact hj _
  | some g =>
    dsimp only
    rw [junctionAction_pass]
    exact queueNotice_link_congr (hj _)

theorem takeSegment_queues (i : Nat) (seg : Segment) (p : Nat) (s : State) :
    (takeSegment i seg p s).link.marks = s.link.marks ∧ (takeSegment i seg p s).link.requests = s.link.requests ∧
      ∀ g, seg.tag = some g → s.link.notices.length < 16 →
        (takeSegment i seg p s).link.notices = s.link.notices ++ [.tag g seg.number s.interp.pass] := by
  rw [takeSegment_link]
  cases h : seg.tag with
  | none => exact ⟨rfl, rfl, nofun⟩
  | some g =>
    dsimp only
    obtain ⟨h1, h2, h3⟩ := queueNotice_link (.tag g seg.number s.interp.pass) s
    refine ⟨h2, h1, fun g' hg hn => ?_⟩
    cases hg
    rw [h3, if_pos hn]

/-! ## The whole expiry -/

/-- The state in which the motion of an expiry is made, when nothing is taken at its opening (R60). -/
def atEvaluation (s : State) : State :=
  { s with
    axes := s.axes.each AxisState.issueRest
    interp := { s.interp with timer := some 0 }
    gov := (evaluateGovernor s).gov }

/-- The reports that end an expiry (R38, R77, R150). -/
def expiryTail (s : State) : State :=
  warmupPassage (lowWaterAfter (reportRest s))

/-- R60: an expiry at whose opening nothing is taken. -/
theorem interpolationExpiry_eq {s : State} (h : s.job.state ≠ .cutting ∨ s.interp.active.isSome = true ∨
    s.interp.link.isSome = true ∨ s.interp.pivot ≠ 0) :
    interpolationExpiry s = expiryTail (handInterpTargets (motionAndEnds (atEvaluation s))) := by
  unfold interpolationExpiry expiryTail
  rw [openingTake_none (s := beginPeriod s) h, evaluated_eq]
  rfl

theorem exec_expiry {s : State} (ht : s.interp.timer.isSome = true) (h : s.job.state ≠ .cutting ∨
    s.interp.active.isSome = true ∨ s.interp.link.isSome = true ∨ s.interp.pivot ≠ 0) :
    exec .interpolationPeriodExpiry s = .next (expiryTail (handInterpTargets (motionAndEnds (atEvaluation s)))) := by
  rw [← interpolationExpiry_eq h]
  show Host.Outcome.next (if s.interp.timer.isSome then _ else _) = _
  rw [if_pos ht]

/-- R64, R68: the expiry that ends the active segment. -/
theorem exec_segmentEnd {i past : Nat} {sl : Slot} {s : State} (ht : s.interp.timer.isSome = true)
    (hj : s.job.state = .cutting ∨ (s.job.state = .holding ∧ s.job.held = false)) (ha : s.interp.active = some i)
    (hs : s.store.slot i = some sl) (hp : s.interp.pivot = 0) (he : s.atEndOf sl.seg past) :
    exec .interpolationPeriodExpiry s = .next (expiryTail (handInterpTargets
      (completeSegment (past / 1000 + 1 + 1) sl.seg past (atSegmentEnd sl.seg (atEvaluation s))))) := by
  have hseg : activeSegment (atEvaluation s) = some sl.seg := by
    unfold activeSegment
    rw [show (atEvaluation s).interp.active = some i from ha]
    dsimp only
    rw [show (atEvaluation s).store.slot i = some sl from hs]
    rfl
  rw [exec_expiry ht (.inr (.inl (by rw [ha]; rfl))), motionAndEnds_end (past := past) hseg hp hj he]
  rfl

/-- In CUTTING and STARVED the low-water evaluation ends the expiry. -/
theorem expiryTail_running {s : State} (h : s.job.state = .cutting ∨ s.job.state = .starved) :
    expiryTail s = lowWater s := by
  unfold expiryTail
  rw [reportRest_other (by rcases h with h | h <;> rw [h] <;> decide) (by rcases h with h | h <;> rw [h] <;> decide),
    lowWaterAfter_job, if_pos (by rcases h with h | h <;> rw [h] <;> rfl), warmupPassage_other]
  rw [show (lowWater s).job = s.job from lowWater_keeps s .job (by decide)]
  rcases h with h | h <;> rw [h] <;> decide

/-- Once the job is over nothing follows. -/
theorem expiryTail_ended {s : State} (h : s.job.state = .idle ∨ s.job.state = .fault) : expiryTail s = s := by
  unfold expiryTail
  rw [reportRest_other (by rcases h with h | h <;> rw [h] <;> decide) (by rcases h with h | h <;> rw [h] <;> decide),
    lowWaterAfter_job, if_neg (by rcases h with h | h <;> rw [h] <;> decide),
    warmupPassage_other (by rcases h with h | h <;> rw [h] <;> decide)]

/-- Outside STOPPING the reports of an expiry move nothing: they touch the job, the blade,
    the low-water flag and the Link. -/
theorem expiryTail_keeps {s : State} (h : s.job.state ≠ .stopping) :
    Keeps [.job, .stroke, .load, .store, .link] s (expiryTail s) := by
  have h1 : Keeps [.job, .stroke, .load, .link] s (reportRest s) := by
    unfold reportRest
    split
    all_goals first
      | exact .refl _ s
      | (next hj => exact absurd hj h)
      | exact .ite (setHeld_keeps s) (.refl _ s)
  have h2 : Keeps [.store, .link] (reportRest s) (lowWaterAfter (reportRest s)) :=
    .ite (lowWater_keeps _) (.refl _ _)
  unfold expiryTail
  exact (warmupPassage_keeps _).after (h2.after h1.mono)

/-- R38, R77, R150, R152: the reports that end an expiry outside STOPPING, of a state that has kept the job, the blade,
the Load Monitor, the Store, the Link and the active segment. -/
theorem expiryTail_stood {s u : State} (hj : s.job.state = .warmup ∨ s.job.state = .cutting ∨ s.job.state = .holding)
    (k : Keeps [.axes, .interp, .gov] s u) (ha : u.interp.active = s.interp.active) : s.stoodIn (expiryTail u) := by
  have ej : u.job = s.job := k .job (by decide)
  have ek : u.stroke = s.stroke := k .stroke (by decide)
  have el : u.load = s.load := k .load (by decide)
  have es : u.store = s.store := k .store (by decide)
  have ei : u.link = s.link := k .link (by decide)
  have kt := expiryTail_keeps (s := u) (by rw [ej]; rcases hj with h | h | h <;> rw [h] <;> decide)
  have hg : (expiryTail u).gov = u.gov := kt .gov (by decide)
  have hn : (expiryTail u).interp = u.interp := kt .interp (by decide)
  have hlow : ∀ x : State, (lowWater x).store = { x.store with armed := (lowWater x).store.armed } := fun x => by
    rw [lowWater_store]
  unfold State.stoodIn
  rw [hg, hn]
  by_cases hr : u.job.state = .holding ∧ u.job.held = false ∧ u.gov.v = 0 ∧ u.interp.pivot = 0
  · have hrest : reportRest u = setHeld u := by
      unfold reportRest
      rw [hr.1]
      dsimp only
      rw [if_pos (by simp [hr.2.1, hr.2.2.1, hr.2.2.2])]
    obtain ⟨h1, h2, h3, h4⟩ := setHeld_eq u
    have hst : (setHeld u).store = s.store := (h4 .store (by decide)).trans es
    have he : expiryTail u = lowWater (setHeld u) := by
      unfold expiryTail
      rw [hrest, lowWaterAfter_job, if_pos (by rw [h1]; show u.job.state.inJob = true; rw [hr.1]; rfl),
        warmupPassage_other (by
          rw [show (lowWater (setHeld u)).job = _ from lowWater_keeps _ .job (by decide), h1]
          show u.job.state ≠ _
          rw [hr.1]
          decide)]
    have kl := lowWater_keeps (setHeld u)
    obtain ⟨q1, q2, rest, q3⟩ := lowWater_queues (setHeld u)
    obtain ⟨n1, n2, n3⟩ := queueNotice_link (.held (activeNumber u) u.interp.p) u
    have hnum : activeNumber u = s.interp.active.bind fun i => (s.store.slot i).map fun sl => (sl.seg.number, i) := by
      unfold activeNumber
      rw [ha, es]
      cases s.interp.active <;> rfl
    rw [ej] at hr h1
    have hb : (expiryTail u).stroke = s.stroke.toIdle s.params.startDuty := by
      rw [he, show (lowWater (setHeld u)).stroke = _ from kl .stroke (by decide), h2, ek,
        show u.params = s.params from k .params (by decide)]
    refine ⟨?_, ?_, ?_, fun _ hl => ⟨rest, ?_⟩, ?_, ?_, ?_⟩
    · rw [if_pos hr, he, show (lowWater (setHeld u)).job = _ from kl .job (by decide), h1]
    · rw [if_pos hr, hb]
    · rw [hb, he, show (lowWater (setHeld u)).load = _ from kl .load (by decide)]
      show (strokeTo _ _).load = _
      rw [strokeTo_load]
      show u.load.told u.stroke.state (u.stroke.toIdle u.params.startDuty).state = _
      rw [el, ek, show u.params = s.params from k .params (by decide)]
    · rw [he, q3, h3, n3, if_pos (by rw [ei]; exact hl), ei, hnum, List.append_assoc]
      rfl
    · rw [he, hlow, hst]
    · rw [he, q1, h3, n1, ei]
    · rw [he, q2, h3, n2, ei]
  · have hrest : reportRest u = u := by
      unfold reportRest
      split
      all_goals first
        | rfl
        | (next hh =>
            first
            | (exfalso
               rw [ej] at hh
               rcases hj with h | h | h <;> rw [h] at hh <;> cases hh
               done)
            | (rw [if_neg]
               intro hc
               simp only [Bool.and_eq_true, Bool.not_eq_true', decide_eq_true_eq] at hc
               exact hr ⟨hh, hc.1.1, hc.1.2, hc.2⟩))
    have hin : u.job.state.inJob = true := by
      rw [ej]
      rcases hj with h | h | h <;> rw [h] <;> rfl
    have he : expiryTail u = warmupPassage (lowWater u) := by
      unfold expiryTail
      rw [hrest, lowWaterAfter_job, if_pos hin]
    have kl := lowWater_keeps u
    have kw := warmupPassage_keeps (lowWater u)
    obtain ⟨q1, q2, -⟩ := lowWater_queues u
    have ej' : (lowWater u).job = s.job := (kl .job (by decide)).trans ej
    have ek' : (lowWater u).stroke = s.stroke := (kl .stroke (by decide)).trans ek
    have en' : (lowWater u).interp = u.interp := kl .interp (by decide)
    rw [ej] at hr
    have hb : (expiryTail u).stroke = s.stroke := by
      rw [he]
      exact (kw .stroke (by decide)).trans ek'
    refine ⟨?_, ?_, ?_, fun h => absurd h hr, ?_, ?_, ?_⟩
    · rw [if_neg hr, he]
      unfold warmupPassage
      rw [ej', ek', en']
      by_cases hp : s.job.state = .warmup ∧ s.stroke.state = .run ∧ u.interp.startPending = false
      · rw [if_pos (by simp [hp]), if_pos hp]
        show ({ (lowWater u).job with state := .cutting } : Job) = _
        rw [ej']
      · rw [if_neg (by simpa [and_assoc] using hp), if_neg hp, ej']
    · rw [if_neg hr, hb]
    · rw [hb, told_same, he]
      exact (kw .load (by decide)).trans ((kl .load (by decide)).trans el)
    · rw [he, show (warmupPassage (lowWater u)).store = _ from kw .store (by decide), hlow, es]
    · rw [he, show (warmupPassage (lowWater u)).link = _ from kw .link (by decide), q1, ei]
    · rw [he, show (warmupPassage (lowWater u)).link = _ from kw .link (by decide), q2, ei]

/-- R60, step 5. -/
theorem handInterpTargets_eq (s : State) :
    handInterpTargets s =
      { s with axes := handTargets s.params s.interp.targetX s.interp.targetY s.interp.targetC s.axes } := rfl

end Sys2Proof.Machine
end

