-- ==== Sys2Proof/Laws/Words.lean ====
section
/-! SUPPORT. The fields of the line: writing a field and reading it back gives the field. -/

namespace Sys2Proof.Machine

set_option Elab.async false

theorem getLsbD_rd16 (b0 b1 : Byte) (i : Nat) :
    (rd16 b0 b1).getLsbD i = if i < 8 then b0.getLsbD i else b1.getLsbD (i - 8) := by
  rw [show (rd16 b0 b1).getLsbD i = _ from BitVec.getLsbD_append (x := b1) (y := b0) (i := i)]

theorem getLsbD_rd32 (b0 b1 b2 b3 : Byte) (i : Nat) :
    (rd32 b0 b1 b2 b3).getLsbD i =
      if i < 8 then b0.getLsbD i
      else if i < 16 then b1.getLsbD (i - 8)
      else if i < 24 then b2.getLsbD (i - 16)
      else b3.getLsbD (i - 24) := by
  have h : (rd32 b0 b1 b2 b3).getLsbD i =
      if i < 8 then b0.getLsbD i else
        if i - 8 < 8 then b1.getLsbD (i - 8) else
          if i - 8 - 8 < 8 then b2.getLsbD (i - 8 - 8) else b3.getLsbD (i - 8 - 8 - 8) := by
    unfold rd32
    rw [show (b3 ++ b2 ++ b1 ++ b0).getLsbD i = _ from BitVec.getLsbD_append]
    split
    · rfl
    · rw [show (b3 ++ b2 ++ b1).getLsbD (i - 8) = _ from BitVec.getLsbD_append]
      split
      · rfl
      · rw [show (b3 ++ b2).getLsbD (i - 8 - 8) = _ from BitVec.getLsbD_append]
  rw [h]
  split
  · rfl
  · simp only [show i - 8 < 8 ↔ i < 16 by omega, show i - 8 - 8 = i - 16 by omega,
      show i - 16 < 8 ↔ i < 24 by omega, show i - 16 - 8 = i - 24 by omega]

/-- A 16-bit field is read as it was written. -/
theorem rd16_le16 (v : Half) : rd16 (v.extractLsb' 0 8) (v.extractLsb' 8 8) = v := by
  apply BitVec.eq_of_getLsbD_eq
  intro i hi
  rw [getLsbD_rd16]
  split
  · next h => simp [h]
  · next h =>
    have h1 : i - 8 < 8 := by omega
    have h2 : 8 + (i - 8) = i := by omega
    simp [h1, h2]

/-- A 32-bit field is read as it was written. -/
theorem rd32_le32 (v : Word) :
    rd32 (v.extractLsb' 0 8) (v.extractLsb' 8 8) (v.extractLsb' 16 8) (v.extractLsb' 24 8) = v := by
  apply BitVec.eq_of_getLsbD_eq
  intro i hi
  rw [getLsbD_rd32]
  split
  · next h => simp [h]
  · split
    · have h1 : i - 8 < 8 := by omega
      have h2 : 8 + (i - 8) = i := by omega
      simp [h1, h2]
    · split
      · have h1 : i - 16 < 8 := by omega
        have h2 : 16 + (i - 16) = i := by omega
        simp [h1, h2]
      · have h1 : i - 24 < 8 := by omega
        have h2 : 24 + (i - 24) = i := by omega
        simp [h1, h2]

/-- The two bytes of a field are written back as they were read. -/
theorem le16_rd16 (b0 b1 : Byte) : le16 (rd16 b0 b1) = [b0, b1] := by
  have h0 : (rd16 b0 b1).extractLsb' 0 8 = b0 := by
    apply BitVec.eq_of_getLsbD_eq
    intro i hi
    rw [BitVec.getLsbD_extractLsb', getLsbD_rd16]
    simp [hi]
  have h1 : (rd16 b0 b1).extractLsb' 8 8 = b1 := by
    apply BitVec.eq_of_getLsbD_eq
    intro i hi
    rw [BitVec.getLsbD_extractLsb', getLsbD_rd16]
    simp [hi]
  unfold le16
  rw [h0, h1]

/-- The four bytes of a field are written back as they were read. -/
theorem le32_rd32 (b0 b1 b2 b3 : Byte) : le32 (rd32 b0 b1 b2 b3) = [b0, b1, b2, b3] := by
  have h0 : (rd32 b0 b1 b2 b3).extractLsb' 0 8 = b0 := by
    apply BitVec.eq_of_getLsbD_eq
    intro i hi
    rw [BitVec.getLsbD_extractLsb', getLsbD_rd32]
    simp [hi]
  have h1 : (rd32 b0 b1 b2 b3).extractLsb' 8 8 = b1 := by
    apply BitVec.eq_of_getLsbD_eq
    intro i hi
    rw [BitVec.getLsbD_extractLsb', getLsbD_rd32]
    simp [hi, show 8 + i < 16 by omega]
  have h2 : (rd32 b0 b1 b2 b3).extractLsb' 16 8 = b2 := by
    apply BitVec.eq_of_getLsbD_eq
    intro i hi
    rw [BitVec.getLsbD_extractLsb', getLsbD_rd32]
    simp [hi, show ¬16 + i < 8 by omega, show 16 + i < 24 by omega]
  have h3 : (rd32 b0 b1 b2 b3).extractLsb' 24 8 = b3 := by
    apply BitVec.eq_of_getLsbD_eq
    intro i hi
    rw [BitVec.getLsbD_extractLsb', getLsbD_rd32]
    simp [hi, show ¬24 + i < 8 by omega, show ¬24 + i < 16 by omega]
  unfold le32
  rw [h0, h1, h2, h3]

/-! ## Numbers of a record -/

theorem u16_rd16 (b0 b1 : Byte) : u16 (rd16 b0 b1).toNat = [b0, b1] := by
  unfold u16
  rw [BitVec.ofNat_toNat, BitVec.setWidth_eq, le16_rd16]

theorem u32_rd32 (b0 b1 b2 b3 : Byte) : u32 (rd32 b0 b1 b2 b3).toNat = [b0, b1, b2, b3] := by
  unfold u32
  rw [BitVec.ofNat_toNat, BitVec.setWidth_eq, le32_rd32]

theorem i32_rd32 (b0 b1 b2 b3 : Byte) : i32 (rd32 b0 b1 b2 b3).toInt = [b0, b1, b2, b3] := by
  unfold i32
  rw [BitVec.ofInt_toInt, le32_rd32]

/-- A u16 field is read as the number it carries. -/
theorem u16_read {n : Nat} (h : n < 65536) : ∃ b0 b1, u16 n = [b0, b1] ∧ (rd16 b0 b1).toNat = n := by
  refine ⟨_, _, rfl, ?_⟩
  rw [rd16_le16, BitVec.toNat_ofNat]
  omega

/-- A u32 field is read as the number it carries. -/
theorem u32_read {n : Nat} (h : n < 4294967296) :
    ∃ b0 b1 b2 b3, u32 n = [b0, b1, b2, b3] ∧ (rd32 b0 b1 b2 b3).toNat = n := by
  refine ⟨_, _, _, _, rfl, ?_⟩
  rw [rd32_le32, BitVec.toNat_ofNat]
  omega

/-- An i32 field is read as the number it carries. -/
theorem i32_read {n : Int} (h : -2147483648 ≤ n) (h' : n < 2147483648) :
    ∃ b0 b1 b2 b3, i32 n = [b0, b1, b2, b3] ∧ (rd32 b0 b1 b2 b3).toInt = n := by
  refine ⟨_, _, _, _, rfl, ?_⟩
  rw [rd32_le32, BitVec.toInt_ofInt]
  exact Int.bmod_eq_of_le (by omega) (by omega)

/-- 12.1: fields are little-endian, and signed ones in two's complement. -/
theorem fields_eq (n : Nat) (z : Int) (b : Bool) :
    u8 n = [BitVec.ofNat 8 n] ∧ u16 n = [BitVec.ofNat 8 n, BitVec.ofNat 8 (n / 256)] ∧
    u32 n = [BitVec.ofNat 8 n, BitVec.ofNat 8 (n / 256), BitVec.ofNat 8 (n / 65536), BitVec.ofNat 8 (n / 16777216)] ∧
    i16 z = u16 (z % 65536).toNat ∧ i32 z = u32 (z % 4294967296).toNat ∧ flag8 b = u8 (if b then 1 else 0) := by
  have e16 (k : Nat) : k ≤ 8 → (BitVec.ofNat 16 n).extractLsb' k 8 = BitVec.ofNat 8 (n / 2 ^ k) := by
    intro hk
    apply BitVec.eq_of_getLsbD_eq
    intro i hi
    rw [BitVec.getLsbD_extractLsb', BitVec.getLsbD_ofNat, BitVec.getLsbD_ofNat, Nat.testBit_div_two_pow,
      Nat.add_comm k i]
    simp [hi]
    omega
  have e32 (k : Nat) : k ≤ 24 → (BitVec.ofNat 32 n).extractLsb' k 8 = BitVec.ofNat 8 (n / 2 ^ k) := by
    intro hk
    apply BitVec.eq_of_getLsbD_eq
    intro i hi
    rw [BitVec.getLsbD_extractLsb', BitVec.getLsbD_ofNat, BitVec.getLsbD_ofNat, Nat.testBit_div_two_pow,
      Nat.add_comm k i]
    simp [hi]
    omega
  refine ⟨rfl, ?_, ?_, ?_, ?_, rfl⟩
  · unfold u16 le16
    rw [e16 0 (by omega), e16 8 (by omega)]
    simp
  · unfold u32 le32
    rw [e32 0 (by omega), e32 8 (by omega), e32 16 (by omega), e32 24 (by omega)]
    simp
  · unfold i16 u16
    congr 1
    apply BitVec.eq_of_toNat_eq
    rw [BitVec.toNat_ofInt, BitVec.toNat_ofNat]
    omega
  · unfold i32 u32
    congr 1
    apply BitVec.eq_of_toNat_eq
    rw [BitVec.toNat_ofInt, BitVec.toNat_ofNat]
    omega

/-- The bits of a byte of flags. -/
theorem bits_testBit (l : List Bool) (i : Nat) : (bits l).testBit i = l.getD i false := by
  induction l generalizing i with
  | nil => simp [bits]
  | cons b rest ih =>
    unfold bits
    cases i with
    | zero => cases b <;> simp [Nat.testBit_zero, Nat.add_mul_mod_self_left]
    | succ i =>
      have e : ((if b then 1 else 0) + 2 * bits rest) / 2 = bits rest := by
        split <;> omega
      rw [Nat.testBit_succ, e, ih]
      rfl

end Sys2Proof.Machine
end

