-- ==== Sys2Proof/Laws/Arrival.lean ====
section
/-! SUPPORT. Chapter 1: what is read from a segment body, the record drawn up from it, when each class fails, and what the
arrival checks decide. -/

namespace Sys2Proof.Machine

set_option Elab.async false

/-! ## Bodies -/

/-- R173: the body of a record is read as that record. -/
theorem parse_of_body (raw : RawSegment) (h : raw.plain) : parseSegment raw.body = some raw := by
  obtain ⟨kind, pok, last, sx, sy, cx, cy, len, dur, eh, xh, fd, tag, hint, adv⟩ := raw
  obtain ⟨⟨a1, a2, a3, a4⟩, ⟨b1, b2, b3, b4⟩, ⟨c1, c2, c3, c4, c5⟩, ⟨d1, d2, d3⟩, e1, e2, e3⟩ := h
  dsimp only at *
  obtain ⟨x0, x1, x2, x3, hx, hx'⟩ := i32_read a1 a2
  obtain ⟨y0, y1, y2, y3, hy, hy'⟩ := i32_read a3 a4
  obtain ⟨p0, p1, p2, p3, hp, hp'⟩ := i32_read b1 b2
  obtain ⟨q0, q1, q2, q3, hq, hq'⟩ := i32_read b3 b4
  obtain ⟨l0, l1, l2, l3, hl, hl'⟩ := u32_read c1
  obtain ⟨t0, t1, ht, ht'⟩ := u16_read c2
  obtain ⟨g0, g1, hg, hg'⟩ := u16_read c3
  obtain ⟨k0, k1, hk, hk'⟩ := u16_read c4
  obtain ⟨f0, f1, hf, hf'⟩ := u16_read c5
  have ho : ∀ (P : Byte), P = BitVec.ofNat 8 (bits [tag.isSome, hint.isSome, adv.isSome]) →
      optionalFields P (((tag.map u8).getD []) ++ ((hint.map u8).getD []) ++ ((adv.map u16).getD [])) = some (tag,
          hint, adv) := by
    rintro P rfl
    have r8 : ∀ n, n < 256 → (BitVec.ofNat 8 n).toNat = n := fun n hn => by rw [BitVec.toNat_ofNat]; omega
    cases tag <;> cases hint <;> cases adv
    all_goals simp only [optionalFields, optional8, optional16, bits, Option.isSome, Option.map, Option.getD, u8,
        List.append_nil, List.nil_append, List.cons_append]
    all_goals first
      | rfl
      | (simp [r8 _ (d1 _ rfl)]; done)
      | (simp [r8 _ (d2 _ rfl)]; done)
      | (simp [r8 _ (d1 _ rfl), r8 _ (d2 _ rfl)]; done)
      | (obtain ⟨m0, m1, hm, hm'⟩ := u16_read (d3 _ rfl); rw [hm]; simp [hm']; done)
      | (obtain ⟨m0, m1, hm, hm'⟩ := u16_read (d3 _ rfl); rw [hm]; simp [hm', r8 _ (d1 _ rfl)]; done)
      | (obtain ⟨m0, m1, hm, hm'⟩ := u16_read (d3 _ rfl); rw [hm]; simp [hm', r8 _ (d2 _ rfl)]; done)
      | (obtain ⟨m0, m1, hm, hm'⟩ := u16_read (d3 _ rfl); rw [hm]; simp [hm', r8 _ (d1 _ rfl), r8 _ (d2 _ rfl)])
  have hfl : ∀ a b : Bool, (BitVec.ofNat 8 (bits [a, b])).toNat < 4 ∧ (BitVec.ofNat 8 (bits [a,
      b])).getLsbD 0 = a ∧ (BitVec.ofNat 8 (bits [a, b])).getLsbD 1 = b := by decide
  have hpr : ∀ a b c : Bool, (BitVec.ofNat 8 (bits [a, b, c])).toNat < 8 ∧
      (b = false → c = false → (BitVec.ofNat 8 (bits [a, b, c])).toNat < 2) := by decide
  obtain ⟨w1, w2, w3⟩ := hfl pok last
  have v1 := hpr tag.isSome hint.isSome adv.isSome
  cases kind
  · obtain ⟨rfl, rfl⟩ := e1 (.inl rfl)
    have hd : dur = 0 := e3 (by decide)
    subst hd
    unfold RawSegment.body
    simp only [hx, hy, hl, hg, hk, hf, List.cons_append, List.nil_append]
    unfold parseSegment
    simp only [show (0 : Byte).toNat = 0 from rfl, kindOfCode]
    rw [if_neg (by rintro (h | h | ⟨h, _⟩) <;> first | omega | cases h)]
    unfold bodyFields
    simp only [w2, w3, hx', hy', hl', hg', hk', hf']
    refine (congrArg (Option.map _) (ho _ rfl)).trans ?_
    rfl
  · have hd : dur = 0 := e3 (by decide)
    subst hd
    unfold RawSegment.body
    simp only [hx, hy, hp, hq, hl, hg, hk, hf, List.cons_append, List.nil_append]
    unfold parseSegment
    simp only [show (1 : Byte).toNat = 1 from rfl, kindOfCode]
    rw [if_neg (by rintro (h | h | ⟨h, _⟩) <;> first | omega | cases h)]
    unfold bodyFields
    simp only [w2, w3, hx', hy', hp', hq', hl', hg', hk', hf']
    refine (congrArg (Option.map _) (ho _ rfl)).trans ?_
    rfl
  · have hd : dur = 0 := e3 (by decide)
    subst hd
    unfold RawSegment.body
    simp only [hx, hy, hp, hq, hl, hg, hk, hf, List.cons_append, List.nil_append]
    unfold parseSegment
    simp only [show (2 : Byte).toNat = 2 from rfl, kindOfCode]
    rw [if_neg (by rintro (h | h | ⟨h, _⟩) <;> first | omega | cases h)]
    unfold bodyFields
    simp only [w2, w3, hx', hy', hp', hq', hl', hg', hk', hf']
    refine (congrArg (Option.map _) (ho _ rfl)).trans ?_
    rfl
  · obtain ⟨rfl, rfl⟩ := e1 (.inr rfl)
    obtain ⟨rfl, rfl, rfl, rfl, rfl, rfl, rfl, rfl⟩ := e2 rfl
    unfold RawSegment.body
    simp only [ht, List.cons_append, List.nil_append]
    unfold parseSegment
    simp only [show (3 : Byte).toNat = 3 from rfl, kindOfCode]
    have v2 := v1.2 rfl rfl
    rw [if_neg (by rintro (h | h | ⟨_, h⟩) <;> omega)]
    unfold bodyFields
    simp only [w2, w3, ht']
    refine (congrArg (Option.map _) (ho _ rfl)).trans ?_
    rfl

/-- A byte is the byte of its own low bits when no other is set. -/
theorem flags_of {f : Byte} (h : ¬ 4 ≤ f.toNat) : f = BitVec.ofNat 8 (bits [f.getLsbD 0, f.getLsbD 1]) := by
  revert f; decide

theorem presence_of {f : Byte} (h : ¬ 8 ≤ f.toNat) : f = BitVec.ofNat 8 (bits [f.getLsbD 0, f.getLsbD 1,
    f.getLsbD 2]) := by
  revert f; decide

theorem presence_pause {f : Byte} (h : ¬ 2 ≤ f.toNat) : f.getLsbD 1 = false ∧ f.getLsbD 2 = false := by
  revert f; decide

/-- R173: the optional fields read from a body are the bytes that ended it. -/
theorem optionals_of {P : Byte} {bs : List Byte} {o : Option Nat × Option Nat × Option Nat} (h : optionalFields P bs =
    some o) :
    o.1.isSome = P.getLsbD 0 ∧ o.2.1.isSome = P.getLsbD 1 ∧ o.2.2.isSome = P.getLsbD 2 ∧
    bs = ((o.1.map u8).getD []) ++ ((o.2.1.map u8).getD []) ++ ((o.2.2.map u16).getD []) ∧
    (∀ n, o.1 = some n → n < 256) ∧ (∀ n, o.2.1 = some n → n < 256) ∧ (∀ n, o.2.2 = some n → n < 65536) := by
  have u8b : ∀ b : Byte, u8 b.toNat = [b] := fun b => by unfold u8; rw [BitVec.ofNat_toNat, BitVec.setWidth_eq]
  have ob : ∀ {p : Bool} {l : List Byte} {x : Option Nat × List Byte},
      optional8 p l = some x → x.1.isSome = p ∧ l = (x.1.map u8).getD [] ++ x.2 ∧ ∀ n, x.1 = some n → n < 256 := by
    intro p l x hx
    unfold optional8 at hx
    cases p
    · rw [if_neg (by decide)] at hx; cases hx; exact ⟨rfl, rfl, nofun⟩
    · rw [if_pos rfl] at hx
      cases l with
      | nil => cases hx
      | cons b rest => cases hx; exact ⟨rfl, by rw [Option.map_some, Option.getD_some, u8b]; rfl,
          fun n hn => by cases hn; exact b.isLt⟩
  unfold optionalFields at h
  split at h
  · cases h
  · next t bs1 h1 =>
    split at h
    · cases h
    · next hi bs2 h2 =>
      obtain ⟨a1, a2, a3⟩ := ob h1
      obtain ⟨b1, b2, b3⟩ := ob h2
      dsimp only at *
      split at h
      · next adv h3 =>
        cases h
        dsimp only
        have : adv.isSome = P.getLsbD 2 ∧ bs2 = (adv.map u16).getD [] ∧ ∀ n, adv = some n → n < 65536 := by
          unfold optional16 at h3
          split at h3
          · next hp =>
            rw [hp]
            split at h3
            · next c0 c1 rest =>
              cases h3; exact ⟨rfl, by rw [Option.map_some, Option.getD_some, u16_rd16],
                  fun n hn => by cases hn; exact (rd16 c0 c1).isLt⟩
            · cases h3
            · cases h3
          · next hp => cases h3; rw [Bool.not_eq_true _ |>.mp hp]; exact ⟨rfl, rfl, nofun⟩
        exact ⟨a1, b1, this.1, by rw [a2, b2, this.2.1, List.append_assoc], a3, b3, this.2.2⟩
      · cases h
      · cases h

/-- R173: a body is read only as the record whose body it is, its fields within their widths. -/
theorem body_of_parse (body : List Byte) (raw : RawSegment) (h : parseSegment body = some raw) : raw.plain ∧
    raw.body = body := by
  unfold parseSegment at h
  split at h
  · next kc flags pres rest =>
    split at h
    · cases h
    · next kind hk =>
      split at h
      · cases h
      · next hn =>
        have hf : ¬ 4 ≤ flags.toNat := fun x => hn (.inl x)
        have hp : ¬ 8 ≤ pres.toNat := fun x => hn (.inr (.inl x))
        have hpp : kind = .pause → ¬ 2 ≤ pres.toNat := fun x y => hn (.inr (.inr ⟨x, y⟩))
        have ef := flags_of hf
        have ep := presence_of hp
        have hkc : kc = BitVec.ofNat 8 kind.code := by
          have : kc.toNat = kind.code := by
            unfold kindOfCode at hk
            split at hk <;> first | (cases hk; assumption) | cases hk
          rw [← this, BitVec.ofNat_toNat, BitVec.setWidth_eq]
        have r16 : ∀ a b, (rd16 a b).toNat < 65536 := fun a b => (rd16 a b).isLt
        have r32 : ∀ a b c d, (rd32 a b c d).toNat < 4294967296 := fun a b c d => (rd32 a b c d).isLt
        have i32r : ∀ a b c d, -2147483648 ≤ (rd32 a b c d).toInt ∧ (rd32 a b c d).toInt < 2147483648 := fun a b c d =>
          ⟨BitVec.le_toInt _, BitVec.toInt_lt⟩
        unfold bodyFields at h
        dsimp only at h
        split at h
        · obtain ⟨o, h1, h2⟩ := Option.map_eq_some_iff.mp h
          obtain ⟨o1, o2, o3, o4, o5, o6, o7⟩ := optionals_of h1
          subst h2
          refine ⟨⟨⟨(i32r ..).1, (i32r ..).2, (i32r ..).1, (i32r ..).2⟩, ⟨by dsimp only; omega, by dsimp only; omega,
              by dsimp only; omega, by dsimp only; omega⟩, ⟨r32 .., by dsimp only; omega, r16 .., r16 .., r16 ..⟩,
              ⟨o5, o6, o7⟩, fun _ => ⟨rfl, rfl⟩, fun x => (by cases x), fun _ => rfl⟩, ?_⟩
          unfold RawSegment.body
          dsimp only
          rw [o1, o2, o3, ← ef, ← ep, hkc, i32_rd32, i32_rd32, u32_rd32, u16_rd16, u16_rd16, u16_rd16, o4]
          rfl
        · obtain ⟨o, h1, h2⟩ := Option.map_eq_some_iff.mp h
          obtain ⟨o1, o2, o3, o4, o5, o6, o7⟩ := optionals_of h1
          obtain ⟨pz1, pz2⟩ := presence_pause (hpp rfl)
          subst h2
          refine ⟨⟨⟨by dsimp only; omega, by dsimp only; omega, by dsimp only; omega, by dsimp only; omega⟩,
              ⟨by dsimp only; omega, by dsimp only; omega, by dsimp only; omega, by dsimp only; omega⟩,
              ⟨by dsimp only; omega, r16 .., by dsimp only; omega, by dsimp only; omega, by dsimp only; omega⟩, ⟨o5,
              o6, o7⟩, fun _ => ⟨rfl, rfl⟩, fun _ => ⟨rfl, rfl, rfl, rfl, rfl, rfl, ?_, ?_⟩, fun x => absurd rfl x⟩, ?_⟩
          · rw [pz1] at o2; exact Option.not_isSome_iff_eq_none.mp (by rw [o2]; decide)
          · rw [pz2] at o3; exact Option.not_isSome_iff_eq_none.mp (by rw [o3]; decide)
          unfold RawSegment.body
          dsimp only
          rw [o1, o2, o3, ← ef, ← ep, hkc, u16_rd16, o4]
          rfl
        · obtain ⟨o, h1, h2⟩ := Option.map_eq_some_iff.mp h
          obtain ⟨o1, o2, o3, o4, o5, o6, o7⟩ := optionals_of h1
          subst h2
          refine ⟨⟨⟨(i32r ..).1, (i32r ..).2, (i32r ..).1, (i32r ..).2⟩, ⟨(i32r ..).1, (i32r ..).2, (i32r ..).1,
              (i32r ..).2⟩, ⟨r32 .., by dsimp only; omega, r16 .., r16 .., r16 ..⟩, ⟨o5, o6, o7⟩,
              fun x => (by rcases x with x | x <;> cases x), fun x => (by cases x), fun _ => rfl⟩, ?_⟩
          unfold RawSegment.body
          dsimp only
          rw [o1, o2, o3, ← ef, ← ep, hkc, i32_rd32, i32_rd32, i32_rd32, i32_rd32, u32_rd32, u16_rd16, u16_rd16,
              u16_rd16, o4]
          rfl
        · obtain ⟨o, h1, h2⟩ := Option.map_eq_some_iff.mp h
          obtain ⟨o1, o2, o3, o4, o5, o6, o7⟩ := optionals_of h1
          subst h2
          refine ⟨⟨⟨(i32r ..).1, (i32r ..).2, (i32r ..).1, (i32r ..).2⟩, ⟨(i32r ..).1, (i32r ..).2, (i32r ..).1,
              (i32r ..).2⟩, ⟨r32 .., by dsimp only; omega, r16 .., r16 .., r16 ..⟩, ⟨o5, o6, o7⟩,
              fun x => (by rcases x with x | x <;> cases x), fun x => (by cases x), fun _ => rfl⟩, ?_⟩
          unfold RawSegment.body
          dsimp only
          rw [o1, o2, o3, ← ef, ← ep, hkc, i32_rd32, i32_rd32, i32_rd32, i32_rd32, u32_rd32, u16_rd16, u16_rd16,
              u16_rd16, o4]
          rfl
        · cases h
  · cases h

/-! ## Fields and distances -/

/-- The chord is the integer root of the squared distance. -/
theorem chord_isRoot (p q : Point) : isRoot (chord (q.x - p.x) (q.y - p.y)) (p.square q) := by
  have h := chord_spec (q.x - p.x) (q.y - p.y)
  unfold isRoot Point.square
  rw [Nat.pow_two, Nat.pow_two]
  exact h

/-- A number has one integer root. -/
theorem isRoot_unique {m n d : Nat} (hm : isRoot m d) (hn : isRoot n d) : m = n := by
  have h1 : m < n + 1 := Nat.mul_self_lt_mul_self_iff.mp (Nat.lt_of_le_of_lt hm.1 hn.2)
  have h2 : n < m + 1 := Nat.mul_self_lt_mul_self_iff.mp (Nat.lt_of_le_of_lt hn.1 hm.2)
  omega

theorem isRoot_chord {n : Nat} {p q : Point} : isRoot n (p.square q) ↔ n = chord (q.x - p.x) (q.y - p.y) :=
  ⟨fun h => isRoot_unique h (chord_isRoot p q), fun h => h ▸ chord_isRoot p q⟩

theorem chord_neg (a b c d : Int) : chord (a - b) (c - d) = chord (b - a) (d - c) := by
  unfold chord
  rw [← Int.neg_sub b a, ← Int.neg_sub d c, Int.natAbs_neg, Int.natAbs_neg]

theorem within_iff {x lo hi : Int} : within x lo hi = true ↔ lo ≤ x ∧ x ≤ hi := by
  unfold within; exact decide_eq_true_iff

theorem optionsInRange_iff (raw : RawSegment) : raw.optionsInRange = true ↔
    (∀ n, raw.tag = some n → 1 ≤ n ∧ n ≤ 255) ∧ ∀ n, raw.hint = some n → n ≤ 3 := by
  unfold RawSegment.optionsInRange
  cases raw.tag <;> cases raw.hint <;> simp

/-- R1, R2, R9: the ranges of the checked fields. -/
theorem inRange_iff (raw : RawSegment) : raw.inRange = true ↔ raw.checked := by
  unfold RawSegment.inRange
  rw [Bool.and_eq_true, optionsInRange_iff]
  constructor
  · rintro ⟨⟨h1, h2⟩, h3⟩
    cases hk : raw.kind <;> rw [hk] at h3 <;> simp only [Bool.and_eq_true, within_iff, decide_eq_true_iff] at h3
    · exact ⟨h1, h2, fun h => (by rw [hk] at h; cases h), fun _ => by omega,
          fun h => (by rw [hk] at h; rcases h with h | h <;> cases h)⟩
    · exact ⟨h1, h2, fun h => (by rw [hk] at h; cases h), fun _ => by omega, fun _ => ⟨by omega, by omega, by omega,
          by omega, h3.2⟩⟩
    · exact ⟨h1, h2, fun h => (by rw [hk] at h; cases h), fun _ => by omega, fun _ => ⟨by omega, by omega, by omega,
          by omega, h3.2⟩⟩
    · exact ⟨h1, h2, fun _ => by omega, fun h => absurd hk h, fun h => (by rw [hk] at h; rcases h with h | h <;> cases h)⟩
  · intro h
    refine ⟨⟨h.tag, h.hint⟩, ?_⟩
    cases hk : raw.kind <;> simp only [Bool.and_eq_true, within_iff, decide_eq_true_iff]
    · have := h.moving (by rw [hk]; decide)
      omega
    · have h1 := h.moving (by rw [hk]; decide)
      have h2 := h.arc (.inl hk)
      exact ⟨by omega, h2.2.2.2.2⟩
    · have h1 := h.moving (by rw [hk]; decide)
      have h2 := h.arc (.inr hk)
      exact ⟨by omega, h2.2.2.2.2⟩
    · have := h.pause hk
      omega

theorem clampFeed_eq (f : Nat) : clampFeed f = max 100 (min f 30000) := by
  unfold clampFeed clamp; omega

theorem clampAdvance_eq (f : Nat) : clampAdvance f = max 10 (min f 1000) := by
  unfold clampAdvance clamp; omega

/-- R4: which bodies are clamped. -/
theorem clamped_iff (raw : RawSegment) : raw.clamped = true ↔
    (raw.kind ≠ .pause ∧ (raw.feed < 100 ∨ 30000 < raw.feed)) ∨ ∃ a, raw.advance = some a ∧ (a < 10 ∨ 1000 < a) := by
  have e : raw.kind.moving = true ↔ raw.kind ≠ .pause := by cases raw.kind <;> decide
  unfold RawSegment.clamped
  rw [Bool.or_eq_true, Bool.and_eq_true, e]
  refine or_congr (and_congr Iff.rfl ?_) ?_
  · rw [decide_eq_true_iff, clampFeed_eq]; omega
  · cases raw.advance with
    | none => simp
    | some a => 
      simp only [Option.some.injEq, exists_eq_left', decide_eq_true_iff, clampAdvance_eq]; omega

theorem bounds_point (p : Point) : (Box.point p).bounds [p] :=
  have hp : p ∈ [p] := List.mem_singleton_self _
  ⟨fun _ hq => List.mem_singleton.mp hq ▸ ⟨Int.le_refl _, Int.le_refl _, Int.le_refl _, Int.le_refl _⟩,
    ⟨p, hp, rfl⟩, ⟨p, hp, rfl⟩, ⟨p, hp, rfl⟩, ⟨p, hp, rfl⟩⟩

/-- A box with a point added bounds the points it bounded and the new one. -/
theorem bounds_extend {b : Box} {qs : List Point} (h : b.bounds qs) (p : Point) : (b.extend p).bounds (qs ++ [p]) := by
  have pick (f : Point → Int) (m : Int) : (∃ q ∈ qs, f q = m) →
      (∃ q ∈ qs ++ [p], f q = min m (f p)) ∧ ∃ q ∈ qs ++ [p], f q = max m (f p) := by
    rintro ⟨q, hq, e⟩
    have h1 : q ∈ qs ++ [p] := List.mem_append_left _ hq
    have h2 : p ∈ qs ++ [p] := List.mem_append_right _ (List.mem_singleton_self _)
    rcases Int.le_total (f p) m with hh | hh
    · exact ⟨⟨p, h2, by omega⟩, ⟨q, h1, by omega⟩⟩
    · exact ⟨⟨q, h1, by omega⟩, ⟨p, h2, by omega⟩⟩
  refine ⟨fun q hq => ?_, ?_, ?_, ?_, ?_⟩
  · simp only [Box.extend]
    rcases List.mem_append.mp hq with hq | hq
    · have := h.contains q hq; omega
    · rw [List.mem_singleton.mp hq]; omega
  · exact (pick (·.x) _ h.reached.1).1
  · exact (pick (·.x) _ h.reached.2.1).2
  · exact (pick (·.y) _ h.reached.2.2.1).1
  · exact (pick (·.y) _ h.reached.2.2.2).2

theorem bounds_extend_if {b : Box} {qs : List Point} (h : b.bounds qs) (p : Point) (c : Bool) :
    (if c = true then b.extend p else b).bounds (qs ++ if c = true then [p] else []) := by
  cases c
  · simpa using h
  · exact bounds_extend h p

/-- R10: the radial angle of an arc. -/
theorem radialAngle_cast {kind : SegmentKind} (h : kind = .arcCw ∨ kind = .arcCcw) (heading : Nat) :
    (radialAngle kind heading : Int) = (if kind = .arcCcw then (heading : Int) - 9000 else heading + 9000) % 36000 := by
  rcases h with h | h <;> subst h
  · exact mod36000_cast _
  · exact mod36000_cast _

/-- R11: which axis points an arc passes. -/
theorem passesAxis_eq (seg : Segment) (q : Nat) :
    passesAxis seg.kind (radialAngle seg.kind seg.entryHeading) seg.sweep q =
      ((seg.kind = .arcCw || seg.kind = .arcCcw) && decide
        ((if seg.kind = .arcCcw then ((q : Int) - seg.angleAt seg.entryHeading) % 36000
          else (seg.angleAt seg.entryHeading - q) % 36000) ≤ (seg.sweep : Int))) := by
  unfold Segment.angleAt
  cases hk : seg.kind
  · rfl
  · rw [← radialAngle_cast (.inl rfl)]
    unfold passesAxis
    simp only [reduceCtorEq, if_false, decide_true, decide_false, Bool.true_or, Bool.true_and, ← mod36000_cast,
        Int.ofNat_le]
  · rw [← radialAngle_cast (.inr rfl)]
    unfold passesAxis
    simp only [reduceCtorEq, if_true, decide_true, decide_false, Bool.false_or, Bool.true_and, ← mod36000_cast,
        Int.ofNat_le]
  · rfl

/-- R11: the extent box is the smallest that contains the points of the rule. -/
theorem extentBox_bounds (seg : Segment) : (extentBox seg).bounds seg.extentPoints := by
  have h := bounds_extend (bounds_point seg.startAt) seg.stopAt
  have hp (b : Box) (qs : List Point) (hb : b.bounds qs) (q : Nat) (p : Point) :=
    bounds_extend_if hb p (passesAxis seg.kind (radialAngle seg.kind seg.entryHeading) seg.sweep q)
  have h := hp _ _ h 0 ⟨seg.centre.x + seg.radius, seg.centre.y⟩
  have h := hp _ _ h 9000 ⟨seg.centre.x, seg.centre.y + seg.radius⟩
  have h := hp _ _ h 18000 ⟨seg.centre.x - seg.radius, seg.centre.y⟩
  have h := hp _ _ h 27000 ⟨seg.centre.x, seg.centre.y - seg.radius⟩
  have e : seg.extentPoints =
      let passes := passesAxis seg.kind (radialAngle seg.kind seg.entryHeading) seg.sweep
      [seg.startAt] ++ [seg.stopAt] ++ (if passes 0 = true then [⟨seg.centre.x + seg.radius, seg.centre.y⟩] else []) ++
        (if passes 9000 = true then [⟨seg.centre.x, seg.centre.y + seg.radius⟩] else []) ++
        (if passes 18000 = true then [⟨seg.centre.x - seg.radius, seg.centre.y⟩] else []) ++
        (if passes 27000 = true then [⟨seg.centre.x, seg.centre.y - seg.radius⟩] else []) := by
    dsimp only
    rw [passesAxis_eq, passesAxis_eq, passesAxis_eq, passesAxis_eq]
    rfl
  rw [e]
  exact h

/-- R1 to R11: the record drawn up before the checks. -/
theorem draftRecord_drawn (raw : RawSegment) (s : State) : (draftRecord s.store.mode (arrivalStart s) raw).drawnFrom
    raw s := by
  have e : raw.kind.moving = true ↔ raw.kind ≠ .pause := by cases raw.kind <;> decide
  have ea : raw.kind.isArc = true ↔ raw.kind = .arcCw ∨ raw.kind = .arcCcw := by cases raw.kind <;> decide
  refine ⟨rfl, rfl, ?_, rfl, ⟨rfl, rfl, rfl, rfl, rfl, rfl⟩, ?_, ?_, ⟨?_, ?_⟩, ?_, ?_, extentBox_bounds _, ⟨rfl, rfl,
      rfl, rfl, rfl, rfl⟩⟩
  · show (if raw.kind.moving = true then (⟨raw.stopX, raw.stopY⟩ : Point) else arrivalStart s) = if raw.kind = .pause
        then arrivalStart s else ⟨raw.stopX, raw.stopY⟩
    cases raw.kind <;> rfl
  · show (if raw.kind.moving = true then clampFeed raw.feed else 0) = _
    rw [clampFeed_eq]; cases raw.kind <;> rfl
  · show raw.advance.map clampAdvance = _
    exact congrArg (fun f => raw.advance.map f) (funext clampAdvance_eq)
  · show (raw.kind.moving && raw.pivotOk) = true ↔ _
    rw [Bool.and_eq_true, e]
  · show (decide (s.store.mode = .stream) && raw.last) = true ↔ _
    rw [Bool.and_eq_true, decide_eq_true_iff]
  · show if _ then isRoot (if raw.kind.isArc = true then chord ((arrivalStart s).x - raw.centreX) ((arrivalStart s).y
        - raw.centreY) else 0) _ else (if raw.kind.isArc = true then chord ((arrivalStart s).x - raw.centreX)
        ((arrivalStart s).y - raw.centreY) else 0) = 0
    split
    · next h => rw [if_pos (ea.mpr h)]; exact chord_isRoot ⟨raw.centreX, raw.centreY⟩ (arrivalStart s)
    · next h => rw [if_neg (fun hh => h (ea.mp hh))]
  · show ((sweepOf raw.kind raw.entryHeading raw.exitHeading : Nat) : Int) = _
    cases raw.kind <;> first | exact mod36000_cast _ | rfl

/-- R12: a box that does not leave travel lies within it. -/
theorem outside_iff (prm : Params) (b : Box) : b.outside prm 0 0 = false ↔ b.inTravel prm := by
  unfold Box.outside Box.inTravel
  simp only [Bool.or_eq_false_iff, decide_eq_false_iff_not, Int.add_zero]
  omega

/-- What holds of every integer root of a squared distance holds of the chord. -/
theorem chordFails_iff {p q : Point} {P : Nat → Prop} : (∀ n,
    isRoot n (p.square q) → P n) ↔ P (chord (q.x - p.x) (q.y - p.y)) :=
  ⟨fun h => h _ (chord_isRoot p q), fun h _ hn => isRoot_chord.mp hn ▸ h⟩

/-- R13: the LENGTH class of a LINE. -/
theorem lineLengthFails_iff {seg : Segment} (h : seg.kind = .line) : lineLengthFails seg = true ↔ seg.lengthOff := by
  unfold Segment.lengthOff lineLengthFails
  rw [if_pos h, chordFails_iff, decide_eq_true_iff]; rfl

/-- R13: the HEADING class of a LINE. -/
theorem lineHeadingFails_iff {seg : Segment} (h : seg.kind = .line) : lineHeadingFails seg = true ↔ seg.headingOff := by
  unfold Segment.headingOff lineHeadingFails
  dsimp only
  rw [if_pos h]
  simp only [Bool.or_eq_true, decide_eq_true_iff, or_assoc]; rfl

/-- R15: the LENGTH class of an arc. -/
theorem arcLengthFails_iff {seg : Segment} (h : seg.kind ≠ .line) : arcLengthFails seg = true ↔ seg.lengthOff := by
  unfold Segment.lengthOff arcLengthFails
  rw [if_neg h]; exact decide_eq_true_iff

/-- R14: the RADIUS class. -/
theorem arcRadiusFails_iff (seg : Segment) : arcRadiusFails seg = true ↔ seg.radiusOff := by
  unfold Segment.radiusOff arcRadiusFails endRadius
  rw [Bool.or_eq_true, decide_eq_true_iff, decide_eq_true_iff, chordFails_iff]

theorem farFrom_iff (p q : Point) : farFrom p q = true ↔ p.apart q := by
  unfold farFrom Point.apart
  rw [Bool.or_eq_true, decide_eq_true_iff, decide_eq_true_iff]

/-- R14: the point a heading implies. -/
theorem circlePoint_implied {seg : Segment} (h : seg.kind = .arcCw ∨ seg.kind = .arcCcw) (r heading : Nat) :
    circlePoint seg.centre r (radialAngle seg.kind heading) = seg.implied r heading := by
  unfold Segment.implied circlePoint Segment.angleAt
  rw [← radialAngle_cast h, Int.toNat_natCast]

/-- R14: the HEADING class of an arc. -/
theorem arcHeadingFails_iff {seg : Segment} (h : seg.kind = .arcCw ∨ seg.kind = .arcCcw) : arcHeadingFails seg = true
    ↔ seg.headingOff := by
  unfold Segment.headingOff arcHeadingFails endRadius
  dsimp only
  rw [if_neg (by rcases h with h | h <;> rw [h] <;> decide), Bool.or_eq_true, farFrom_iff, farFrom_iff,
      circlePoint_implied h, circlePoint_implied h, chordFails_iff]

/-- R16: the junction delta. -/
theorem deltaFrom_eq (seg : Segment) (h1 : Nat) : seg.deltaFrom h1 = turn h1 seg.entryHeading := (turn_eq h1
    seg.entryHeading).symm

/-! ## The checks -/

/-- R9: a body that spells no record. -/
theorem judgeArrival_badBody {s : State} {body : List Byte} (h : parseSegment body = none) : judgeArrival s body =
    .badField := by
  unfold judgeArrival; rw [h]

/-- R9: a record with a checked field out of its range. -/
theorem judgeArrival_unchecked {s : State} {body : List Byte} {raw : RawSegment} (h : parseSegment body = some raw)
    (hc : ¬ raw.checked) : judgeArrival s body = .badField := by
  unfold judgeArrival; rw [h]; dsimp only; rw [if_neg (fun hh => hc ((inRange_iff raw).mp hh))]

/-- R8: what the arrival checks decide of a body that spells a record in its ranges. -/
theorem judgeArrival_checked {s : State} {body : List Byte} {raw : RawSegment} (h : parseSegment body = some raw)
    (hc : raw.checked) :
    ∃ draft : Segment, draft.drawnFrom raw s ∧ (¬draft.box.inTravel s.params → judgeArrival s body = .outOfTravel) ∧
      (draft.box.inTravel s.params →
        let code : ResultCode := if raw.clamped then .clamped else .ok
        (raw.kind = .pause → judgeArrival s body = .accepted draft code) ∧
        (raw.kind = .line → judgeArrival s body = judgeLine s.params s.store.tailHeading code draft) ∧
        (raw.kind = .arcCw ∨ raw.kind = .arcCcw → judgeArrival s body = judgeArc s.params s.store.tailHeading code
            draft)) := by
  refine ⟨_, draftRecord_drawn raw s, fun ho => ?_, fun ho => ?_⟩
  · unfold judgeArrival
    rw [h]
    dsimp only
    rw [if_pos ((inRange_iff raw).mpr hc), if_pos]
    by_contra hh
    exact ho ((outside_iff _ _).mp (Bool.not_eq_true _ |>.mp hh))
  · have e := (inRange_iff raw).mpr hc
    have eo := (outside_iff _ _).mpr ho
    refine ⟨fun hk => ?_, fun hk => ?_, fun hk => ?_⟩
    · unfold judgeArrival
      simp only [h, e, eo, hk, if_true, Bool.false_eq_true, if_false]
    · unfold judgeArrival
      simp only [h, e, eo, hk, if_true, Bool.false_eq_true, if_false]
    · unfold judgeArrival
      rcases hk with hk | hk <;> simp only [h, e, eo, hk, if_true, Bool.false_eq_true, if_false]

/-- R16, R19: the class PIVOT fails. -/
theorem judgePivot_off {s : State} {code : ResultCode} {seg : Segment} (h : seg.pivotOff s) :
    judgePivot s.params s.store.tailHeading code seg = geometryFailure s.params .pivot := by
  obtain ⟨h1, h2, t, h3, h4⟩ := h
  unfold judgePivot; rw [h3]; dsimp only
  rw [← deltaFrom_eq, if_pos (by rw [h2]; simpa using h4), if_neg h1]

/-- R16, R41: a record with no tail heading before it. -/
theorem judgePivot_first {prm : Params} {code : ResultCode} {seg : Segment} :
    judgePivot prm none code seg = .accepted { seg with delta := 0, opening := true } code := rfl

/-- R16, R19: the class PIVOT passes, or its action is ACCEPT. -/
theorem judgePivot_ok {s : State} {code : ResultCode} {seg : Segment} {t : Nat} (ht : s.store.tailHeading = some t)
    (h : ¬seg.pivotOff s) :
    judgePivot s.params s.store.tailHeading code seg =
      .accepted
        { seg with
          delta := seg.deltaFrom t
          pivotOk := seg.pivotOk || decide (s.params.pivotLimit < (seg.deltaFrom t).natAbs) }
        code := by
  unfold judgePivot; rw [ht]; dsimp only
  rw [← deltaFrom_eq]
  cases hp : seg.pivotOk <;> by_cases hd : s.params.pivotLimit < (seg.deltaFrom t).natAbs
  · rw [if_pos (by simp [hd]), if_pos (by by_contra hx; exact h ⟨hx, hp, t, ht, hd⟩)]; simp [hd]
  · rw [if_neg (by simp [hd])]; simp [hd]
  · rw [if_neg (by simp)]; simp
  · rw [if_neg (by simp)]; simp

/-! ## Acceptance -/

/-- R35: what the HOLD rule does. -/
theorem holdMarkRule_eq (s : State) :
    holdMarkRule s =
      if s.store.mode = .stream ∧ s.store.free ≤ s.params.flowHold ∧ s.store.flowHeld = false then
        { s with
          store := { s.store with flowHeld := true }
          link := { s.link with marks := s.link.marks ++ [.hold] } }
      else s := by
  unfold holdMarkRule
  by_cases h : s.store.mode = .stream ∧ s.store.free ≤ s.params.flowHold ∧ s.store.flowHeld = false
  · rw [if_pos (by simp [h]), if_pos h]
    rfl
  · rw [if_neg (by simpa [and_assoc] using h), if_neg h]

theorem accept_size (seg : Segment) (st : Store) : (st.accept seg).size = st.size := rfl

/-- R21, R27: the free count after an acceptance. -/
theorem accept_free {st : Store} (seg : Segment) (h : slotsWf st.slots = true) :
    (st.accept seg).free = st.size - ((st.slots.filter fun e => e.1 ≠ st.writePtr).length + 1) := by
  unfold Store.free Store.occupied
  rw [accept_size]
  show st.size - (slotPut st.slots st.writePtr _).length = _
  rw [(slotPut_perm _ _ h).length_eq, List.length_cons]

/-- R38: the path ahead with an accepted record. -/
theorem pathAhead_accept {s u : State} {seg : Segment} (h : slotsWf s.store.slots = true)
    (hu : u.store.slots = (s.store.accept seg).slots) (hp : u.interp.p = s.interp.p) :
    pathAhead u =
      ((s.store.slots.filter fun e => e.1 ≠ s.store.writePtr).map fun e =>
        if e.2.state = .active then
          if e.2.seg.kind.moving then (e.2.seg.length * 1000 - s.interp.p + 999) / 1000 else 0
        else e.2.seg.length).sum + seg.length := by
  rw [pathAhead_eq, hu, hp]
  show ((slotPut s.store.slots s.store.writePtr _).map _).sum = _
  rw [((slotPut_perm _ _ h).map _).sum_eq, List.map_cons, List.sum_cons, Nat.add_comm]
  rfl

/-- R27, R35, R38: what the acceptance of a record leaves of the Store and the Link, the slots apart. -/
theorem acceptRecord_parts (seg : Segment) (s : State) :
    let few := s.store.mode = .stream ∧ (s.store.accept seg).free ≤ s.params.flowHold
    let accepted := s.mapStore (Store.accept seg)
    let u := holdMarkRule accepted
    (acceptRecord seg s).store =
        { s.store.accept seg with
          slots := (acceptRecord seg s).store.slots
          flowHeld := s.store.flowHeld || decide few
          armed := (lowWater u).store.armed } ∧
      u.store = { s.store.accept seg with flowHeld := s.store.flowHeld || decide few } ∧
      u.link =
        { s.link with marks := if s.store.flowHeld = false ∧ few then s.link.marks ++ [.hold] else s.link.marks } ∧
      u.params = s.params ∧ u.interp = s.interp ∧
      (acceptRecord seg s).link = (lowWater u).link ∧ acceptRecord seg s = replan none (lowWater u) := by
  intro few accepted u
  have hk : Keeps [.store, .link] accepted u := holdMarkRule_keeps accepted
  have hu : u.store = { s.store.accept seg with flowHeld := s.store.flowHeld || decide few } ∧
      u.link =
        { s.link with marks := if s.store.flowHeld = false ∧ few then s.link.marks ++ [.hold] else s.link.marks } := by
    have he : u = if accepted.store.mode = .stream ∧ accepted.store.free ≤ accepted.params.flowHold ∧
        accepted.store.flowHeld = false then _ else _ := holdMarkRule_eq accepted
    by_cases hf : s.store.flowHeld = true
    · rw [he, if_neg fun h => by
        have h3 : s.store.flowHeld = false := h.2.2
        rw [hf] at h3
        exact absurd h3 (by decide), if_neg fun h => by
        rw [hf] at h
        exact absurd h.1 (by decide), hf]
      exact ⟨by rw [Bool.true_or, ← hf]; rfl, rfl⟩
    · have hf : s.store.flowHeld = false := Bool.not_eq_true _ |>.mp hf
      by_cases hw : few
      · rw [he, if_pos ⟨hw.1, hw.2, hf⟩, if_pos ⟨hf, hw⟩, decide_eq_true hw, Bool.or_true]
        exact ⟨rfl, rfl⟩
      · rw [he, if_neg fun h => hw ⟨h.1, h.2.1⟩, if_neg fun h => hw h.2, decide_eq_false hw, Bool.or_false]
        exact ⟨rfl, rfl⟩
  refine ⟨?_, hu.1, hu.2, hk .params (by decide), hk .interp (by decide),
      replan_keeps none (lowWater u) .link (by decide), rfl⟩
  show (replan none (lowWater u)).store = _
  rw [replan_store, lowWater_store u, hu.1]
  rfl

/-- R155: an acceptance in STARVED. -/
theorem starvedAcceptance_eq {s : State} (h : s.job.state = .starved) :
    (starvedAcceptance s).stroke = s.stroke.spinUp s.params.startDuty ∧
      (starvedAcceptance s).job =
        { s.job with
          state := if (s.stroke.spinUp s.params.startDuty).state = .run ∧ s.interp.startPending = false then .cutting
            else .warmup
          dwell := none } := by
  have hc : ∀ k : State, k = spinUpRequest (s.mapJob fun j => { j with state := .warmup, dwell := none }) →
      (k.job.state = .warmup && k.stroke.state = .run && !k.interp.startPending) =
        decide ((s.stroke.spinUp s.params.startDuty).state = .run ∧ s.interp.startPending = false) := by
    rintro k rfl
    show (true && decide ((s.stroke.spinUp s.params.startDuty).state = .run) && !s.interp.startPending) = _
    cases s.interp.startPending <;> simp
  unfold starvedAcceptance
  rw [if_pos h]
  unfold warmupPassage
  rw [hc _ rfl]
  by_cases hr : (s.stroke.spinUp s.params.startDuty).state = .run ∧ s.interp.startPending = false
  · rw [decide_eq_true hr, if_pos rfl, if_pos hr]
    exact ⟨rfl, rfl⟩
  · rw [decide_eq_false hr, if_neg Bool.false_ne_true, if_neg hr]
    exact ⟨rfl, rfl⟩

/-- R112, R155: the Load Monitor is told of the spin-up request of an acceptance in STARVED. -/
theorem starvedAcceptance_load {s : State} (h : s.job.state = .starved) :
    (starvedAcceptance s).load = s.load.told s.stroke.state (s.stroke.spinUp s.params.startDuty).state := by
  unfold starvedAcceptance
  rw [if_pos h, show (warmupPassage _).load = _ from warmupPassage_keeps _ .load (by decide)]
  exact strokeTo_load _ _

/-- R26: an APPEND is admitted in IDLE, and in a running STREAM job, with the chain open and a slot free. -/
theorem appendRefusal_none {s : State}
    (h : s.job.state = .idle ∨ s.store.mode = .stream ∧ (s.job.state.holdable = true ∨ s.job.state = .holding))
    (hc : s.store.mode = .stream → s.store.chainClosed = false) (hf : s.store.slots.length < s.store.size) :
    appendRefusal s = none := by
  have h1 : appendByState s = none := by
    unfold appendByState
    rcases h with h | ⟨h, h'⟩
    · rw [h]
    · revert h'
      cases s.job.state <;> simp [h, JobState.holdable]
  have h2 : s.store.free ≠ 0 := by
    unfold Store.free Store.occupied
    omega
  unfold appendRefusal
  rw [h1]
  dsimp only
  cases hm : s.store.mode with
  | stream => simp [firstRefusal, hc hm, h2]
  | repeating => simp [firstRefusal, h2]

end Sys2Proof.Machine
end

