-- ==== Sys2Proof/Laws/Exec.lean ====
section
/-! SUPPORT. Each command's next state as one expression: every command completes. -/

namespace Sys2Proof.Machine

theorem exec_ident (s : State) :
    exec .ident s = .next (takeRequest .ident takeIdent s) := rfl

theorem exec_set (id : Byte) (value : Word) (s : State) :
    exec (.set id value) s = .next (takeRequest (.set id value) (takeSet id value) s) := rfl

theorem exec_get (id : Byte) (s : State) :
    exec (.get id) s = .next (takeRequest (.get id) (takeGet id) s) := rfl

theorem exec_window (first last : Half) (mode : Byte) (s : State) :
    exec (.window first last mode) s = .next (takeRequest (.window first last mode) (takeWindow first last mode) s) := rfl

theorem exec_append (body : List Byte) (s : State) :
    exec (.append body) s = .next (takeRequest (.append body) (takeAppend body) s) := rfl

theorem exec_flush (s : State) :
    exec .flush s = .next (takeRequest .flush takeFlush s) := rfl

theorem exec_slot (index : Half) (s : State) :
    exec (.slot index) s = .next (takeRequest (.slot index) (takeSlot index) s) := rfl

theorem exec_start (passes : Byte) (offX offY : Word) (s : State) :
    exec (.start passes offX offY) s = .next (takeRequest (.start passes offX offY) (takeStart passes offX offY) s) := rfl

theorem exec_hold (s : State) :
    exec .hold s = .next (takeRequest .hold takeHold s) := rfl

theorem exec_resume (s : State) :
    exec .resume s = .next (takeRequest .resume takeResume s) := rfl

theorem exec_abort (s : State) :
    exec .abort s = .next (takeRequest .abort takeAbort s) := rfl

theorem exec_clear (s : State) :
    exec .clear s = .next (takeRequest .clear takeClear s) := rfl

theorem exec_home (axes : Byte) (s : State) :
    exec (.home axes) s = .next (takeRequest (.home axes) (takeHome axes) s) := rfl

theorem exec_move (x y : Word) (c : Half) (s : State) :
    exec (.move x y c) s = .next (takeRequest (.move x y c) (takeMove x y c) s) := rfl

theorem exec_blade (value : Byte) (s : State) :
    exec (.blade value) s = .next (takeRequest (.blade value) (takeBlade value) s) := rfl

theorem exec_status (s : State) :
    exec .status s = .next (takeRequest .status takeStatus s) := rfl

theorem exec_sample (s : State) :
    exec .sample s = .next (takeRequest .sample takeSample s) := rfl

theorem exec_reset (s : State) :
    exec .reset s = .next (takeRequest .reset takeReset s) := rfl

theorem exec_hardwareReset (straps : BitVec 2) (s : State) :
    exec (.hardwareReset straps) s = .next (s.resetTo (.ofStraps straps) straps) := rfl

theorem exec_frameReceived (kind : Byte) (body : List Byte) (s : State) :
    exec (.frameReceived kind body) s = .next (completeFrame kind body s) := rfl

theorem exec_gapTimerExpiry (s : State) :
    exec .gapTimerExpiry s = .next (gapReached s) := rfl

theorem exec_holdFlowMark (s : State) :
    exec .holdFlowMark s = .next (hostMark true s) := rfl

theorem exec_goFlowMark (s : State) :
    exec .goFlowMark s = .next (hostMark false s) := rfl

theorem exec_txFrameStart (s : State) :
    exec .txFrameStart s = .next (txStart s) := rfl

theorem exec_txFrameEnd (s : State) :
    exec .txFrameEnd s = .next (txEnd s) := rfl

theorem exec_flowMarkSend (s : State) :
    exec .flowMarkSend s = .next (s.mapLink Link.sendMark) := rfl

theorem exec_interpolationPeriodExpiry (s : State) :
    exec .interpolationPeriodExpiry s = .next (if s.interp.timer.isSome then interpolationExpiry s else s) := rfl

theorem exec_indexArrival (t : Word) (s : State) :
    exec (.indexArrival t) s = .next (indexTaken t (elapseTo t s)) := rfl

theorem exec_spinupTimerExpiry (s : State) :
    exec .spinupTimerExpiry s = .next (spinupFailed s) := rfl

theorem exec_stallTimerExpiry (s : State) :
    exec .stallTimerExpiry s = .next (stallReached s) := rfl

theorem exec_coastTimerExpiry (s : State) :
    exec .coastTimerExpiry s = .next (coastReached s) := rfl

theorem exec_phaseDelayExpiry (s : State) :
    exec .phaseDelayExpiry s = .next (phaseReached s) := rfl

theorem exec_settlingComplete (s : State) :
    exec .settlingComplete s = .next (settled s) := rfl

theorem exec_measuringComplete (code : BitVec 10) (s : State) :
    exec (.measuringComplete code) s = .next (measured code.toNat s) := rfl

theorem exec_inputRawChange (i : InputId) (active : Bool) (s : State) :
    exec (.inputRawChange i active) s = .next (rawChange i active s) := rfl

theorem exec_filterTimerExpiry (i : InputId) (s : State) :
    exec (.filterTimerExpiry i) s = .next (filterReached i s) := rfl

theorem exec_traversePeriodExpiry (s : State) :
    exec .traversePeriodExpiry s = .next (if s.axes.timer.isSome then traverseExpiry s else s) := rfl

theorem exec_starveDwellExpiry (s : State) :
    exec .starveDwellExpiry s = .next (dwellReached s) := rfl

theorem exec_receivedByte (b : Byte) (stopHigh : Bool) (s : State) :
    exec (.receivedByte b stopHigh) s = .next (receiveByte b stopHigh s) := rfl

theorem exec_stepIssued (a : Axis) (s : State) :
    exec (.stepIssued a) s = .next (s.mapAxes fun u => u.update a (AxisState.issueOne a)) := rfl

end Sys2Proof.Machine
end

