-- ==== Sys2Proof/Laws/Guard.lean ====
section
/-! SUPPORT. What causes, stops and edges do to the Guard Unit: they leave the inputs, and each says what becomes of the
latch and of the job state. -/

namespace Sys2Proof.Machine

set_option Elab.async false

/-- A block outside what an operation touches is unchanged. -/
theorem Keeps.guard {m : List Block} {s t : State} (h : Keeps m s t) (hm : m.contains .guard = false := by rfl) :
    t.guard = s.guard :=
  h .guard fun hb => by simp [List.contains_eq_mem, hb] at hm

/-! ## The ends of a stop -/

theorem stopPath_interp (entered : JobState) (s : State) : (stopPath entered s).interp = s.interp.stopClear := by
  unfold stopPath
  dsimp only
  split
  · rfl
  · exact storeStop_keeps _ .interp (by decide)

/-- R142: a controlled stop ends in IDLE with an empty latch and in FAULT with a cause. -/
theorem enterStopEnd_job (s : State) :
    (enterStopEnd s).job = { s.job with state := if s.guard.latch = 0 then .idle else .fault } := by
  unfold enterStopEnd
  by_cases h : s.guard.latch = 0
  · rw [if_pos h, if_pos h]
    rfl
  · rw [if_neg h, if_neg h]
    rfl

/-- R140: on the way to FAULT the steps left are abandoned. -/
theorem enterStopEnd_axes (s : State) :
    (enterStopEnd s).axes = if s.guard.latch = 0 then s.axes else s.axes.each fun _ ax => { ax with steps := 0 } := by
  unfold enterStopEnd
  by_cases h : s.guard.latch = 0
  · rw [if_pos h, if_pos h]
    rfl
  · rw [if_neg h, if_neg h]
    rfl

/-- R31, R70, R101, R142: what the end of a controlled stop leaves in each part. -/
theorem controlledStopEnd_parts (s : State) :
    (controlledStopEnd s).job = { s.job with state := if s.guard.latch = 0 then .idle else .fault } ∧
      (controlledStopEnd s).stroke = s.stroke.toCoast ∧ (controlledStopEnd s).interp = s.interp.stopClear ∧
      (controlledStopEnd s).gov = s.gov ∧
      (controlledStopEnd s).axes =
        if s.guard.latch = 0 then { s.axes with traverse := none, timer := none }
        else { s.axes.each (fun _ ax => { ax with steps := 0 }) with traverse := none, timer := none } := by
  unfold controlledStopEnd
  extract_lets entered u v w x
  have hg : u.guard = s.guard := (stopPath_keeps _ _ .guard (by decide)).trans (coastRequest_keeps _ .guard (by decide))
  have hj : u.job = s.job := (stopPath_keeps _ _ .job (by decide)).trans (coastRequest_keeps _ .job (by decide))
  have ha : u.axes = s.axes := (stopPath_keeps _ _ .axes (by decide)).trans (coastRequest_keeps _ .axes (by decide))
  have hk : u.stroke = s.stroke.toCoast := stopPath_keeps _ _ .stroke (by decide)
  have hv' : u.gov = s.gov := (stopPath_keeps _ _ .gov (by decide)).trans (coastRequest_keeps _ .gov (by decide))
  have hi : u.interp = s.interp.stopClear := stopPath_interp _ _
  have hq := queueNotice_keeps (.stopped .controlled entered x.guard.latch) x
  refine ⟨?_, ?_, ?_, ?_, ?_⟩
  · rw [show (queueNotice _ _).job = _ from hq .job (by decide), show x.job = _ from enterStopEnd_job v]
    show ({ u.job with state := if u.guard.latch = 0 then _ else _ } : Job) = _
    rw [hg, hj]
  · rw [show (queueNotice _ _).stroke = _ from hq .stroke (by decide)]
    exact (enterStopEnd_keeps v .stroke (by decide)).trans hk
  · rw [show (queueNotice _ _).interp = _ from hq .interp (by decide)]
    exact (enterStopEnd_keeps v .interp (by decide)).trans hi
  · rw [show (queueNotice _ _).gov = _ from hq .gov (by decide)]
    exact (enterStopEnd_keeps v .gov (by decide)).trans hv'
  · rw [show (queueNotice _ _).axes = _ from hq .axes (by decide), show x.axes = _ from enterStopEnd_axes v]
    show (if u.guard.latch = 0 then _ else _) = _
    rw [hg]
    split
    · show ({ u.axes with traverse := none, timer := none } : Axes) = _
      rw [ha]
    · show Axes.each { u.axes with traverse := none, timer := none } _ = _
      rw [ha]
      rfl

/-- R31: what a stop of a job does to the Store, with the GO of a flow state that was HELD. -/
theorem storeStop_parts (s : State) :
    (storeStop s).store =
        (match s.store.mode with
        | .stream =>
          { s.store.clearChain with
            slots := [], writePtr := s.store.winBegin, execPtr := s.store.winBegin, armed := false, flowHeld := false }
        | .repeating => { s.store with slots := slotMap requeue s.store.slots, execPtr := s.store.winBegin }) ∧
      (storeStop s).link.notices = s.link.notices ∧
      (storeStop s).link.marks =
        (match s.store.mode with
        | .stream => if s.store.flowHeld then s.link.marks ++ [.go] else s.link.marks
        | .repeating => s.link.marks) := by
  unfold storeStop
  cases s.store.mode
  · dsimp only
    unfold emptyWindow openFlow
    split
    · next hf => exact ⟨rfl, rfl, (if_pos hf).symm⟩
    · next hf =>
      have hb : s.store.flowHeld = false := Bool.not_eq_true _ |>.mp hf
      refine ⟨?_, rfl, (if_neg hf).symm⟩
      rw [← hb]
      rfl
  · exact ⟨rfl, rfl, rfl⟩

/-- R31, R70: a stop entered from a job. -/
theorem stopPath_job {entered : JobState} (h : entered ≠ .motion) (s : State) :
    stopPath entered s = storeStop (s.mapInterp Interp.stopClear) :=
  if_neg h

/-- R31, R142: what the end of a controlled stop of a job does to the Store, with the GO of a flow state that was HELD,
and the notice it queues. -/
theorem controlledStopEnd_store {s : State} (h : stopEntered s ≠ .motion) :
    (controlledStopEnd s).store =
        (match s.store.mode with
        | .stream =>
          { s.store.clearChain with
            slots := [], writePtr := s.store.winBegin, execPtr := s.store.winBegin, armed := false, flowHeld := false }
        | .repeating => { s.store with slots := slotMap requeue s.store.slots, execPtr := s.store.winBegin }) ∧
      (s.link.notices.length < 16 → (controlledStopEnd s).link.notices =
        s.link.notices ++ [.stopped .controlled (stopEntered s) s.guard.latch]) := by
  unfold controlledStopEnd
  extract_lets entered u v w x
  have hxs : x.store = u.store := enterStopEnd_keeps v .store (by decide)
  have hxl : x.link = u.link := enterStopEnd_keeps v .link (by decide)
  have hxg : x.guard = { u.guard with stop := none } :=
    congrArg (fun g : Guard => { g with stop := none }) (enterStopEnd_keeps v .guard (by decide))
  have hg : u.guard = s.guard := (stopPath_keeps _ _ .guard (by decide)).trans (coastRequest_keeps _ .guard (by decide))
  obtain ⟨hs, hn, -⟩ := storeStop_parts ((coastRequest s).mapInterp Interp.stopClear)
  rw [← stopPath_job h] at hs hn
  refine ⟨?_, fun hl => ?_⟩
  · rw [show (queueNotice _ _).store = _ from queueNotice_keeps _ _ .store (by decide), hxs]
    exact hs
  · rw [(queueNotice_link _ x).2.2, hxl, show u.link.notices = s.link.notices from hn, if_pos hl, hxg]
    dsimp only
    rw [hg]

/-- R142: a controlled stop entered from MOTION ends with the Store and the request queue as they are, and queues
STOPPED. -/
theorem controlledStopEnd_motion {s : State} (h : stopEntered s = .motion) :
    Keeps [.axes, .interp, .stroke, .load, .guard, .job, .link] s (controlledStopEnd s) ∧
      (s.link.notices.length < 16 → (controlledStopEnd s).link.notices =
        s.link.notices ++ [.stopped .controlled .motion s.guard.latch]) := by
  unfold controlledStopEnd
  rw [h]
  extract_lets entered u v w x
  have ku : Keeps [.interp, .stroke, .load] s u := by
    show Keeps _ s (stopPath .motion _)
    unfold stopPath
    rw [if_pos rfl]
    exact (mapInterp_keeps _ _).after (coastRequest_keeps _).mono
  have kv : Keeps [.axes, .interp, .stroke, .load] s v := (mapAxes_keeps _ _).after ku.mono
  have kw : Keeps [.axes, .job, .interp, .stroke, .load] s w := (enterStopEnd_keeps v).after kv.mono
  have kx : Keeps [.axes, .job, .interp, .stroke, .load, .guard] s x := (mapGuard_keeps _ _).after kw.mono
  have hw : w.guard = s.guard := kw .guard (by decide)
  have hx : x.guard.latch = s.guard.latch := by
    show w.guard.latch = _
    rw [hw]
  refine ⟨(queueNotice_keeps _ _).after kx.mono, fun hl => ?_⟩
  rw [(queueNotice_link _ _).2.2, kx .link (by decide), if_pos hl, hx]

/-- R143: what an immediate stop leaves in each part. -/
theorem immediateStop_parts (k : Cause) (s : State) :
    (immediateStop k s).job = { s.job with state := .fault, held := false, dwell := none } ∧
      (immediateStop k s).gov = s.gov.halt ∧ (immediateStop k s).interp = s.interp.stopClear ∧
      (immediateStop k s).stroke = s.stroke.toCoast ∧
      ∀ a, ((immediateStop k s).axes.get a).enable = false ∧ ((immediateStop k s).axes.get a).steps = 0 ∧
        ((immediateStop k s).axes.get a).ref = .unreferenced := by
  unfold immediateStop
  extract_lets entered s1 s2 s3 s4 s5 s6 s7
  have h3 : Keeps [.axes, .link] s2 s3 := (endHome_keeps s2).mono
  have h4 : Keeps [.axes] s3 s4 := (dropEnables_keeps s3).mono
  have hc : Keeps [.stroke, .load] s4 (coastRequest s4) := (coastRequest_keeps s4).mono
  have h5 := stopPath_keeps entered (coastRequest s4)
  have hq := queueNotice_keeps (.stopped .immediate entered s7.guard.latch) s7
  refine ⟨?_, ?_, ?_, ?_, ?_⟩
  · rw [show (queueNotice _ _).job = _ from hq .job (by decide)]
    show ({ s5.job with state := _, held := _, dwell := _ } : Job) = _
    rw [show s5.job = _ from h5 .job (by decide), show (coastRequest s4).job = _ from hc .job (by decide),
      show s4.job = _ from h4 .job (by decide), show s3.job = _ from h3 .job (by decide)]
    rfl
  · rw [show (queueNotice _ _).gov = _ from hq .gov (by decide)]
    show s5.gov = _
    rw [show s5.gov = _ from h5 .gov (by decide), show (coastRequest s4).gov = _ from hc .gov (by decide),
      show s4.gov = _ from h4 .gov (by decide), show s3.gov = _ from h3 .gov (by decide)]
    rfl
  · rw [show (queueNotice _ _).interp = _ from hq .interp (by decide)]
    show s5.interp = _
    rw [show s5.interp = _ from stopPath_interp _ _, show (coastRequest s4).interp = _ from hc .interp (by decide),
      show s4.interp = _ from h4 .interp (by decide), show s3.interp = _ from h3 .interp (by decide)]
    rfl
  · rw [show (queueNotice _ _).stroke = _ from hq .stroke (by decide)]
    show s5.stroke = _
    rw [show s5.stroke = _ from h5 .stroke (by decide)]
    show s4.stroke.toCoast = _
    rw [show s4.stroke = _ from h4 .stroke (by decide), show s3.stroke = _ from h3 .stroke (by decide)]
    rfl
  · rw [show (queueNotice _ _).axes = _ from hq .axes (by decide)]
    show ∀ a, (s5.axes.get a).enable = _ ∧ (s5.axes.get a).steps = _ ∧ (s5.axes.get a).ref = _
    rw [show s5.axes = _ from h5 .axes (by decide), show (coastRequest s4).axes = _ from hc .axes (by decide)]
    intro a
    cases a <;> exact ⟨rfl, rfl, rfl⟩

/-- R132: an immediate stop ends a HOME in progress with the outcome ABORTED for every homing axis. -/
theorem immediateStop_outcome (k : Cause) (s : State) (a : Axis) :
    ((immediateStop k s).axes.get a).outcome =
      if s.axes.home.isSome = true ∧ (s.axes.get a).ref = .homing then .aborted else (s.axes.get a).outcome := by
  unfold immediateStop
  extract_lets entered s1 s2 s3 s4 s5 s6 s7
  rw [show (queueNotice _ _).axes = _ from queueNotice_keeps _ _ .axes (by decide)]
  show (s5.axes.get a).outcome = _
  rw [show s5.axes = _ from stopPath_keeps entered (coastRequest s4) .axes (by decide),
    show (coastRequest s4).axes = _ from coastRequest_keeps _ .axes (by decide)]
  have e : (s4.axes.get a).outcome = (s3.axes.get a).outcome := by cases a <;> rfl
  rw [e]
  show ((endHome s2).axes.get a).outcome = _
  unfold endHome
  rw [show s2.axes = s.axes from rfl]
  cases s.axes.home with
  | none => rfl
  | some w =>
    dsimp only
    rw [show (queueNotice _ _).axes = _ from queueNotice_keeps _ _ .axes (by decide)]
    have h : ∀ ax : AxisState, ax.abortHome.outcome = if ax.ref = .homing then .aborted else ax.outcome := by
      intro ax
      unfold AxisState.abortHome AxisState.searching
      by_cases hr : ax.ref = .homing <;> simp [hr]
    cases a
    · show s.axes.x.abortHome.outcome = _
      rw [h]
      simp [Axes.get]
    · show s.axes.y.abortHome.outcome = _
      rw [h]
      simp [Axes.get]
    · show s.axes.c.abortHome.outcome = _
      rw [h]
      simp [Axes.get]

/-- R101, R143: the Load Monitor is told of the coast request of an immediate stop, and of nothing else. -/
theorem immediateStop_load (k : Cause) (s : State) : (immediateStop k s).load = (coastRequest s).load := by
  unfold immediateStop
  extract_lets entered s1 s2 s3 s4 s5 s6 s7
  have h3 : Keeps [.axes, .link] s2 s3 := (endHome_keeps s2).mono
  have h4 : Keeps [.axes] s3 s4 := (dropEnables_keeps s3).mono
  rw [show (queueNotice _ _).load = _ from queueNotice_keeps _ _ .load (by decide)]
  show s5.load = _
  rw [show s5.load = _ from stopPath_keeps entered (coastRequest s4) .load (by decide)]
  show Load.strokeChanged s4.stroke.state s4.stroke.toCoast.state s4.load = _
  rw [show s4.stroke = _ from h4 .stroke (by decide), show s3.stroke = _ from h3 .stroke (by decide),
    show s4.load = _ from h4 .load (by decide), show s3.load = _ from h3 .load (by decide)]
  rfl

/-- R101, R142: the Load Monitor is told of the coast request of a controlled stop's end, and of nothing else. -/
theorem controlledStopEnd_load (s : State) : (controlledStopEnd s).load = (coastRequest s).load := by
  unfold controlledStopEnd
  extract_lets entered u v w x
  rw [show (queueNotice _ x).load = _ from queueNotice_keeps _ _ .load (by decide)]
  exact (enterStopEnd_keeps v .load (by decide)).trans (stopPath_keeps _ _ .load (by decide))

/-! ## Inputs -/

@[simp] theorem latchCause_inputs (k : Cause) (s : State) : (latchCause k s).guard.inputs = s.guard.inputs := rfl

@[simp] theorem controlledStop_inputs (s : State) : (controlledStop s).guard.inputs = s.guard.inputs := rfl

theorem controlledStopEnd_guard (s : State) : (controlledStopEnd s).guard = { s.guard with stop := none } := by
  unfold controlledStopEnd
  dsimp only
  rw [(queueNotice_keeps _ _).guard, mapGuard_guard, (enterStopEnd_keeps _).guard, mapAxes_guard,
    (stopPath_keeps _ _).guard, (coastRequest_keeps _).guard]

/-- R143: an immediate stop adds its cause to the latch and ends the stop in progress. -/
theorem immediateStop_guard (k : Cause) (s : State) :
    (immediateStop k s).guard = { s.guard with latch := s.guard.latch ||| k.mask, stop := none } := by
  unfold immediateStop
  dsimp only
  rw [(queueNotice_keeps _ _).guard, mapGuard_guard, mapJob_guard, (stopPath_keeps _ _).guard,
    (coastRequest_keeps _).guard, (dropEnables_keeps _).guard, (endHome_keeps _).guard, mapGov_guard]
  rfl

/-- R132: the end of a HOME in progress, its axes and its notice. -/
theorem endHome_parts (s : State) :
    (endHome s).axes =
        (match s.axes.home with
        | none => s.axes
        | some _ => { s.axes.each (fun _ ax => ax.abortHome) with home := none }) ∧
      (endHome s).link.marks = s.link.marks ∧
      (s.link.notices.length < 16 → (endHome s).link.notices =
        s.link.notices ++ (s.axes.home.map fun w => homedNotice w (endHome s).axes).toList) := by
  unfold endHome
  cases s.axes.home with
  | none => exact ⟨rfl, rfl, fun _ => (List.append_nil _).symm⟩
  | some w =>
    dsimp only
    have ha := queueNotice_keeps (homedNotice w (s.mapAxes fun u => { u.each (fun _ ax => ax.abortHome) with
      home := none }).axes) (s.mapAxes fun u => { u.each (fun _ ax => ax.abortHome) with home := none }) .axes (by decide)
    refine ⟨ha, (queueNotice_link _ _).2.1, fun hl => ?_⟩
    rw [ha, (queueNotice_link _ _).2.2]
    exact if_pos hl

/-- R31, R132, R143: what an immediate stop leaves in the axes, in the Store and in the Link. -/
theorem immediateStop_stops (k : Cause) (s : State) :
    let entered := stopEntered s
    let t := immediateStop k s
    t.axes.home = none ∧ t.axes.traverse = none ∧ t.axes.timer = none ∧
    (entered = .motion → t.store = s.store ∧ t.link.marks = s.link.marks) ∧
    (entered ≠ .motion →
      t.store =
        (match s.store.mode with
        | .stream =>
          { s.store.clearChain with
            slots := [], writePtr := s.store.winBegin, execPtr := s.store.winBegin, armed := false, flowHeld := false }
        | .repeating => { s.store with slots := slotMap requeue s.store.slots, execPtr := s.store.winBegin }) ∧
      t.link.marks =
        (match s.store.mode with
        | .stream => if s.store.flowHeld then s.link.marks ++ [.go] else s.link.marks
        | .repeating => s.link.marks)) ∧
    (s.link.notices.length < 15 → t.link.notices =
      s.link.notices ++ (s.axes.home.map fun w => homedNotice w t.axes).toList ++
        [.stopped .immediate entered (s.guard.latch ||| k.mask)]) := by
  intro entered t
  have hg : t.guard = _ := immediateStop_guard k s
  have e : t = immediateStop k s := rfl
  unfold immediateStop at e
  extract_lets s1 s2 s3 s4 s5 s6 s7 at e
  obtain ⟨ha3, hm3, hn3⟩ := endHome_parts s2
  have h3s : s3.store = s.store := endHome_keeps s2 .store (by decide)
  have h5a : s5.axes = s4.axes := (stopPath_keeps _ _ .axes (by decide)).trans (coastRequest_keeps _ .axes (by decide))
  have hta : t.axes = s4.axes := by
    rw [e, show (queueNotice _ _).axes = _ from queueNotice_keeps _ _ .axes (by decide)]
    exact h5a
  have hts : t.store = s5.store := by
    rw [e, show (queueNotice _ _).store = _ from queueNotice_keeps _ _ .store (by decide)]
    rfl
  have htm : t.link.marks = s5.link.marks := by
    rw [e, (queueNotice_link _ _).2.1]
    rfl
  have h7 : s7.guard.latch = s.guard.latch ||| k.mask := by
    have : t.guard = s7.guard := by rw [e]; exact queueNotice_keeps _ _ .guard (by decide)
    rw [← this, hg]
  have hjob := fun h : entered ≠ .motion =>
    (show s5 = storeStop ((coastRequest s4).mapInterp Interp.stopClear) from stopPath_job h _)
  have hmove : entered = .motion → s5 = (coastRequest s4).mapInterp Interp.stopClear := fun h => if_pos h
  refine ⟨?_, ?_, ?_, fun h => ?_, fun h => ?_, fun hl => ?_⟩
  · rw [hta]
    show s3.axes.home = none
    rw [ha3, show s2.axes = s.axes from rfl]
    cases hh : s.axes.home with
    | none => exact hh
    | some w => rfl
  · rw [hta]
    rfl
  · rw [hta]
    rfl
  · rw [hts, htm, hmove h]
    exact ⟨h3s, hm3⟩
  · obtain ⟨hs, -, hm⟩ := storeStop_parts ((coastRequest s4).mapInterp Interp.stopClear)
    rw [← hjob h, show ((coastRequest s4).mapInterp Interp.stopClear).store = s.store from h3s] at hs hm
    rw [show ((coastRequest s4).mapInterp Interp.stopClear).link.marks = s.link.marks from hm3] at hm
    rw [hts, htm]
    exact ⟨hs, hm⟩
  · have hn5 : s5.link.notices = s3.link.notices := by
      by_cases h : entered = .motion
      · rw [hmove h]
        rfl
      · rw [hjob h, (storeStop_parts _).2.1]
        rfl
    have hlen : s5.link.notices.length < 16 := by
      rw [hn5, hn3 (Nat.lt_of_lt_of_le hl (by decide)), show s2.link.notices = s.link.notices from rfl, List.length_append]
      have : (s2.axes.home.map fun w => homedNotice w (endHome s2).axes).toList.length ≤ 1 := by
        cases s2.axes.home <;> simp
      omega
    have hnot : ∀ w, homedNotice w t.axes = homedNotice w s3.axes := by
      intro w
      rw [hta]
      unfold homedNotice
      congr 1
    simp only [hnot]
    rw [e, (queueNotice_link _ _).2.2]
    show (if s5.link.notices.length < 16 then s5.link.notices ++ _ else _) = _
    rw [if_pos hlen, hn5, hn3 (Nat.lt_of_lt_of_le hl (by decide)), show s2.link.notices = s.link.notices from rfl, h7]
    rfl

/-- R145: a cause that puts an idle job in FAULT is in the latch. -/
theorem faultFromIdle_guard (cat : Category) (k : Cause) (s : State) :
    (faultFromIdle cat k s).guard = { s.guard with latch := s.guard.latch ||| k.mask } := by
  unfold faultFromIdle
  dsimp only
  rw [(queueNotice_keeps _ _).guard, (setJobState_keeps _ _).guard, (abandonSteps_keeps _).guard,
      (coastRequest_keeps _).guard]
  rfl

/-- R145: what a cause that puts an idle job in FAULT leaves in each part, and the notice it queues. -/
theorem faultFromIdle_parts (cat : Category) (k : Cause) (s : State) :
    (faultFromIdle cat k s).job = { s.job with state := .fault } ∧
      (faultFromIdle cat k s).stroke = s.stroke.toCoast ∧ (faultFromIdle cat k s).load = (coastRequest s).load ∧
      (faultFromIdle cat k s).axes = s.axes.each (fun _ ax => { ax with steps := 0 }) ∧
      (faultFromIdle cat k s).link.requests = s.link.requests ∧
      (s.link.notices.length < 16 → (faultFromIdle cat k s).link.notices =
        s.link.notices ++ [.stopped cat .idle (s.guard.latch ||| k.mask)]) := by
  unfold faultFromIdle
  extract_lets u
  have hq := queueNotice_keeps (.stopped cat .idle u.guard.latch) u
  refine ⟨?_, ?_, ?_, ?_, (queueNotice_link _ u).1, fun hl => ?_⟩
  · rw [show (queueNotice _ _).job = _ from hq .job (by decide)]
    rfl
  · rw [show (queueNotice _ _).stroke = _ from hq .stroke (by decide)]
    rfl
  · rw [show (queueNotice _ _).load = _ from hq .load (by decide)]
    rfl
  · rw [show (queueNotice _ _).axes = _ from hq .axes (by decide)]
    rfl
  · rw [(queueNotice_link _ u).2.2]
    exact if_pos hl

theorem causeInFault_guard (cat : Category) (k : Cause) (s : State) :
    (causeInFault cat k s).guard = { s.guard with latch := s.guard.latch ||| k.mask } := by
  unfold causeInFault
  dsimp only
  split
  · rfl
  · rw [(coastRequest_keeps _).guard]
    split
    · rw [(dropEnables_keeps _).guard]
      rfl
    · rfl

/-- R143 to R145: the three ways a cause of the immediate category acts. -/
theorem takeCause_immediate_eq (k : Cause) (s : State) :
    takeCause .immediate k s =
      if s.job.state = .idle then faultFromIdle .immediate k (dropEnables s)
      else if s.job.state = .fault then causeInFault .immediate k s
      else immediateStop k s := by
  unfold takeCause
  cases s.job.state <;> rfl

/-- R140, R143 to R145: what a cause of the immediate category leaves, in every job state. -/
theorem takeCause_immediate (k : Cause) (s : State) :
    (takeCause .immediate k s).job.state = .fault ∧
      (takeCause .immediate k s).guard.latch = s.guard.latch ||| k.mask ∧
      (takeCause .immediate k s).stroke = s.stroke.toCoast ∧
      (takeCause .immediate k s).load = (coastRequest s).load ∧
      (s.job.state ≠ .fault → ∀ a, ((takeCause .immediate k s).axes.get a).enable = false ∧
        ((takeCause .immediate k s).axes.get a).steps = 0 ∧
        ((takeCause .immediate k s).axes.get a).ref = .unreferenced) := by
  rw [takeCause_immediate_eq]
  split
  · obtain ⟨hj, hk, hl, ha, -, -⟩ := faultFromIdle_parts .immediate k (dropEnables s)
    refine ⟨congrArg Job.state hj, congrArg Guard.latch (faultFromIdle_guard .immediate k (dropEnables s)), hk, hl,
      fun _ a => ?_⟩
    rw [ha]
    cases a <;> exact ⟨rfl, rfl, rfl⟩
  · split
    · next hs =>
      refine ⟨?_, congrArg Guard.latch (causeInFault_guard .immediate k s), ?_, ?_, fun h => absurd hs h⟩
      · unfold causeInFault
        dsimp only
        rw [show (coastRequest _).job = _ from coastRequest_keeps _ .job (by decide)]
        split
        · exact hs
        · exact hs
      · unfold causeInFault
        dsimp only
        split <;> rfl
      · unfold causeInFault
        dsimp only
        split <;> rfl
    · obtain ⟨hj, -, -, hk, ha⟩ := immediateStop_parts k s
      exact ⟨congrArg Job.state hj, congrArg Guard.latch (immediateStop_guard k s), hk, immediateStop_load k s,
          fun _ => ha⟩

theorem causeInIdle_inputs (cat : Category) (k : Cause) (s : State) :
    (causeInIdle cat k s).guard.inputs = s.guard.inputs := by
  unfold causeInIdle
  split
  · rw [faultFromIdle_guard, (dropEnables_keeps _).guard]
  · split
    · rw [faultFromIdle_guard]
    · split
      · rw [faultFromIdle_guard]
      · rfl
    all_goals rfl

/-- R140: no cause changes an input. -/
@[simp] theorem takeCause_inputs (cat : Category) (k : Cause) (s : State) :
    (takeCause cat k s).guard.inputs = s.guard.inputs := by
  have hi : (immediateStop k s).guard.inputs = s.guard.inputs := by rw [immediateStop_guard]
  unfold takeCause
  split
  · exact causeInIdle_inputs cat k s
  · rw [causeInFault_guard]
  · split
    · exact hi
    · rfl
  all_goals
    split
    · exact hi
    · rfl

/-- R136: no action of an edge changes an input. -/
@[simp] theorem edgeAction_inputs (i : InputId) (active : Bool) (s : State) :
    (edgeAction i active s).guard.inputs = s.guard.inputs := by
  unfold edgeAction activationAction releaseAction
  split
  · split
    · rfl
    · rw [(queueNotice_keeps _ _).guard]
    · split
      · rw [(holdRequest_keeps _).guard]
      · rw [(queueNotice_keeps _ _).guard]
    · exact takeCause_inputs _ _ s
    · exact takeCause_inputs _ _ s
  · split
    · rw [(queueNotice_keeps _ _).guard]
    · rfl

/-- R136: an accepted level changes no input beside its acceptance. -/
@[simp] theorem levelEffects_inputs (i : InputId) (active : Bool) (s : State) :
    (levelEffects i active s).guard.inputs = s.guard.inputs := by
  unfold levelEffects
  split
  · exact edgeAction_inputs i active s
  · split
    · cases hq : (if active then decide ((s.guard.input i).action = .ignore) else !(s.guard.input i).notifyRelease)
      · simp only [Bool.false_eq_true, if_false]
        split
        · rw [edgeAction_inputs, (reportToAxis_keeps _ _ _).guard]
        · rw [(reportToAxis_keeps _ _ _).guard, edgeAction_inputs]
      · simp only [if_true]
        rw [(reportToAxis_keeps _ _ _).guard]
    · exact edgeAction_inputs i active s

/-- R135: the raw level is accepted and the timer stops. -/
theorem filterEnds_input (i j : InputId) (s : State) :
    (filterEnds i s).guard.input j =
      if j = i then { s.guard.input i with accepted := (s.guard.input i).raw, timer := none } else s.guard.input j := by
  unfold filterEnds
  dsimp only
  split
  · next h =>
    rw [mapGuard_guard, input_updateInput, ← h]
  · unfold acceptLevel Guard.input
    dsimp only
    rw [levelEffects_inputs, mapGuard_guard]
    exact input_updateInput s.guard i j _

end Sys2Proof.Machine
end

