-- ==== Sys2Proof/Laws/Homing.lean ====
section
/-! SUPPORT. The traverse period: what a period of homing gives each axis, the judgement of a HOME, and the hand-over of a
MOVE. -/

namespace Sys2Proof.Machine

set_option Elab.async false

/-! ## One homing axis -/

theorem issueRest_standing (a : Axis) (ax : AxisState) : ax.issueRest a = ax.standing a := by
  cases a <;> rfl

/-- R122, R123, R128: a homing axis is handed a target `n` counts away in the direction of its phase. -/
theorem homeMove_moved {prm : Params} {a : Axis} {negative : Bool} {v limit : Nat} {ax : AxisState}
    (hr : ax.ref ≠ .referenced) (hn : negative = true ↔ ax.phase = .search ∨ ax.phase = .brake) :
    (ax.standing a).homeMove prm a negative v limit = ax.homeMoved a v (min (ax.moved + v) limit) := by
  have hl : ∀ t : Int, limitTarget prm a (ax.standing a) t = t := by
    intro t
    unfold limitTarget
    split
    · rfl
    · exact if_neg hr
  unfold AxisState.homeMove AxisState.homeMoved AxisState.hand
  dsimp only
  rw [hl]
  have hm : (ax.standing a).moved = ax.moved := rfl
  rw [hm]
  generalize hk : ((roundNat (min (ax.moved + v) limit) 1000 : Nat) : Int) - roundNat ax.moved 1000 = n
  have hs : stepCount a (ax.standing a).pos
      (if negative = true then (ax.standing a).pos - n else (ax.standing a).pos + n) =
      (match a with
      | .x => if ax.phase = .search ∨ ax.phase = .brake then -n else n
      | .y => if ax.phase = .search ∨ ax.phase = .brake then -n else n
      | .c =>
        if (if ax.phase = .search ∨ ax.phase = .brake then -n else n) % 36000 ≤ 18000 then
          (if ax.phase = .search ∨ ax.phase = .brake then -n else n) % 36000
        else (if ax.phase = .search ∨ ax.phase = .brake then -n else n) % 36000 - 36000) := by
    generalize (ax.standing a).pos = p
    by_cases hp : ax.phase = .search ∨ ax.phase = .brake
    · rw [if_pos (hn.mpr hp), if_pos hp]
      cases a
      · show p - n - p = -n
        omega
      · show p - n - p = -n
        omega
      · show turn (mod36000 p) (mod36000 (p - n)) = _
        unfold turn mod36000
        dsimp only
        split <;> split <;> omega
    · rw [if_neg (fun h => hp (hn.mp h)), if_neg hp]
      cases a
      · show p + n - p = n
        omega
      · show p + n - p = n
        omega
      · show turn (mod36000 p) (mod36000 (p + n)) = _
        unfold turn mod36000
        dsimp only
        split <;> split <;> omega
  rw [hs]
  cases a <;> rfl

/-- R128: a period of SEARCH. -/
theorem homeStep_search {prm : Params} {a : Axis} {active : Bool} {ax : AxisState} (hr : ax.ref = .homing)
    (hp : ax.phase = .search) :
    (ax.standing a).homeStep prm a active =
      let whole := prm.homeSearch * 1000
      let v := min prm.homeFeed
        (min (ax.speed + prm.accel) (isqrt (2000 * prm.accel * ((whole - ax.moved + 999) / 1000))))
      if whole ≤ ax.moved + v then (ax.homeMoved a v whole).failedWith .search else ax.homeMoved a v (ax.moved + v) := by
  unfold AxisState.homeStep
  rw [show (ax.standing a).phase = .search from hp]
  dsimp only
  rw [homeMove_moved (by rw [hr]; decide) (by simp [hp])]
  show (if prm.homeSearch * 1000 ≤ (min (ax.moved + _) _) then _ else _) = _
  generalize hv : min prm.homeFeed _ = v
  have hv' : min prm.homeFeed
      (min (ax.speed + prm.accel) (isqrt (2000 * prm.accel * ((prm.homeSearch * 1000 - ax.moved + 999) / 1000)))) = v :=
    hv
  rw [hv']
  by_cases h : prm.homeSearch * 1000 ≤ ax.moved + v
  · rw [if_pos (by omega), if_pos h, Nat.min_eq_right h]
    rfl
  · rw [if_neg (by omega), if_neg h, Nat.min_eq_left (by omega)]

/-- R128: a period of BRAKE. -/
theorem homeStep_brake {prm : Params} {a : Axis} {active : Bool} {ax : AxisState} (hr : ax.ref = .homing)
    (hp : ax.phase = .brake) :
    (ax.standing a).homeStep prm a active =
      let v := ax.speed - prm.accel
      if v = 0 then
        { ax.homeMoved a 0 ax.moved with phase := if active then .backoff else .backoffSeek, moved := 0 }
      else ax.homeMoved a v (ax.moved + v) := by
  unfold AxisState.homeStep
  rw [show (ax.standing a).phase = .brake from hp]
  dsimp only
  rw [homeMove_moved (by rw [hr]; decide) (by simp [hp])]
  rw [show (ax.standing a).speed = ax.speed from rfl, show (ax.standing a).moved = ax.moved from rfl, Nat.min_self]
  by_cases h : ax.speed - prm.accel = 0
  · rw [if_pos h, if_pos h, h]
    rfl
  · rw [if_neg h, if_neg h]

/-- R128: a period of BACKOFF_SEEK or BACKOFF. -/
theorem homeStep_backoff {prm : Params} {a : Axis} {active : Bool} {ax : AxisState} (hr : ax.ref = .homing)
    (hp : ax.phase = .backoffSeek ∨ ax.phase = .backoff) :
    (ax.standing a).homeStep prm a active =
      let v := min 200 (ax.speed + prm.accel)
      if 2000000 ≤ ax.moved + v then (ax.homeMoved a v (ax.moved + v)).failedWith .switch
      else ax.homeMoved a v (ax.moved + v) := by
  have e : (ax.standing a).homeStep prm a active = (ax.standing a).backoffMove prm a := by
    unfold AxisState.homeStep
    rw [show (ax.standing a).phase = ax.phase from rfl]
    rcases hp with hp | hp <;> rw [hp]
  rw [e]
  unfold AxisState.backoffMove
  dsimp only
  rw [homeMove_moved (by rw [hr]; decide) (by rcases hp with hp | hp <;> simp [hp])]
  rw [show (ax.standing a).speed = ax.speed from rfl, show (ax.standing a).moved = ax.moved from rfl, Nat.min_self]
  rfl

/-- R132: a period of a homing axis under a controlled stop. -/
theorem homeSlow_moved {prm : Params} {a : Axis} {ax : AxisState} (hr : ax.ref = .homing) :
    (ax.standing a).homeSlow prm a =
      if ax.phase = .search ∨ ax.phase = .brake ∨ ax.phase = .backoffSeek ∨ ax.phase = .backoff then
        ax.homeMoved a (ax.speed - prm.stopDecel) (ax.moved + (ax.speed - prm.stopDecel))
      else ax.standing a := by
  have hm : ∀ negative : Bool, (negative = true ↔ ax.phase = .search ∨ ax.phase = .brake) →
      (ax.standing a).homeMove prm a negative (ax.speed - prm.stopDecel) (ax.moved + (ax.speed - prm.stopDecel)) =
        ax.homeMoved a (ax.speed - prm.stopDecel) (ax.moved + (ax.speed - prm.stopDecel)) := by
    intro negative hn
    rw [homeMove_moved (by rw [hr]; decide) hn, Nat.min_self]
  unfold AxisState.homeSlow
  rw [show (ax.standing a).phase = ax.phase from rfl]
  cases hp : ax.phase
  case none => rfl
  case done => rfl
  case failed => rfl
  case search => exact hm true (by simp [hp])
  case brake => exact hm true (by simp [hp])
  case backoffSeek => exact hm false (by simp [hp])
  case backoff => exact hm false (by simp [hp])

/-! ## The completion of a HOME -/

theorem homeEnded_iff (ax : AxisState) : ax.homeEnded = true ↔ ax.phase = .done ∨ ax.phase = .failed := by
  unfold AxisState.homeEnded
  simp

theorem homeComplete_iff (u : Axes) (w : AxisSet) :
    u.homeComplete w = true ↔ ∀ a, w.has a = true → (u.get a).phase = .done ∨ (u.get a).phase = .failed := by
  have hx : ∀ (b : Bool) (ax : AxisState), (!b || ax.homeEnded) = true ↔ (b = true → ax.phase = .done ∨ ax.phase =
      .failed) := by
    intro b ax
    rw [← homeEnded_iff]
    cases b <;> simp
  unfold Axes.homeComplete
  rw [Bool.and_eq_true, Bool.and_eq_true, hx, hx, hx]
  constructor
  · rintro ⟨⟨h1, h2⟩, h3⟩ a
    cases a
    · exact h1
    · exact h2
    · exact h3
  · exact fun h => ⟨⟨h .x, h .y⟩, h .c⟩

theorem homedNotice_eq (w : AxisSet) (u : Axes) : homedNotice w u = u.homedNotice w := rfl

/-- R129: the judgement of a HOME in progress, and the axes it leaves. -/
theorem finishHome_judged {w : AxisSet} {s : State} (hw : s.axes.home = some w) (hj : s.job.state = .motion)
    (ht : s.axes.timer.isSome = true) :
    s.homeJudged w (finishHome s) ∧ ∀ a, (finishHome s).axes.get a = s.axes.get a := by
  unfold finishHome
  rw [hw]
  dsimp only
  by_cases hc : s.axes.homeComplete w = true
  · rw [if_pos (by simp [hj, hc])]
    have ha : ∀ n u, (queueNotice n u).axes = u.axes := fun n u => queueNotice_keeps n u .axes (by decide)
    have hg : ∀ a, (queueNotice (homedNotice w s.axes)
        (setJobState .idle (s.mapAxes fun u => { u with home := none, timer := none }))).axes.get a = s.axes.get a := by
      intro a
      rw [ha]
      cases a <;> rfl
    refine ⟨⟨fun _ => ?_, fun hn => ?_⟩, hg⟩
    · rw [ha, show (queueNotice _ _).job = _ from queueNotice_keeps _ _ .job (by decide)]
      refine ⟨rfl, rfl, rfl, fun hl => ?_⟩
      rw [(queueNotice_link _ _).2.2]
      exact if_pos hl
    · obtain ⟨a, h1, h2⟩ := hn
      dsimp only at h2
      rw [hg] at h2
      exact absurd ((homeComplete_iff _ _).mp hc a h1) h2
  · rw [if_neg (by simp [hj, hc])]
    refine ⟨⟨fun h => absurd ((homeComplete_iff _ _).mpr h) hc, fun _ => ⟨hw, ht, rfl, rfl⟩⟩, fun _ => rfl⟩

/-- A judgement depends on the job and the Link before it only. -/
theorem homeJudged_congr {w : AxisSet} {s u t : State} (hj : u.job = s.job) (hl : u.link = s.link)
    (h : u.homeJudged w t) : s.homeJudged w t := by
  unfold State.homeJudged at h ⊢
  rw [← hj, ← hl]
  exact h

/-! ## The MOVE -/

/-- R122, R131: the targets of a traverse are handed to the axes at the end of a period. -/
theorem handTraverse_handed (prm : Params) (tr : Traverse) (u : Axes) :
    Axes.handed prm tr.point.x tr.point.y tr.targetC { u with traverse := some tr, timer := some 0 }
      (handTraverse prm tr { u.each AxisState.issueRest with timer := some 0 }) := by
  obtain ⟨-, -, -, h⟩ := handTargets_handed prm tr.point.x tr.point.y tr.targetC u
  refine ⟨rfl, rfl, rfl, fun a => ?_⟩
  have e1 : ({ u with traverse := some tr, timer := some 0 } : Axes).get a = u.get a := by cases a <;> rfl
  have e2 : (handTraverse prm tr { u.each AxisState.issueRest with timer := some 0 }).get a =
      (handTargets prm tr.point.x tr.point.y tr.targetC (u.each AxisState.issueRest)).get a := by cases a <;> rfl
  rw [e1, e2]
  exact h a

/-- What is handed to the axes does not depend on the fields beside them. -/
theorem handed_congr {prm : Params} {x y : Int} {c : Nat} {u u' v v' : Axes} (h : Axes.handed prm x y c u v)
    (hu : ∀ a, u'.get a = u.get a) (hv : ∀ a, v'.get a = v.get a)
    (hf : v'.home = u'.home ∧ v'.traverse = u'.traverse ∧ v'.timer = u'.timer) : Axes.handed prm x y c u' v' := by
  refine ⟨hf.1, hf.2.1, hf.2.2, fun a => ?_⟩
  rw [hu, hv]
  exact h.2.2.2 a

end Sys2Proof.Machine
end

