-- ==== Sys2Proof/Laws/Link.lean ====
section
/-! SUPPORT. The request queue: what judging and marking leave, and what the taking of a request by a ready Link does,
said once for all eighteen requests. -/

namespace Sys2Proof.Machine

set_option Elab.async false

/-- Two updates of the Link that agree on its present value. -/
theorem mapLink_congr {f g : Link → Link} {s : State} (h : f s.link = g s.link) : s.mapLink f = s.mapLink g := by
  unfold State.mapLink
  rw [h]

/-! ## Judging -/

theorem judgeEntry_of_taken {e : Entry} (h : e.mark ≠ .untaken) : judgeEntry e = e := by
  unfold judgeEntry
  split
  · next hm => exact absurd hm h
  · rfl
  · rfl

/-- R165: the Link's judgement leaves an entry untaken only when its block is to take it, and then as it was. -/
theorem judgeEntry_of_untaken {e : Entry} (h : (judgeEntry e).mark = .untaken) : judgeEntry e = e := by
  unfold judgeEntry at h ⊢
  split
  · split <;> simp_all
  · rfl
  · rfl

theorem judgeEntry_kind_body (e : Entry) : (judgeEntry e).kind = e.kind ∧ (judgeEntry e).body = e.body := by
  unfold judgeEntry
  split
  · split <;> exact ⟨rfl, rfl⟩
  · exact ⟨rfl, rfl⟩
  · exact ⟨rfl, rfl⟩

theorem judgeEntries_length (l : List Entry) : (judgeEntries l).length = l.length := by
  induction l with
  | nil => rfl
  | cons e rest ih =>
    unfold judgeEntries
    split
    · rfl
    · simp [ih]

/-- R165: entries that have been taken stand as they are. -/
theorem judgeEntries_taken {l : List Entry} (h : ∀ e ∈ l, e.mark ≠ .untaken) (rest : List Entry) :
    judgeEntries (l ++ rest) = l ++ judgeEntries rest := by
  induction l with
  | nil => rfl
  | cons e l ih =>
    have he := h e List.mem_cons_self
    rw [List.cons_append, judgeEntries, judgeEntry_of_taken he, if_neg he,
      ih fun d hd => h d (List.mem_cons_of_mem _ hd), List.cons_append]

theorem judgeEntries_single (e : Entry) : judgeEntries [e] = [judgeEntry e] := by
  unfold judgeEntries
  split
  · next h => rw [judgeEntry_of_untaken h]
  · rfl

theorem judgeEntries_all_taken {l : List Entry} (h : ∀ e ∈ l, e.mark ≠ .untaken) : judgeEntries l = l := by
  have := judgeEntries_taken h []
  simpa [judgeEntries] using this

/-- R165: the Link's judgement touches nothing but the request queue. -/
theorem judge_eq (l : Link) : l.judge = { l with requests := l.judge.requests } := by
  unfold Link.judge
  split <;> rfl

/-- R165: the Link's judgement leaves every frame as it came. -/
theorem judgeEntries_frames (l : List Entry) :
    (judgeEntries l).map (fun e => (e.kind, e.body)) = l.map fun e => (e.kind, e.body) := by
  induction l with
  | nil => rfl
  | cons e rest ih =>
    unfold judgeEntries
    split
    · rfl
    · rw [List.map_cons, List.map_cons, ih, (judgeEntry_kind_body e).1, (judgeEntry_kind_body e).2]

theorem judge_frames (l : Link) :
    l.judge.requests.map (fun e => (e.kind, e.body)) = l.requests.map fun e => (e.kind, e.body) := by
  unfold Link.judge
  split
  · rfl
  · exact judgeEntries_frames _

theorem judge_length (l : Link) : l.judge.requests.length = l.requests.length := by
  unfold Link.judge
  split
  · rfl
  · exact judgeEntries_length _

/-! ## Marking -/

theorem markFirst_length (m : Mark) (l : List Entry) : (markFirst m l).length = l.length := by
  induction l with
  | nil => rfl
  | cons e rest ih =>
    unfold markFirst
    split
    · rfl
    · simp [ih]

theorem markFirst_taken (m : Mark) {l : List Entry} (h : ∀ e ∈ l, e.mark ≠ .untaken) (rest : List Entry) :
    markFirst m (l ++ rest) = l ++ markFirst m rest := by
  induction l with
  | nil => rfl
  | cons e l ih =>
    rw [List.cons_append, markFirst, if_neg (h e List.mem_cons_self), ih fun d hd => h d (List.mem_cons_of_mem _ hd),
      List.cons_append]

/-! ## The entry to hand next -/

theorem find_untaken_none {l : List Entry} (h : ∀ e ∈ l, e.mark ≠ .untaken) :
    l.find? (fun e => e.mark = .untaken) = none := by
  rw [List.find?_eq_none]
  intro e he
  simpa using h e he

theorem handsNext_of_all_taken {l : Link} (h : ∀ e ∈ l.requests, e.mark ≠ .untaken) (kind : Byte) (body : List Byte) :
    l.handsNext kind body = false := by
  unfold Link.handsNext Link.nextUntaken
  split
  · rfl
  · next e he =>
    split at he
    · cases he
    · rw [find_untaken_none h] at he
      cases he

/-- R162: with room in the queue, a complete frame touches nothing but the request queue. -/
theorem appendRequest_room {s : State} (h : s.link.requests.length < 8) (kind : Byte) (body : List Byte) :
    appendRequest kind body s =
      s.mapLink fun l =>
        { l with
          requests := (Link.judge { s.link with requests := s.link.requests ++ [⟨kind, body, .untaken⟩] }).requests } := by
  unfold appendRequest
  rw [if_pos h]
  apply mapLink_congr
  exact judge_eq _

/-- R162, R165: what a ready Link makes of a complete frame. -/
theorem appendRequest_ready {s : State} (h : s.ready) (kind : Byte) (body : List Byte) :
    appendRequest kind body s =
      s.mapLink fun l => { l with requests := l.requests ++ [judgeEntry ⟨kind, body, .untaken⟩] } := by
  obtain ⟨hs, hl, ht⟩ := h
  unfold appendRequest
  rw [if_pos hl]
  apply mapLink_congr
  unfold Link.judge
  dsimp only
  rw [if_neg (by simp [hs]), judgeEntries_taken ht, judgeEntries_single]

/-! ## Taking -/

theorem entryOf_eq {i : Instr} {kind : Byte} {body : List Byte} (hf : requestFrame i = some (kind, body)) (m : Mark) :
    entryOf i m = [⟨kind, body, m⟩] := by
  unfold entryOf
  rw [hf]

/-- Every request row runs what its block does with it, through the Link. -/
theorem exec_request {i : Instr} {kind : Byte} {body : List Byte} (hf : requestFrame i = some (kind, body)) :
    ∃ take, requestTake i = some take ∧ ∀ s, exec i s = .next (takeRequest i take s) := by
  cases i <;> first | exact ⟨_, rfl, fun _ => rfl⟩ | cases hf

/-- R162: the frame of a request that comes to a ready Link stands untaken. -/
theorem appendRequest_arrived {i : Instr} {kind : Byte} {body : List Byte} {s : State}
    (hf : requestFrame i = some (kind, body)) (hj : judgeRequest kind body = .request i) (h : s.ready) :
    appendRequest kind body s = s.arrived i := by
  have hu : judgeEntry ⟨kind, body, .untaken⟩ = ⟨kind, body, .untaken⟩ := by
    simp [judgeEntry, hj]
  rw [appendRequest_ready h, hu]
  unfold State.arrived
  rw [entryOf_eq hf]

/-- R165: it is the one the Link hands next. -/
theorem arrived_nextUntaken {i : Instr} {kind : Byte} {body : List Byte} {s : State}
    (hf : requestFrame i = some (kind, body)) (h : s.ready) :
    (s.arrived i).link.nextUntaken = some ⟨kind, body, .untaken⟩ := by
  unfold Link.nextUntaken State.arrived
  simp only [mapLink_link, h.1, Bool.false_eq_true, if_false, entryOf_eq hf, List.find?_append,
    find_untaken_none h.2.2]
  simp

/-- R165, log entry 4: a request whose frame stands untaken is taken as one whose frame comes with it. -/
theorem takeRequest_arrived {i : Instr} {kind : Byte} {body : List Byte} (take : State → State × Mark) {s : State}
    (hf : requestFrame i = some (kind, body)) (h : s.ready) :
    takeRequest i take (s.arrived i) = answerNext take (s.arrived i) := by
  have hn : (s.arrived i).link.handsNext kind body = true := by
    unfold Link.handsNext
    rw [arrived_nextUntaken hf h]
    simp
  unfold takeRequest
  rw [hf]
  dsimp only
  rw [if_pos hn, if_pos hn]

/-- R165: a ready Link hands a request to its block on the state with its frame arrived. -/
theorem takeRequest_hands {i : Instr} {kind : Byte} {body : List Byte} (take : State → State × Mark) {s : State}
    (hf : requestFrame i = some (kind, body)) (hj : judgeRequest kind body = .request i) (h : s.ready) :
    takeRequest i take s = answerNext take (s.arrived i) := by
  have hn : (s.arrived i).link.handsNext kind body = true := by
    unfold Link.handsNext
    rw [arrived_nextUntaken hf h]
    simp
  unfold takeRequest
  rw [hf]
  dsimp only
  rw [handsNext_of_all_taken h.2.2, if_neg Bool.false_ne_true, appendRequest_arrived hf hj h, if_pos hn]

/-- R165: what a block leaves when it takes a request on the state with its frame arrived: its own effect, and the entry
last, with the mark it gives, behind the entries of before. -/
theorem answerNext_arrived {i : Instr} {kind : Byte} {body : List Byte} {take : State → State × Mark} {s : State}
    (hf : requestFrame i = some (kind, body)) (h : s.ready)
    (hr : (take (s.arrived i)).1.link.requests = (s.arrived i).link.requests)
    (hm : (take (s.arrived i)).2 ≠ .untaken) :
    answerNext take (s.arrived i) =
      (take (s.arrived i)).1.mapLink fun l => { l with requests := s.link.requests ++ entryOf i (take (s.arrived i)).2 } := by
  have ht := h.2.2
  have hp : markFirst (take (s.arrived i)).2 (s.arrived i).link.requests =
      s.link.requests ++ entryOf i (take (s.arrived i)).2 := by
    unfold State.arrived
    rw [mapLink_link]
    dsimp only
    rw [entryOf_eq hf, entryOf_eq hf, markFirst_taken _ ht]
    simp [markFirst]
  have hd : ∀ e ∈ s.link.requests ++ entryOf i (take (s.arrived i)).2, e.mark ≠ .untaken := by
    intro e he
    rw [entryOf_eq hf] at he
    rcases List.mem_append.mp he with he | he
    · exact ht e he
    · rw [List.mem_singleton.mp he]
      exact hm
  unfold answerNext
  dsimp only
  rw [← hr] at hp
  apply mapLink_congr
  rw [hp]
  unfold Link.judge
  dsimp only
  split
  · rfl
  · rw [judgeEntries_all_taken hd]

/-- R165: the taking of a request by a ready Link. -/
theorem takeRequest_ready {i : Instr} {kind : Byte} {body : List Byte} {take : State → State × Mark} {s : State}
    (hf : requestFrame i = some (kind, body)) (hj : judgeRequest kind body = .request i) (h : s.ready)
    (hr : (take (s.arrived i)).1.link.requests = (s.arrived i).link.requests)
    (hm : (take (s.arrived i)).2 ≠ .untaken) :
    takeRequest i take s =
      (take (s.arrived i)).1.mapLink fun l => { l with requests := s.link.requests ++ entryOf i (take (s.arrived i)).2 } := by
  rw [takeRequest_hands take hf hj h, answerNext_arrived hf h hr hm]

/-- R165: a request that its block answers without an effect of its own leaves its answered entry and nothing else. -/
theorem takeRequest_ready_answer {i : Instr} {kind : Byte} {body : List Byte} {take : State → State × Mark} {s : State}
    {r : Reply} (hf : requestFrame i = some (kind, body)) (hj : judgeRequest kind body = .request i) (h : s.ready)
    (ht : take (s.arrived i) = (s.arrived i, .ready r)) :
    takeRequest i take s = s.withEntry i (.ready r) := by
  rw [takeRequest_ready hf hj h (by rw [ht]) (by rw [ht]; simp), ht]
  rfl

/-! ## The arrival of a frame -/

/-- R165: with every entry taken, nothing waits to be handed. -/
theorem handDue_of_all_taken {s : State} (h : ∀ e ∈ s.link.requests, e.mark ≠ .untaken) : handDue s = s := by
  have hn : s.link.nextUntaken = none := by
    unfold Link.nextUntaken
    rw [find_untaken_none h]
    split <;> rfl
  unfold handDue State.dueRequest
  rw [hn]

/-- R165: a request that comes to a ready Link is taken at once, as its own command takes it. -/
theorem arriveRequest_ready {i : Instr} {kind : Byte} {body : List Byte} {s : State}
    (hf : requestFrame i = some (kind, body)) (hj : judgeRequest kind body = .request i) (h : s.ready) :
    exec i s = .next (arriveRequest kind body s) := by
  obtain ⟨take, ht, he⟩ := exec_request hf
  have hd : handDue (s.arrived i) = answerNext take (s.arrived i) := by
    unfold handDue State.dueRequest
    rw [arrived_nextUntaken hf h]
    dsimp only
    rw [hj]
    dsimp only
    rw [ht]
  unfold arriveRequest
  rw [he, if_pos h.2.1, appendRequest_arrived hf hj h, hd, takeRequest_hands take hf hj h]

end Sys2Proof.Machine
end

