-- ==== Sys2Proof/Laws/Modes.lean ====
section
/-! SUPPORT. What each operation does to the fields the modes of the part turn on: the latch, which of the period timer,
the traverse and its timer, the HOME and the dwell are there, the job state, the held flag, the active slot, the modes of
the job and of the Store, and whether any axis has a step to issue. -/

namespace Sys2Proof.Machine

set_option Elab.async false

/-- The fields `State.modesOk` speaks of. -/
@[ext] structure Modes where
  latch : BitVec 16
  period : Bool
  move : Bool
  home : Bool
  job : JobState
  held : Bool
  dwell : Bool
  active : Option Nat
  jobMode : Mode
  storeMode : Mode
  traversing : Bool
  still : Prop

/-- Those fields of a state. -/
def State.modes (s : State) : Modes where
  latch := s.guard.latch
  period := s.interp.timer.isSome
  move := s.axes.traverse.isSome
  home := s.axes.home.isSome
  job := s.job.state
  held := s.job.held
  dwell := s.job.dwell.isSome
  active := s.interp.active
  jobMode := s.job.mode
  storeMode := s.store.mode
  traversing := s.axes.timer.isSome
  still := ∀ a, (s.axes.get a).steps = 0

/-- `State.modesOk`, said of the fields. -/
structure Modes.ok (v : Modes) : Prop where
  latch : v.latch ≠ 0 → v.job = .stopping ∨ v.job = .fault
  period : v.period = true → v.job.inJob = true
  move : v.move = true → v.job = .motion ∨ v.job = .stopping
  homing : v.home = true → v.job = .motion ∨ v.job = .stopping
  oneMotion : v.move = true → v.home = false
  apart : v.period = true → v.home = false
  held : v.held = true → v.job = .holding
  dwell : v.dwell = true → v.job = .starved
  starved : v.job = .starved → v.active = none
  mode : v.period = true → v.jobMode = v.storeMode
  traversing : v.traversing = true → v.job = .motion ∨ v.job = .stopping
  still : v.job = .fault → v.still

theorem modesOk_iff (s : State) : s.modesOk ↔ s.modes.ok := by
  have hn : s.axes.home.isSome = false ↔ s.axes.home = none := by cases s.axes.home <;> simp
  constructor
  · intro h
    exact ⟨h.latch, h.period, h.move, h.homing, fun e => hn.mpr (h.oneMotion e), fun e => hn.mpr (h.apart e), h.held,
      h.dwell, h.starved, h.mode, h.traversing, h.still⟩
  · intro h
    exact ⟨h.latch, h.period, h.move, h.homing, fun e => hn.mp (h.oneMotion e), fun e => hn.mp (h.apart e), h.held,
      h.dwell, h.starved, h.mode, h.traversing, h.still⟩

/-- What leaves the modes leaves their condition. -/
theorem modesOk_of_modes {s t : State} (e : t.modes = s.modes) (h : s.modesOk) : t.modesOk :=
  (modesOk_iff t).mpr (e ▸ (modesOk_iff s).mp h)

/-- An operation that touches neither the Guard Unit, the Interpolator, the Axis Unit nor the Job Controller, and leaves
the Store's mode, leaves the modes. -/
theorem modes_of_keeps' {m : List Block} {s t : State} (k : Keeps m s t) (hs : t.store.mode = s.store.mode)
    (hm : (m.contains .guard || m.contains .interp || m.contains .axes || m.contains .job) = false := by rfl) :
    t.modes = s.modes := by
  simp only [Bool.or_eq_false_iff, List.contains_eq_mem, decide_eq_false_iff_not] at hm
  obtain ⟨⟨⟨h1, h2⟩, h3⟩, h4⟩ := hm
  unfold State.modes
  rw [show t.guard = s.guard from k .guard h1, show t.interp = s.interp from k .interp h2,
    show t.axes = s.axes from k .axes h3, show t.job = s.job from k .job h4, hs]

/-- An operation that touches neither the Store, the Guard Unit, the Interpolator, the Axis Unit nor the Job Controller
leaves the modes. -/
theorem modes_of_keeps {m : List Block} {s t : State} (k : Keeps m s t)
    (hm : (m.contains .guard || m.contains .interp || m.contains .axes || m.contains .job) = false := by rfl)
    (hs : m.contains .store = false := by rfl) : t.modes = s.modes :=
  modes_of_keeps' k (congrArg Store.mode (show t.store = s.store from k .store (by simpa using hs))) hm

/-! ## The Store's mode -/

theorem lowWater_mode (s : State) : (lowWater s).store.mode = s.store.mode := by
  rw [lowWater_store]

theorem replan_mode (completed : Option Segment) (s : State) : (replan completed s).store.mode = s.store.mode := by
  rw [replan_store]

theorem holdMarkRule_mode (s : State) : (holdMarkRule s).store.mode = s.store.mode := by
  unfold holdMarkRule
  split <;> rfl

theorem openFlow_mode (s : State) : (openFlow s).store.mode = s.store.mode := by
  unfold openFlow
  split <;> rfl

theorem emptyWindow_mode (s : State) : (emptyWindow s).store.mode = s.store.mode :=
  openFlow_mode _

theorem storeStop_mode (s : State) : (storeStop s).store.mode = s.store.mode := by
  unfold storeStop
  split
  · exact emptyWindow_mode s
  · rfl

theorem storeJobEnd_mode (s : State) : (storeJobEnd s).store.mode = s.store.mode := by
  unfold storeJobEnd
  split
  · exact emptyWindow_mode s
  · rfl

theorem partialFlush_mode (s : State) : (partialFlush s).store.mode = s.store.mode := by
  unfold partialFlush
  rw [lowWater_mode, openFlow_mode, mapStore_store]
  unfold Store.partialFlush
  dsimp only
  split
  · rfl
  · split <;> rfl

theorem storeCompletion_mode (seg : Segment) (s : State) : (storeCompletion seg s).store.mode = s.store.mode := by
  rw [(storeCompletion_eq seg s).1]
  exact complete_mode _

theorem acceptRecord_mode (seg : Segment) (s : State) : (acceptRecord seg s).store.mode = s.store.mode := by
  unfold acceptRecord
  rw [replan_mode, lowWater_mode, holdMarkRule_mode]
  rfl

/-! ## Operations -/

theorem modes_mapInterp (f : Interp → Interp) (s : State) (h1 : (f s.interp).timer.isSome = s.interp.timer.isSome)
    (h2 : (f s.interp).active = s.interp.active) : (s.mapInterp f).modes = s.modes := by
  unfold State.modes
  rw [mapInterp_interp, h1, h2]
  rfl

/-- An update of the axes that leaves which motion there is changes no more than their steps. -/
theorem modes_mapAxes (f : Axes → Axes) (s : State) (h1 : (f s.axes).traverse.isSome = s.axes.traverse.isSome)
    (h2 : (f s.axes).home.isSome = s.axes.home.isSome) (h3 : (f s.axes).timer.isSome = s.axes.timer.isSome) :
    (s.mapAxes f).modes = { s.modes with still := ∀ a, ((f s.axes).get a).steps = 0 } := by
  unfold State.modes
  rw [mapAxes_axes, h1, h2, h3]
  rfl

theorem modes_mapGuard (f : Guard → Guard) (s : State) (h : (f s.guard).latch = s.guard.latch) :
    (s.mapGuard f).modes = s.modes := by
  unfold State.modes
  rw [mapGuard_guard, h]
  rfl

theorem modes_mapJob (f : Job → Job) (s : State) :
    (s.mapJob f).modes =
      { s.modes with
        job := (f s.job).state, held := (f s.job).held, dwell := (f s.job).dwell.isSome
        jobMode := (f s.job).mode } := rfl

theorem modes_setJobState (j : JobState) (s : State) : (setJobState j s).modes = { s.modes with job := j } := rfl

theorem modes_queueNotice (n : Notice) (s : State) : (queueNotice n s).modes = s.modes :=
  modes_of_keeps (queueNotice_keeps n s)

theorem modes_strokeTo (f : Stroke → Stroke) (s : State) : (strokeTo f s).modes = s.modes :=
  modes_of_keeps (strokeTo_keeps f s)

theorem modes_latchCause (k : Cause) (s : State) :
    (latchCause k s).modes = { s.modes with latch := s.guard.latch ||| k.mask } := rfl

/-- R124: dropped enables end the MOVE. -/
theorem modes_dropEnables (s : State) :
    (dropEnables s).modes = { s.modes with move := false, traversing := false, still := True } := by
  have h : (∀ a, ((dropEnables s).axes.get a).steps = 0) = True := eq_true fun a => by cases a <;> rfl
  exact Modes.ext rfl rfl rfl rfl rfl rfl rfl rfl rfl rfl rfl h

/-- R132: the end of a HOME. -/
theorem modes_endHome (s : State) : (endHome s).modes = { s.modes with home := false } := by
  unfold endHome
  split
  · next h =>
    unfold State.modes
    rw [h]
    rfl
  · rw [modes_queueNotice]
    have he (ax : AxisState) : ax.abortHome.steps = ax.steps := by
      unfold AxisState.abortHome
      split <;> rfl
    refine Modes.ext rfl rfl rfl rfl rfl rfl rfl rfl rfl rfl rfl (propext (forall_congr' fun a => ?_))
    cases a <;> exact iff_of_eq (congrArg (· = 0) (he _))

theorem modes_stopPath (entered : JobState) (s : State) :
    (stopPath entered s).modes = { s.modes with period := false, active := none } := by
  unfold stopPath
  dsimp only
  split
  · rfl
  · rw [modes_of_keeps' (storeStop_keeps _) (storeStop_mode _)]
    rfl

/-- R141: entry into a controlled stop. -/
theorem modes_controlledStop (s : State) :
    (controlledStop s).modes = { s.modes with job := .stopping, held := false, dwell := false } := rfl

theorem modes_abandonSteps (s : State) : (abandonSteps s).modes = { s.modes with still := True } := by
  have h : (∀ a, ((abandonSteps s).axes.get a).steps = 0) = True := eq_true fun a => by cases a <;> rfl
  exact Modes.ext rfl rfl rfl rfl rfl rfl rfl rfl rfl rfl rfl h

/-- R142: a controlled stop ends in IDLE with an empty latch and in FAULT with a cause. -/
theorem modes_enterStopEnd (s : State) :
    (enterStopEnd s).modes =
      if s.guard.latch = 0 then { s.modes with job := .idle } else { s.modes with job := .fault, still := True } := by
  unfold enterStopEnd
  split
  · rfl
  · rw [modes_setJobState, modes_abandonSteps]

/-- R142: the end of a controlled stop. -/
theorem modes_controlledStopEnd (s : State) :
    (controlledStopEnd s).modes =
      let rest := { s.modes with period := false, active := none, move := false, traversing := false }
      if s.guard.latch = 0 then { rest with job := .idle } else { rest with job := .fault, still := True } := by
  have ha : ∀ x : State, (x.mapAxes fun u => { u with traverse := none, timer := none }).modes =
      { x.modes with move := false, traversing := false } := fun x => by
    have he (a : Axis) : ({ x.axes with traverse := none, timer := none } : Axes).get a = x.axes.get a := by
      cases a <;> rfl
    unfold State.modes
    simp only [mapAxes_axes, he]
    rfl
  unfold controlledStopEnd
  dsimp only
  rw [modes_queueNotice, modes_mapGuard _ _ rfl, modes_enterStopEnd, ha, modes_stopPath,
    modes_of_keeps (coastRequest_keeps s)]
  rw [mapAxes_guard, show (stopPath _ _).guard = _ from (stopPath_keeps _ _) .guard (by decide),
    show (coastRequest _).guard = _ from (coastRequest_keeps _) .guard (by decide)]

/-- R143: the immediate stop. -/
theorem modes_immediateStop (k : Cause) (s : State) :
    (immediateStop k s).modes =
      { s.modes with
        latch := s.guard.latch ||| k.mask, period := false, move := false, home := false, job := .fault, held := false,
        dwell := false, active := none, traversing := false, still := True } := by
  unfold immediateStop
  dsimp only
  rw [modes_queueNotice, modes_mapGuard _ _ rfl, modes_mapJob, modes_stopPath, modes_of_keeps (coastRequest_keeps _),
    modes_dropEnables, modes_endHome]
  have hj : (stopPath (stopEntered s) (coastRequest (dropEnables (endHome ((latchCause k s).mapGov Governor.halt))))).job =
      s.job := by
    rw [show (stopPath _ _).job = _ from (stopPath_keeps _ _) .job (by decide),
      show (coastRequest _).job = _ from (coastRequest_keeps _) .job (by decide),
      show (dropEnables (endHome _)).job = (endHome _).job from rfl,
      show (endHome _).job = _ from (endHome_keeps _) .job (by decide)]
    rfl
  rw [hj]
  rfl

/-- R145: a cause that puts an idle job in FAULT. -/
theorem modes_faultFromIdle (cat : Category) (k : Cause) (s : State) :
    (faultFromIdle cat k s).modes =
      { s.modes with latch := s.guard.latch ||| k.mask, job := .fault, still := True } := by
  unfold faultFromIdle
  dsimp only
  rw [modes_queueNotice, modes_setJobState, modes_abandonSteps, modes_of_keeps (coastRequest_keeps _)]
  rfl

theorem modes_startPivot (s : State) : (startPivot s).modes = s.modes := by
  unfold startPivot
  split <;> rfl

theorem modes_junctionAction (seg : Segment) (s : State) : (junctionAction seg s).modes = s.modes := by
  unfold junctionAction
  split
  · rfl
  · split <;> rfl

/-- R61: a taken segment is the active one. -/
theorem modes_takeSegment (i : Nat) (seg : Segment) (p : Nat) (s : State) :
    (takeSegment i seg p s).modes = { s.modes with active := some i } := by
  unfold takeSegment
  dsimp only
  rw [modes_of_keeps (tagNotice_keeps _ _), modes_junctionAction]
  rfl

theorem modes_targetSegment (seg : Segment) (s : State) : (targetSegment seg s).modes = s.modes := by
  unfold targetSegment
  rfl

theorem modes_snapToEnd (seg : Segment) (s : State) : (snapToEnd seg s).modes = s.modes := by
  unfold snapToEnd
  rfl

/-- R64: after a completion no segment is active. -/
theorem modes_reportCompletion (seg : Segment) (s : State) :
    (reportCompletion seg s).modes = { s.modes with active := none } := by
  unfold reportCompletion
  dsimp only
  show { (storeCompletion seg (s.mapJob (Job.count seg))).modes with active := none } = _
  rw [modes_of_keeps' (storeCompletion_keeps _ _) (storeCompletion_mode _ _)]
  rfl

theorem modes_advanceLink (lk : LinkMove) (s : State) : (advanceLink lk s).modes = s.modes := by
  unfold advanceLink endLink
  dsimp only
  split
  · split
    · rfl
    · exact modes_startPivot _
  · split <;> rfl

theorem modes_elapse (us : Nat) (s : State) : (elapse us s).modes = s.modes := by
  have he (a : Axis) : (elapse us s).axes.get a = s.axes.get a := by
    cases a <;> rfl
  unfold State.modes
  simp only [he]
  unfold elapse runOn
  simp

end Sys2Proof.Machine
end

