-- ==== Sys2Proof/Laws/Quiet.lean ====
section
/-! SUPPORT. What every operation below the request queue keeps, said once: a condition on the state that survives each
update of one block which keeps that block's own condition survives every operation of the part. -/

namespace Sys2Proof.Machine

set_option Elab.async false

/-! ## The conditions of the single blocks -/

/-- The governed feed is within the ceiling (R82). -/
def Governor.ok (g : Governor) : Prop :=
  g.v ≤ 30000 ∧ g.vprev ≤ 30000

/-- The blade is driven only in SPINUP, RUN and IDLE, and cleared at rest (R94, R101, R104, R105). -/
structure Stroke.ok (k : Stroke) : Prop where
  undriven : k.state.driven = false → k.duty = 0
  atRest : k.state = .off ∨ k.state = .stalled → k.index = none ∧ k.m = 0 ∧ k.stallTimer = none
  spinup : k.spinTimer.isSome = true → k.state = .spinup
  duty : k.duty ≤ 1000
  cycle : k.pwmDuty ≤ 1000
  rate : k.m ≤ 9000

/-- The ranges of the Load Monitor (R108, R110, R115). -/
structure Load.ok (m : Load) : Prop where
  acc : m.acc ≤ 8184
  band : m.band ≤ 3
  result : m.result ≤ 1023
  valid : m.inFlight.isSome = true → m.valid = false

/-- An axis that is not enabled is UNREFERENCED (R124). -/
def AxisState.ok (ax : AxisState) : Prop :=
  ax.enable = false → ax.ref = .unreferenced

/-- A position lies in its axis's circle (R123). -/
def onCircle (a : Axis) (pos : Int) : Prop :=
  a = .c → 0 ≤ pos ∧ pos ≤ 35999

/-- Every axis not enabled is UNREFERENCED, and C lies in its circle (R123, R124). -/
def Axes.ok (u : Axes) : Prop :=
  ∀ a, (u.get a).ok ∧ onCircle a (u.get a).pos

/-- The settings of the inputs are as they were. -/
def sameSettings (g g' : Guard) : Prop :=
  ∀ i, (g'.input i).filter = (g.input i).filter ∧ (g'.input i).action = (g.input i).action ∧
    (g'.input i).notifyRelease = (g.input i).notifyRelease

theorem sameSettings_of_inputs {g g' : Guard} (h : g'.inputs = g.inputs) : sameSettings g g' := by
  intro i
  unfold Guard.input
  rw [h]
  exact ⟨rfl, rfl, rfl⟩

theorem sameSettings_update {g : Guard} (i : InputId) {f : InputState → InputState}
    (h : ∀ inp, (f inp).filter = inp.filter ∧ (f inp).action = inp.action ∧ (f inp).notifyRelease = inp.notifyRelease) :
    sameSettings g (g.updateInput i f) := by
  intro j
  rw [input_updateInput]
  split
  · next e => subst e; exact h _
  · exact ⟨rfl, rfl, rfl⟩

/-- A condition on the state that survives every update of one block which keeps the block's own condition, leaves the
parameters, the input settings and the request queue, does not overfill the notice queue, and hands on no request again
once the Link has stopped handing them. -/
structure Quiet (P : State → Prop) : Prop where
  free : ∀ s, P s → P { s with free := s.free + 1 }
  store : ∀ s f, P s → (s.store.wf = true → (f s.store).wf = true) → P (s.mapStore f)
  planner : ∀ s f, P s → (s.planner.spanCount ≤ 64 → (f s.planner).spanCount ≤ 64) → P (s.mapPlanner f)
  interp : ∀ s f, P s → P (s.mapInterp f)
  gov : ∀ s f, P s → (s.gov.ok → (f s.gov).ok) → P (s.mapGov f)
  stroke : ∀ s f, P s → (s.params.startDuty ≤ 1000 → s.stroke.ok → (f s.stroke).ok) → P (s.mapStroke f)
  load : ∀ s f, P s → (s.load.ok → (f s.load).ok) → P (s.mapLoad f)
  axes : ∀ s f, P s → (s.axes.ok → (f s.axes).ok) → P (s.mapAxes f)
  guard : ∀ s f, P s → sameSettings s.guard (f s.guard) → P (s.mapGuard f)
  job : ∀ s f, P s → P (s.mapJob f)
  link : ∀ s f, P s → (f s.link).requests = s.link.requests →
    (s.link.stopped = true → (f s.link).stopped = true) →
    (s.link.notices.length ≤ 16 → (f s.link).notices.length ≤ 16) → P (s.mapLink f)

/-- The request queue stays as it is under every quiet operation. -/
theorem quiet_requests (entries : List Entry) : Quiet fun s => s.link.requests = entries where
  free _ h := h
  store _ _ h _ := h
  planner _ _ h _ := h
  interp _ _ h := h
  gov _ _ h _ := h
  stroke _ _ h _ := h
  load _ _ h _ := h
  axes _ _ h _ := h
  guard _ _ h _ := h
  job _ _ h := h
  link _ _ h h1 _ _ := h1.trans h

/-- The parameters and the input settings stay as they are under every quiet operation. -/
theorem quiet_settings (prm : Params) (g : Guard) : Quiet fun s => s.params = prm ∧ sameSettings g s.guard where
  free _ h := h
  store _ _ h _ := h
  planner _ _ h _ := h
  interp _ _ h := h
  gov _ _ h _ := h
  stroke _ _ h _ := h
  load _ _ h _ := h
  axes _ _ h _ := h
  guard _ _ h hs := ⟨h.1, fun i => ⟨(hs i).1.trans (h.2 i).1, (hs i).2.1.trans (h.2 i).2.1, (hs i).2.2.trans (h.2 i).2.2⟩⟩
  job _ _ h := h
  link _ _ h _ _ _ := h

variable {P : State → Prop}

/-! ## Notices, marks, causes -/

theorem Quiet.queueNotice (q : Quiet P) (n : Notice) {s : State} (h : P s) : P (queueNotice n s) := by
  refine q.link s _ h ?_ ?_ ?_
  · split <;> rfl
  · split <;> exact id
  · split
    · intro _
      simp only [List.length_append, List.length_singleton]
      omega
    · exact id

theorem Quiet.handMark (q : Quiet P) (m : FlowMark) {s : State} (h : P s) : P (handMark m s) :=
  q.link s _ h rfl id id

theorem Quiet.setRxFault (q : Quiet P) {s : State} (h : P s) : P (setRxFault s) :=
  q.link s _ h rfl id id

theorem Quiet.latchCause (q : Quiet P) (k : Cause) {s : State} (h : P s) : P (latchCause k s) :=
  q.guard s _ h (sameSettings_of_inputs rfl)

theorem Quiet.setJobState (q : Quiet P) (j : JobState) {s : State} (h : P s) : P (setJobState j s) :=
  q.job s _ h

/-! ## The Segment Store and the Planner -/

theorem runFrom_length (st : Store) (n i : Nat) : (st.runFrom n i).length ≤ n := by
  induction n generalizing i with
  | zero => exact Nat.le_refl _
  | succ n ih =>
    unfold Store.runFrom
    split
    · exact Nat.zero_le _
    · rw [List.length_cons]
      split
      · simp
      · have := ih (st.after i)
        omega

theorem Quiet.replan (q : Quiet P) (completed : Option Segment) {s : State} (h : P s) : P (replan completed s) := by
  have hc : P (copyDerates s) := by
    unfold Sys2Proof.Machine.copyDerates
    split
    · exact q.planner s _ h id
    · exact h
  have hs := q.store _
    (fun st =>
      { st with
        slots :=
          slotsPut st.slots (plannedSlots (copyDerates s).store.span (spanLegs completed (copyDerates s))
            (backwardPass (copyDerates s).params.accel (spanLegs completed (copyDerates s)))) })
    hc (slotsWf_slotsPut _)
  exact q.planner _
    (fun pl =>
      { pl with
        spanFirst := (copyDerates s).store.spanStart
        spanCount := (copyDerates s).store.span.length
        frontier :=
          match (copyDerates s).store.span.getLast? with
          | some e => e.1
          | none => 0 })
    hs
    fun _ => runFrom_length _ 64 _

theorem Quiet.openFlow (q : Quiet P) {s : State} (h : P s) : P (openFlow s) := by
  unfold Sys2Proof.Machine.openFlow
  split
  · exact q.handMark _ (q.store s _ h id)
  · exact h

theorem Quiet.emptyWindow (q : Quiet P) {s : State} (h : P s) : P (emptyWindow s) :=
  q.openFlow (q.store s _ h fun _ => rfl)

theorem Quiet.holdMarkRule (q : Quiet P) {s : State} (h : P s) : P (holdMarkRule s) := by
  unfold Sys2Proof.Machine.holdMarkRule
  split
  · exact q.handMark _ (q.store s _ h id)
  · exact h

theorem Quiet.goMarkRule (q : Quiet P) {s : State} (h : P s) : P (goMarkRule s) := by
  unfold Sys2Proof.Machine.goMarkRule
  split
  · exact q.openFlow h
  · exact h

theorem Quiet.lowWater (q : Quiet P) {s : State} (h : P s) : P (lowWater s) := by
  unfold Sys2Proof.Machine.lowWater
  split
  · split
    · split
      · exact q.queueNotice _ (q.store s _ h id)
      · exact h
    · split
      · exact q.store s _ h id
      · exact h
  · exact h

theorem wf_complete {st : Store} (h : st.wf = true) : st.complete.wf = true := by
  unfold Store.complete
  split
  · exact slotsWf_slotDrop _ h
  · show slotsWf (match st.slot st.execPtr with | none => st.slots | some sl => slotPut st.slots st.execPtr { sl with
        state := .queued }) = true
    split
    · exact h
    · exact slotsWf_slotPut _ _ h

theorem Quiet.storeCompletion (q : Quiet P) (seg : Segment) {s : State} (h : P s) : P (storeCompletion seg s) := by
  have hs := q.store s Store.complete h wf_complete
  unfold Sys2Proof.Machine.storeCompletion
  dsimp only
  split
  · exact q.replan _ (q.goMarkRule hs)
  · exact q.replan _ hs

theorem Quiet.storeStop (q : Quiet P) {s : State} (h : P s) : P (storeStop s) := by
  unfold Sys2Proof.Machine.storeStop
  split
  · exact q.emptyWindow h
  · exact q.store s _ h (slotsWf_slotMap _)

theorem Quiet.storeJobEnd (q : Quiet P) {s : State} (h : P s) : P (storeJobEnd s) := by
  unfold Sys2Proof.Machine.storeJobEnd
  split
  · exact q.emptyWindow h
  · exact q.store s _ h (slotsWf_slotMap _)

theorem Quiet.acceptRecord (q : Quiet P) (seg : Segment) {s : State} (h : P s) : P (acceptRecord seg s) :=
  q.replan _ (q.lowWater (q.holdMarkRule (q.store s _ h (slotsWf_slotPut _ _))))

theorem Quiet.partialFlush (q : Quiet P) {s : State} (h : P s) : P (partialFlush s) := by
  refine q.lowWater (q.openFlow (q.store s _ h fun hw => ?_))
  unfold Store.partialFlush
  dsimp only
  split
  · exact slotsWf_single _
  · split
    · exact hw
    · rfl

/-! ## The blade's requests and the Load Monitor -/

theorem ok_powerDown {m : Load} (h : m.ok) : m.powerDown.ok :=
  ⟨h.acc, h.band, h.result, fun _ => rfl⟩

theorem ok_powerUp {m : Load} (h : m.ok) : m.powerUp.ok := by
  unfold Load.powerUp
  split
  · exact h
  · exact ⟨h.acc, h.band, h.result, h.valid⟩

theorem ok_startConversion {m : Load} (forLink : Bool) (h : m.ok) : (m.startConversion forLink).ok :=
  ⟨h.acc, h.band, h.result, fun _ => rfl⟩

theorem ok_strokeLeftOff {m : Load} (h : m.ok) : m.strokeLeftOff.ok :=
  ⟨Nat.zero_le _, Nat.zero_le _, (ok_powerUp h).result, (ok_powerUp h).valid⟩

theorem ok_strokeEnteredOff {m : Load} (h : m.ok) : m.strokeEnteredOff.ok := by
  unfold Load.strokeEnteredOff
  split
  · exact ⟨h.acc, h.band, h.result, h.valid⟩
  · exact ⟨h.acc, h.band, h.result, fun _ => rfl⟩

theorem ok_strokeChanged {m : Load} (before now : StrokeState) (h : m.ok) : (m.strokeChanged before now).ok := by
  unfold Load.strokeChanged
  split
  · exact h
  · dsimp only
    have h1 : (if before = .run || now = .run then { m with run := 0 } else m).ok := by
      split
      · exact ⟨h.acc, h.band, h.result, h.valid⟩
      · exact h
    generalize (if before = .run || now = .run then { m with run := 0 } else m) = m1 at h1 ⊢
    have h2 : (if now = .coast || now = .stalled then { m1 with phase := none } else m1).ok := by
      split
      · exact ⟨h1.acc, h1.band, h1.result, h1.valid⟩
      · exact h1
    generalize (if now = .coast || now = .stalled then { m1 with phase := none } else m1) = m2 at h2 ⊢
    have h3 : (if before = .off then m2.strokeLeftOff else m2).ok := by
      split
      · exact ok_strokeLeftOff h2
      · exact h2
    generalize (if before = .off then m2.strokeLeftOff else m2) = m3 at h3 ⊢
    split
    · exact ok_strokeEnteredOff h3
    · exact h3

theorem ok_indexReported {m : Load} (phase : Nat) (h : m.ok) : (m.indexReported phase).ok := by
  unfold Load.indexReported
  split
  · exact ⟨h.acc, h.band, h.result, fun _ => rfl⟩
  · exact ⟨h.acc, h.band, h.result, h.valid⟩

/-- R93: a change of the stroke that keeps its conditions. -/
theorem Quiet.strokeTo (q : Quiet P) {f : Stroke → Stroke} {s : State} (h : P s)
    (hf : s.params.startDuty ≤ 1000 → s.stroke.ok → (f s.stroke).ok) : P (strokeTo f s) :=
  q.load _ (Load.strokeChanged s.stroke.state (f s.stroke).state) (q.stroke s f h hf) (ok_strokeChanged _ _)

theorem ok_spinUp {k : Stroke} {d : Nat} (hd : d ≤ 1000) (h : k.ok) : (k.spinUp d).ok := by
  unfold Stroke.spinUp
  split <;> first | exact h | (refine ⟨?_, ?_, ?_, ?_, h.cycle, ?_⟩ <;> simp_all [StrokeState.driven, h.rate, h.duty])

theorem ok_toIdle {k : Stroke} {d : Nat} (hd : d ≤ 1000) (h : k.ok) : (k.toIdle d).ok := by
  have hs := h.spinup
  unfold Stroke.toIdle
  split <;> first | exact h | (refine ⟨?_, ?_, ?_, ?_, h.cycle, ?_⟩ <;> simp_all [StrokeState.driven, h.rate, h.duty])

theorem ok_enterCoast {k : Stroke} (h : k.ok) : k.enterCoast.ok := by
  refine ⟨fun _ => rfl, ?_, nofun, Nat.zero_le _, h.cycle, h.rate⟩
  rintro (h | h) <;> cases h

theorem ok_toCoast {k : Stroke} (h : k.ok) : k.toCoast.ok := by
  unfold Stroke.toCoast
  split
  · exact ok_enterCoast h
  · exact h

theorem ok_enterOff {k : Stroke} (h : k.ok) : k.enterOff.ok :=
  ⟨fun _ => rfl, fun _ => ⟨rfl, rfl, rfl⟩, nofun, Nat.zero_le _, h.cycle, Nat.zero_le _⟩

theorem ok_enterStalled {k : Stroke} (h : k.ok) : k.enterStalled.ok :=
  ⟨fun _ => rfl, fun _ => ⟨rfl, rfl, rfl⟩, nofun, Nat.zero_le _, h.cycle, Nat.zero_le _⟩

theorem ok_unstall {k : Stroke} (h : k.ok) : k.unstall.ok := by
  unfold Stroke.unstall
  split
  · exact ok_enterOff h
  · exact h

theorem Quiet.spinUpRequest (q : Quiet P) {s : State} (h : P s) : P (spinUpRequest s) :=
  q.strokeTo h ok_spinUp

theorem Quiet.idleRequest (q : Quiet P) {s : State} (h : P s) : P (idleRequest s) :=
  q.strokeTo h ok_toIdle

theorem Quiet.coastRequest (q : Quiet P) {s : State} (h : P s) : P (coastRequest s) :=
  q.strokeTo h fun _ => ok_toCoast

theorem bandOf_le (prm : Params) (y : Nat) : bandOf prm y ≤ 3 := by
  unfold bandOf
  split
  · omega
  · split
    · omega
    · split <;> omega

theorem nextBand_le (prm : Params) {band : Nat} (average : Nat) : nextBand prm band average ≤ 3 := by
  have h1 := bandOf_le prm average
  have h2 := bandOf_le prm (average + prm.hyst)
  unfold nextBand
  omega

theorem Quiet.evaluateBand (q : Quiet P) {s : State} (h : P s) : P (evaluateBand s) := by
  have hm := q.load s (fun m => { m with band := nextBand s.params s.load.band s.load.average }) h
    fun h => ⟨h.acc, nextBand_le _ _, h.result, h.valid⟩
  unfold Sys2Proof.Machine.evaluateBand
  dsimp only
  split
  · exact q.queueNotice _ hm
  · exact hm

/-! ## The Job Controller -/

theorem Quiet.setHeld (q : Quiet P) {s : State} (h : P s) : P (setHeld s) :=
  q.queueNotice _ (q.idleRequest (q.job s _ h))

theorem Quiet.holdRequest (q : Quiet P) {s : State} (h : P s) : P (holdRequest s) := by
  unfold Sys2Proof.Machine.holdRequest
  split
  · exact q.job s _ h
  · exact q.job s _ h
  · exact q.setHeld (q.job s _ h)
  all_goals exact h

theorem Quiet.warmupPassage (q : Quiet P) {s : State} (h : P s) : P (warmupPassage s) := by
  unfold Sys2Proof.Machine.warmupPassage
  split
  · exact q.setJobState _ h
  · exact h

theorem Quiet.becomeStarved (q : Quiet P) {s : State} (h : P s) : P (becomeStarved s) :=
  q.queueNotice _ (q.job s _ h)

theorem Quiet.starvedAcceptance (q : Quiet P) {s : State} (h : P s) : P (starvedAcceptance s) := by
  unfold Sys2Proof.Machine.starvedAcceptance
  split
  · exact q.warmupPassage (q.spinUpRequest (q.job s _ h))
  · exact h

/-! ## The Axis Unit -/

theorem ok_each {u : Axes} {f : Axis → AxisState → AxisState} (h : u.ok)
    (hf : ∀ a ax, ax.ok → onCircle a ax.pos → (f a ax).ok ∧ onCircle a (f a ax).pos) : (u.each f).ok := by
  intro a
  rw [get_each]
  exact hf a _ (h a).1 (h a).2

theorem ok_update {u : Axes} {a : Axis} {f : AxisState → AxisState} (h : u.ok)
    (hf : ∀ ax, ax.ok → onCircle a ax.pos → (f ax).ok ∧ onCircle a (f ax).pos) : (u.update a f).ok := by
  intro b
  rw [get_update]
  split
  · next e => subst e; exact hf _ (h b).1 (h b).2
  · exact h b

/-- The axes' own conditions say nothing of the HOME, the MOVE and the timer. -/
theorem ok_of_axes {u v : Axes} (h : u.ok) (hx : v.x = u.x) (hy : v.y = u.y) (hc : v.c = u.c) : v.ok := by
  intro a
  have e : v.get a = u.get a := by cases a <;> assumption
  rw [e]
  exact h a

theorem onCircle_addSteps (a : Axis) (pos n : Int) : onCircle a (addSteps a pos n) := by
  intro h
  subst h
  show 0 ≤ (pos + n) % 36000 ∧ (pos + n) % 36000 ≤ 35999
  omega

theorem ok_hand (prm : Params) (a : Axis) (target : Int) {ax : AxisState} (h : ax.ok) (hp : onCircle a ax.pos) :
    (ax.hand prm a target).ok ∧ onCircle a (ax.hand prm a target).pos :=
  ⟨h, hp⟩

theorem ok_handTargets (prm : Params) (x y : Int) (c : Nat) {u : Axes} (h : u.ok) : (handTargets prm x y c u).ok := by
  refine ok_each h fun a ax ho hp => ?_
  cases a <;> exact ⟨ho, hp⟩

theorem ok_issueRest {u : Axes} (h : u.ok) : (u.each AxisState.issueRest).ok :=
  ok_each h fun a _ ho _ => ⟨ho, onCircle_addSteps a _ _⟩

theorem ok_issueOne {a : Axis} {ax : AxisState} (h : ax.ok) (hp : onCircle a ax.pos) :
    (ax.issueOne a).ok ∧ onCircle a (ax.issueOne a).pos := by
  unfold AxisState.issueOne
  split
  · exact ⟨h, hp⟩
  · exact ⟨h, onCircle_addSteps a _ _⟩

theorem Quiet.finishHome (q : Quiet P) {s : State} (h : P s) : P (finishHome s) := by
  unfold Sys2Proof.Machine.finishHome
  split
  · exact h
  · split
    · exact q.queueNotice _ (q.setJobState _ (q.axes s _ h fun ho => ok_of_axes ho rfl rfl rfl))
    · exact h

theorem Quiet.finishMove (q : Quiet P) {s : State} (h : P s) : P (finishMove s) := by
  unfold Sys2Proof.Machine.finishMove
  split
  · exact h
  · split
    · exact q.queueNotice _ (q.setJobState _ (q.axes s _ h fun ho => ok_of_axes ho rfl rfl rfl))
    · exact h

theorem ok_fail {a : Axis} {ax : AxisState} (o : HomingOutcome) (hp : onCircle a ax.pos) :
    (ax.fail o).ok ∧ onCircle a (ax.fail o).pos :=
  ⟨fun _ => rfl, hp⟩

theorem ok_homeReported {a : Axis} (active : Bool) {ax : AxisState} (h : ax.ok) (hp : onCircle a ax.pos) :
    (ax.homeReported active).ok ∧ onCircle a (ax.homeReported active).pos := by
  unfold AxisState.homeReported
  split
  · next hs =>
    have hr : ax.ref = .homing := by simpa [AxisState.searching] using hs
    have he : ax.enable = true := by
      cases hx : ax.enable
      · have := h hx
        rw [hr] at this
        cases this
      · rfl
    split
    · exact ⟨h, hp⟩
    · exact ⟨h, hp⟩
    · refine ⟨fun hd => ?_, fun _ => ⟨Int.le_refl 0, show (0 : Int) ≤ 35999 by decide⟩⟩
      have : ax.enable = false := hd
      rw [he] at this
      cases this
    · exact ⟨h, hp⟩
  · exact ⟨h, hp⟩

theorem ok_limitReported {a : Axis} (active : Bool) {ax : AxisState} (h : ax.ok) (hp : onCircle a ax.pos) :
    (ax.limitReported active).ok ∧ onCircle a (ax.limitReported active).pos := by
  unfold AxisState.limitReported
  split
  · exact ⟨fun _ => rfl, hp⟩
  · exact ⟨h, hp⟩

theorem ok_abortHome {a : Axis} {ax : AxisState} (h : ax.ok) (hp : onCircle a ax.pos) :
    ax.abortHome.ok ∧ onCircle a ax.abortHome.pos := by
  unfold AxisState.abortHome
  split
  · exact ⟨fun _ => rfl, hp⟩
  · exact ⟨h, hp⟩

/-- What an input reports to an axis keeps the axis's conditions. -/
theorem Quiet.reportToAxis (q : Quiet P) (a : Axis) {f : AxisState → AxisState} {s : State} (h : P s)
    (hf : ∀ ax, ax.ok → onCircle a ax.pos → (f ax).ok ∧ onCircle a (f ax).pos) : P (reportToAxis a f s) := by
  unfold Sys2Proof.Machine.reportToAxis
  split
  · exact q.finishHome (q.axes s _ h fun ho => ok_update ho hf)
  · exact h

theorem Quiet.endHome (q : Quiet P) {s : State} (h : P s) : P (endHome s) := by
  unfold Sys2Proof.Machine.endHome
  split
  · exact h
  · refine q.queueNotice _ (q.axes s _ h fun ho => ?_)
    exact ok_of_axes (ok_each (f := fun _ ax => ax.abortHome) ho fun a ax h hp => ok_abortHome h hp) rfl rfl rfl

theorem Quiet.dropEnables (q : Quiet P) {s : State} (h : P s) : P (dropEnables s) :=
  q.axes s _ h fun ho =>
    ok_of_axes (ok_each (f := fun _ ax => ax.drop) ho fun _ _ _ hp => ⟨fun _ => rfl, hp⟩) rfl rfl rfl

/-! ## The Guard Unit -/

theorem Quiet.stopPath (q : Quiet P) (entered : JobState) {s : State} (h : P s) : P (stopPath entered s) := by
  unfold Sys2Proof.Machine.stopPath
  dsimp only
  split
  · exact q.interp s _ h
  · exact q.storeStop (q.interp s _ h)

theorem Quiet.controlledStop (q : Quiet P) {s : State} (h : P s) : P (controlledStop s) :=
  q.job _ _ (q.guard s _ h (sameSettings_of_inputs rfl))

theorem Quiet.abandonSteps (q : Quiet P) {s : State} (h : P s) : P (abandonSteps s) :=
  q.axes _ _ h fun ho => ok_each ho fun _ _ h hp => ⟨h, hp⟩

theorem Quiet.enterStopEnd (q : Quiet P) {s : State} (h : P s) : P (enterStopEnd s) := by
  unfold Sys2Proof.Machine.enterStopEnd
  split
  · exact q.setJobState _ h
  · exact q.setJobState _ (q.abandonSteps h)

theorem Quiet.controlledStopEnd (q : Quiet P) {s : State} (h : P s) : P (controlledStopEnd s) :=
  q.queueNotice _ (q.guard _ (fun g => { g with stop := none }) (q.enterStopEnd (q.axes _
    (fun u => { u with traverse := none, timer := none }) (q.stopPath _ (q.coastRequest h))
    fun ho => ok_of_axes ho rfl rfl rfl)) (sameSettings_of_inputs rfl))

theorem Quiet.immediateStop (q : Quiet P) (k : Cause) {s : State} (h : P s) : P (immediateStop k s) :=
  q.queueNotice _ (q.guard _ _ (q.job _ _ (q.stopPath _ (q.coastRequest (q.dropEnables (q.endHome
    (q.gov _ Governor.halt (q.latchCause k h) fun _ => ⟨Nat.zero_le _, Nat.zero_le _⟩))))))
    (sameSettings_of_inputs rfl))

theorem Quiet.faultFromIdle (q : Quiet P) (cat : Category) (k : Cause) {s : State} (h : P s) : P (faultFromIdle cat k
    s) :=
  q.queueNotice _ (q.setJobState _ (q.abandonSteps (q.coastRequest (q.latchCause k h))))

theorem Quiet.causeInIdle (q : Quiet P) (cat : Category) (k : Cause) {s : State} (h : P s) : P (causeInIdle cat k s) := by
  unfold Sys2Proof.Machine.causeInIdle
  split
  · exact q.faultFromIdle _ _ (q.dropEnables h)
  · split
    · exact q.faultFromIdle _ _ h
    · split
      · exact q.faultFromIdle _ _ h
      · exact h
    all_goals exact h

theorem Quiet.causeInFault (q : Quiet P) (cat : Category) (k : Cause) {s : State} (h : P s) : P (causeInFault cat k s)
    := by
  have hl := q.latchCause k h
  unfold Sys2Proof.Machine.causeInFault
  dsimp only
  split
  · exact hl
  · split
    · exact q.coastRequest (q.dropEnables hl)
    · exact q.coastRequest hl

theorem Quiet.takeCause (q : Quiet P) (cat : Category) (k : Cause) {s : State} (h : P s) : P (takeCause cat k s) := by
  unfold Sys2Proof.Machine.takeCause
  split
  · exact q.causeInIdle cat k h
  · exact q.causeInFault cat k h
  · split
    · exact q.immediateStop k h
    · exact q.latchCause k h
  all_goals
    split
    · exact q.immediateStop k h
    · exact q.controlledStop (q.latchCause k h)

theorem Quiet.edgeAction (q : Quiet P) (i : InputId) (active : Bool) {s : State} (h : P s) : P (edgeAction i active s)
    := by
  unfold Sys2Proof.Machine.edgeAction activationAction releaseAction
  split
  · split
    · exact h
    · exact q.queueNotice _ h
    · split
      · exact q.holdRequest h
      · exact q.queueNotice _ h
    · exact q.takeCause _ _ h
    · exact q.takeCause _ _ h
  · split
    · exact q.queueNotice _ h
    · exact h

theorem axisReport_ok {i : InputId} {a : Axis} {f : Bool → AxisState → AxisState} (h : axisReport i = some (a, f))
    (active : Bool) (ax : AxisState) (ho : ax.ok) (hp : onCircle a ax.pos) :
    (f active ax).ok ∧ onCircle a (f active ax).pos := by
  cases i <;> cases h <;> first | exact ok_limitReported _ ho hp | exact ok_homeReported _ ho hp

theorem Quiet.levelEffects (q : Quiet P) (i : InputId) (active : Bool) {s : State} (h : P s) :
    P (levelEffects i active s) := by
  unfold Sys2Proof.Machine.levelEffects
  split
  · exact q.edgeAction i active h
  · next a f ha =>
    have hf := axisReport_ok ha active
    split
    · cases hq : (if active then decide ((s.guard.input i).action = .ignore) else !(s.guard.input i).notifyRelease)
      · simp only [Bool.false_eq_true, if_false]
        split
        · exact q.edgeAction i active (q.reportToAxis a (q.free s h) hf)
        · exact q.reportToAxis a (q.edgeAction i active (q.free s h)) hf
      · simp only [if_true]
        exact q.reportToAxis a h hf
    · exact q.edgeAction i active h

theorem Quiet.filterEnds (q : Quiet P) (i : InputId) {s : State} (h : P s) : P (filterEnds i s) := by
  unfold Sys2Proof.Machine.filterEnds
  dsimp only
  split
  · exact q.guard s _ h (sameSettings_update i fun _ => ⟨rfl, rfl, rfl⟩)
  · exact q.levelEffects i _ (q.guard s _ h (sameSettings_update i fun _ => ⟨rfl, rfl, rfl⟩))

theorem Quiet.filterReached (q : Quiet P) (i : InputId) {s : State} (h : P s) : P (filterReached i s) := by
  unfold Sys2Proof.Machine.filterReached
  split
  · exact q.filterEnds i h
  · exact h

theorem Quiet.rawChange (q : Quiet P) (i : InputId) (active : Bool) {s : State} (h : P s) : P (rawChange i active s) := by
  have hr := q.guard s (fun g => g.updateInput i fun inp => { inp with raw := active, timer := some 0 }) h
    (sameSettings_update i fun _ => ⟨rfl, rfl, rfl⟩)
  unfold Sys2Proof.Machine.rawChange
  split
  · exact h
  · exact q.filterReached i hr

/-! ## The Feed Governor and the Interpolator -/

theorem governedFeed_le (a : Nat) {vprev : Nat} (ramp : Option (Nat × Stage)) (k : Caps) :
    (governedFeed a vprev ramp k).1 ≤ 30000 := by
  have h : slewed a vprev k.target ≤ 30000 := by
    unfold slewed Caps.target
    omega
  unfold governedFeed
  dsimp only
  split
  · exact h
  · split
    · exact Nat.le_of_lt (Nat.lt_of_lt_of_le (by assumption) h)
    · exact h

theorem Quiet.evaluateGovernor (q : Quiet P) {s : State} (h : P s) : P (evaluateGovernor s) := by
  unfold Sys2Proof.Machine.evaluateGovernor
  split
  · exact q.gov s _ h fun _ => ⟨Nat.zero_le _, Nat.zero_le _⟩
  · exact q.gov s _ h fun _ => ⟨governedFeed_le _ _ _, governedFeed_le _ _ _⟩

theorem Quiet.takeFeedAsZero (q : Quiet P) {s : State} (h : P s) : P (takeFeedAsZero s) :=
  q.gov s _ h fun ho => ⟨ho.1, Nat.zero_le _⟩

theorem Quiet.standAtFrontier (q : Quiet P) {s : State} (h : P s) : P (standAtFrontier s) :=
  q.gov s _ h fun _ => ⟨Nat.zero_le _, Nat.zero_le _⟩

theorem Quiet.targetSegment (q : Quiet P) (seg : Segment) {s : State} (h : P s) : P (targetSegment seg s) := by
  unfold Sys2Proof.Machine.targetSegment
  exact q.interp _ _ (q.interp _ _ h)

theorem Quiet.snapToEnd (q : Quiet P) (seg : Segment) {s : State} (h : P s) : P (snapToEnd seg s) := by
  unfold Sys2Proof.Machine.snapToEnd
  exact q.interp _ _ (q.interp _ _ h)

theorem Quiet.startPivot (q : Quiet P) {s : State} (h : P s) : P (startPivot s) := by
  unfold Sys2Proof.Machine.startPivot
  split
  · exact q.interp _ _ h
  · exact q.interp _ _ (q.interp _ _ h)

theorem Quiet.junctionAction (q : Quiet P) (seg : Segment) {s : State} (h : P s) : P (junctionAction seg s) := by
  unfold Sys2Proof.Machine.junctionAction
  split
  · exact q.interp _ _ h
  · split
    all_goals first | exact h | exact q.interp _ _ h

theorem Quiet.tagNotice (q : Quiet P) (seg : Segment) {s : State} (h : P s) : P (tagNotice seg s) := by
  unfold Sys2Proof.Machine.tagNotice
  split
  · exact h
  · exact q.queueNotice _ h

theorem Quiet.takeSegment (q : Quiet P) (i : Nat) (seg : Segment) (p : Nat) {s : State} (h : P s) :
    P (takeSegment i seg p s) :=
  q.tagNotice _ (q.junctionAction _ (q.interp _ _ (q.store s (Store.activate i seg) h (slotsWf_slotPut _ _))))

theorem Quiet.openingTake (q : Quiet P) {s : State} (h : P s) : P (openingTake s) := by
  unfold Sys2Proof.Machine.openingTake
  split
  · split
    · exact h
    · exact q.takeSegment _ _ _ h
  · exact h

theorem Quiet.endJob (q : Quiet P) {s : State} (h : P s) : P (endJob s) :=
  q.queueNotice _ (q.job _ _ (q.interp _ _ (q.storeJobEnd (q.coastRequest (q.job s _ h)))))

theorem Quiet.frontierArrival (q : Quiet P) {s : State} (h : P s) : P (frontierArrival s) := by
  unfold Sys2Proof.Machine.frontierArrival
  split
  · exact q.becomeStarved (q.idleRequest h)
  · split
    · exact h
    · exact q.setHeld h
  all_goals exact h

theorem Quiet.beginLink (q : Quiet P) (pathEnd : Point) {s : State} (h : P s) : P (beginLink pathEnd s) := by
  unfold Sys2Proof.Machine.beginLink
  dsimp only
  split
  · exact q.startPivot h
  · exact q.interp _ _ h

theorem Quiet.endPass (q : Quiet P) (seg : Segment) {s : State} (h : P s) : P (endPass seg s) := by
  have hj := q.job s (fun j => { j with passesDone := j.passesDone + 1 }) h
  unfold Sys2Proof.Machine.endPass
  dsimp only
  split
  · exact q.beginLink _ (q.interp _ _ (q.queueNotice _ hj))
  · exact q.endJob hj

theorem Quiet.reportCompletion (q : Quiet P) (seg : Segment) {s : State} (h : P s) : P (reportCompletion seg s) := by
  unfold Sys2Proof.Machine.reportCompletion
  exact q.interp _ _ (q.storeCompletion seg (q.job s _ h))

theorem Quiet.completeSegment (q : Quiet P) (fuel : Nat) (seg : Segment) (past : Nat) {s : State} (h : P s) :
    P (completeSegment fuel seg past s) := by
  induction fuel generalizing seg past s with
  | zero => exact h
  | succ fuel ih =>
    have hr := q.reportCompletion seg h
    unfold Sys2Proof.Machine.completeSegment
    dsimp only
    split
    · split
      · exact q.takeFeedAsZero hr
      · exact q.endJob (q.takeFeedAsZero hr)
    · split
      · exact q.takeFeedAsZero hr
      · exact q.endPass _ (q.takeFeedAsZero hr)
    · split
      · exact q.takeFeedAsZero hr
      · exact q.frontierArrival (q.standAtFrontier hr)
    · split
      · exact q.takeFeedAsZero hr
      · exact q.takeSegment _ _ _ (q.takeFeedAsZero hr)
    · split
      · exact ih _ _ (q.snapToEnd _ (q.takeSegment _ _ _ hr))
      · exact q.targetSegment _ (q.takeSegment _ _ _ hr)

theorem Quiet.countPause (q : Quiet P) (seg : Segment) {s : State} (h : P s) : P (countPause seg s) := by
  unfold Sys2Proof.Machine.countPause
  split
  · exact q.interp _ _ h
  · split
    · dsimp only
      split
      · exact q.completeSegment _ _ _ (q.interp _ _ h)
      · exact q.interp _ _ h
    · exact h

theorem Quiet.advanceSegment (q : Quiet P) (seg : Segment) {s : State} (h : P s) : P (advanceSegment seg s) := by
  have hi := q.interp s (fun n => { n with p := n.p + s.gov.v }) h
  unfold Sys2Proof.Machine.advanceSegment
  dsimp only
  split
  · exact q.completeSegment _ _ _ (q.snapToEnd _ hi)
  · split
    · exact hi
    · exact q.targetSegment _ hi

theorem Quiet.advanceLink (q : Quiet P) (lk : LinkMove) {s : State} (h : P s) : P (advanceLink lk s) := by
  have hi := q.interp s (fun n => { n with p := n.p + s.gov.v }) h
  unfold Sys2Proof.Machine.advanceLink endLink
  dsimp only
  split
  · have he := q.interp _ (fun n => { n with link := none, p := 0 }) (q.takeFeedAsZero (q.interp _ (fun n => { n with
        targetX := lk.stopAt.x, targetY := lk.stopAt.y }) hi))
    split
    · exact he
    · exact q.startPivot he
  · split
    · exact hi
    · exact q.interp _ _ hi

theorem Quiet.motionAndEnds (q : Quiet P) {s : State} (h : P s) : P (motionAndEnds s) := by
  unfold Sys2Proof.Machine.motionAndEnds
  split
  · split
    · exact q.interp _ _ h
    · exact q.interp _ _ h
  · split
    · split
      · exact q.advanceSegment _ h
      · exact q.countPause _ h
    · split
      · exact h
      · exact q.advanceLink _ h

theorem Quiet.reportRest (q : Quiet P) {s : State} (h : P s) : P (reportRest s) := by
  unfold Sys2Proof.Machine.reportRest
  split
  · split
    · exact q.setHeld h
    · exact h
  · split
    · exact q.controlledStopEnd h
    · exact h
  all_goals exact h

/-- R60: a whole expiry of the interpolation period timer. -/
theorem Quiet.interpolationExpiry (q : Quiet P) {s : State} (h : P s) : P (interpolationExpiry s) := by
  have hb : P (beginPeriod s) := q.interp _ _ (q.axes s _ h ok_issueRest)
  have hm := q.motionAndEnds (q.evaluateGovernor (q.openingTake hb))
  have hh : P (handInterpTargets (Machine.motionAndEnds (Machine.evaluateGovernor (Machine.openingTake (beginPeriod
      s))))) :=
    q.axes _ _ hm (ok_handTargets _ _ _ _)
  have hr := q.reportRest hh
  refine q.warmupPassage ?_
  unfold Sys2Proof.Machine.lowWaterAfter
  split
  · exact q.lowWater hr
  · exact hr

/-! ## The blade -/

theorem ok_timestamp {k : Stroke} (t : Word) (hk : k.state ≠ .off ∧
    k.state ≠ .stalled) (h : k.ok) : (k.timestamp t).ok := by
  have hr : ∀ n, rateOf n ≤ 9000 := by
    intro n
    unfold rateOf
    split <;> omega
  unfold Stroke.timestamp
  split
  · exact ⟨h.undriven, fun hs => absurd hs (by simpa using hk), h.spinup, h.duty, h.cycle, h.rate⟩
  · exact ⟨h.undriven, fun hs => absurd hs (by simpa using hk), h.spinup, h.duty, h.cycle, hr _⟩

theorem controlledDuty_le (ki duty : Nat) (e : Int) : controlledDuty ki duty e ≤ 1000 := by
  unfold controlledDuty clamp
  omega

theorem ok_control {k : Stroke} (prm : Params) (hd : k.state.driven = true) (h : k.ok) : (k.control prm).ok :=
  ⟨fun hn => absurd (hd.symm.trans hn) (by decide), h.atRest, h.spinup, controlledDuty_le _ _ _, h.cycle, h.rate⟩

theorem ok_countLock {k : Stroke} (prm : Params) (formed : Bool) (h : k.ok) : (k.countLock prm formed).ok := by
  unfold Stroke.countLock
  split
  · dsimp only
    split
    · exact ⟨nofun, (fun hs => by rcases hs with hs | hs <;> cases hs), nofun, h.duty, h.cycle, h.rate⟩
    · exact ⟨h.undriven, h.atRest, h.spinup, h.duty, h.cycle, h.rate⟩
  · exact h

theorem ok_stallTimer {k : Stroke} (hk : k.state ≠ .off ∧ k.state ≠ .stalled) (h : k.ok) :
    Stroke.ok { k with stallTimer := some 0 } :=
  ⟨h.undriven, fun hs => absurd hs (by simpa using hk), h.spinup, h.duty, h.cycle, h.rate⟩

theorem countLock_driven {k : Stroke} (prm : Params) (formed : Bool) (h : k.state.driven = true) :
    (k.countLock prm formed).state.driven = true := by
  unfold Stroke.countLock
  split
  · dsimp only
    split
    · rfl
    · exact h
  · exact h

theorem driven_ne {j : StrokeState} (h : j.driven = true) : j ≠ .off ∧ j ≠ .stalled := by
  constructor <;> (rintro rfl; cases h)

theorem warmupPassage_stroke (s : State) : (warmupPassage s).stroke = s.stroke := by
  unfold Sys2Proof.Machine.warmupPassage
  split <;> rfl

theorem timestamp_state (t : Word) (k : Stroke) : (k.timestamp t).state = k.state := by
  unfold Stroke.timestamp
  split <;> rfl

theorem Quiet.drivenIndex (q : Quiet P) (t : Word) {s : State} (h : P s) (hd : s.stroke.state.driven = true) :
    P (drivenIndex t s) := by
  have ht := q.stroke s (Stroke.timestamp t) h fun _ => ok_timestamp t (driven_ne hd)
  have hdt : ((s.mapStroke (Stroke.timestamp t)).stroke.state).driven = true := by
    show (Stroke.timestamp t s.stroke).state.driven = true
    rw [timestamp_state]
    exact hd
  have hc : P (if s.stroke.index.isSome then (s.mapStroke (Stroke.timestamp t)).mapStroke (Stroke.control s.params)
      else s.mapStroke (Stroke.timestamp t)) := by
    split
    · exact q.stroke _ _ ht fun _ => ok_control _ hdt
    · exact ht
  have hdc : (if s.stroke.index.isSome then (s.mapStroke (Stroke.timestamp t)).mapStroke (Stroke.control s.params)
      else s.mapStroke (Stroke.timestamp t)).stroke.state.driven = true := by
    split <;> exact hdt
  unfold Sys2Proof.Machine.drivenIndex
  dsimp only
  refine q.load _ _ (q.stroke _ _ (q.warmupPassage (q.strokeTo hc fun _ => ok_countLock _ _)) fun _ => ?_)
    (ok_indexReported _)
  refine ok_stallTimer (driven_ne ?_)
  rw [warmupPassage_stroke]
  exact countLock_driven _ _ hdc

theorem Quiet.indexTaken (q : Quiet P) (t : Word) {s : State} (h : P s) : P (indexTaken t s) := by
  unfold Sys2Proof.Machine.indexTaken
  split
  · next e => exact q.drivenIndex t h (by rw [e]; rfl)
  · next e => exact q.drivenIndex t h (by rw [e]; rfl)
  · next e => exact q.drivenIndex t h (by rw [e]; rfl)
  · next e =>
    have hk : s.stroke.state ≠ .off ∧ s.stroke.state ≠ .stalled := by rw [e]; exact ⟨nofun, nofun⟩
    refine q.stroke s _ h fun _ ho => ok_stallTimer ?_ (ok_timestamp t hk ho)
    rw [timestamp_state]
    exact hk
  · exact h
  · exact h

theorem Quiet.spinupFailed (q : Quiet P) {s : State} (h : P s) : P (spinupFailed s) := by
  unfold Sys2Proof.Machine.spinupFailed
  split
  · exact q.takeCause _ _ (q.strokeTo h fun _ => ok_enterCoast)
  · exact h

theorem Quiet.stallReached (q : Quiet P) {s : State} (h : P s) : P (stallReached s) := by
  unfold Sys2Proof.Machine.stallReached
  split
  · next hc =>
    have hd : s.stroke.state.driven = true := by
      simp only [Bool.and_eq_true] at hc
      exact hc.1
    split
    · refine q.stroke s _ h fun hs ho => ?_
      exact ⟨fun hn => absurd (hd.symm.trans hn) (by decide), fun hs => absurd hs (not_or.mpr (driven_ne hd)), ho.spinup,
        hs, ho.cycle, Nat.zero_le _⟩
    · exact q.takeCause _ _ (q.strokeTo h fun _ => ok_enterStalled)
  · exact h

theorem Quiet.coastReached (q : Quiet P) {s : State} (h : P s) : P (coastReached s) := by
  unfold Sys2Proof.Machine.coastReached
  split
  · exact q.strokeTo h fun _ => ok_enterOff
  · exact h

theorem Quiet.phaseReached (q : Quiet P) {s : State} (h : P s) : P (phaseReached s) := by
  unfold Sys2Proof.Machine.phaseReached
  split
  · exact q.load s _ h fun ho => ⟨ho.acc, ho.band, ho.result, fun _ => rfl⟩
  · exact h

theorem Quiet.settled (q : Quiet P) {s : State} (h : P s) : P (settled s) := by
  unfold Sys2Proof.Machine.settled
  split
  · next e =>
    split
    · exact q.load s _ h fun ho => ⟨ho.acc, ho.band, ho.result, fun _ => ho.valid (by rw [e]; rfl)⟩
    · exact h
  · exact h
  · exact h

theorem Quiet.countOverload (q : Quiet P) (sample : Nat) {s : State} (h : P s) : P (countOverload sample s) := by
  have hr : ∀ n, P (s.mapLoad fun m => { m with run := n }) := fun n =>
    q.load s _ h fun ho => ⟨ho.acc, ho.band, ho.result, ho.valid⟩
  unfold Sys2Proof.Machine.countOverload
  split
  · extract_lets n
    split
    · exact q.takeCause _ _ (hr 0)
    · exact hr _
  · exact h

theorem Quiet.serveStroke (q : Quiet P) {sample : Nat} (hs : sample ≤ 1023) {s : State} (h : P s) :
    P (serveStroke sample s) := by
  refine q.countOverload _ (q.evaluateBand (q.load s _ h fun ho => ⟨?_, ho.band, ho.result, ho.valid⟩))
  have := ho.acc
  show s.load.acc - s.load.acc / 8 + sample ≤ 8184
  omega

theorem Quiet.powerDownIfOff (q : Quiet P) {s : State} (h : P s) : P (powerDownIfOff s) := by
  unfold Sys2Proof.Machine.powerDownIfOff
  split
  · exact q.load s _ h ok_powerDown
  · exact h

theorem Quiet.dwellReached (q : Quiet P) {s : State} (h : P s) : P (dwellReached s) := by
  unfold Sys2Proof.Machine.dwellReached
  split
  · exact q.takeCause _ _ (q.job s _ h)
  · exact h

/-! ## The traverse period -/

theorem ok_homeMove (prm : Params) (a : Axis) (negative : Bool) (v limit : Nat) {ax : AxisState} (h : ax.ok)
    (hp : onCircle a ax.pos) :
    (ax.homeMove prm a negative v limit).ok ∧ onCircle a (ax.homeMove prm a negative v limit).pos :=
  ⟨h, hp⟩

theorem ok_homeStep (prm : Params) (a : Axis) (homeActive : Bool) {ax : AxisState} (h : ax.ok) (hp : onCircle a ax.pos) :
    (ax.homeStep prm a homeActive).ok ∧ onCircle a (ax.homeStep prm a homeActive).pos := by
  unfold AxisState.homeStep AxisState.backoffMove
  dsimp only
  split
  · split
    · exact ok_fail _ hp
    · exact ⟨h, hp⟩
  · split
    · exact ⟨h, hp⟩
    · exact ⟨h, hp⟩
  · split
    · exact ok_fail _ hp
    · exact ⟨h, hp⟩
  · split
    · exact ok_fail _ hp
    · exact ⟨h, hp⟩
  all_goals exact ⟨h, hp⟩

theorem ok_homeSlow (prm : Params) (a : Axis) {ax : AxisState} (h : ax.ok) (hp : onCircle a ax.pos) :
    (ax.homeSlow prm a).ok ∧ onCircle a (ax.homeSlow prm a).pos := by
  unfold AxisState.homeSlow
  dsimp only
  split <;> exact ⟨h, hp⟩

theorem ok_handTraverse (prm : Params) (t : Traverse) {u : Axes} (h : u.ok) : (handTraverse prm t u).ok :=
  ok_of_axes (ok_handTargets _ _ _ _ h) rfl rfl rfl

theorem Quiet.traverseExpiry (q : Quiet P) {s : State} (h : P s) : P (traverseExpiry s) := by
  have hb : P (beginTraversePeriod s) := q.axes s _ h fun ho => ok_of_axes (ok_issueRest ho) rfl rfl rfl
  unfold Sys2Proof.Machine.traverseExpiry
  dsimp only
  generalize beginTraversePeriod s = u at hb ⊢
  split
  · have hs : P (u.mapAxes fun v => v.each fun a ax => if ax.searching then ax.homeSlow u.params a else ax) := by
      refine q.axes u _ hb fun ho => ok_each ho fun a ax h hp => ?_
      split
      · exact ok_homeSlow _ _ h hp
      · exact ⟨h, hp⟩
    have hw : P (slowMotion u) := by
      unfold slowMotion
      dsimp only
      split
      · exact hs
      · exact q.axes _ _ hs (ok_handTraverse _ _)
    unfold restInMotion
    split
    · exact q.controlledStopEnd (q.endHome hw)
    · exact hw
  · have hh : P (advanceHoming u) := by
      refine q.axes u _ hb fun ho => ok_each ho fun a ax h hp => ?_
      split
      · exact ok_homeStep _ _ _ h hp
      · exact ⟨h, hp⟩
    refine q.finishMove (q.finishHome ?_)
    unfold advanceMove
    split
    · exact hh
    · exact q.axes _ _ hh (ok_handTraverse _ _)

end Sys2Proof.Machine
end

