-- ==== Sys2Proof/Laws/Window.lean ====
section
/-! SUPPORT. The window of the Store: what each operation on its slots and pointers does to `Store.windowOk`. -/

namespace Sys2Proof.Machine

set_option Elab.async false

/-! ## Slots as a list -/

theorem slotAt_none_of_lt {l : List (Nat × Slot)} {i : Nat} (h : ∀ e ∈ l, i < e.1) : slotAt l i = none := by
  induction l with
  | nil => rfl
  | cons e rest ih =>
    obtain ⟨k, sl⟩ := e
    have hk : i < k := h (k, sl) List.mem_cons_self
    unfold slotAt
    rw [if_neg (by omega)]
    exact ih fun d hd => h d (List.mem_cons_of_mem _ hd)

/-- A slot is listed exactly when it is not EMPTY. -/
theorem slotAt_isSome_iff {l : List (Nat × Slot)} {i : Nat} : (slotAt l i).isSome = true ↔ ∃ e ∈ l, e.1 = i := by
  induction l with
  | nil => simp [slotAt]
  | cons e rest ih =>
    obtain ⟨k, sl⟩ := e
    unfold slotAt
    split
    · next h => simp [h]
    · next h => simp [h, ih]

/-- In the canonical form, a listed entry is what its slot reads. -/
theorem slotAt_of_mem {l : List (Nat × Slot)} (hw : slotsWf l = true) {e : Nat × Slot} (he : e ∈ l) :
    slotAt l e.1 = some e.2 := by
  induction l with
  | nil => exact absurd he List.not_mem_nil
  | cons d rest ih =>
    obtain ⟨k, sl⟩ := d
    obtain ⟨hk, hr⟩ := slotsWf_cons.mp hw
    unfold slotAt
    rcases List.mem_cons.mp he with rfl | he
    · rw [if_pos rfl]
    · rw [if_neg (Nat.ne_of_lt (hk e he)), ih hr he]

theorem mem_of_slotAt {l : List (Nat × Slot)} {i : Nat} {sl : Slot} (h : slotAt l i = some sl) : (i, sl) ∈ l := by
  induction l with
  | nil => cases h
  | cons d rest ih =>
    obtain ⟨k, old⟩ := d
    unfold slotAt at h
    split at h
    · next hk => rw [← hk, Option.some.inj h]; exact List.mem_cons_self
    · exact List.mem_cons_of_mem _ (ih h)

/-- Canonical lists with the same slots filled have the same length. -/
theorem length_eq_of_isSome {l m : List (Nat × Slot)} (hl : slotsWf l = true) (hm : slotsWf m = true)
    (h : ∀ i, (slotAt l i).isSome = (slotAt m i).isSome) : l.length = m.length := by
  induction l generalizing m with
  | nil =>
    cases m with
    | nil => rfl
    | cons e rest =>
      have := (h e.1).symm.trans rfl
      rw [slotAt_of_mem hm List.mem_cons_self] at this
      cases this
  | cons d rest ih =>
    cases m with
    | nil =>
      have := (h d.1)
      rw [slotAt_of_mem hl List.mem_cons_self] at this
      cases this
    | cons e rest' =>
      obtain ⟨i, sl⟩ := d
      obtain ⟨j, sl'⟩ := e
      obtain ⟨hi, hr⟩ := slotsWf_cons.mp hl
      obtain ⟨hj, hr'⟩ := slotsWf_cons.mp hm
      have hij : i = j := by
        rcases Nat.lt_trichotomy i j with hlt | heq | hlt
        · have hn : slotAt ((j, sl') :: rest') i = none := slotAt_none_of_lt fun e he => by
            rcases List.mem_cons.mp he with rfl | he
            · exact hlt
            · exact Nat.lt_trans hlt (hj e he)
          have := h i
          rw [hn, slotAt_of_mem hl List.mem_cons_self] at this
          cases this
        · exact heq
        · have hn : slotAt ((i, sl) :: rest) j = none := slotAt_none_of_lt fun e he => by
            rcases List.mem_cons.mp he with rfl | he
            · exact hlt
            · exact Nat.lt_trans hlt (hi e he)
          have := h j
          rw [hn, slotAt_of_mem hm List.mem_cons_self] at this
          cases this
      subst hij
      refine congrArg (· + 1) (ih hr hr' fun k => ?_)
      by_cases hk : k = i
      · subst hk
        rw [slotAt_none_of_lt hi, slotAt_none_of_lt hj]
      · have := h k
        unfold slotAt at this
        rwa [if_neg (Ne.symm hk), if_neg (Ne.symm hk)] at this

theorem length_slotPut_new {l : List (Nat × Slot)} {i : Nat} (sl : Slot) (h : slotAt l i = none) :
    (slotPut l i sl).length = l.length + 1 := by
  induction l with
  | nil => rfl
  | cons e rest ih =>
    obtain ⟨k, old⟩ := e
    unfold slotAt at h
    split at h
    · cases h
    · next hk =>
      unfold slotPut
      split
      · rfl
      · exact congrArg (· + 1) (ih h)

theorem length_slotPut_old {l : List (Nat × Slot)} {i : Nat} (sl : Slot) (hw : slotsWf l = true)
    (h : slotAt l i ≠ none) : (slotPut l i sl).length = l.length := by
  refine length_eq_of_isSome (slotsWf_slotPut i sl hw) hw fun k => ?_
  rw [slotAt_slotPut]
  split
  · next hk =>
    subst hk
    exact (Option.isSome_iff_ne_none.mpr h).symm
  · rfl

theorem length_slotDrop {l : List (Nat × Slot)} {i : Nat} (hw : slotsWf l = true) (h : slotAt l i ≠ none) :
    (slotDrop l i).length + 1 = l.length := by
  obtain ⟨sl, hs⟩ := Option.ne_none_iff_exists'.mp h
  have hp := (slotPut_perm i sl hw).length_eq
  rw [length_slotPut_old sl hw h] at hp
  exact hp.symm

/-! ## The window -/

/-- R21 to R25: the window's form turns on its slots, its pointers and its mode alone. -/
theorem windowOk_of_core {st st' : Store} {active : Option Nat} (h : st.windowOk active)
    (e : (st'.slots, st'.winBegin, st'.winEnd, st'.mode, st'.writePtr, st'.execPtr) =
      (st.slots, st.winBegin, st.winEnd, st.mode, st.writePtr, st.execPtr)) : st'.windowOk active := by
  obtain ⟨slots, b, en, m, w, x, _⟩ := st
  obtain ⟨slots', b', en', m', w', x', _⟩ := st'
  simp only [Prod.mk.injEq] at e
  obtain ⟨rfl, rfl, rfl, rfl, rfl, rfl⟩ := e
  exact ⟨h.order, h.window, h.inside, h.execPtr, h.writePtr, h.ring, h.filled, h.oneActive, h.taken⟩

/-- Writes that fill and empty no slot, and make none ACTIVE and none not, keep the window. -/
theorem windowOk_of_slots {st st' : Store} {active : Option Nat} (h : st.windowOk active) (hw : st'.wf = true)
    (hs : ∀ i, (st'.slot i).map (fun sl => decide (sl.state = .active)) =
      (st.slot i).map fun sl => decide (sl.state = .active))
    (e : (st'.winBegin, st'.winEnd, st'.mode, st'.writePtr, st'.execPtr) =
      (st.winBegin, st.winEnd, st.mode, st.writePtr, st.execPtr)) : st'.windowOk active := by
  have hn (i : Nat) : st'.slot i = none ↔ st.slot i = none := by
    rw [← Option.map_eq_none_iff, hs, Option.map_eq_none_iff]
  have hl : st'.slots.length = st.slots.length := length_eq_of_isSome hw h.order fun i => by
    have := hn i
    show (st'.slot i).isSome = (st.slot i).isSome
    cases h1 : st'.slot i <;> cases h2 : st.slot i <;> simp_all
  have ha (i : Nat) : (∃ sl, st'.slot i = some sl ∧ sl.state = .active) ↔ ∃ sl, st.slot i = some sl ∧ sl.state = .active := by
    have := hs i
    cases h1 : st'.slot i <;> cases h2 : st.slot i <;> simp_all
  simp only [Prod.mk.injEq] at e
  obtain ⟨e1, e2, e3, e4, e5⟩ := e
  have es : st'.size = st.size := by
    unfold Store.size
    rw [e1, e2]
  have ep (i : Nat) : st'.place i = st.place i := by
    unfold Store.place
    rw [es, e5]
  refine ⟨hw, ?_, fun i hi => ?_, ?_, ?_, ?_, ?_, fun i sl hi hx => ?_, fun i hi => ?_⟩
  · rw [e1, e2]
    exact h.window
  · rw [e1, e2]
    exact h.inside i (fun hc => hi ((hn i).mpr hc))
  · rw [e1, e2, e5]
    exact h.execPtr
  · rw [e1, e2, e3, e4]
    exact h.writePtr
  · rw [e1, e2, e3, e4, e5, hl, es]
    intro hm
    obtain ⟨r1, r2, r3⟩ := h.ring hm
    refine ⟨r1, r2, fun i hb he => ?_⟩
    rw [ep, ← r3 i hb he]
    exact not_congr (hn i)
  · rw [e1, e3, e4, e5, hl]
    intro hm
    obtain ⟨r1, r2, r3⟩ := h.filled hm
    refine ⟨r1, r2, fun i => ?_⟩
    rw [← r3 i]
    exact not_congr (hn i)
  · obtain ⟨sl', h1, h2⟩ := (ha i).mp ⟨sl, hi, hx⟩
    exact h.oneActive i sl' h1 h2
  · obtain ⟨h1, h2⟩ := h.taken i hi
    exact ⟨h1.trans e5.symm, (ha i).mpr h2⟩

/-- R22: with no segment on, no slot is ACTIVE. -/
theorem windowOk_idle {st : Store} (h : st.windowOk none) {i : Nat} {sl : Slot} (hi : st.slot i = some sl) :
    sl.state ≠ .active := fun hx => by cases h.oneActive i sl hi hx

/-- R53: a replan keeps the window. -/
theorem windowOk_replan {completed : Option Segment} {s : State} {active : Option Nat} (h : s.store.windowOk active) :
    (replan completed s).store.windowOk active := by
  refine windowOk_of_slots h ?_ (fun i => ?_) ?_
  · unfold Store.wf
    rw [replan_slots]
    exact slotsWf_slotsPut _ h.order
  · rcases replan_slot completed s i with hr | ⟨sl, leg, sp, h1, h2⟩
    · rw [hr]
    · rw [h1, h2]
      simp only [Option.map_some, plannedSlot_state]
      split <;> simp_all
  · rw [replan_store]

/-- R29: an empty window, with both pointers at its begin. -/
theorem windowOk_empty {st : Store} (hw : st.winBegin + 7 ≤ st.winEnd ∧ st.winEnd ≤ 511) (hs : st.slots = [])
    (h1 : st.writePtr = st.winBegin) (h2 : st.execPtr = st.winBegin) : st.windowOk none := by
  have hn (i : Nat) : st.slot i = none := by
    unfold Store.slot
    rw [hs]
    rfl
  refine ⟨?_, hw, fun i hi => absurd (hn i) hi, ?_, ?_, fun _ => ⟨?_, ?_, fun i _ _ => ?_⟩, fun _ => ⟨?_, ?_, fun i => ?_⟩,
    fun i sl hi => ?_, nofun⟩
  · unfold Store.wf
    rw [hs]
    rfl
  · rw [h2]
    exact ⟨Nat.le_refl _, by omega⟩
  · rw [h1]
    exact ⟨Nat.le_refl _, .inl (by omega)⟩
  · rw [h1, h2, hs, List.length_nil, if_pos (by omega)]
    rfl
  · rw [hs]
    exact Nat.zero_le _
  · simp [hn, hs]
  · rw [h1, hs]
    rfl
  · exact .inr h2
  · simp only [hn, h1, ne_eq, not_true, false_iff]
    omega
  · rw [hn] at hi
    cases hi

/-- R30: the slot at the execution pointer is completed. -/
theorem windowOk_complete {st : Store} (h : st.windowOk (some st.execPtr)) : st.complete.windowOk none := by
  obtain ⟨-, sl, hsl, hact⟩ := h.taken _ rfl
  have hne : st.slot st.execPtr ≠ none := by rw [hsl]; exact nofun
  obtain ⟨w1, w2⟩ := h.window
  obtain ⟨x1, x2⟩ := h.execPtr
  have hother {i : Nat} {sl' : Slot} (hi : i ≠ st.execPtr) (hs : st.slot i = some sl') : sl'.state ≠ .active := fun hx =>
    hi (Option.some.inj (h.oneActive i sl' hs hx)).symm
  cases hm : st.mode with
  | stream =>
    have hc : st.complete = { st with slots := slotDrop st.slots st.execPtr, execPtr := st.after st.execPtr } := by
      unfold Store.complete
      rw [hm]
    have haf : st.after st.execPtr = if st.execPtr = st.winEnd then st.winBegin else st.execPtr + 1 := by
      unfold Store.after
      rw [hm]
    have hsl' (i : Nat) : st.complete.slot i = if st.execPtr = i then none else st.slot i := by
      rw [hc]
      exact slotAt_slotDrop _ _ _
    have hlen : st.complete.slots.length + 1 = st.slots.length := by
      rw [hc]
      exact length_slotDrop h.order hne
    obtain ⟨r1, r2, r3⟩ := h.ring hm
    have hsz : st.size = st.winEnd - st.winBegin + 1 := rfl
    refine ⟨?_, ?_, fun i hi => ?_, ?_, ?_, fun _ => ⟨?_, ?_, fun i hb he => ?_⟩, fun hm' => ?_, fun i sl' hi hx => ?_, nofun⟩
    · rw [hc]
      exact slotsWf_slotDrop _ h.order
    · rw [hc]
      exact h.window
    · rw [hsl'] at hi
      rw [hc]
      exact h.inside i fun hn => hi (by rw [hn]; split <;> rfl)
    · rw [hc]
      dsimp only
      rw [haf]
      split <;> omega
    · rw [hc]
      exact h.writePtr
    · have e1 : st.complete.slots.length = st.slots.length - 1 := by omega
      rw [e1, hc]
      dsimp only [Store.size]
      rw [r1, haf]
      split <;> split <;> split <;> omega
    · have : st.complete.size = st.size := by rw [hc]; rfl
      omega
    · rw [hc] at hb he
      have hplace : st.complete.place i = if st.execPtr = i then st.size - 1 else st.place i - 1 := by
        rw [hc]
        dsimp only [Store.place, Store.size]
        rw [haf]
        dsimp only at hb he
        repeat' split
        all_goals omega
      rw [hsl', hplace]
      split
      · constructor
        · intro hx
          exact absurd rfl hx
        · intro hx
          omega
      · next hi =>
        rw [r3 i hb he]
        have : st.place i ≠ 0 := by
          dsimp only [Store.place, Store.size]
          dsimp only at hb he
          split <;> omega
        omega
    · rw [hc] at hm'
      rw [hm] at hm'
      cases hm'
    · rw [hsl'] at hi
      split at hi
      · cases hi
      · next hne' => exact absurd hx (hother (Ne.symm hne') hi)
  | repeating =>
    obtain ⟨r1, r2, r3⟩ := h.filled hm
    have hlt : st.execPtr < st.writePtr := ((r3 _).mp hne).2
    have hc : st.complete =
        { st with
          slots := slotPut st.slots st.execPtr { sl with state := .queued }
          execPtr := if st.execPtr + 1 = st.writePtr then st.winBegin else st.execPtr + 1 } := by
      unfold Store.complete
      rw [hm]
      dsimp only
      rw [hsl]
    have hsl' (i : Nat) : st.complete.slot i = if st.execPtr = i then some { sl with state := .queued } else st.slot i := by
      rw [hc]
      exact slotAt_slotPut _ _ _ _
    have hn (i : Nat) : st.complete.slot i ≠ none ↔ st.slot i ≠ none := by
      rw [hsl']
      split
      · next hi =>
        subst hi
        simp [hsl]
      · exact Iff.rfl
    have hwp := h.writePtr
    refine ⟨?_, ?_, fun i hi => ?_, ?_, ?_, fun hm' => ?_, fun _ => ⟨?_, ?_, fun i => ?_⟩, fun i sl' hi hx => ?_, nofun⟩
    · rw [hc]
      exact slotsWf_slotPut _ _ h.order
    · rw [hc]
      exact h.window
    · rw [hc]
      exact h.inside i ((hn i).mp hi)
    · rw [hc]
      dsimp only
      rw [hm] at hwp
      split
      · omega
      · have := hwp.2
        simp only [true_and] at this
        omega
    · rw [hc]
      exact h.writePtr
    · rw [hc] at hm'
      rw [hm] at hm'
      cases hm'
    · rw [hc]
      exact (congrArg (st.winBegin + ·) (length_slotPut_old _ h.order hne)).trans r1
    · rw [hc]
      dsimp only
      split
      · exact .inr rfl
      · exact .inl (by omega)
    · rw [hn, r3 i, hc]
    · rw [hsl'] at hi
      split at hi
      · cases hi
        cases hx
      · next hne' => exact absurd hx (hother (Ne.symm hne') hi)

/-- R61: the slot at the execution pointer is taken. -/
theorem windowOk_activate {st : Store} (h : st.windowOk none) (seg : Segment) (hs : st.slot st.execPtr ≠ none) :
    (st.activate st.execPtr seg).windowOk (some st.execPtr) := by
  have hsl' (i : Nat) : (st.activate st.execPtr seg).slot i = if st.execPtr = i then some ⟨.active, seg⟩ else st.slot i :=
    slotAt_slotPut _ _ _ _
  have hn (i : Nat) : (st.activate st.execPtr seg).slot i ≠ none ↔ st.slot i ≠ none := by
    rw [hsl']
    split
    · next hi =>
      subst hi
      simp [hs]
    · exact Iff.rfl
  have hl : (st.activate st.execPtr seg).slots.length = st.slots.length := length_slotPut_old _ h.order hs
  refine ⟨slotsWf_slotPut _ _ h.order, h.window, fun i hi => h.inside i ((hn i).mp hi), h.execPtr, h.writePtr, fun hm => ?_,
    fun hm => ?_, fun i sl hi hx => ?_, fun i hi => ?_⟩
  · obtain ⟨r1, r2, r3⟩ := h.ring hm
    rw [hl]
    exact ⟨r1, r2, fun i hb he => (hn i).trans (r3 i hb he)⟩
  · obtain ⟨r1, r2, r3⟩ := h.filled hm
    rw [hl]
    exact ⟨r1, r2, fun i => (hn i).trans (r3 i)⟩
  · rw [hsl'] at hi
    split at hi
    · next he => rw [he]
    · exact absurd hx (windowOk_idle h hi)
  · cases hi
    refine ⟨rfl, ⟨.active, seg⟩, ?_, rfl⟩
    rw [hsl', if_pos rfl]

/-- R27: the Store with an accepted record. -/
theorem windowOk_accept {st : Store} {active : Option Nat} (h : st.windowOk active) (seg : Segment)
    (hf : st.slots.length < st.size) : (st.accept seg).windowOk active := by
  obtain ⟨w1, w2⟩ := h.window
  obtain ⟨x1, x2⟩ := h.execPtr
  have hsl' (i : Nat) : (st.accept seg).slot i =
      if st.writePtr = i then some ⟨.queued, { seg with number := st.nextNumber }⟩ else st.slot i := slotAt_slotPut _ _ _ _
  have hsz : st.size = st.winEnd - st.winBegin + 1 := rfl
  have hwp := h.writePtr
  have hempty : st.slot st.writePtr = none ∧ st.writePtr ≤ st.winEnd := by
    cases hm : st.mode with
    | stream =>
      obtain ⟨r1, r2, r3⟩ := h.ring hm
      have hwe : st.writePtr ≤ st.winEnd := by
        rcases hwp.2 with h1 | h1
        · exact h1
        · rw [hm] at h1
          cases h1.1
      refine ⟨?_, hwe⟩
      by_contra hc
      have := (r3 _ hwp.1 hwe).mp hc
      dsimp only [Store.place] at this
      rw [r1] at this
      split at this <;> split at this <;> omega
    | repeating =>
      obtain ⟨r1, r2, r3⟩ := h.filled hm
      refine ⟨?_, by omega⟩
      by_contra hc
      have := (r3 _).mp hc
      omega
  have hl : (st.accept seg).slots.length = st.slots.length + 1 := length_slotPut_new _ hempty.1
  have hx : ∀ i, active = some i → i ≠ st.writePtr := fun i hi hc => by
    obtain ⟨-, sl, hs, -⟩ := h.taken i hi
    rw [hc, hempty.1] at hs
    cases hs
  have hn (i : Nat) : (st.accept seg).slot i ≠ none ↔ st.writePtr = i ∨ st.slot i ≠ none := by
    rw [hsl']
    split
    · next hi => simp [hi]
    · next hi => simp [hi]
  refine ⟨slotsWf_slotPut _ _ h.order, h.window, fun i hi => ?_, h.execPtr, ?_, fun hm => ?_, fun hm => ?_,
    fun i sl hi hac => ?_, fun i hi => ?_⟩
  · rcases (hn i).mp hi with hi | hi
    · subst hi
      exact ⟨hwp.1, hempty.2⟩
    · exact h.inside i hi
  · show st.winBegin ≤ st.advanceWrite ∧ (st.advanceWrite ≤ st.winEnd ∨ (st.mode = .repeating ∧ st.advanceWrite = st.winEnd + 1))
    have := hempty.2
    unfold Store.advanceWrite
    split
    · split <;> omega
    · next hm =>
      rw [hm]
      refine ⟨by omega, ?_⟩
      rcases Nat.lt_or_ge st.writePtr st.winEnd with h1 | h1
      · exact .inl h1
      · exact .inr ⟨rfl, by omega⟩
  · have hm : st.mode = .stream := hm
    obtain ⟨r1, r2, r3⟩ := h.ring hm
    rw [hl]
    refine ⟨?_, by show _ ≤ st.size; omega, fun i hb he => ?_⟩
    · show st.advanceWrite = _
      unfold Store.advanceWrite
      rw [hm]
      dsimp only
      show _ = if st.execPtr + (st.slots.length + 1) ≤ st.winEnd then st.execPtr + (st.slots.length + 1) else
        st.execPtr + (st.slots.length + 1) - st.size
      rw [r1]
      repeat' split
      all_goals omega
    · rw [hn, r3 i hb he]
      show _ ↔ st.place i < st.slots.length + 1
      have hb : st.winBegin ≤ i := hb
      have he : i ≤ st.winEnd := he
      have : st.writePtr = i ↔ st.place i = st.slots.length := by
        dsimp only [Store.place]
        rw [r1]
        split <;> split <;> omega
      omega
  · have hm : st.mode = .repeating := hm
    obtain ⟨r1, r2, r3⟩ := h.filled hm
    rw [hl]
    have hadv : (st.accept seg).writePtr = st.writePtr + 1 := by
      show st.advanceWrite = _
      unfold Store.advanceWrite
      rw [hm]
    rw [hadv]
    refine ⟨by show st.winBegin + _ = _; omega, ?_, fun i => ?_⟩
    · rcases r2 with r2 | r2
      · exact .inl (by show st.execPtr < _; omega)
      · exact .inr r2
    · rw [hn, r3 i]
      show _ ↔ st.winBegin ≤ i ∧ _
      omega
  · rw [hsl'] at hi
    split at hi
    · cases hi
      cases hac
    · exact h.oneActive i sl hi hac
  · obtain ⟨h1, sl, h2, h3⟩ := h.taken i hi
    refine ⟨h1, sl, ?_, h3⟩
    rw [hsl', if_neg (Ne.symm (hx i hi)), h2]

/-- R31, R32: every slot goes back to QUEUED; the execution pointer is at the begin or where it was. -/
theorem windowOk_requeue {st : Store} {active : Option Nat} (h : st.windowOk active) (hm : st.mode = .repeating) {x : Nat}
    (hx : x = st.winBegin ∨ x = st.execPtr) :
    ({ st with slots := slotMap requeue st.slots, execPtr := x } : Store).windowOk none := by
  have hsl' (i : Nat) : slotAt (slotMap requeue st.slots) i = (st.slot i).map requeue := slotAt_slotMap _ _ _
  have hn (i : Nat) : slotAt (slotMap requeue st.slots) i ≠ none ↔ st.slot i ≠ none := by
    rw [hsl', ne_eq, Option.map_eq_none_iff]
  obtain ⟨r1, r2, r3⟩ := h.filled hm
  refine ⟨slotsWf_slotMap _ h.order, h.window, fun i hi => h.inside i ((hn i).mp hi), ?_, h.writePtr, fun hm' => ?_,
    fun _ => ⟨?_, ?_, fun i => (hn i).trans (r3 i)⟩, fun i sl hi hac => ?_, nofun⟩
  · have := h.window
    rcases hx with rfl | rfl
    · exact ⟨Nat.le_refl _, by show st.winBegin ≤ st.winEnd; omega⟩
    · exact h.execPtr
  · have hm' : st.mode = .stream := hm'
    rw [hm] at hm'
    cases hm'
  · show st.winBegin + (slotMap requeue st.slots).length = st.writePtr
    rw [slotMap, List.length_map]
    exact r1
  · rcases hx with rfl | rfl
    · exact .inr rfl
    · exact r2
  · have hi : slotAt (slotMap requeue st.slots) i = some sl := hi
    rw [hsl'] at hi
    obtain ⟨sl0, h1, rfl⟩ := Option.map_eq_some_iff.mp hi
    cases hac

/-- R29: the emptying of the window. -/
theorem windowOk_emptyWindow {s : State} {active : Option Nat} (h : s.store.windowOk active) :
    (emptyWindow s).store.windowOk none := by
  unfold emptyWindow openFlow
  have he : ({ s.store.clearChain with
      slots := [], writePtr := s.store.clearChain.winBegin, execPtr := s.store.clearChain.winBegin,
      armed := false } : Store).windowOk none := windowOk_empty h.window rfl rfl rfl
  split
  · exact windowOk_of_core he rfl
  · exact windowOk_of_core he rfl

/-- R31. -/
theorem windowOk_storeStop {s : State} {active : Option Nat} (h : s.store.windowOk active) :
    (storeStop s).store.windowOk none := by
  unfold storeStop
  split
  · exact windowOk_emptyWindow h
  · next hm => exact windowOk_requeue h hm (.inl rfl)

/-- R32. -/
theorem windowOk_storeJobEnd {s : State} {active : Option Nat} (h : s.store.windowOk active) :
    (storeJobEnd s).store.windowOk none := by
  unfold storeJobEnd
  split
  · exact windowOk_emptyWindow h
  · next hm => exact windowOk_requeue h hm (.inr rfl)

/-- R22: the ACTIVE slot is the one the Interpolator is on. -/
theorem activeSlot_of_windowOk {st : Store} {active : Option Nat} (h : st.windowOk active) {e : Nat × Slot}
    (he : st.activeSlot = some e) : active = some e.1 ∧ e.1 = st.execPtr ∧ st.slot e.1 = some e.2 ∧ e.2.state = .active := by
  have h1 := List.mem_of_find?_eq_some he
  have h2 : e.2.state = .active := by simpa using List.find?_some he
  have h3 : st.slot e.1 = some e.2 := slotAt_of_mem h.order h1
  have h4 := h.oneActive _ _ h3 h2
  exact ⟨h4, (h.taken _ h4).1, h3, h2⟩

theorem activeSlot_none_of_windowOk {st : Store} (h : st.windowOk none) : st.activeSlot = none := by
  cases he : st.activeSlot with
  | none => rfl
  | some e => cases (activeSlot_of_windowOk h he).1

/-- R22, R61: on a segment, the ACTIVE slot is the one at the execution pointer. -/
theorem activeSlot_some_of_windowOk {st : Store} {i : Nat} (h : st.windowOk (some i)) :
    ∃ sl, st.activeSlot = some (i, sl) ∧ i = st.execPtr ∧ st.slot i = some sl ∧ sl.state = .active := by
  obtain ⟨h1, sl, h2, h3⟩ := h.taken i rfl
  cases he : st.activeSlot with
  | none =>
    have := List.find?_eq_none.mp he _ (mem_of_slotAt h2)
    simp [h3] at this
  | some e =>
    obtain ⟨a1, a2, a3, a4⟩ := activeSlot_of_windowOk h he
    cases Option.some.inj a1
    exact ⟨e.2, rfl, h1, a3, a4⟩

/-- R48: the span begins at the execution pointer. -/
theorem spanStart_of_windowOk {st : Store} {active : Option Nat} (h : st.windowOk active) : st.spanStart = st.execPtr := by
  unfold Store.spanStart
  split
  · next e he => exact (activeSlot_of_windowOk h he).2.1
  · rfl

/-- R34: the partial flush. -/
theorem windowOk_partialFlush {st : Store} {active : Option Nat} (h : st.windowOk active) (hm : st.mode = .stream)
    (pos : Point) : (st.partialFlush pos).windowOk active := by
  obtain ⟨w1, w2⟩ := h.window
  obtain ⟨x1, x2⟩ := h.execPtr
  unfold Store.partialFlush
  dsimp only
  split
  · next i sl he =>
    obtain ⟨a1, a2, a3, a4⟩ := activeSlot_of_windowOk h he
    dsimp only at a1 a2 a3 a4
    subst a2
    have hsl (k : Nat) : slotAt [(st.execPtr, sl)] k = if st.execPtr = k then some sl else none := rfl
    have haf : st.after st.execPtr = if st.execPtr = st.winEnd then st.winBegin else st.execPtr + 1 := by
      unfold Store.after
      rw [hm]
    have hsz : st.size = st.winEnd - st.winBegin + 1 := rfl
    refine ⟨slotsWf_single _, h.window, fun k hk => ?_, h.execPtr, ?_, fun _ => ⟨?_, ?_, fun k hb he' => ?_⟩, fun hm' => ?_,
      fun k sl' hk hx => ?_, fun k hk => ?_⟩
    · have hk : slotAt [(st.execPtr, sl)] k ≠ none := hk
      rw [hsl] at hk
      split at hk
      · next hc =>
        subst hc
        exact h.execPtr
      · exact absurd rfl hk
    · show st.winBegin ≤ st.after st.execPtr ∧ (st.after st.execPtr ≤ st.winEnd ∨ _)
      rw [haf]
      split
      · exact ⟨Nat.le_refl _, .inl (by omega)⟩
      · exact ⟨by omega, .inl (by omega)⟩
    · show st.after st.execPtr = if st.execPtr + 1 ≤ st.winEnd then st.execPtr + 1 else st.execPtr + 1 - st.size
      rw [haf]
      split <;> split <;> omega
    · show 1 ≤ st.size
      omega
    · show slotAt [(st.execPtr, sl)] k ≠ none ↔ st.place k < 1
      have hb : st.winBegin ≤ k := hb
      have he' : k ≤ st.winEnd := he'
      rw [hsl]
      dsimp only [Store.place]
      split
      · next hc =>
        subst hc
        simp
      · next hc =>
        simp only [ne_eq, not_true, false_iff]
        split <;> omega
    · have hm' : st.mode = .repeating := hm'
      rw [hm] at hm'
      cases hm'
    · have hk : slotAt [(st.execPtr, sl)] k = some sl' := hk
      rw [hsl] at hk
      split at hk
      · next hc =>
        subst hc
        exact a1
      · cases hk
    · rw [a1] at hk
      cases hk
      refine ⟨rfl, sl, ?_, a4⟩
      show slotAt [(st.execPtr, sl)] st.execPtr = _
      rw [hsl, if_pos rfl]
  · next he =>
    have ha : active = none := by
      cases active with
      | none => rfl
      | some i =>
        obtain ⟨sl, h1, -⟩ := activeSlot_some_of_windowOk h
        rw [he] at h1
        cases h1
    subst ha
    split
    · exact h
    · refine ⟨rfl, h.window, fun k hk => absurd rfl hk, h.execPtr, ?_, fun _ => ⟨?_, ?_, fun k hb he' => ?_⟩, fun hm' => ?_,
        fun k sl' hk => ?_, nofun⟩
      · exact ⟨x1, .inl x2⟩
      · show st.execPtr = if st.execPtr + 0 ≤ st.winEnd then st.execPtr + 0 else _
        rw [if_pos (by omega)]
        rfl
      · exact Nat.zero_le _
      · constructor
        · intro hk
          exact absurd rfl hk
        · intro hk
          exact absurd hk (Nat.not_lt_zero _)
      · have hm' : st.mode = .repeating := hm'
        rw [hm] at hm'
        cases hm'
      · cases hk

end Sys2Proof.Machine
end

