-- ==== Sys2Proof/Laws/Plan.lean ====
section
/-! SUPPORT. A replan, slot by slot: the run of slots from the execution pointer, the span, the legs and speeds of its
segments, and the slots they are written to. -/

namespace Sys2Proof.Machine

set_option Elab.async false

/-! ## Runs of slots -/

theorem runFrom_head (st : Store) (n i : Nat) : (st.runFrom (n + 1) i).head? = (st.slot i).map fun sl => (i, sl) := by
  unfold Store.runFrom
  cases st.slot i <;> rfl

/-- R48: each slot of a run is the one after the one before it, and not the write pointer's. -/
theorem runFrom_next {st : Store} {n i k : Nat} {e e' : Nat × Slot} (h : (st.runFrom n i)[k]? = some e)
    (h' : (st.runFrom n i)[k + 1]? = some e') : e'.1 = st.after e.1 ∧ e'.1 ≠ st.writePtr := by
  induction n generalizing i k with
  | zero => cases h
  | succ n ih =>
    unfold Store.runFrom at h h'
    cases hs : st.slot i with
    | none =>
      rw [hs] at h
      cases h
    | some sl =>
      rw [hs] at h h'
      dsimp only at h h'
      split at h
      · next hw =>
        rw [if_pos hw] at h'
        cases h'
      · next hw =>
        rw [if_neg hw] at h'
        cases k with
        | zero =>
          cases h
          rw [List.getElem?_cons_succ] at h'
          cases n with
          | zero => cases h'
          | succ n =>
            rw [← List.head?_eq_getElem?, runFrom_head] at h'
            cases hq : st.slot (st.after i) with
            | none =>
              rw [hq] at h'
              cases h'
            | some sl' =>
              rw [hq] at h'
              cases h'
              exact ⟨rfl, hw⟩
        | succ k => exact ih h h'

/-- R48: a run shorter than its bound ends before the write pointer or before an EMPTY slot. -/
theorem runFrom_whole {st : Store} {n i : Nat} {e : Nat × Slot} (h : (st.runFrom n i).getLast? = some e)
    (hl : (st.runFrom n i).length < n) : st.after e.1 = st.writePtr ∨ st.slot (st.after e.1) = none := by
  induction n generalizing i with
  | zero => cases h
  | succ n ih =>
    unfold Store.runFrom at h hl
    cases hs : st.slot i with
    | none =>
      rw [hs] at h
      cases h
    | some sl =>
      rw [hs] at h hl
      dsimp only at h hl
      split at h
      · next hw =>
        cases h
        exact .inl hw
      · next hw =>
        rw [if_neg hw] at hl
        cases n with
        | zero => exact absurd hl (by simp)
        | succ n =>
          cases hq : st.slot (st.after i) with
          | none =>
            have hn : st.runFrom (n + 1) (st.after i) = [] := by
              unfold Store.runFrom
              rw [hq]
            rw [hn] at h
            cases h
            exact .inr hq
          | some sl' =>
            have hn : st.runFrom (n + 1) (st.after i) ≠ [] := by
              unfold Store.runFrom
              rw [hq]
              exact nofun
            rw [List.getLast?_cons_of_ne_nil hn] at h
            exact ih h (by simpa using hl)

/-- R48: the span is the plan span of the rule. -/
theorem span_spans (st : Store) : st.spans st.span := by
  have hs : st.spanStart = ((st.slots.find? fun e => e.2.state = .active).map Prod.fst).getD st.execPtr := by
    unfold Store.spanStart Store.activeSlot
    cases st.slots.find? fun e => decide (e.2.state = .active) <;> rfl
  refine ⟨fun e he => runFrom_slot he, ?_, fun k e e' => runFrom_next, runFrom_length st 64 _, fun e => runFrom_whole⟩
  rw [← hs]
  exact runFrom_head st 63 _

/-- R24, R25: the k-th slot of the run from the execution pointer stands k places after it. -/
theorem runFrom_place {st : Store} {active : Option Nat} (h : st.windowOk active) {n k : Nat} {e : Nat × Slot}
    (he : (st.runFrom n st.execPtr)[k]? = some e) :
    (st.mode = .stream → st.place e.1 = k) ∧ (st.mode = .repeating → e.1 = st.execPtr + k) := by
  induction k generalizing e with
  | zero =>
    cases n with
    | zero => cases he
    | succ n =>
      rw [← List.head?_eq_getElem?, runFrom_head] at he
      cases hq : st.slot st.execPtr with
      | none =>
        rw [hq] at he
        cases he
      | some sl =>
        rw [hq] at he
        cases he
        refine ⟨fun _ => ?_, fun _ => rfl⟩
        unfold Store.place
        rw [if_pos (Nat.le_refl _)]
        exact Nat.sub_self _
  | succ k ih =>
    have hlt := (List.getElem?_eq_some_iff.mp he).1
    obtain ⟨d, hd⟩ : ∃ d, (st.runFrom n st.execPtr)[k]? = some d := ⟨_, List.getElem?_eq_getElem (by omega)⟩
    obtain ⟨h1, h2⟩ := runFrom_next hd he
    obtain ⟨a1, a2⟩ := ih hd
    have hds : st.slot d.1 ≠ none := by
      rw [runFrom_slot (List.mem_of_getElem? hd)]
      exact nofun
    obtain ⟨b1, b2⟩ := h.inside d.1 hds
    obtain ⟨x1, x2⟩ := h.execPtr
    obtain ⟨w1, w2⟩ := h.window
    unfold Store.after at h1
    refine ⟨fun hm => ?_, fun hm => ?_⟩
    · have ha := a1 hm
      obtain ⟨r1, r2, r3⟩ := h.ring hm
      have hp := (r3 _ b1 b2).mp hds
      have hsz : st.size = st.winEnd - st.winBegin + 1 := rfl
      rw [hm] at h1
      dsimp only at h1
      rw [h1] at h2 ⊢
      rw [r1] at h2
      unfold Store.place at ha hp ⊢
      revert h2 ha hp
      repeat' split
      all_goals omega
    · have ha := a2 hm
      rw [hm] at h1
      dsimp only at h1
      omega

/-- R48: no slot stands twice in the run from the execution pointer. -/
theorem runFrom_inj {st : Store} {active : Option Nat} (h : st.windowOk active) {n j k : Nat} {d e : Nat × Slot}
    (hd : (st.runFrom n st.execPtr)[j]? = some d) (he : (st.runFrom n st.execPtr)[k]? = some e) (hk : d.1 = e.1) :
    j = k := by
  obtain ⟨a1, a2⟩ := runFrom_place h hd
  obtain ⟨b1, b2⟩ := runFrom_place h he
  cases hm : st.mode with
  | stream => rw [← a1 hm, ← b1 hm, hk]
  | repeating =>
    have := a2 hm
    have := b2 hm
    omega

/-! ## Slots written -/

theorem slotAt_slotsPut_not (ws l : List (Nat × Slot)) {i : Nat} (h : ∀ e ∈ ws, e.1 ≠ i) :
    slotAt (slotsPut l ws) i = slotAt l i := by
  rcases slotAt_slotsPut ws l i with h' | ⟨sl, hm, -⟩
  · exact h'
  · exact absurd rfl (h _ hm)

/-- Of writes to distinct slots each one stands. -/
theorem slotAt_slotsPut_mem {ws l : List (Nat × Slot)} {k : Nat} {e : Nat × Slot} (hk : ws[k]? = some e)
    (hd : ∀ j f, ws[j]? = some f → f.1 = e.1 → j = k) : slotAt (slotsPut l ws) e.1 = some e.2 := by
  induction ws generalizing l k with
  | nil => cases hk
  | cons w rest ih =>
    cases k with
    | zero =>
      cases hk
      show slotAt (slotsPut (slotPut l e.1 e.2) rest) e.1 = _
      rw [slotAt_slotsPut_not rest _ ?_, slotAt_slotPut_self]
      intro f hf hc
      obtain ⟨j, hj⟩ := List.mem_iff_getElem?.mp hf
      have := hd (j + 1) f hj hc
      omega
    | succ k =>
      exact ih hk fun j f hj hc => by
        have := hd (j + 1) f hj hc
        omega

theorem plannedSlots_get {span : List (Nat × Slot)} {legs : List Leg} {sps : List Speeds} {k : Nat} {e : Nat × Slot}
    {leg : Leg} {sp : Speeds} (h1 : span[k]? = some e) (h2 : legs[k]? = some leg) (h3 : sps[k]? = some sp) :
    (plannedSlots span legs sps)[k]? = some (e.1, plannedSlot e.2 leg sp) := by
  induction span generalizing legs sps k with
  | nil => cases h1
  | cons d rest ih =>
    cases legs with
    | nil => cases h2
    | cons l ls =>
      cases sps with
      | nil => cases h3
      | cons p ps =>
        cases k with
        | zero =>
          cases h1
          cases h2
          cases h3
          rfl
        | succ k => exact ih h1 h2 h3

theorem plannedSlots_key {span : List (Nat × Slot)} {legs : List Leg} {sps : List Speeds} {k : Nat} {f : Nat × Slot}
    (h : (plannedSlots span legs sps)[k]? = some f) : ∃ e, span[k]? = some e ∧ e.1 = f.1 := by
  induction span generalizing legs sps k with
  | nil =>
    unfold plannedSlots at h
    cases h
  | cons d rest ih =>
    cases legs with
    | nil =>
      unfold plannedSlots at h
      cases h
    | cons l ls =>
      cases sps with
      | nil =>
        unfold plannedSlots at h
        cases h
      | cons p ps =>
        cases k with
        | zero =>
          cases h
          exact ⟨d, rfl, rfl⟩
        | succ k => exact ih h

/-! ## Legs and speeds -/

/-- R44: a leg is that of its segment after the one before it. -/
theorem legsOf_get {prm : Params} {pl : Planner} {pred : Option Segment} {segs : List Segment} {k : Nat} {seg : Segment}
    (h : segs[k]? = some seg) :
    (legsOf prm pl pred segs)[k]? = some (legOf prm pl (if k = 0 then pred else segs[k - 1]?) seg) := by
  induction segs generalizing pred k with
  | nil => cases h
  | cons g rest ih =>
    cases k with
    | zero =>
      cases h
      rfl
    | succ k =>
      refine (ih h).trans ?_
      cases k <;> rfl

theorem legsOf_length (prm : Params) (pl : Planner) (pred : Option Segment) (segs : List Segment) :
    (legsOf prm pl pred segs).length = segs.length := by
  induction segs generalizing pred with
  | nil => rfl
  | cons g rest ih => exact congrArg (· + 1) (ih _)

theorem backwardPass_length (a : Nat) (legs : List Leg) : (backwardPass a legs).length = legs.length := by
  induction legs with
  | nil => rfl
  | cons g rest ih => exact congrArg (· + 1) ih

/-- R49, R50: the speeds of a leg, from the leg and from the leg and speeds after it. -/
theorem backwardPass_get {a : Nat} {legs : List Leg} {k : Nat} {leg : Leg} (h : legs[k]? = some leg) :
    ∃ out,
      (backwardPass a legs)[k]? =
        some ⟨min leg.corner (min leg.feed (isqrt (out * out + 2000 * a * leg.length))), out⟩ ∧
      (legs[k + 1]? = none → out = 0) ∧
      ∀ next sp, legs[k + 1]? = some next → (backwardPass a legs)[k + 1]? = some sp →
        out = if leg.restsAfter || next.junction.rests then 0 else sp.entry := by
  induction legs generalizing k with
  | nil => cases h
  | cons g rest ih =>
    cases k with
    | zero =>
      cases h
      refine ⟨_, rfl, fun hn => ?_, fun next sp hn hs => ?_⟩
      · cases rest with
        | nil => rfl
        | cons _ _ => cases hn
      · cases rest with
        | nil => cases hn
        | cons d ds =>
          cases hn
          cases hs
          rfl
    | succ k => exact ih h

theorem moving_iff (k : SegmentKind) : k.moving = true ↔ k ≠ .pause := by
  cases k <;> decide

/-- R44. -/
theorem classify_eq (b : Nat) (pred : Option Segment) (seg : Segment) : classify b pred seg = seg.classAfter b pred := by
  have hm : ∀ k : SegmentKind, (!k.moving) = true ↔ k = .pause := fun k => by cases k <;> decide
  unfold classify Segment.classAfter
  simp only [hm]
  split
  · rfl
  split
  · rfl
  split
  · rfl
  cases pred with
  | none => exact (if_pos rfl).symm
  | some q => rfl

/-- R42, R43. -/
theorem effectiveFeed_eq (pl : Planner) (seg : Segment) : effectiveFeed pl seg = seg.plannedFeed pl := by
  have hd : ∀ n, pl.derate n = if n = 0 then pl.p0 else if n = 1 then pl.p1 else if n = 2 then pl.p2 else pl.p3 := by
    intro n
    unfold Planner.derate
    split
    · rfl
    · rfl
    · rfl
    · next h0 h1 h2 => rw [if_neg h0, if_neg h1, if_neg h2]
  unfold effectiveFeed Segment.plannedFeed
  by_cases h1 : seg.kind = .pause
  · rw [if_neg fun h => (moving_iff _).mp h h1, if_pos h1]
  · rw [if_pos ((moving_iff _).mpr h1), if_neg h1]
    cases seg.hint with
    | none => rfl
    | some n =>
      dsimp only
      rw [hd]
      rfl

theorem classAfter_none (b : Nat) (seg : Segment) : seg.classAfter b none ≠ .smooth ∧ seg.classAfter b none ≠ .blend := by
  have hk : ((none : Option Segment).map Segment.kind).getD .pause = .pause := rfl
  unfold Segment.classAfter
  rw [if_pos hk]
  repeat' split
  all_goals exact ⟨nofun, nofun⟩

/-- R45. -/
theorem cornerAfter_eq (prm : Params) (pl : Planner) (pred : Option Segment) (seg : Segment) :
    (legOf prm pl pred seg).corner = seg.cornerAfter prm pl pred := by
  unfold legOf Segment.cornerAfter
  dsimp only
  rw [classify_eq]
  simp only [effectiveFeed_eq]
  cases pred with
  | none =>
    obtain ⟨h1, h2⟩ := classAfter_none prm.blendAngle seg
    rw [if_neg h1, if_neg h2]
    revert h1 h2
    cases seg.classAfter prm.blendAngle none <;> intro h1 h2 <;> first | rfl | exact absurd rfl h1 | exact absurd rfl h2
  | some q => cases seg.classAfter prm.blendAngle (some q) <;> simp [cornerSpeed]

/-- R49. -/
theorem rests_iff (j : JunctionClass) : j.rests = true ↔ j ∈ [JunctionClass.start, .pivot, .stop] := by
  cases j <;> decide

/-! ## A replan of an empty window, and of one ACTIVE slot alone -/

theorem replan_of_empty (completed : Option Segment) {s : State} (h : s.store.slots = []) :
    (replan completed s).store.slots = [] ∧ (replan completed s).planner.spanCount = 0 := by
  have hsp : s.store.span = [] := by
    unfold Store.span Store.runFrom Store.slot
    rw [h]
    rfl
  refine ⟨?_, ?_⟩
  · rw [replan_slots, hsp, h]
    rfl
  · show (copyDerates s).store.span.length = 0
    rw [copyDerates_store, hsp]
    rfl

/-- R49, R51: an ACTIVE slot alone in the window keeps its record, with the exit speed 0. -/
theorem replan_of_active (completed : Option Segment) {s : State} {i : Nat} {sl : Slot} (h : s.store.slots = [(i, sl)])
    (ha : sl.state = .active) (hw : s.store.after i = s.store.writePtr) :
    (replan completed s).store.slots = [(i, { sl with seg := { sl.seg with exitSpeed := 0 } })] ∧
      (replan completed s).planner.spanCount = 1 := by
  have hact : s.store.spanStart = i := by
    unfold Store.spanStart Store.activeSlot
    rw [h, List.find?_cons_of_pos (by simp [ha])]
  have hsp : s.store.span = [(i, sl)] := by
    have hs : s.store.slot i = some sl := by
      unfold Store.slot
      rw [h]
      exact if_pos rfl
    unfold Store.span
    rw [hact]
    unfold Store.runFrom
    rw [hs]
    dsimp only
    rw [if_pos hw]
  refine ⟨?_, ?_⟩
  · rw [replan_slots]
    unfold spanLegs
    rw [copyDerates_store, hsp, h]
    show slotPut [(i, sl)] i (plannedSlot sl _ ⟨_, 0⟩) = _
    unfold plannedSlot
    rw [ha]
    unfold slotPut
    rw [if_neg (Nat.lt_irrefl i), if_pos rfl]
  · show (copyDerates s).store.span.length = 1
    rw [copyDerates_store, hsp]
    rfl

end Sys2Proof.Machine
end

