-- ==== Sys2Proof/Laws/Records.lean ====
section
/-! SUPPORT. The sizes of the fields and of the groups the records are made of (12.3, 12.4). -/

namespace Sys2Proof.Machine

set_option Elab.async false

/-! ## Fields -/

@[simp] theorem u8_length (n : Nat) : (u8 n).length = 1 := rfl

@[simp] theorem u16_length (n : Nat) : (u16 n).length = 2 := rfl

@[simp] theorem u32_length (n : Nat) : (u32 n).length = 4 := rfl

@[simp] theorem i16_length (n : Int) : (i16 n).length = 2 := rfl

@[simp] theorem i32_length (n : Int) : (i32 n).length = 4 := rfl

@[simp] theorem flag8_length (b : Bool) : (flag8 b).length = 1 := rfl

/-! ## Groups -/

theorem recordBytes_length (seg : Segment) (p : Nat) : (recordBytes seg p).length = 75 := by
  unfold recordBytes
  repeat rw [List.length_append]
  simp only [u8_length, u16_length, u32_length, i32_length]
  rw [i16_length]

theorem jobBytes_length (j : Job) : (jobBytes j).length = 23 := rfl

theorem storeBytes_length (st : Store) (pl : Planner) : (storeBytes st pl).length = 31 := by
  unfold storeBytes
  repeat rw [List.length_append]
  simp only [u8_length, u16_length, i32_length, flag8_length]

theorem interpBytes_length (n : Interp) : (interpBytes n).length = 20 := rfl

theorem govBytes_length (g : Governor) : (govBytes g).length = 15 := rfl

theorem strokeBytes_length (prm : Params) (k : Stroke) : (strokeBytes prm k).length = 8 := rfl

theorem loadBytes_length (m : Load) : (loadBytes m).length = 13 := rfl

theorem axisBytes_length (ax : AxisState) : (axisBytes ax).length = 7 := rfl

theorem traverseBytes_length (t : Option Traverse) : (traverseBytes t).length = 10 := by
  cases t <;> rfl

theorem guardBytes_length (g : Guard) : (guardBytes g).length = 8 := rfl

theorem linkBytes_length (l : Link) : (linkBytes l).length = 5 := rfl

end Sys2Proof.Machine
end

