-- ==== Sys2Proof/Laws/Stable.lean ====
section
/-! SUPPORT. What every step keeps, said once: a condition on the state that survives each update of one block, a SET, a
reset and the passing of time survives every step. -/

namespace Sys2Proof.Machine

set_option Elab.async false

/-- A condition that, beside the updates of `Quiet`, survives what a SET stores. -/
structure Settled (P : State → Prop) : Prop extends Quiet P where
  set : ∀ s (p : ParamId) v, P s → p.fixed = false → p.undefinedCode v = false → P (p.write (p.hold s v).toNat s)

/-- A condition that survives also what leaves the request queue and marks an entry of it taken,
    the time base and a reset,
does not look at the waiting commands, and survives the arrival of a frame with its taking. -/
structure Handed (P : State → Prop) : Prop extends Settled P where
  pending : ∀ s rest, P s → P { s with pending := rest }
  timeBase : ∀ s t, P s → P { s with timeBase := t }
  reset : ∀ s rate straps, P s → P (s.resetTo rate straps)
  taken : ∀ s f, P s → (f s.link).requests.length ≤ s.link.requests.length →
    (∀ e ∈ (f s.link).requests, e.mark = .untaken → e ∈ s.link.requests) →
    (s.link.stopped = true → (f s.link).stopped = true) →
    (s.link.notices.length ≤ 16 → (f s.link).notices.length ≤ 16) → P (s.mapLink f)
  takeRequest : ∀ s i take, P s → requestTake i = some take → P (takeRequest i take s)
  arriveRequest : ∀ s kind body, P s → P (arriveRequest kind body s)

/-- A condition that survives everything that enters and leaves the request queue within its 8 entries, whatever the marks
of its entries. -/
structure Stable (P : State → Prop) : Prop extends Settled P where
  pending : ∀ s rest, P s → P { s with pending := rest }
  timeBase : ∀ s t, P s → P { s with timeBase := t }
  reset : ∀ s rate straps, P s → P (s.resetTo rate straps)
  queues : ∀ s f, P s → (s.link.requests.length ≤ 8 → (f s.link).requests.length ≤ 8) →
    (s.link.notices.length ≤ 16 → (f s.link).notices.length ≤ 16) → P (s.mapLink f)

variable {P : State → Prop}

/-! ## Time -/

theorem ok_strokeElapse {k : Stroke} (us : Nat) (h : k.ok) : (k.elapse us).ok := by
  refine ⟨h.undriven, fun hs => ?_, fun ht => h.spinup ?_, h.duty, ?_, h.rate⟩
  · obtain ⟨h1, h2, h3⟩ := h.atRest hs
    exact ⟨h1, h2, by show runOn us k.stallTimer = none; rw [h3]; rfl⟩
  · have ht : (runOn us k.spinTimer).isSome = true := ht
    simpa [runOn] using ht
  · show (if 50 ≤ k.pwmPhase + us then k.duty else k.pwmDuty) ≤ 1000
    split
    · exact h.duty
    · exact h.cycle

theorem ok_loadElapse {m : Load} (us : Nat) (h : m.ok) : (m.elapse us).ok := by
  refine ⟨h.acc, h.band, h.result, fun hi => h.valid ?_⟩
  unfold Load.elapse at hi
  simpa using hi

theorem linkElapse_queues (us : Nat) (l : Link) :
    (l.elapse us).requests = l.requests ∧ (l.elapse us).notices = l.notices := by
  unfold Link.elapse
  dsimp only
  split
  · exact ⟨rfl, rfl⟩
  · split
    · split
      · exact ⟨rfl, rfl⟩
      · split <;> exact ⟨rfl, rfl⟩
    · split <;> exact ⟨rfl, rfl⟩

theorem linkElapse_stopped (us : Nat) (l : Link) : l.stopped = true → (l.elapse us).stopped = true := by
  intro h
  unfold Link.elapse
  dsimp only
  split
  · exact h
  · split
    · split
      · exact h
      · split <;> exact h
    · split <;> exact h

theorem Handed.elapse (q : Handed P) (us : Nat) {s : State} (h : P s) : P (elapse us s) := by
  have h1 := q.timeBase s (s.timeBase + BitVec.ofNat 32 us) h
  have h2 := q.interp _ (fun n => { n with timer := runOn us n.timer }) h1
  have h3 := q.stroke _ (Stroke.elapse us) h2 fun _ => ok_strokeElapse us
  have h4 := q.load _ (Load.elapse us) h3 (ok_loadElapse us)
  have h5 := q.axes _ (fun u => { u with timer := runOn us u.timer }) h4 fun ho => ok_of_axes ho rfl rfl rfl
  have h6 := q.guard _
    (fun g => { g with inputs := inputsOf fun i => { g.input i with timer := runOn us (g.input i).timer } }) h5
    fun i => by cases i <;> exact ⟨rfl, rfl, rfl⟩
  have h7 := q.job _ (fun j => { j with dwell := runOn us j.dwell }) h6
  exact q.link _ (Link.elapse us) h7 (linkElapse_queues us _).1 (linkElapse_stopped us _) fun hn =>
    (linkElapse_queues us _).2.symm ▸ hn

/-! ## The request queue -/

/-- R162: what a complete frame does to the Link. -/
theorem Stable.appendRequest (q : Stable P) (kind : Byte) (body : List Byte) {s : State} (h : P s) :
    P (appendRequest kind body s) := by
  unfold Sys2Proof.Machine.appendRequest
  split
  · next hl =>
    refine q.queues s _ h (fun _ => ?_) fun hn => ?_
    · rw [judge_length, List.length_append, List.length_singleton]
      omega
    · rw [judge_eq]
      exact hn
  · exact q.setRxFault h

theorem Stable.answerNext (q : Stable P) {take : State → State × Mark} (ht : ∀ s, P s → P (take s).1) {s : State}
    (h : P s) : P (answerNext take s) := by
  unfold Sys2Proof.Machine.answerNext
  refine q.queues _ _ (ht s h) (fun hl => ?_) fun hn => ?_
  · rw [judge_length]
    dsimp only
    rw [markFirst_length]
    exact hl
  · rw [judge_eq]
    exact hn

/-- R165: a request keeps what its block keeps. -/
theorem Stable.takeRequest (q : Stable P) (i : Instr) {take : State → State × Mark} (ht : ∀ s, P s → P (take s).1)
    {s : State} (h : P s) : P (takeRequest i take s) := by
  unfold Sys2Proof.Machine.takeRequest
  split
  · exact h
  · next kind body _ =>
    have ha : P (if s.link.handsNext kind body then s else Machine.appendRequest kind body s) := by
      split
      · exact h
      · exact q.appendRequest kind body h
    extract_lets u
    have hu : P u := ha
    split
    · exact q.answerNext ht hu
    · exact hu

theorem Quiet.receiveError (q : Quiet P) {s : State} (h : P s) : P (receiveError s) :=
  q.setRxFault (q.link s Link.hunt h rfl id id)

/-! ## The transmitter -/

theorem Quiet.beginNotice (q : Quiet P) {s : State} (h : P s) : P (beginNotice s) := by
  unfold Sys2Proof.Machine.beginNotice
  split
  · exact h
  · next n rest hn =>
    refine q.link _ _ (q.link s (fun l => { l with notices := rest }) h rfl id fun hl => ?_) rfl id id
    rw [hn, List.length_cons] at hl
    dsimp only
    omega

theorem Quiet.txStart (q : Quiet P) {s : State} (h : P s) : P (txStart s) := by
  unfold Sys2Proof.Machine.txStart
  split
  · unfold chooseFrame
    split
    · exact q.beginNotice h
    · split
      · exact q.link s _ h rfl id id
      · exact q.beginNotice h
      · exact q.beginNotice h
  · exact h

theorem Handed.txEnd (q : Handed P) {s : State} (h : P s) : P (txEnd s) := by
  unfold Sys2Proof.Machine.txEnd
  split
  · exact h
  · next f _ =>
    split
    · split
      · exact q.reset s _ _ h
      · refine q.txStart (q.taken s (Link.frameSent f) h ?_ ?_ id id)
        · show (if f.isReply then s.link.requests.tail else s.link.requests).length ≤ _
          split
          · rw [List.length_tail]
            omega
          · exact Nat.le_refl _
        · show ∀ e ∈ (if f.isReply then s.link.requests.tail else s.link.requests), _
          split
          · exact fun e he _ => List.mem_of_mem_tail he
          · exact fun e he _ => he
    · exact h

theorem Handed.serveLink (q : Handed P) (r : Reply) {s : State} (h : P s) : P (serveLink r s) := by
  refine q.taken s _ h ?_ (fun e he hm => ?_) id id
  · exact Nat.le_of_eq (List.length_map _)
  · obtain ⟨d, hd, rfl⟩ := List.mem_map.mp he
    split at hm
    · cases hm
    · next hn => exact (if_neg hn).symm ▸ hd

theorem Handed.serve (q : Handed P) {code : Nat} (hcode : code ≤ 1023) {s : State} (h : P s) :
    P (serve code s) := by
  have hl := q.load s
    (fun m => { m with inFlight := none, reqStroke := false, reqLink := false, result := code, valid := true })
    h fun ho => ⟨ho.acc, ho.band, hcode, nofun⟩
  unfold Sys2Proof.Machine.serve
  dsimp only
  refine q.powerDownIfOff ?_
  split
  · refine q.serveLink _ ?_
    split
    · exact q.serveStroke hcode hl
    · exact hl
  · split
    · exact q.serveStroke hcode hl
    · exact hl

theorem Handed.measured (q : Handed P) {code : Nat} (hcode : code ≤ 1023) {s : State} (h : P s) :
    P (measured code s) := by
  unfold Sys2Proof.Machine.measured
  split
  · split
    · exact q.serve hcode h
    · exact h
  · exact h
  · exact h

/-! ## SET -/

theorem ok_relock {k : Stroke} (h : k.ok) : (relock k).ok := by
  unfold relock
  split
  · exact ⟨h.undriven, h.atRest, h.spinup, h.duty, h.cycle, h.rate⟩
  · exact h

theorem Quiet.gapReached (q : Quiet P) {s : State} (h : P s) : P (gapReached s) := by
  unfold Sys2Proof.Machine.gapReached
  split
  · exact q.setRxFault (q.link s Link.hunt h rfl id id)
  · exact h

/-- R169: what follows a stored value in its own step. -/
theorem Quiet.afterSet (q : Quiet P) (before : Int) (p : ParamId) {s : State} (h : P s) : P (p.afterSet before s) := by
  unfold ParamId.afterSet
  split
  · split
    · exact h
    · exact q.stroke s _ h fun _ => ok_relock
  · split
    · exact q.stallReached h
    · exact q.coastReached h
  · exact q.spinupFailed h
  · exact q.dwellReached h
  · exact q.gapReached h
  · exact q.filterReached _ h
  · exact h

theorem Settled.takeSet (q : Settled P) (id : Byte) (v : Word) {s : State} (h : P s) : P (takeSet id v s).1 := by
  unfold Sys2Proof.Machine.takeSet judgeSet
  cases hp : paramOfId id.toNat with
  | none => exact h
  | some p =>
    dsimp only
    cases hf : p.fixed
    · rw [if_neg Bool.false_ne_true]
      by_cases hb : (p.idleOnly && decide (s.job.state ≠ .idle)) = true
      · rw [if_pos hb]
        exact h
      · rw [if_neg hb]
        cases hu : p.undefinedCode v.toInt
        · rw [if_neg Bool.false_ne_true]
          exact q.afterSet _ p (q.set s p _ h hf hu)
        · rw [if_pos rfl]
          exact h
    · rw [if_pos rfl]
      exact h

/-! ## The other requests -/

theorem judged_keeps {refusal : Option ResultCode} {act : State → State} {s : State} (h : P s) (ha : P (act s)) :
    P (judged refusal act s).1 := by
  unfold judged
  split
  · exact h
  · exact ha

theorem Settled.takeWindow (q : Settled P) (b e : Half) (m : Byte) {s : State} (h : P s) : P (takeWindow b e m s).1 := by
  unfold Sys2Proof.Machine.takeWindow
  split
  · exact h
  · split
    · exact h
    · split
      · exact h
      · split
        · exact q.store s (fun st => { st with winBegin := _, winEnd := _, mode := _, writePtr := _, execPtr := _ }) h id
        · exact h

theorem Settled.takeAppend (q : Settled P) (body : List Byte) {s : State} (h : P s) : P (takeAppend body s).1 := by
  unfold Sys2Proof.Machine.takeAppend
  split
  · exact h
  · split
    · exact h
    · exact h
    · next hold _ =>
      show P (rejectRecord hold s)
      unfold rejectRecord
      split
      · exact q.holdRequest h
      · exact h
    · exact q.starvedAcceptance (q.acceptRecord _ h)

theorem Settled.flushPartly (q : Settled P) {s : State} (h : P s) : P (flushPartly s).1 := by
  unfold Sys2Proof.Machine.flushPartly
  split
  · exact q.replan _ (q.partialFlush h)
  · exact h

theorem Settled.takeFlush (q : Settled P) {s : State} (h : P s) : P (takeFlush s).1 := by
  unfold Sys2Proof.Machine.takeFlush
  split
  · exact q.replan _ (q.emptyWindow h)
  · split
    · exact q.flushPartly h
    · exact h
  · exact q.flushPartly h
  all_goals exact h

theorem Settled.beginJob (q : Settled P) (n : Nat) (x y : Int) {s : State} (h : P s) : P (beginJob n x y s) :=
  q.warmupPassage (q.startPivot (q.interp _ _ (q.spinUpRequest (q.gov _ _ (q.job _ _ (q.replan none h))
    fun _ => ⟨Nat.zero_le _, Nat.zero_le _⟩))))

theorem Settled.resumeJob (q : Settled P) {s : State} (h : P s) : P (resumeJob s) := by
  unfold Sys2Proof.Machine.resumeJob
  split
  · split
    · exact q.warmupPassage (q.spinUpRequest (q.job s _ h))
    · exact q.becomeStarved h
  · split <;> exact q.setJobState _ h

theorem Settled.takeAbort (q : Settled P) {s : State} (h : P s) : P (takeAbort s).1 := by
  unfold Sys2Proof.Machine.takeAbort
  split
  · exact h
  · exact h
  · exact h
  all_goals exact q.controlledStop h

theorem Settled.clearLatch (q : Settled P) {s : State} (h : P s) : P (clearLatch s) :=
  q.setJobState _ (q.strokeTo (q.guard s _ h (sameSettings_of_inputs rfl)) fun _ => ok_unstall)

theorem ok_beginHome (g : Guard) (a : Axis) {ax : AxisState} (hp : onCircle a ax.pos) :
    (ax.beginHome g a).ok ∧ onCircle a (ax.beginHome g a).pos := by
  have hp' : onCircle a (homePos a ax.pos) := by
    intro e
    subst e
    exact hp rfl
  unfold AxisState.beginHome
  dsimp only
  split
  · exact ⟨fun _ => rfl, hp'⟩
  · split
    · exact ⟨nofun, hp'⟩
    · exact ⟨nofun, hp'⟩

theorem Settled.beginHome (q : Settled P) (w : AxisSet) {s : State} (h : P s) : P (beginHome w s) := by
  refine q.setJobState _ (q.axes s _ h fun ho => ?_)
  have he : (s.axes.each fun a ax => if w.has a then ax.beginHome s.guard a else ax).ok := by
    refine ok_each ho fun a ax h hp => ?_
    split
    · exact ok_beginHome s.guard a hp
    · exact ⟨h, hp⟩
  exact ok_of_axes he rfl rfl rfl

theorem Settled.beginMove (q : Settled P) (x y : Int) (c : Nat) {s : State} (h : P s) : P (beginMove x y c s) :=
  q.setJobState _ (q.axes s _ h fun ho => ok_of_axes ho rfl rfl rfl)

theorem Settled.takeBlade (q : Settled P) (v : Byte) {s : State} (h : P s) : P (takeBlade v s).1 := by
  unfold Sys2Proof.Machine.takeBlade
  split
  · exact h
  · split
    · exact q.spinUpRequest h
    · exact q.idleRequest h
    · exact q.coastRequest h
    · exact h

theorem Settled.takeSample (q : Settled P) {s : State} (h : P s) : P (takeSample s).1 :=
  q.load s (fun m => m.powerUp.startConversion true) h fun ho => ok_startConversion true (ok_powerUp ho)

/-! ## The taking of a request -/

/-- R165: what a block does with a request it takes keeps a stable condition. -/
theorem Settled.block (q : Settled P) {i : Instr} {take : State → State × Mark} (ht : requestTake i = some take)
    {s : State} (h : P s) : P (take s).1 := by
  cases i
  case get id =>
    injection ht with ht
    subst ht
    unfold takeGet
    split <;> exact h
  case slot index =>
    injection ht with ht
    subst ht
    unfold takeSlot
    split <;> exact h
  case set id v => injection ht with ht; exact ht ▸ q.takeSet id v h
  case window b e m => injection ht with ht; exact ht ▸ q.takeWindow b e m h
  case append body => injection ht with ht; exact ht ▸ q.takeAppend body h
  case flush => injection ht with ht; exact ht ▸ q.takeFlush h
  case start n x y => injection ht with ht; exact ht ▸ judged_keeps h (q.beginJob _ _ _ h)
  case hold => injection ht with ht; exact ht ▸ judged_keeps h (q.holdRequest h)
  case resume => injection ht with ht; exact ht ▸ judged_keeps h (q.resumeJob h)
  case abort => injection ht with ht; exact ht ▸ q.takeAbort h
  case clear => injection ht with ht; exact ht ▸ judged_keeps h (q.clearLatch h)
  case home axes => injection ht with ht; exact ht ▸ judged_keeps h (q.beginHome _ h)
  case move x y c => injection ht with ht; exact ht ▸ judged_keeps h (q.beginMove _ _ _ h)
  case blade v => injection ht with ht; exact ht ▸ q.takeBlade v h
  case sample => injection ht with ht; exact ht ▸ q.takeSample h
  case reset => injection ht with ht; exact ht ▸ q.link s (fun l => { l with stopped := true }) h rfl (fun _ => rfl) id
  case ident => injection ht with ht; exact ht ▸ h
  case status => injection ht with ht; exact ht ▸ h
  all_goals cases ht

/-! ## What a block leaves of the request queue -/

/-- The request queue stays as it is, and the Link stopped once it has stopped, under every taking. -/
theorem settled_queue (entries : List Entry) (stopped : Bool) :
    Settled fun s => s.link.requests = entries ∧ (stopped = true → s.link.stopped = true) where
  free _ h := h
  store _ _ h _ := h
  planner _ _ h _ := h
  interp _ _ h := h
  gov _ _ h _ := h
  stroke _ _ h _ := h
  load _ _ h _ := h
  axes _ _ h _ := h
  guard _ _ h _ := h
  job _ _ h := h
  link _ _ h h1 h2 _ := ⟨h1.trans h.1, fun hb => h2 (h.2 hb)⟩
  set _ p _ h _ _ := by cases p <;> exact h

/-- R165: a block that takes a request leaves the request queue to the Link. -/
theorem block_queue {i : Instr} {take : State → State × Mark} (ht : requestTake i = some take) (s : State) :
    (take s).1.link.requests = s.link.requests ∧ (s.link.stopped = true → (take s).1.link.stopped = true) :=
  (settled_queue s.link.requests s.link.stopped).block ht ⟨rfl, id⟩

theorem judged_mark (refusal : Option ResultCode) (act : State → State) (s : State) :
    (judged refusal act s).2 ≠ .untaken := by
  unfold judged
  split <;> exact nofun

/-- R165: a block answers a request it takes, or defers its answer. -/
theorem block_mark {i : Instr} {take : State → State × Mark} (ht : requestTake i = some take) (s : State) :
    (take s).2 ≠ .untaken := by
  cases i
  case get id =>
    injection ht with ht
    subst ht
    unfold takeGet
    (repeat' split) <;> exact nofun
  case slot index =>
    injection ht with ht
    subst ht
    unfold takeSlot
    (repeat' split) <;> exact nofun
  case set id v =>
    injection ht with ht
    subst ht
    unfold takeSet
    (repeat' split) <;> exact nofun
  case window b e m =>
    injection ht with ht
    subst ht
    unfold takeWindow
    (repeat' split) <;> exact nofun
  case append body =>
    injection ht with ht
    subst ht
    unfold takeAppend
    (repeat' split) <;> exact nofun
  case flush =>
    injection ht with ht
    subst ht
    unfold takeFlush flushPartly
    (repeat' split) <;> exact nofun
  case abort =>
    injection ht with ht
    subst ht
    unfold takeAbort
    (repeat' split) <;> exact nofun
  case blade v =>
    injection ht with ht
    subst ht
    unfold takeBlade
    (repeat' split) <;> exact nofun
  case ident => injection ht with ht; exact ht ▸ nofun
  case status => injection ht with ht; exact ht ▸ nofun
  case sample => injection ht with ht; exact ht ▸ nofun
  case reset => injection ht with ht; exact ht ▸ nofun
  case start n x y => injection ht with ht; exact ht ▸ judged_mark _ _ s
  case hold => injection ht with ht; exact ht ▸ judged_mark _ _ s
  case resume => injection ht with ht; exact ht ▸ judged_mark _ _ s
  case clear => injection ht with ht; exact ht ▸ judged_mark _ _ s
  case home axes => injection ht with ht; exact ht ▸ judged_mark _ _ s
  case move x y c => injection ht with ht; exact ht ▸ judged_mark _ _ s
  all_goals cases ht

/-! ## The receiver -/

theorem Stable.handDue (q : Stable P) {s : State} (h : P s) : P (handDue s) := by
  unfold Sys2Proof.Machine.handDue
  split
  · exact h
  · split
    · exact h
    · next ht => exact q.answerNext (fun _ => q.block ht) h

theorem Stable.arriveRequest (q : Stable P) (kind : Byte) (body : List Byte) {s : State} (h : P s) :
    P (arriveRequest kind body s) := by
  unfold Sys2Proof.Machine.arriveRequest
  split
  · exact q.handDue (q.appendRequest kind body h)
  · exact q.setRxFault h

/-- A stable condition survives the arrival and the taking of a request. -/
theorem Stable.handed (q : Stable P) : Handed P where
  toSettled := q.toSettled
  pending := q.pending
  timeBase := q.timeBase
  reset := q.reset
  taken s f h hl _ _ hn := q.queues s f h (fun h8 => Nat.le_trans hl h8) hn
  takeRequest _ i _ h ht := q.takeRequest i (fun _ => q.block ht) h
  arriveRequest _ kind body h := q.arriveRequest kind body h

theorem Handed.completeFrame (q : Handed P) (kind : Byte) (body : List Byte) {s : State} (h : P s) :
    P (completeFrame kind body s) := by
  have hh := q.link s Link.hunt h rfl id id
  unfold Sys2Proof.Machine.completeFrame
  dsimp only
  split
  · exact q.arriveRequest _ kind body hh
  · exact q.setRxFault hh

theorem Handed.takeFrameByte (q : Handed P) (b : Byte) {s : State} (h : P s) : P (takeFrameByte b s) := by
  unfold Sys2Proof.Machine.takeFrameByte
  split
  · exact h
  · split
    · exact q.link s _ h rfl id id
    · exact q.receiveError h
  · exact q.link s _ h rfl id id
  · split
    · exact q.receiveError h
    · split
      · exact q.completeFrame _ _ h
      · exact q.receiveError h

theorem Handed.receiveByte (q : Handed P) (b : Byte) (stopHigh : Bool) {s : State} (h : P s) :
    P (receiveByte b stopHigh s) := by
  unfold Sys2Proof.Machine.receiveByte huntByte frameByte
  split
  · split
    · exact q.link s _ h rfl id id
    · split
      · exact q.link s _ h rfl id id
      · split
        · split
          · exact q.link s _ h rfl id id
          · exact h
        · split
          · exact q.link _ _ (q.receiveError h) rfl id id
          · split
            · split
              · exact q.takeFrameByte _ (q.link s _ h rfl id id)
              · exact q.receiveError h
            · split
              · exact q.link s _ h rfl id id
              · exact q.takeFrameByte _ (q.link s _ h rfl id id)
  · split
    · exact h
    · exact q.receiveError h

/-! ## Every command -/

/-- Every command keeps a stable condition. -/
theorem Handed.exec (q : Handed P) (i : Instr) {s t : State} (h : P s) (he : exec i s = .next t) : P t := by
  have hq : ∀ {u}, Host.Outcome.next (φ := Fault) (ρ := Refusal) u = .next t → P u → P t := by
    intro u e hu
    injection e with e
    exact e ▸ hu
  cases i with
  | ident => exact hq he (q.takeRequest s .ident _ h rfl)
  | set id v => exact hq he (q.takeRequest s (.set id v) _ h rfl)
  | get id => exact hq he (q.takeRequest s (.get id) _ h rfl)
  | window b e m => exact hq he (q.takeRequest s (.window b e m) _ h rfl)
  | append body => exact hq he (q.takeRequest s (.append body) _ h rfl)
  | flush => exact hq he (q.takeRequest s .flush _ h rfl)
  | slot index => exact hq he (q.takeRequest s (.slot index) _ h rfl)
  | start n x y => exact hq he (q.takeRequest s (.start n x y) _ h rfl)
  | hold => exact hq he (q.takeRequest s .hold _ h rfl)
  | resume => exact hq he (q.takeRequest s .resume _ h rfl)
  | abort => exact hq he (q.takeRequest s .abort _ h rfl)
  | clear => exact hq he (q.takeRequest s .clear _ h rfl)
  | home axes => exact hq he (q.takeRequest s (.home axes) _ h rfl)
  | move x y c => exact hq he (q.takeRequest s (.move x y c) _ h rfl)
  | blade v => exact hq he (q.takeRequest s (.blade v) _ h rfl)
  | status => exact hq he (q.takeRequest s .status _ h rfl)
  | sample => exact hq he (q.takeRequest s .sample _ h rfl)
  | reset => exact hq he (q.takeRequest s .reset _ h rfl)
  | hardwareReset straps => exact hq he (q.reset s _ _ h)
  | frameReceived kind body => exact hq he (q.completeFrame kind body h)
  | gapTimerExpiry => exact hq he (q.gapReached h)
  | holdFlowMark => exact hq he (q.link s _ h rfl id id)
  | goFlowMark => exact hq he (q.link s _ h rfl id id)
  | txFrameStart => exact hq he (q.txStart h)
  | txFrameEnd => exact hq he (q.txEnd h)
  | flowMarkSend =>
    refine hq he (q.link s _ h ?_ ?_ fun hn => ?_)
    · unfold Link.sendMark
      split <;> rfl
    · unfold Link.sendMark
      split <;> exact id
    · unfold Link.sendMark
      split <;> exact hn
  | interpolationPeriodExpiry =>
    refine hq he ?_
    split
    · exact q.interpolationExpiry h
    · exact h
  | indexArrival now => exact hq he (q.indexTaken now (q.elapse _ h))
  | spinupTimerExpiry => exact hq he (q.spinupFailed h)
  | stallTimerExpiry => exact hq he (q.stallReached h)
  | coastTimerExpiry => exact hq he (q.coastReached h)
  | phaseDelayExpiry => exact hq he (q.phaseReached h)
  | settlingComplete => exact hq he (q.settled h)
  | measuringComplete code =>
    exact hq he (q.measured (by have := code.isLt; omega) h)
  | inputRawChange i active => exact hq he (q.rawChange i active h)
  | filterTimerExpiry i => exact hq he (q.filterReached i h)
  | traversePeriodExpiry =>
    refine hq he ?_
    split
    · exact q.traverseExpiry h
    · exact h
  | starveDwellExpiry => exact hq he (q.dwellReached h)
  | receivedByte b stopHigh => exact hq he (q.receiveByte b stopHigh h)
  | stepIssued a => exact hq he (q.axes s _ h fun ho => ok_update ho fun _ => ok_issueOne)

/-- Every step keeps a stable condition. -/
theorem Handed.step (q : Handed P) {s t : State} (h : P s) (he : step s = .next t) : P t := by
  unfold Sys2Proof.Machine.step at he
  split at he
  · unfold idleStep at he
    split at he
    · exact q.exec _ h he
    · injection he with he
      exact he ▸ q.elapse 1 h
  · next c rest _ => exact q.exec c (q.pending s rest h) he

theorem Stable.exec (q : Stable P) (i : Instr) {s t : State} (h : P s) (he : exec i s = .next t) : P t :=
  q.handed.exec i h he

theorem Stable.step (q : Stable P) {s t : State} (h : P s) (he : step s = .next t) : P t :=
  q.handed.step h he

end Sys2Proof.Machine
end

