-- ==== Sys2Proof/Laws/Taking.lean ====
section
/-! SUPPORT. The terms of the statements about completing and taking a segment, against the operations of the model: the
Store completed and taken, the Interpolator taking, the timers, and the reports that end an expiry. -/

namespace Sys2Proof.Machine

set_option Elab.async false

/-! ## Timers -/

/-- A timer has reached its limit when it runs and has counted that many ms. -/
theorem reached_iff (timer : Option Nat) (ms : Nat) : reached timer ms = true ↔ timerOut timer ms := by
  unfold reached timerOut
  cases timer <;> simp

theorem not_reached {timer : Option Nat} {ms : Nat} (h : ¬timerOut timer ms) : reached timer ms = false := by
  rw [← Bool.not_eq_true, reached_iff]
  exact h

/-- R103: short of SPINUP_LIMIT, or outside SPINUP, nothing happens. -/
theorem spinupFailed_idle {s : State}
    (h : s.stroke.state ≠ .spinup ∨ ¬timerOut s.stroke.spinTimer s.params.spinupLimit) :
    spinupFailed s = s := by
  unfold spinupFailed
  rcases h with h | h
  · simp [h]
  · simp [not_reached h]

/-- R104: short of STALL_TIME, or not under drive, no stall is found. -/
theorem stallReached_idle {s : State}
    (h : s.stroke.state.driven = false ∨ ¬timerOut s.stroke.stallTimer s.params.stallTime) :
    stallReached s = s := by
  unfold stallReached
  rcases h with h | h
  · simp [h]
  · simp [not_reached h]

/-- R105: short of STALL_TIME, or outside COAST, nothing happens. -/
theorem coastReached_idle {s : State} (h : s.stroke.state ≠ .coast ∨ ¬timerOut s.stroke.stallTimer s.params.stallTime) :
    coastReached s = s := by
  unfold coastReached
  rcases h with h | h
  · simp [h]
  · simp [not_reached h]

/-- R135: short of FILTER nothing happens, and at FILTER the timer ends. -/
theorem filterReached_idle {i : InputId} {s : State} (h : ¬timerOut (s.guard.input i).timer (s.guard.input i).filter) :
    filterReached i s = s := by
  unfold filterReached
  simp [not_reached h]

theorem filterReached_ends {i : InputId} {s : State} (h : timerOut (s.guard.input i).timer (s.guard.input i).filter) :
    filterReached i s = filterEnds i s := by
  unfold filterReached
  rw [if_pos ((reached_iff _ _).mpr h)]

/-- R155: short of STARVE_DWELL nothing happens. -/
theorem dwellReached_idle {s : State} (h : ¬timerOut s.job.dwell s.params.starveDwell) : dwellReached s = s := by
  unfold dwellReached
  simp [not_reached h]

/-- R162: short of FRAME_TIMEOUT nothing happens. -/
theorem gapReached_idle {s : State} (h : ¬timerOut s.link.gap s.params.frameTimeout) : gapReached s = s := by
  unfold gapReached
  simp [not_reached h]

/-! ## Time -/

/-- Time passes in whole µs: several at once are so many of one. -/
theorem runOn_add (a b : Nat) (t : Option Nat) : runOn b (runOn a t) = runOn (a + b) t := by
  cases t
  · rfl
  · show some (_ + a + b) = some (_ + (a + b))
    rw [Nat.add_assoc]

theorem strokeElapse_add (a b : Nat) (k : Stroke) : (k.elapse a).elapse b = k.elapse (a + b) := by
  unfold Stroke.elapse
  simp only [runOn_add]
  have h1 : ((k.pwmPhase + a) % 50 + b) % 50 = (k.pwmPhase + (a + b)) % 50 := by omega
  rw [h1]
  congr 1
  by_cases h : 50 ≤ k.pwmPhase + a
  · rw [if_pos h, if_pos (show 50 ≤ k.pwmPhase + (a + b) by omega)]
    split <;> rfl
  · rw [if_neg h, Nat.mod_eq_of_lt (show k.pwmPhase + a < 50 by omega), Nat.add_assoc]

theorem loadElapse_add (a b : Nat) (m : Load) : (m.elapse a).elapse b = m.elapse (a + b) := by
  obtain ⟨powered, settled, inFlight, reqStroke, reqLink, result, valid, phase, acc, band, run⟩ := m
  unfold Load.elapse
  congr 1
  · rcases inFlight with _ | (t | t)
    · rfl
    · show some (Conversion.settling (t + a + b)) = some (Conversion.settling (t + (a + b)))
      rw [Nat.add_assoc]
    · show some (Conversion.measuring (t + a + b)) = some (Conversion.measuring (t + (a + b)))
      rw [Nat.add_assoc]
  · cases phase
    · rfl
    · show some (_ - a - b) = some (_ - (a + b))
      rw [Nat.sub_sub]

/-! ## The Store completed and taken -/

theorem slotPut_eq_map {l : List (Nat × Slot)} (hw : slotsWf l = true) {k : Nat} {sl : Slot} (h : slotAt l k ≠ none) :
    slotPut l k sl = l.map fun e => if e.1 = k then (k, sl) else e := by
  induction l with
  | nil => exact absurd rfl h
  | cons d rest ih =>
    obtain ⟨j, old⟩ := d
    obtain ⟨h1, h2⟩ := slotsWf_cons.mp hw
    unfold slotPut
    rw [List.map_cons]
    by_cases hj : j = k
    · subst hj
      rw [if_neg (Nat.lt_irrefl _), if_pos rfl, if_pos rfl]
      congr 1
      refine ((List.map_congr_left fun e he => ?_).trans (List.map_id _)).symm
      have := h1 e he
      rw [if_neg (by omega), id]
    · have hr : slotAt rest k ≠ none := by
        unfold slotAt at h
        rwa [if_neg hj] at h
      have hlt : ¬k < j := fun hlt => hr (slotAt_none_of_lt fun e he => Nat.lt_trans hlt (h1 e he))
      rw [if_neg hlt, if_neg hj, if_neg hj, ih h2 hr]

/-- R22, R61: the Store with the segment of a filled slot taken. -/
theorem activate_eq_takenAt {st : Store} (hw : st.wf = true) {k : Nat} (seg : Segment) (h : st.slot k ≠ none) :
    st.activate k seg = st.takenAt k seg := by
  unfold Store.activate Store.takenAt
  rw [slotPut_eq_map hw h]
  cases hk : seg.kind <;> rfl

theorem complete_stream {st : Store} (hm : st.mode = .stream) :
    st.complete = { st with slots := slotDrop st.slots st.execPtr, execPtr := st.after st.execPtr } := by
  unfold Store.complete
  split
  · rfl
  · next h => exact absurd (h.symm.trans hm) nofun

theorem complete_repeating {st : Store} (hm : st.mode = .repeating) {sl : Slot} (hs : st.slot st.execPtr = some sl) :
    st.complete =
      { st with
        slots := slotPut st.slots st.execPtr { sl with state := .queued }
        execPtr := if st.execPtr + 1 = st.writePtr then st.winBegin else st.execPtr + 1 } := by
  unfold Store.complete
  split
  · next h => exact absurd (h.symm.trans hm) nofun
  · rw [hs]

/-- R30, R36: the Store with the segment at the execution pointer completed and the GO rule applied. -/
theorem complete_eq_completedAt {s : State} (hw : s.store.wf = true) (h : s.store.slot s.store.execPtr ≠ none) :
    ({ s.store.complete with flowHeld := completedFlow s } : Store) =
      s.store.completedAt s.params.flowGo s.store.execPtr := by
  unfold completedFlow Store.completedAt
  cases hm : s.store.mode with
  | stream =>
    rw [complete_stream hm]
    dsimp only
    congr 1
    congr 1
    unfold Store.free Store.occupied Store.size slotDrop
    dsimp only
    simp only [decide_true, Bool.true_and]
    rw [← decide_not]
    congr 1
    exact propext (by omega)
  | repeating =>
    cases hs : s.store.slot s.store.execPtr with
    | none => exact absurd hs h
    | some sl =>
      rw [complete_repeating hm hs]
      dsimp only
      congr 1
      · rw [slotPut_eq_map hw h]
        refine List.map_congr_left fun e he => ?_
        split
        · next heq =>
          have := slotAt_of_mem hw he
          rw [heq] at this
          have hh : some e.2 = some sl := this.symm.trans hs
          rw [heq, ← Option.some.inj hh]
        · rfl
      · simp

/-! ## A completion and its replan -/

/-- R53: a replan reads the Store, the plan, the parameters and the job state, and writes the Store and the plan. -/
theorem replan_congr (completed : Option Segment) {s u : State} (hs : u.store = s.store) (hp : u.planner = s.planner)
    (hq : u.params = s.params) (hj : u.job.state = s.job.state) :
    (replan completed u).store = (replan completed s).store ∧
      (replan completed u).planner = (replan completed s).planner := by
  have hc : (copyDerates u).planner = (copyDerates s).planner := by
    unfold copyDerates
    rw [hj]
    split
    · rw [mapPlanner_planner, mapPlanner_planner, hp, hq]
    · exact hp
  have hd : ∀ x : State, (copyDerates x).params = x.params := fun x => by
    unfold copyDerates
    split <;> rfl
  have hl : spanLegs completed (copyDerates u) = spanLegs completed (copyDerates s) := by
    unfold spanLegs
    rw [hc, hd, hd, hq, copyDerates_store, copyDerates_store, hs]
  constructor
  · rw [replan_store completed u, replan_store completed s, replan_slots, replan_slots, hl, hd, hd, hq, hs]
  · unfold replan
    dsimp only
    rw [hc, copyDerates_store, copyDerates_store, hs]

/-- R30, R55, R58: the report of a completion leaves the Store and the plan of the completed Store, replanned. -/
theorem reportCompletion_plan {s x : State} (seg : Segment) (hw : s.store.wf = true)
    (h : s.store.slot s.store.execPtr ≠ none) (hs : x.store = s.store) (hp : x.planner = s.planner)
    (hq : x.params = s.params) (hj : x.job.state = s.job.state) :
    let v := replan (some seg) { s with store := s.store.completedAt s.params.flowGo s.store.execPtr }
    (reportCompletion seg x).store = v.store ∧ (reportCompletion seg x).planner = v.planner := by
  intro v
  let y := x.mapJob (Job.count seg)
  have hyj : y.job.state = s.job.state := hj
  have hflow : completedFlow y = completedFlow s := by
    unfold completedFlow
    rw [show y.store = s.store from hs, show y.params = s.params from hq]
  have key : ∃ u : State, storeCompletion seg y = replan (some seg) u ∧
      u.store = ({ s.store.complete with flowHeld := completedFlow s } : Store) ∧ u.planner = s.planner ∧
      u.params = s.params ∧ u.job.state = s.job.state := by
    have hmode : (y.mapStore Store.complete).store.mode = y.store.mode := complete_mode _
    unfold storeCompletion
    dsimp only
    rw [hmode]
    by_cases hm : y.store.mode = .stream
    · rw [if_pos hm]
      refine ⟨_, rfl, ?_⟩
      rw [goMarkRule_eq, mapStore_params, mapStore_store, complete_size, complete_flowHeld]
      rw [← hflow]
      unfold completedFlow
      have e1 : y.store = s.store := hs
      have e2 : y.params = s.params := hq
      rw [e1] at hm
      rw [e1, e2]
      split
      · next hh =>
        refine ⟨?_, hp, rfl, hyj⟩
        rw [hh.2, hm, decide_eq_true hh.1]
        rfl
      · next hh =>
        refine ⟨?_, hp, hq, hyj⟩
        show y.store.complete = _
        rw [e1]
        have : (s.store.flowHeld && !(decide (s.store.mode = .stream) &&
            decide (min s.params.flowGo s.store.size ≤ s.store.complete.free))) = s.store.complete.flowHeld := by
          rw [complete_flowHeld, hm]
          cases hf : s.store.flowHeld
          · rfl
          · have hn : ¬min s.params.flowGo s.store.size ≤ s.store.complete.free := fun hle => hh ⟨hle, hf⟩
            simp [hn]
        rw [this]
    · rw [if_neg hm]
      refine ⟨_, rfl, ?_, hp, hq, hyj⟩
      show y.store.complete = _
      have e1 : y.store = s.store := hs
      rw [e1] at hm ⊢
      have : completedFlow s = s.store.complete.flowHeld := by
        unfold completedFlow
        rw [complete_flowHeld]
        simp [hm]
      rw [this]
  obtain ⟨u, h1, h2, h3, h4, h5⟩ := key
  have hc := replan_congr (some seg) (s := { s with store := s.store.completedAt s.params.flowGo s.store.execPtr })
    (u := u) (by rw [h2]; exact complete_eq_completedAt hw h) h3 h4 h5
  constructor
  · show (storeCompletion seg y).store = _
    rw [h1]
    exact hc.1
  · show (storeCompletion seg y).planner = _
    rw [h1]
    exact hc.2

/-! ## Taking -/

/-- R61: the Interpolator after a taking. -/
theorem takeSegment_taking (k : Nat) (seg : Segment) (p : Nat) (s : State) :
    (takeSegment k seg p s).interp = s.interp.taking k seg p := by
  rw [takeSegment_interp]
  unfold junctionAction Interp.taking
  dsimp only
  cases hk : seg.kind
  case pause => rfl
  all_goals
    rw [if_neg (by decide), if_neg (by decide)]
    cases hj : seg.junction with
    | none => rfl
    | some j =>
      cases j
      case start =>
        show ({ s.interp with active := some k, p := p, pivot := _, pivotNeg := _ } : Interp) = _
        rw [← turn_eq]
        rfl
      all_goals rfl

/-- R61: the Link after a taking, with room for its notice. -/
theorem takeSegment_notices (k : Nat) (seg : Segment) (p : Nat) (s : State) (h : s.link.notices.length < 16) :
    (takeSegment k seg p s).link = { s.link with notices := s.link.notices ++ s.tagOf seg } := by
  rw [takeSegment_link]
  unfold State.tagOf
  cases seg.tag with
  | none =>
    show s.link = _
    rw [Option.map_none, Option.toList_none, List.append_nil]
  | some g =>
    dsimp only
    unfold queueNotice
    rw [mapLink_link, if_pos h]
    rfl

/-! ## The reports that end an expiry -/

theorem ahead_eq (s : State) : pathAhead s = s.ahead := pathAhead_eq s

/-- R38: the notices after a low-water evaluation, with room for one. -/
theorem lowWater_notices {s x : State} (ha : x.store.armed = s.store.armed) (hp : x.params = s.params)
    (h : x.link.notices.length < 16) : (lowWater x).link.notices = x.link.notices ++ s.lowQueued (lowWater x) := by
  have hst := lowWater_store x
  have hah : (lowWater x).ahead = x.ahead := by
    unfold State.ahead
    rw [hst, show (lowWater x).interp = x.interp from lowWater_keeps x .interp (by decide)]
  rw [lowWater_link]
  unfold State.lowQueued
  rw [hah, hst, ← ha, ← hp, ahead_eq]
  dsimp only
  split
  · rw [(queueNotice_link _ x).2.2, if_pos h]
  · rw [List.append_nil]

/-- The blocks an expiry has settled when only its reports are left to make: the job's state and held flag, the blade, the
Load Monitor, the parameters, the request queue and the low-water flag are those of `s`. -/
structure Reporting (s x : State) : Prop where
  job : x.job.state = s.job.state ∧ x.job.held = s.job.held
  stroke : x.stroke = s.stroke
  load : x.load = s.load
  params : x.params = s.params
  requests : x.link.requests = s.link.requests
  armed : x.store.armed = s.store.armed

/-- R38, R77, R84, R152: the reports that end an expiry along the path, in CUTTING and in HOLDING not at rest. -/
theorem expiryTail_judged {s x : State} {queued : List Notice} (hc : s.cuts) (r : Reporting s x)
    (hn : s.link.notices.length + queued.length < 15 → x.link.notices = s.link.notices ++ queued) :
    s.restJudged x.job queued (expiryTail x) ∧ Keeps [.job, .stroke, .load, .store, .link] x (expiryTail x) ∧
      (expiryTail x).store = { x.store with armed := (expiryTail x).store.armed } ∧
      (expiryTail x).link.marks = x.link.marks := by
  have hj : x.job.state = .cutting ∨ x.job.state = .holding := by
    rw [r.job.1]
    rcases hc with h | h
    · exact .inl h
    · exact .inr h.1
  have kt := expiryTail_keeps (s := x) (by rcases hj with h | h <;> rw [h] <;> decide)
  have hg : (expiryTail x).gov = x.gov := kt .gov (by decide)
  have hi : (expiryTail x).interp = x.interp := kt .interp (by decide)
  have hnum (y : State) (hy : y.interp = x.interp) (hs : ∀ i, y.store.slot i = x.store.slot i) :
      activeNumber x = y.interp.active.bind fun i => (y.store.slot i).map fun sl => (sl.seg.number, i) := by
    unfold activeNumber
    rw [hy]
    cases x.interp.active with
    | none => rfl
    | some i =>
      dsimp only [Option.bind_some]
      rw [hs]
  have hslot (y : State) (i : Nat) : (lowWater y).store.slot i = y.store.slot i := by
    rw [lowWater_store]
    rfl
  by_cases hr : x.job.state = .holding ∧ x.job.held = false ∧ x.gov.v = 0 ∧ x.interp.pivot = 0
  · have hrest : reportRest x = setHeld x := by
      unfold reportRest
      rw [hr.1]
      dsimp only
      rw [if_pos (by simp [hr.2.1, hr.2.2.1, hr.2.2.2])]
    obtain ⟨h1, h2, h3, h4⟩ := setHeld_eq x
    have he : expiryTail x = lowWater (setHeld x) := by
      unfold expiryTail
      rw [hrest, lowWaterAfter_job, if_pos (by rw [h1]; show x.job.state.inJob = true; rw [hr.1]; rfl),
        warmupPassage_other (by
          rw [show (lowWater (setHeld x)).job = _ from lowWater_keeps _ .job (by decide), h1]
          show x.job.state ≠ _
          rw [hr.1]
          decide)]
    have kl := lowWater_keeps (setHeld x)
    obtain ⟨q1, q2, -⟩ := lowWater_queues (setHeld x)
    obtain ⟨n1, n2, n3⟩ := queueNotice_link (.held (activeNumber x) x.interp.p) x
    have hst : (setHeld x).store = x.store := h4 .store (by decide)
    have hb : (expiryTail x).stroke = s.stroke.toIdle s.params.startDuty := by
      rw [he, show (lowWater (setHeld x)).stroke = _ from kl .stroke (by decide), h2, r.stroke, r.params]
    have hr' : s.job.state = .holding ∧ s.job.held = false ∧ (expiryTail x).gov.v = 0 ∧
        (expiryTail x).interp.pivot = 0 := by
      rw [hg, hi, ← r.job.1, ← r.job.2]
      exact hr
    refine ⟨⟨?_, ?_, ?_, ?_, fun hl => ?_⟩, kt, ?_, ?_⟩
    · rw [if_pos hr', he, show (lowWater (setHeld x)).job = _ from kl .job (by decide), h1]
    · rw [if_pos hr', hb]
    · rw [hb, he, show (lowWater (setHeld x)).load = _ from kl .load (by decide)]
      show (strokeTo _ _).load = _
      rw [strokeTo_load]
      show x.load.told x.stroke.state (x.stroke.toIdle x.params.startDuty).state = _
      rw [r.load, r.stroke, r.params]
    · rw [he, q1, h3, n1, r.requests]
    · have hnx := hn hl
      have hlen : (setHeld x).link.notices = s.link.notices ++ queued ++ [.held (activeNumber x) x.interp.p] := by
        rw [h3, n3, if_pos (by rw [hnx, List.length_append]; omega), hnx]
      have hlow := lowWater_notices (s := s) (x := setHeld x) (by rw [hst]; exact r.armed)
        ((h4 .params (by decide)).trans r.params)
        (by rw [hlen, List.length_append, List.length_append, List.length_singleton]; omega)
      rw [if_pos hr', ← hnum (expiryTail x) hi fun i => by rw [he, hslot, hst], hi, he, hlow, hlen]
    · rw [he, lowWater_store, hst]
    · rw [he, q2, h3, n2]
  · have hrest : reportRest x = x := by
      unfold reportRest
      split
      all_goals first
        | rfl
        | (next hh =>
            first
            | (exfalso
               rcases hj with h | h <;> rw [h] at hh <;> cases hh
               done)
            | (rw [if_neg]
               intro hc
               simp only [Bool.and_eq_true, Bool.not_eq_true', decide_eq_true_eq] at hc
               exact hr ⟨hh, hc.1.1, hc.1.2, hc.2⟩))
    have kl := lowWater_keeps x
    have he : expiryTail x = lowWater x := by
      unfold expiryTail
      rw [hrest, lowWaterAfter_job, if_pos (by rcases hj with h | h <;> rw [h] <;> rfl), warmupPassage_other]
      rw [show (lowWater x).job = x.job from kl .job (by decide)]
      rcases hj with h | h <;> rw [h] <;> decide
    obtain ⟨q1, q2, -⟩ := lowWater_queues x
    have hr' : ¬(s.job.state = .holding ∧ s.job.held = false ∧ (expiryTail x).gov.v = 0 ∧
        (expiryTail x).interp.pivot = 0) := by
      rw [hg, hi, ← r.job.1, ← r.job.2]
      exact hr
    have hb : (expiryTail x).stroke = s.stroke := by
      rw [he]
      exact (kl .stroke (by decide)).trans r.stroke
    refine ⟨⟨?_, ?_, ?_, ?_, fun hl => ?_⟩, kt, ?_, ?_⟩
    · rw [if_neg hr', he, show (lowWater x).job = _ from kl .job (by decide)]
    · rw [if_neg hr', hb]
    · rw [hb, told_same, he]
      exact (kl .load (by decide)).trans r.load
    · rw [he, q1, r.requests]
    · have hnx := hn hl
      rw [if_neg hr', List.append_nil, he,
        lowWater_notices (s := s) r.armed r.params (by rw [hnx, List.length_append]; omega), hnx]
    · rw [he, lowWater_store]
    · rw [he, q2]

end Sys2Proof.Machine
end

