-- ==== Sys2Proof/Tests/Slice0.lean ====
section
/-! SUPPORT. Tests: what the checks of well-formedness refuse, states and operands that meet the hypotheses of each
statement, and worked examples of the spec. -/

namespace Sys2Proof.Tests

open Sys2Proof Sys2Proof.Machine

set_option Elab.async false

/-! ## Well-formedness -/

theorem test_append_body_short : (Instr.append (List.replicate 4 0)).wellFormed = false := by decide

theorem test_append_body_least : (Instr.append (List.replicate 5 0)).wellFormed = true := by decide

theorem test_append_body_greatest : (Instr.append (List.replicate 33 0)).wellFormed = true := by decide

theorem test_append_body_long : (Instr.append (List.replicate 34 0)).wellFormed = false := by decide

theorem test_frame_body_greatest : (Instr.frameReceived 1 (List.replicate 249 0)).wellFormed = true := by decide +kernel

theorem test_frame_body_long : (Instr.frameReceived 1 (List.replicate 250 0)).wellFormed = false := by decide +kernel

theorem test_tableWord_none : decodeTableWord 8 0 = none ∧ State.reset.withFetchWord 8 0 = State.reset := by
  decide

/-! ## States the tests start from -/

/-- The state a command leaves. -/
def after (i : Instr) (s : State) : State :=
  match exec i s with
  | .next t => t
  | .fault _ => s
  | .refused _ => s

/-- The part after power-up. -/
def r : State := State.reset

/-- With the job in a state. -/
def inState (j : JobState) (s : State) : State := setJobState j s

/-- With an input accepted ACTIVE. -/
def withActive (i : InputId) (s : State) : State :=
  s.mapGuard fun g => g.updateInput i fun inp => { inp with raw := true, accepted := true }

/-- With every axis enabled and REFERENCED at a position. -/
def referencedAt (x y c : Int) (s : State) : State :=
  s.mapAxes fun u =>
    { u with
      x := { u.x with pos := x, ref := .referenced, enable := true }
      y := { u.y with pos := y, ref := .referenced, enable := true }
      c := { u.c with pos := c, ref := .referenced, enable := true } }

/-- With a window of eight slots in a mode. -/
def window8 (m : Mode) (s : State) : State :=
  s.mapStore fun st => { st with winBegin := 0, winEnd := 7, mode := m }

/-- The body of a PAUSE of 500 ms. -/
def pauseBody : List Byte := [3, 0, 0, 0xF4, 1]

/-- Arrival A of 1.10: a LINE to (32000, 30000), length 12000, headings 0 and 0, feed 20000. -/
def lineA : List Byte :=
  [0, 0, 0, 0x00, 0x7D, 0, 0, 0x30, 0x75, 0, 0, 0xE0, 0x2E, 0, 0, 0, 0, 0, 0, 0x20, 0x4E]

/-- Arrival B of 1.10: an ARC_CCW to (40000, 38000) about (32000, 38000), length 12566, headings 0 and 9000. -/
def arcB : List Byte :=
  [2, 0, 0, 0x40, 0x9C, 0, 0, 0x70, 0x94, 0, 0, 0x00, 0x7D, 0, 0, 0x70, 0x94, 0, 0, 0x16, 0x31, 0, 0, 0, 0, 0x28, 0x23,
    0x20, 0x4E]

/-- Before arrival A. -/
def beforeA : State := referencedAt 20000 30000 0 r

/-- After arrival A, its reply sent. -/
def afterA : State := (after (.append lineA) beforeA).mapLink fun l => { l with requests := [] }

/-- A line along X from the origin, planned with exit 4000 (5.8). -/
def line12000 : Segment where
  kind := .line
  stopAt := ⟨12000, 0⟩
  centre := ⟨0, 0⟩
  length := 12000
  duration := 0
  entryHeading := 0
  exitHeading := 0
  feed := 20000
  pivotOk := false
  last := false
  tag := none
  hint := none
  advance := none
  number := 0
  startAt := ⟨0, 0⟩
  box := ⟨0, 12000, 0, 0⟩
  radius := 0
  sweep := 0
  delta := 0
  opening := false
  junction := some .start
  entrySpeed := 0
  exitSpeed := 4000

/-- The cut of 5.8 with `p` and the previous feed: band 1, M 4680, the stroke in RUN. -/
def cutting (p vprev : Nat) : State :=
  { referencedAt 0 0 0 (inState .cutting r) with
    store := { Store.reset with slots := [(0, ⟨.active, line12000⟩)], writePtr := 1, tailOpen := true }
    interp := { Interp.reset with timer := some 999, active := some 0, p := p }
    gov := { Governor.reset with v := vprev, vprev := vprev }
    stroke := { Stroke.reset 0 with state := .run, m := 4680, duty := 434, index := some 0 }
    load := { Load.reset with powered := true, settled := true, band := 1 } }

/-- The stroke in a state, with a duty, an index record and both timers as they run there. -/
def blade (k : StrokeState) (duty : Nat) (index : Option Word) (lock : Nat) : State :=
  r.mapStroke fun b =>
    { b with
      state := k, duty := duty, index := index, lock := lock, stallTimer := some 0,
      spinTimer := if k = .spinup then some 0 else none }

/-- The stroke in a state with a duty, both timers at their limits. -/
def expired (k : StrokeState) (duty : Nat) : State :=
  (blade k duty (some 0) 3).mapStroke fun b =>
    { b with stallTimer := some 120000, spinTimer := if k = .spinup then some 1500000 else none }

/-- A request queue of `n` entries that have been answered. -/
def answeredEntries (n : Nat) : List Entry :=
  List.replicate n ⟨0x01, [], .ready ⟨.ok, []⟩⟩

theorem timerOut_of {timer : Option Nat} {ms : Nat} (h : reached timer ms = true) : timerOut timer ms :=
  (reached_iff timer ms).mp h

theorem not_timerOut_of {timer : Option Nat} {ms : Nat} (h : reached timer ms = false) : ¬timerOut timer ms := by
  rw [← reached_iff, h]
  nofun

theorem ready_of_empty {s : State} (h : s.link.stopped = false) (he : s.link.requests = []) : s.ready :=
  ⟨h, by rw [he]; decide, by rw [he]; nofun⟩

/-- The window of a Store is in its form, as a computation. -/
def windowCheck (st : Store) (active : Option Nat) : Bool :=
  st.wf && decide (st.winBegin + 7 ≤ st.winEnd ∧ st.winEnd ≤ 511) &&
    (st.slots.all fun e =>
      decide (st.winBegin ≤ e.1 ∧ e.1 ≤ st.winEnd) && decide (e.2.state = .active → active = some e.1)) &&
    decide (st.winBegin ≤ st.execPtr ∧ st.execPtr ≤ st.winEnd) &&
    decide (st.winBegin ≤ st.writePtr ∧
      (st.writePtr ≤ st.winEnd ∨ (st.mode = .repeating ∧ st.writePtr = st.winEnd + 1))) &&
    (match st.mode with
    | .stream =>
      decide (st.writePtr = (if st.execPtr + st.slots.length ≤ st.winEnd then st.execPtr + st.slots.length
        else st.execPtr + st.slots.length - st.size)) && decide (st.slots.length ≤ st.size)
    | .repeating =>
      decide (st.winBegin + st.slots.length = st.writePtr ∧
        (st.execPtr < st.writePtr ∨ st.execPtr = st.winBegin))) &&
    ((List.range 512).all fun i =>
      match st.mode with
      | .stream => decide (st.winBegin ≤ i → i ≤ st.winEnd → (st.slot i ≠ none ↔ st.place i < st.slots.length))
      | .repeating => decide (st.slot i ≠ none ↔ st.winBegin ≤ i ∧ i < st.writePtr)) &&
    (match active with
    | none => true
    | some i => decide (i = st.execPtr) && (st.slot i).any fun sl => decide (sl.state = .active))

theorem windowOk_of_check {st : Store} {active : Option Nat} (h : windowCheck st active = true) :
    st.windowOk active := by
  unfold windowCheck at h
  simp only [Bool.and_eq_true] at h
  obtain ⟨⟨⟨⟨⟨⟨⟨h1, h2⟩, h3⟩, h4⟩, h5⟩, h6⟩, h7⟩, h8⟩ := h
  have h2 := of_decide_eq_true h2
  have h4 := of_decide_eq_true h4
  have h5 := of_decide_eq_true h5
  have h3' : ∀ i sl, st.slot i = some sl → (st.winBegin ≤ i ∧ i ≤ st.winEnd) ∧ (sl.state = .active → active = some i) :=
    fun i sl hs => by
      have := List.all_eq_true.mp h3 _ (mem_of_slotAt hs)
      simpa only [Bool.and_eq_true, decide_eq_true_eq] using this
  have inside : ∀ i, st.slot i ≠ none → st.winBegin ≤ i ∧ i ≤ st.winEnd := fun i hi => by
    cases hs : st.slot i with
    | none => exact absurd hs hi
    | some sl => exact (h3' i sl hs).1
  have h7 := List.all_eq_true.mp h7
  refine ⟨h1, h2, inside, h4, h5, fun hm => ?_, fun hm => ?_, fun i sl hs ha => (h3' i sl hs).2 ha, fun i hi => ?_⟩
  · rw [hm] at h6 h7
    simp only [Bool.and_eq_true, decide_eq_true_eq] at h6
    exact ⟨h6.1, h6.2, fun i hb he => of_decide_eq_true (h7 i (List.mem_range.mpr (by omega))) hb he⟩
  · rw [hm] at h6 h7
    obtain ⟨h6, h6'⟩ := of_decide_eq_true h6
    refine ⟨h6, h6', fun i => ?_⟩
    by_cases hi : i < 512
    · exact of_decide_eq_true (h7 i (List.mem_range.mpr hi))
    · exact ⟨fun hn => absurd (inside i hn).2 (by omega), fun hn => absurd hn.2 (by omega)⟩
  · rw [hi] at h8
    simp only [Bool.and_eq_true, decide_eq_true_eq] at h8
    refine ⟨h8.1, ?_⟩
    cases hs : st.slot i with
    | none => exact absurd (hs ▸ h8.2) nofun
    | some sl => exact ⟨sl, rfl, of_decide_eq_true (by simpa only [hs, Option.any] using h8.2)⟩

theorem slotsOk_of_check {s : State} (h : windowCheck s.store s.interp.active = true)
    (hr : s.interp.active.isSome = true → s.job.state.inJob = true := by decide)
    (hs : s.guard.stop.isSome = true → s.job.state = .stopping := by decide)
    (hm : s.guard.stop = some .motion → s.interp.active = none := by decide) : s.slotsOk :=
  ⟨windowOk_of_check h, hr, hs, hm⟩

theorem barsCut_of {g : Guard} (h : g.cutBlocked = true) : g.barsCut := (cutBlocked_iff g).mp h

theorem not_barsCut_of {g : Guard} (h : g.cutBlocked = false) : ¬g.barsCut := by
  rw [← cutBlocked_iff, h]
  nofun

theorem barsMotion_of {g : Guard} (h : g.motionBlocked = true) : g.barsMotion := (motionBlocked_iff g).mp h

theorem not_barsMotion_of {g : Guard} (h : g.motionBlocked = false) : ¬g.barsMotion := by
  rw [← motionBlocked_iff, h]
  nofun

theorem located_of {u : Axes} (h : u.allReferenced = true) : u.located := (allReferenced_iff u).mp h

theorem not_located_of {u : Axes} (h : u.allReferenced = false) : ¬u.located := by
  rw [← allReferenced_iff, h]
  nofun

theorem reset_paramsOk : State.reset.paramsOk := by
  constructor <;> first | decide | skip
  intro i
  cases i <;> decide

theorem reset_modesOk : State.reset.modesOk := by
  constructor <;> simp [State.reset, Guard.reset, Interp.reset, Axes.reset, Job.reset]

theorem reset_faultOk : State.reset.faultOk := by
  unfold State.faultOk
  simp [State.reset, Job.reset]

theorem reset_bladeOk : State.reset.bladeOk := by
  constructor <;> simp [State.reset, Stroke.reset, Params.reset]

theorem reset_rangesOk : State.reset.rangesOk := by
  constructor <;> first | decide | skip
  intro a
  cases a <;> decide

/-! ## Witnesses: the step, resets and frames -/

theorem witness_StepRunsFront : { r with pending := [.goFlowMark, .ident] }.pending = .goFlowMark :: [.ident] := rfl

theorem witness_EmptyQueueStep :
    r.pending = [] ∧ r.dueRequest = none ∧ (r.arrived .ident).pending = [] ∧
      (r.arrived .ident).dueRequest = some .ident := by decide

/-- A reply on the line: its first byte not begun, or its last byte after some time, held or not. -/
def sending (held : Bool) (left time : Nat) : State :=
  (after .txFrameStart (r.mapLink fun l => { l with requests := answeredEntries 1 })).mapLink fun l =>
    { l with held := held, charTime := time, tx := l.tx.map fun f => { f with sent := f.line.length - left } }

/-- R94, R163, R164: the cycle that ends, and each way the transmitter goes on in 1 µs. -/
theorem witness_EmptyQueueStep_time :
    let k := (blade .run 434 none 0).stroke
    r.link.tx = none ∧ (r.mapLink fun l => { l with held := true }).link.held = true ∧
      (sending true 5 0).link.tx.isSome = true ∧ (sending true 5 0).link.charTime = 0 ∧
      (elapse 1 (sending true 5 0)).link.charTime = 0 ∧
      (sending true 1 9884800).link.charTime + 115200 = 10000000 ∧ (sending true 1 9884799).link.rate.bits = 115200 ∧
      (elapse 1 (sending true 1 9884799)).link.charTime = 9999999 ∧
      (elapse 1 (sending true 1 9884800)).link.charTime = 0 ∧
      (elapse 1 (sending false 5 0)).link.charTime = 115200 ∧
      (elapse 1 (sending false 5 9884801)).link.charTime = 1 ∧
      ((elapse 1 (sending false 1 9884800)).link.tx.map fun f => f.line.length - f.sent) = some 0 ∧
      (after .sample r).load.inFlight = some (.settling 0) ∧
      (elapse 1 (after .sample r)).load.inFlight = some (.settling 1) ∧
      ({ k with pwmPhase := 49 }.elapse 1).pwmDuty = 434 ∧ ({ k with pwmPhase := 48 }.elapse 1).pwmDuty = 0 ∧
      (49999 : Nat) < 50000 ∧ { k with pwmDuty := 1000 }.outputAt 49999 = true := by decide +kernel

theorem witness_RequestRoundTrip :
    (Instr.set 0x24 (-1)).wellFormed = true ∧
      requestFrame (.set 0x24 (-1)) = some (0x02, [0x24, 0xFF, 0xFF, 0xFF, 0xFF]) ∧
      judgeRequest 0x02 [0x24, 0xFF, 0xFF, 0xFF, 0xFF] = .request (.set 0x24 (-1)) ∧
      judgeRequest 0x04 [7, 0, 0xFE, 1, 1] = .request (.window 7 510 1) := by decide

theorem witness_FrameOnTheLine : (0xA9 : Byte) ≠ 0xA5 ∧ (0xA9 : Byte) ≠ 0xA6 ∧ (0xA9 : Byte) ≠ 0xA7 ∧
    (0xA9 : Byte) ≠ 0xA8 := by decide

theorem witness_FrameBytesTaken : (List.replicate 249 (0xA5 : Byte)).length ≤ 249 ∧ r.link.rx = .hunt := by decide +kernel

theorem witness_CompleteFrameQueued :
    (answeredEntries 7).length < 8 ∧ 8 ≤ (answeredEntries 8).length ∧ (List.replicate 249 (0 : Byte)).length ≤ 249 ∧
      (r.mapLink fun l => { l with requests := answeredEntries 7 }).ready :=
  ⟨by decide, by decide, by decide +kernel, rfl, by decide, by decide⟩

theorem witness_HuntTakesOnlyFrameStart :
    r.link.rx = .hunt ∧ (0xA5 : Byte) ≠ 0xA7 ∧ (0xA5 : Byte) ≠ 0xA8 ∧ (0xA6 : Byte) ≠ 0xA7 ∧ (0xA6 : Byte) ≠ 0xA8 := by
  decide

/-- A receiver that has taken FRAME_START. -/
def inFrame : State := after (.receivedByte 0xA5 true) r

theorem witness_ReceiveErrors :
    inFrame.link.rx = .length ∧ inFrame.link.esc = false ∧ inFrame.link.gap.isSome = true ∧
      (after (.receivedByte 0xA6 true) inFrame).link.esc = true ∧
      (after (.receivedByte 0xA6 true) inFrame).link.rx ≠ .hunt ∧
      (0x89 : Byte) ∉ [0xA5, 0xA7, 0xA8, 0x85, 0x86, 0x87, 0x88] ∧
      ((0 : Byte).toNat = 0 ∨ 250 < (0 : Byte).toNat) ∧ ((251 : Byte).toNat = 0 ∨ 250 < (251 : Byte).toNat) := by decide

/-- R162: a gap of 50 ms is out, and one short of it is not. -/
theorem witness_ReceiveErrors_gap :
    timerOut (some 50000) r.params.frameTimeout ∧ ¬timerOut inFrame.link.gap inFrame.params.frameTimeout ∧
      (after .gapTimerExpiry (inFrame.mapLink fun l => { l with gap := some 50000 })).link.rxFault = true ∧
      (after .gapTimerExpiry (inFrame.mapLink fun l => { l with gap := some 49999 })).link.rxFault = false :=
  ⟨timerOut_of (by decide), not_timerOut_of (by decide), by decide, by decide⟩

/-- A receiver that waits for the check of an IDENT request. -/
def atCheck : State := after (.receivedByte 0x01 true) (after (.receivedByte 0x01 true) inFrame)

theorem witness_ReceiveErrors_check :
    atCheck.link.rx = .check 1 [0x01] ∧ atCheck.link.esc = false ∧ (0xFD : Byte) ∉ [0xA5, 0xA6, 0xA7, 0xA8] ∧
      (1 + (([0x01] : List Byte).map BitVec.toNat).sum + (0xFD : Byte).toNat) % 256 ≠ 0 ∧
      (1 + (([0x01] : List Byte).map BitVec.toNat).sum + (0xFE : Byte).toNat) % 256 = 0 ∧
      (after (.receivedByte 0xA6 true) atCheck).link.rx = .check 1 [0x01] ∧
      (after (.receivedByte 0xA6 true) atCheck).link.esc = true ∧ (0x85 : Byte) ∈ [0x85, 0x86, 0x87, 0x88] ∧
      (1 + (([0x01] : List Byte).map BitVec.toNat).sum + ((0x85 : Byte) ^^^ 0x20).toNat) % 256 ≠ 0 ∧
      (after (.receivedByte 0xFD true) atCheck).link.rxFault = true := by decide

/-- An idle transmitter with an answered request and a notice. -/
def twoToSend : State :=
  r.mapLink fun l => { l with requests := answeredEntries 1, notices := [.pass 1] }

theorem witness_TransmitterChoice :
    (r.mapLink fun l => { l with held := true }).link.held = true ∧ (after .txFrameStart twoToSend).link.tx ≠ none ∧
      twoToSend.link.tx = none ∧ twoToSend.link.held = false ∧
      twoToSend.link.requests = ⟨0x01, [], .ready ⟨.ok, []⟩⟩ :: [] ∧
      (twoToSend.mapLink fun l => { l with requests := [] }).link.notices = .pass 1 :: [] ∧
      (after .sample r).link.tx = none ∧ (after .sample r).link.notices = [] := by decide

theorem witness_TransmitterChoice_awaiting :
    ∀ e rest reply, (after .sample r).link.requests = e :: rest → e.mark ≠ .ready reply := by
  intro e rest reply h
  have : (after .sample r).link.requests = [⟨0x11, [], .awaiting⟩] := by decide
  rw [this] at h
  cases h
  nofun

/-- The reply of an accepted RESET being sent. -/
def resetReply : State := after .txFrameStart (after .reset r)

theorem witness_FrameEnd :
    (∃ f, (after .txFrameStart twoToSend).link.tx = some f ∧ f.resets = false) ∧
      (after .txFrameStart twoToSend).link.held = false ∧ (after .txFrameStart twoToSend).link.marks = [] ∧
      (∃ f, resetReply.link.tx = some f ∧ f.resets = true) ∧ resetReply.link.held = false ∧
      resetReply.link.marks = [] :=
  ⟨⟨_, rfl, rfl⟩, by decide, by decide, ⟨_, rfl, rfl⟩, by decide, by decide⟩

theorem witness_FlowMarkSent :
    (handMark .go r).link.marks = .go :: [] ∧ (handMark .go r).link.charTime = 0 ∧
      (handMark .go (elapse 1 (after .txFrameStart twoToSend))).link.marks = .go :: [] ∧
      0 < (handMark .go (elapse 1 (after .txFrameStart twoToSend))).link.charTime := by decide

theorem witness_NoticeQueueing :
    (List.replicate 15 (Notice.pass 1)).length < 16 ∧ 16 ≤ (List.replicate 16 (Notice.pass 1)).length := by decide

/-! ## Witnesses: reading and setting -/

theorem witness_ready : r.ready := ready_of_empty rfl rfl

theorem witness_SetStores :
    r.ready ∧ r.paramsOk ∧ r.storedAt (0x01 : Byte).toNat = some 30 ∧ ¬setFixed (0x01 : Byte).toNat ∧
      (setIdleOnly (0x01 : Byte).toNat → r.job.state = .idle) ∧
      ¬setUndefined (0x01 : Byte).toNat (BitVec.toInt (201 : Word)) ∧
      (after (.set 0x01 201) r).storedAt 0x01 = some 200 ∧ r.expiryOf 0x01 200 = none :=
  ⟨witness_ready, reset_paramsOk, by decide, by unfold setFixed; decide, fun _ => rfl, by unfold setUndefined; decide,
    by decide, by decide⟩

/-- In SPINUP with the stall timer at 100 ms. -/
def spinning : State := (blade .spinup 350 (some 0) 3).mapStroke fun k => { k with stallTimer := some 100000 }

theorem witness_SetStores_acts :
    spinning.storedAt 0x0A = some 4800 ∧ (after (.set 0x0A 4700) spinning).stroke.lock = 0 ∧
      spinning.expiryOf 0x0A 4700 = none ∧ spinning.expiryOf 0x10 100 = some .stallTimerExpiry ∧
      spinning.expiryOf 0x10 101 = none ∧ (after (.set 0x10 100) spinning).stroke.state = .stalled ∧
      (after (.set 0x10 100) spinning).params.stallTime = 100 ∧ (after (.set 0x10 101) spinning).stroke.state = .spinup ∧
      r.storedAt 0x4B = some 2 ∧ r.storedAt 0x5B = some 1 ∧ r.storedAt 0x6B = some 0 ∧ r.storedAt 0x73 = some 0 := by
  decide

theorem witness_SetRefused :
    r.ready ∧ setFixed (0x57 : Byte).toNat ∧ ¬setFixed (0x58 : Byte).toNat ∧ setIdleOnly (0x22 : Byte).toNat ∧
      ¬setFixed (0x22 : Byte).toNat ∧ (inState .cutting r).job.state ≠ .idle ∧ (inState .cutting r).ready ∧
      setUndefined (0x1D : Byte).toNat (BitVec.toInt (2 : Word)) ∧
      (after (.set 0x28 0) r).link.requests = [⟨0x02, [0x28, 0, 0, 0, 0], .ready ⟨.badField, []⟩⟩] ∧
      (after (.set 0x57 0) r).link.requests = [⟨0x02, [0x57, 0, 0, 0, 0], .ready ⟨.fixed, []⟩⟩] :=
  ⟨witness_ready, by unfold setFixed; decide, by unfold setFixed; decide, by unfold setIdleOnly; decide,
    by unfold setFixed; decide, by decide, ready_of_empty rfl rfl, by unfold setUndefined; decide, by decide, by decide⟩

theorem witness_RelatedParameters : r.ready ∧ r.paramsOk ∧ r.job.state = .idle :=
  ⟨witness_ready, reset_paramsOk, rfl⟩

/-! ## Witnesses: the Store -/

/-- One PAUSE in the window. -/
def onePause : State := after (.append pauseBody) (referencedAt 0 0 0 r)

theorem witness_WindowSet :
    (inState .cutting r).job.state ≠ .idle ∧ onePause.store.slots ≠ [] ∧ onePause.job.state = .idle ∧
      r.store.slots = [] ∧
      ((7 : Half).toNat ≤ 511 ∧ (14 : Half).toNat ≤ 511 ∧ (7 : Half).toNat ≤ (14 : Half).toNat ∧
        8 ≤ (14 : Half).toNat - (7 : Half).toNat + 1 ∧ (1 : Byte).toNat ≤ 1) ∧
      ¬8 ≤ (13 : Half).toNat - (7 : Half).toNat + 1 := by decide +kernel

theorem witness_AppendAccepted :
    beforeA.ready ∧ beforeA.slotsOk ∧ (Instr.append lineA).wellFormed = true ∧ beforeA.job.state = .idle ∧
      beforeA.store.chainClosed = false ∧ beforeA.store.slots.length < beforeA.store.size ∧
      (∃ seg code, judgeArrival beforeA lineA = .accepted seg code) ∧
      afterA.ready ∧ afterA.slotsOk ∧ afterA.store.tailOpen = true ∧ afterA.store.slots.length < afterA.store.size ∧
      (Instr.append arcB).wellFormed = true ∧ ∃ seg code, judgeArrival afterA arcB = .accepted seg code :=
  ⟨ready_of_empty rfl rfl, slotsOk_of_check (by decide +kernel), by decide, rfl, rfl, by decide, ⟨_, _, rfl⟩,
    ready_of_empty (by decide +kernel) (by decide +kernel),
    slotsOk_of_check (by decide +kernel) (by decide +kernel) (by decide +kernel) (by decide +kernel), by decide +kernel,
    by decide +kernel, by decide, ⟨_, _, rfl⟩⟩

/-- A window of one slot, holding one PAUSE, so that no slot is free. -/
def fullWindow : State := onePause.mapStore fun st => { st with winEnd := 0 }

/-- A PAUSE of 0 ms, which is out of range. -/
def badPause : List Byte := [3, 0, 0, 0, 0]

theorem witness_AppendRefused :
    (Instr.append pauseBody).wellFormed = true ∧ (inState .motion r).job.state = .motion ∧
      (inState .stopping r).job.state = .stopping ∧ (inState .fault r).job.state = .fault ∧
      (inState .cutting r).job.state.holdable = true ∧ (window8 .repeating r).store.mode = .repeating ∧
      (r.mapStore fun st => { st with chainClosed := true }).store.chainClosed = true ∧
      fullWindow.store.free = 0 ∧ fullWindow.job.state = .idle ∧ r.store.free ≠ 0 ∧
      (Instr.append badPause).wellFormed = true ∧ judgeArrival r badPause = .badField ∧
      judgeArrival (beforeA.mapParams fun q => { q with travelX := 31999 }) lineA = .outOfTravel ∧
      judgeArrival r lineA = .rejected .length false := by decide +kernel

/-- A held STREAM job with an active PAUSE and a further slot. -/
def heldJob : State :=
  { referencedAt 0 0 0 (inState .holding r) with
    store :=
      { Store.reset with
        slots := [(0, ⟨.active, line12000⟩), (1, ⟨.planned, line12000⟩)]
        writePtr := 2
        tailOpen := true
        origin := some ⟨0, 0⟩ }
    interp := { Interp.reset with timer := some 0, active := some 0 }
    job := { Job.reset with state := .holding, held := true } }

theorem witness_FlushActs :
    onePause.job.state = .idle ∧ heldJob.ready ∧ heldJob.slotsOk ∧ heldJob.store.mode = .stream ∧
      heldJob.job.state = .holding ∧ heldJob.job.held = true ∧
      heldJob.store.activeSlot = some (0, ⟨.active, line12000⟩) ∧
      (after .flush heldJob).store.slots = [(0, ⟨.active, { line12000 with exitSpeed := 0 }⟩)] ∧
      (window8 .repeating heldJob).store.mode = .repeating ∧ (window8 .repeating heldJob).job.held = true ∧
      (inState .warmup r).job.state = .warmup :=
  ⟨by decide +kernel, ready_of_empty rfl rfl, slotsOk_of_check (by decide +kernel), by decide, by decide, by decide,
    by decide, by decide +kernel, by decide, by decide, by decide⟩

/-! ## Witnesses: the job -/

/-- One PAUSE in the window, with every reply sent. -/
def startable : State := onePause.mapLink fun l => { l with requests := [] }

theorem witness_StartBegins :
    startable.ready ∧ startable.job.state = .idle ∧ startable.axes.located ∧ startable.store.slots ≠ [] ∧
      startable.store.origin = some startable.axes.point ∧ ¬startable.guard.barsCut ∧ startable.store.mode = .stream :=
  ⟨ready_of_empty (by decide +kernel) (by decide +kernel), by decide +kernel, located_of (by decide +kernel),
    by decide +kernel, by decide +kernel, not_barsCut_of (by decide +kernel), by decide +kernel⟩

/-- A REPEAT window of one line of 12000 counts from the origin. -/
def repeatWindow : State :=
  { referencedAt 0 0 0 r with
    store :=
      { Store.reset with
        slots := [(0, ⟨.planned, line12000⟩)]
        writePtr := 1
        tailOpen := true
        origin := some ⟨0, 0⟩
        mode := .repeating } }

theorem witness_StartRefused :
    (inState .fault r).job.state = .fault ∧ (inState .warmup r).job.state ≠ .fault ∧
      (inState .warmup r).job.state ≠ .idle ∧ beforeA.store.slots = [] ∧ repeatWindow.store.slots ≠ [] ∧
      (referencedAt 1 0 0 repeatWindow).store.origin ≠ some (referencedAt 1 0 0 repeatWindow).axes.point ∧
      repeatWindow.store.origin = some repeatWindow.axes.point ∧
      repeatWindow.job.state = .idle ∧ repeatWindow.store.mode = .repeating ∧ ¬1 ≤ (0 : Byte).toNat ∧
      ¬(65 : Byte).toNat ≤ 64 ∧ 1 ≤ (2 : Byte).toNat ∧ (2 : Byte).toNat ≤ 64 ∧
      (BitVec.toInt (208001 : Word)).natAbs ≤ 250000 ∧
      (repeatWindow.params.travelX : Int) < 12000 + (1 : Nat) * BitVec.toInt (208001 : Word) := by decide +kernel

theorem witness_StartRefused_checks :
    ¬r.axes.located ∧ beforeA.axes.located ∧ repeatWindow.axes.located ∧ (withActive .door repeatWindow).guard.barsCut ∧
      ¬repeatWindow.guard.barsCut :=
  ⟨not_located_of (by decide), located_of (by decide), located_of (by decide), barsCut_of (by decide +kernel),
    not_barsCut_of (by decide +kernel)⟩

theorem witness_HoldRequested :
    (inState .warmup r).job.state = .warmup ∧ (inState .starved r).job.state = .starved ∧
      (inState .starved r).link.notices.length < 16 ∧ r.job.state.holdable = false ∧ (inState .starved r).ready :=
  ⟨rfl, rfl, by decide, rfl, ready_of_empty rfl rfl⟩

/-- A job held at rest. -/
def heldAt (s : State) : State := s.mapJob fun j => { j with state := .holding, held := true }

theorem witness_ResumeActs :
    r.job.state ≠ .holding ∧ (withActive .door heldJob).guard.barsCut ∧ ¬heldJob.guard.barsCut ∧
      heldJob.job.state = .holding ∧ heldJob.job.held = true ∧ heldJob.interp.active.isSome = true ∧
      (inState .holding r).job.held = false ∧
      (inState .holding r).interp.active.isSome = false ∧ (inState .holding r).interp.link.isSome = false ∧
      (nextPlanned (inState .holding r)).isSome = false ∧
      (after .resume (heldAt (inState .starved r))).job.state = .starved ∧
      (after .resume (heldAt (inState .starved r))).link.notices = [.starved none 0] :=
  ⟨by decide, barsCut_of (by decide +kernel), not_barsCut_of (by decide +kernel), by decide, by decide, by decide,
    by decide, by decide, by decide, by decide, by decide +kernel, by decide +kernel⟩

/-- R153: held with nothing to move along. -/
theorem witness_ResumeActs_starves :
    (heldAt r).ready ∧ (heldAt r).job.state = .holding ∧ (heldAt r).job.held = true ∧ ¬(heldAt r).guard.barsCut ∧
      ¬((heldAt r).interp.active.isSome = true ∨ (heldAt r).interp.link.isSome = true ∨
        ∃ sl, (heldAt r).store.slot (heldAt r).store.execPtr = some sl ∧ sl.state = .planned) := by
  refine ⟨ready_of_empty rfl rfl, rfl, rfl, not_barsCut_of (by decide), ?_⟩
  rintro (h | h | ⟨sl, h, _⟩)
  · exact absurd h (by decide)
  · exact absurd h (by decide)
  · exact absurd h nofun

theorem witness_AbortStops :
    r.job.state = .idle ∧ (inState .fault r).job.state = .fault ∧ (inState .stopping r).job.state = .stopping ∧
      (inState .motion r).job.state ≠ .idle ∧ (inState .motion r).job.state ≠ .fault ∧
      (inState .motion r).job.state ≠ .stopping := by decide

/-- In FAULT with ESTOP in the latch. -/
def estopFault : State := inState .fault (latchCause (.input .estop) r)

theorem witness_ClearEmptiesLatch :
    r.job.state ≠ .fault ∧ estopFault.job.state = .fault ∧
      (estopFault.guard.latch.getLsbD (inputIndex .estop).val = true ∧
        ((withActive .estop estopFault).guard.input .estop).accepted = true) ∧
      ¬∃ i, estopFault.guard.latch.getLsbD (inputIndex i).val = true ∧ (estopFault.guard.input i).accepted = true := by
  refine ⟨by decide, by decide, by decide, ?_⟩
  rintro ⟨i, _, h⟩
  cases i <;> revert h <;> decide

/-- R145, R106, R113: CLEAR with the stroke STALLED, the converter up and with no other requester. -/
theorem witness_ClearEmptiesLatch_stalled :
    let s := inState .fault ((blade .stalled 0 none 0).mapLoad fun m => { m with powered := true })
    s.stroke.state = .stalled ∧ (after .clear s).stroke.state = .off ∧ (after .clear s).load.powered = false ∧
      (after .clear s).job.state = .idle := by decide

theorem witness_HomeBegins :
    homeRefusal 1 (inState .fault r) = some .faultLatched ∧ (inState .motion r).job.state ≠ .fault ∧
      (inState .motion r).job.state ≠ .idle ∧ (0 : Byte).toNat = 0 ∧ 8 ≤ (8 : Byte).toNat ∧ (7 : Byte).toNat ≠ 0 ∧
      (7 : Byte).toNat < 8 ∧ (withActive .door r).guard.barsMotion ∧ ¬r.guard.barsMotion ∧
      (3 : Byte).getLsbD 2 = false ∧ (3 : Byte).getLsbD 0 = true ∧
      ¬((withActive .limitX r).mapGuard fun g => g.updateInput .limitX fun inp =>
        { inp with action := .notice }).guard.barsMotion ∧
      limitInputOf .x = some .limitX ∧ ((withActive .limitX r).guard.input .limitX).accepted = true ∧
      limitInputOf .c = none :=
  ⟨by decide, by decide, by decide, by decide, by decide, by decide, by decide, barsMotion_of (by decide),
    not_barsMotion_of (by decide), by decide, by decide, not_barsMotion_of (by decide), rfl, by decide, rfl⟩

theorem witness_MoveBegins :
    (inState .fault r).job.state = .fault ∧ (inState .cutting r).job.state ≠ .idle ∧
      ¬BitVec.toInt (250001 : Word) ≤ 250000 ∧ BitVec.toInt (250000 : Word) ≤ 250000 ∧ (35999 : Half).toNat ≤ 35999 ∧
      ¬r.axes.located ∧ beforeA.axes.located ∧
      (beforeA.params.travelX : Int) < BitVec.toInt (220001 : Word) ∧
      BitVec.toInt (220000 : Word) ≤ beforeA.params.travelX ∧ BitVec.toInt (130000 : Word) ≤ beforeA.params.travelY ∧
      (withActive .door beforeA).guard.barsMotion ∧ ¬beforeA.guard.barsMotion ∧
      beforeA.job.state = .idle ∧ beforeA.ready :=
  ⟨rfl, by decide, by decide, by decide, by decide, not_located_of (by decide), located_of (by decide), by decide,
    by decide, by decide, barsMotion_of (by decide), not_barsMotion_of (by decide), rfl, ready_of_empty rfl rfl⟩

theorem witness_BladeByHand :
    (inState .cutting r).job.state ≠ .idle ∧ r.job.state = .idle ∧ 2 < (3 : Byte).toNat ∧ (2 : Byte).toNat ≤ 2 := by
  decide

theorem witness_ResetStopsTaking :
    r.ready ∧ (after .reset r).link.stopped = true ∧ (after .reset r).link.requests.length < 8 :=
  ⟨witness_ready, by decide, by decide⟩

/-! ## Witnesses: motion -/

theorem witness_SineAndCosine :
    (35999 : Nat) < 36000 ∧ sine 35999 = -11 ∧ cosine 35999 = 65536 ∧ sine 3000 = 32768 ∧ cosine 3000 = 56756 := by
  decide +kernel

theorem witness_ActiveSegmentAdvances :
    let s := cutting 7172080 17500
    s.interp.timer.isSome = true ∧ s.job.state = .cutting ∧ s.interp.active = some 0 ∧
      s.store.slot 0 = some ⟨.active, line12000⟩ ∧ line12000.kind.moving = true ∧ s.interp.pivot = 0 ∧
      s.interp.p + (evaluateGovernor s).gov.v < line12000.length * 1000 ∧ 0 < (evaluateGovernor s).gov.v := by
  decide +kernel

theorem witness_PivotSteps :
    let s := (cutting 0 0).mapInterp fun n => { n with active := none, pivot := 19 }
    s.interp.timer.isSome = true ∧ 0 < s.interp.pivot ∧ (inState .warmup s).job.state = .warmup ∧
      (inState .stopping s).job.state = .stopping := by decide

/-- R77, R150, R152: the expiry that completes a pivot. -/
theorem test_pivot_completes :
    let s := (cutting 0 0).mapInterp fun n => { n with pivot := 18, startPending := true }
    (after .interpolationPeriodExpiry (inState .warmup s)).job.state = .cutting ∧
      (after .interpolationPeriodExpiry (inState .holding s)).job.held = true ∧
      (after .interpolationPeriodExpiry (inState .holding s)).link.notices = [.held (some (0, 0)) 0] ∧
      (after .interpolationPeriodExpiry (inState .holding (s.mapInterp fun n => { n with pivot := 19 }))).job.held =
        false := by decide +kernel

theorem witness_StoppingDistance :
    ∃ q, pathInput (cutting 0 0) = some q ∧ q.vexit = 4000 ∧
      q.vexit * q.vexit ≤ 2000 * (cutting 0 0).params.accel * 267 :=
  ⟨_, rfl, by decide, by decide⟩

theorem witness_PlanWithinStopping :
    [line12000][0]? = some line12000 ∧
      ∃ sp, (backwardPass 30 (legsOf Params.reset Planner.reset none [line12000]))[0]? = some sp :=
  ⟨rfl, _, rfl⟩

/-- Two lines in line with each other, the first active. -/
def twoInLine : State :=
  { cutting 0 0 with
    store :=
      { Store.reset with
        slots :=
          [(0, ⟨.active, line12000⟩), (1, ⟨.queued, { line12000 with startAt := ⟨12000, 0⟩, stopAt := ⟨24000, 0⟩ }⟩)]
        writePtr := 2, tailOpen := true } }

theorem witness_PlanWithinStopping_replan :
    twoInLine.slotsOk ∧
      ((replan none twoInLine).store.slot 1).map (fun sl => (sl.state, sl.seg.junction, sl.seg.exitSpeed)) =
        some (.planned, some .smooth, 0) ∧
      ((replan none twoInLine).store.slot 0).map (fun sl => (sl.state, sl.seg.junction, sl.seg.exitSpeed)) =
        some (.active, some .start, 20000) ∧ (replan none twoInLine).planner.spanCount = 2 :=
  ⟨slotsOk_of_check (by decide +kernel), by decide +kernel, by decide +kernel, by decide +kernel⟩

/-- A MOVE of 1 count along X with a turn left. -/
def moving (p turnLeft : Nat) : State :=
  { referencedAt 0 0 0 (inState .motion r) with
    axes :=
      { (referencedAt 0 0 0 r).axes with
        timer := some 0
        traverse :=
          some
            { startAt := ⟨0, 0⟩, stopAt := ⟨1, 0⟩, goalC := turnLeft, length := 1, p := p, v := 0, vprev := 0,
              turnLeft := turnLeft, turnNeg := false, targetC := 0 } } }

theorem witness_TraverseAdvances :
    (moving 0 18).axes.timer.isSome = true ∧ (moving 0 18).job.state = .motion ∧ (moving 0 18).axes.home = none ∧
      (∀ a, ((moving 0 18).axes.get a).ref ≠ .homing) ∧ (moving 0 18).axes.traverse.isSome = true ∧
      min 20000 (min (0 + 30) (isqrt (2000 * 30 * ((1 * 1000 - 969 + 999) / 1000)))) = 30 ∧
      969 + 30 < 1 * 1000 ∧ 1 * 1000 ≤ 970 + 30 ∧ 0 < 19 - min (moving 970 19).params.pivotRate 19 ∧
      18 - min (moving 970 18).params.pivotRate 18 = 0 ∧ (moving 970 18).link.notices.length < 16 := by
  refine ⟨by decide, by decide, by decide, ?_, by decide, by decide +kernel, by decide, by decide, by decide, by decide,
    by decide⟩
  intro a
  cases a <;> decide

theorem witness_StepsIssued :
    (r.axes.get .x).steps = 0 ∧
      ((r.mapAxes fun u => u.update .c fun ax => { ax with steps := -1 }).axes.get .c).steps ≠ 0 := by decide

/-! ## Witnesses: the blade -/

theorem witness_IndexArrivals :
    r.stroke.state = .off ∧ (blade .spinup 350 none 0).stroke.state.driven = true ∧
      (blade .spinup 350 none 0).stroke.index = none ∧ (blade .spinup 350 (some 0) 7).stroke.index = some 0 ∧
      (blade .spinup 350 (some 0) 7).params.lockCount ≤ (blade .spinup 350 (some 0) 7).stroke.lock + 1 ∧
      ¬(blade .spinup 350 (some 0) 6).params.lockCount ≤ (blade .spinup 350 (some 0) 6).stroke.lock + 1 ∧
      (after (.indexArrival 12500) (blade .spinup 350 (some 0) 7)).stroke.m = 4800 ∧
      (after (.indexArrival 20000) (blade .spinup 350 (some 0) 7)).stroke.m = 3000 ∧
          120 < (4800 - 3000 : Int).natAbs := by
  decide +kernel

theorem witness_IndexArrivals_params : (blade .spinup 350 (some 0) 7).paramsOk := by
  constructor <;> first | decide | skip
  intro i
  cases i <;> decide

theorem witness_SpinupAndCoastTimers :
    (expired .spinup 350).stroke.state = .spinup ∧
      timerOut (expired .spinup 350).stroke.spinTimer (expired .spinup 350).params.spinupLimit ∧
      (expired .coast 0).stroke.state = .coast ∧
      timerOut (expired .coast 0).stroke.stallTimer (expired .coast 0).params.stallTime ∧
      ¬timerOut (blade .coast 0 none 0).stroke.stallTimer (blade .coast 0 none 0).params.stallTime ∧
      ¬timerOut (blade .spinup 350 none 0).stroke.spinTimer (blade .spinup 350 none 0).params.spinupLimit ∧
      (after .spinupTimerExpiry (expired .spinup 350)).guard.latch = 0x1000 ∧
      (after .coastTimerExpiry (expired .coast 0)).stroke.state = .off :=
  ⟨by decide, timerOut_of (by decide), by decide, timerOut_of (by decide), not_timerOut_of (by decide),
    not_timerOut_of (by decide), by decide, by decide⟩

/-- R104: at STALL_TIME with duty above 0 and with duty 0; and an index taken before the expiry. -/
theorem witness_StallStops :
    (expired .run 1).stroke.state.driven = true ∧
      timerOut (expired .run 1).stroke.stallTimer (expired .run 1).params.stallTime ∧
      ¬timerOut (blade .run 434 none 0).stroke.stallTimer (blade .run 434 none 0).params.stallTime ∧
      0 < (expired .run 1).stroke.duty ∧ (expired .run 0).stroke.duty = 0 ∧ 0 < (expired .run 1).params.stallTime ∧
      (after .stallTimerExpiry (expired .run 1)).stroke.state = .stalled ∧
      (after .stallTimerExpiry (expired .run 0)).stroke.duty = 350 ∧
      (after .stallTimerExpiry (after (.indexArrival 12500) (expired .run 434))).stroke.state = .run :=
  ⟨by decide, timerOut_of (by decide), not_timerOut_of (by decide), by decide, by decide, by decide, by decide,
    by decide, by decide +kernel⟩

/-- A conversion for LINK with the stroke OFF, begun 24 µs ago. -/
def converting (k : Nat → Conversion) : State := (after .sample r).mapLoad fun m => { m with inFlight := some (k 24) }

/-- R111: the settling and the measuring conversion with the stroke OFF; it powers down with no requester left. -/
theorem witness_ConversionsServe :
    (r.mapLoad fun m => { m with phase := some 0 }).load.phase = some 0 ∧ r.load.phase ≠ some 0 ∧
      (converting .settling).load.inFlight = some (.settling 24) ∧
      (after .settlingComplete (converting .settling)).load.inFlight = some (.measuring 0) ∧
      (after .settlingComplete (after .sample r)).load.inFlight = some (.settling 0) ∧
      (converting .measuring).load.inFlight = some (.measuring 24) ∧ (converting .measuring).stroke.state = .off ∧
      (after (.measuringComplete 700) (converting .measuring)).load.powered = false ∧
      (after (.measuringComplete 700) (converting .measuring)).load.valid = false ∧
      (after (.measuringComplete 700) (converting .measuring)).load.result = 700 ∧
      (after (.measuringComplete 700) (converting .measuring)).link.requests =
        [⟨0x11, [], .ready ⟨.ok, u16 700 ++ u16 0 ++ u8 0 ++ u8 0⟩⟩] := by decide

theorem witness_BandHysteresis :
    let noticed := (r.mapParams fun q => { q with bandNotice := true }).mapLoad fun m => { m with acc := 4264, band := 2 }
    r.load.band ≤ 3 ∧ r.params.bandNotice = false ∧
      (evaluateBand (r.mapLoad fun m => { m with acc := 4264, band := 2 })).load.band = 1 ∧
      (evaluateBand (r.mapLoad fun m => { m with acc := 4272, band := 2 })).load.band = 2 ∧
      (evaluateBand noticed).link.notices = [.band 1 2 533] := by decide

/-! ## Witnesses: the guard inputs and stops -/

/-- DOOR with its pin and its accepted level as given and its filter timer at its limit. -/
def filtering (raw accepted : Bool) (filter : Nat) (i : InputId) : State :=
  r.mapGuard fun g => g.updateInput i fun inp =>
    { inp with raw := raw, accepted := accepted, timer := some (filter * 1000), filter := filter }

theorem witness_InputFilters :
    (r.guard.input .door).raw = false ∧ ((filtering false false 2 .door).guard.input .door).raw ≠ true ∧
      ((filtering false false 2 .door).guard.input .door).filter ≠ 0 ∧
      ((filtering false false 0 .door).guard.input .door).filter = 0 ∧
      timerOut ((filtering false false 2 .door).guard.input .door).timer 2 ∧
      ¬timerOut (r.guard.input .door).timer (r.guard.input .door).filter ∧
      ¬timerOut ((after (.inputRawChange .door true) r).guard.input .door).timer 2 ∧
      ((filtering true false 2 .door).guard.input .door).raw ≠
        ((filtering true false 2 .door).guard.input .door).accepted :=
  ⟨by decide, by decide, by decide, by decide, timerOut_of (by decide), not_timerOut_of (by decide),
    not_timerOut_of (by decide), by decide⟩

/-- A cut with ESTOP about to be accepted ACTIVE. -/
def estopComing : State := { cutting 0 0 with guard := (filtering true false 2 .estop).guard }

theorem witness_ImmediateStopActs :
    estopComing.bladeOk ∧ estopComing.job.state ≠ .idle ∧ estopComing.job.state ≠ .fault ∧
      (estopComing.guard.input .estop).action = .halt ∧
      timerOut (estopComing.guard.input .estop).timer (estopComing.guard.input .estop).filter ∧
      (estopComing.guard.input .estop).raw = true ∧ (estopComing.guard.input .estop).accepted = false :=
  ⟨by constructor <;> decide, by decide, by decide, by decide, timerOut_of (by decide), by decide, by decide⟩

/-- With the job in a state that a controlled stop entered from another has led to. -/
def stoppingFrom (entered : JobState) (s : State) : State :=
  (inState .stopping s).mapGuard fun g => { g with stop := some entered }

/-- With ESTOP about to be accepted ACTIVE. -/
def estopIn (s : State) : State := { s with guard := { (filtering true false 2 .estop).guard with stop := s.guard.stop } }

/-- R31, R132, R143: an immediate stop of a STREAM job, of a REPEAT job, of a HOME and of a stop in progress. -/
theorem test_immediate_stops :
    let stream := after (.filterTimerExpiry .estop) (estopIn (cutting 0 0))
    let repeated := after (.filterTimerExpiry .estop) (estopIn (window8 .repeating (cutting 0 0)))
    let home := after (.filterTimerExpiry .estop)
      (estopIn ((inState .motion r).mapAxes fun u =>
        { u with x := { u.x with ref := .homing, enable := true, phase := .search }, home := some ⟨true, false, false⟩ }))
    let stopped := after (.filterTimerExpiry .estop) (estopIn (stoppingFrom .holding (cutting 0 0)))
    stream.store.slots = [] ∧ stream.link.notices = [.stopped .immediate .cutting 1] ∧
      repeated.store.slots = [(0, ⟨.queued, line12000⟩)] ∧
      home.link.notices =
        [.homed ⟨true, false, false⟩ (.aborted, 0) (.none, 0) (.none, 0), .stopped .immediate .motion 1] ∧
      stopped.link.notices = [.stopped .immediate .holding 1] := by decide +kernel

/-- A job at rest in STOPPING, with no segment left. -/
def stoppingAtRest : State :=
  stoppingFrom .cutting { cutting 0 0 with interp := { Interp.reset with timer := some 0 } }

theorem witness_ControlledStopEnds :
    stoppingAtRest.interp.timer.isSome = true ∧ stoppingAtRest.job.state = .stopping ∧
      stoppingAtRest.guard.stop = some .cutting ∧ JobState.cutting ≠ .motion ∧ stoppingAtRest.interp.active = none ∧
      stoppingAtRest.store.mode = .stream ∧ (window8 .repeating stoppingAtRest).store.mode = .repeating ∧
      stoppingAtRest.link.notices.length < 16 ∧ (evaluateGovernor stoppingAtRest).gov.v = 0 := by decide +kernel

/-- R85, R142: a controlled stop of a cut at 100 cps ends at this expiry, on its segment; at 101 cps it goes on by 1 mc.
-/
theorem witness_ControlledStopEnds_segment :
    let s := stoppingFrom .cutting (cutting 5000000 100)
    let t := stoppingFrom .cutting (cutting 5000000 101)
    (evaluateGovernor s).gov.v = 0 ∧ s.interp.active = some 0 ∧ s.interp.p < line12000.length * 1000 ∧
      (after .interpolationPeriodExpiry s).job.state = .idle ∧ 0 < (evaluateGovernor t).gov.v ∧ t.interp.pivot = 0 ∧
      (after .interpolationPeriodExpiry t).interp.p = 5000001 ∧
      (after .interpolationPeriodExpiry t).job.state = .stopping := by decide +kernel

/-- STARVED with the dwell at a time. -/
def dwelling (us : Nat) : State := (inState .starved r).mapJob fun j => { j with dwell := some us }

theorem witness_DwellExpires :
    (dwelling 3000000).job.state = .starved ∧
      timerOut (dwelling 3000000).job.dwell (dwelling 3000000).params.starveDwell ∧
      ¬timerOut (dwelling 2999999).job.dwell (dwelling 2999999).params.starveDwell ∧
      (after .starveDwellExpiry (dwelling 3000000)).guard.latch = 0x8000 :=
  ⟨by decide, timerOut_of (by decide), not_timerOut_of (by decide), by decide⟩

/-! ## Witnesses: frames, replies and arrivals, clause by clause -/

theorem witness_CompleteFrameQueued_clauses :
    r.ready ∧ (after .reset r).link.stopped = true ∧ (after .reset r).link.requests.length < 8 ∧
      (Instr.get 0x53).wellFormed = true ∧ requestFrame (.get 0x53) = some (0x03, [0x53]) :=
  ⟨witness_ready, by decide, by decide, by decide, by decide⟩

/-- A reply being sent whose last byte is under way, with a further request ready and a notice waiting. -/
def replyEnding (held : Bool) (marks : List FlowMark) : State :=
  (after .txFrameStart (twoToSend.mapLink fun l => { l with requests := answeredEntries 2 })).mapLink fun l =>
    { l with held := held, marks := marks, charTime := 1, tx := l.tx.map fun f => { f with sent := f.line.length - 1 } }

theorem witness_FrameEnd_clauses :
    r.link.tx = none ∧
      (∃ f, (replyEnding true [.hold]).link.tx = some f ∧ f.resets = false ∧ f.isReply = true ∧
        f.sent + 1 = f.line.length ∧ 0 < (replyEnding true [.hold]).link.charTime) ∧
      (∃ f, (replyEnding false []).link.tx = some f ∧ f.resets = false ∧ (replyEnding false []).link.held = false) ∧
      (after .txFrameEnd (replyEnding false [])).link.requests = answeredEntries 1 ∧
      (∃ f, ((after .txFrameStart twoToSend).mapLink fun l => { l with held := true }).link.tx = some f ∧
        ¬f.line.length ≤ f.sent ∧
        ¬(f.sent + 1 = f.line.length ∧
          0 < ((after .txFrameStart twoToSend).mapLink fun l => { l with held := true }).link.charTime)) ∧
      (after .txFrameEnd (after .txFrameStart (twoToSend.mapLink fun l => { l with notices := [] }))).link.tx = none :=
  ⟨rfl, ⟨_, rfl, by decide, by decide, by decide, by decide⟩, ⟨_, rfl, by decide, rfl⟩, by decide,
    ⟨_, rfl, by decide, by decide⟩, by decide⟩

theorem witness_ReadsAnswer : r.store.slot 511 = none ∧ (cutting 0 0).store.slot 0 = some ⟨.active, line12000⟩ := by
  decide

/-- STARVED with the window empty and the head at the end of what was cut. -/
def starvedAt : State :=
  { inState .starved beforeA with
    store :=
      { Store.reset with
        tailOpen := true, tailPoint := some ⟨20000, 30000⟩, tailHeading := some 0, origin := some ⟨20000, 30000⟩,
        arrival := 65535, armed := true }
    job := { Job.reset with state := .starved, dwell := some 0 } }

/-- Four slots left free before an arrival in a cut, so that it takes the flow state to HELD. -/
def fewLeft : State :=
  { inState .cutting beforeA with
    interp := { Interp.reset with timer := some 0, active := some 0 }
    store :=
      { Store.reset with
        winEnd := 7, slots := [(0, ⟨.active, line12000⟩), (1, ⟨.queued, line12000⟩), (2, ⟨.queued, line12000⟩)],
        writePtr := 3, tailOpen := true, tailPoint := some ⟨20000, 30000⟩ } }

theorem witness_AppendAccepted_clauses :
    fewLeft.slotsOk ∧ fewLeft.ready ∧ fewLeft.store.mode = .stream ∧ fewLeft.job.state.holdable = true ∧
      fewLeft.store.slots.length < fewLeft.store.size ∧
      (∃ seg code, judgeArrival fewLeft lineA = .accepted seg code) ∧
      fewLeft.store.size - ((fewLeft.store.slots.filter fun e => e.1 ≠ 3).length + 1) ≤ fewLeft.params.flowHold ∧
      starvedAt.job.state = .starved ∧ starvedAt.ready ∧ starvedAt.slotsOk ∧ starvedAt.job.state.holdable = true ∧
      starvedAt.store.armed = true ∧ (∃ seg code, judgeArrival starvedAt pauseBody = .accepted seg code) ∧
      starvedAt.store.chainClosed = false ∧ (0 : Nat) < starvedAt.params.lowWater :=
  ⟨slotsOk_of_check (by decide +kernel), ready_of_empty rfl rfl, rfl, rfl, by decide, ⟨_, _, rfl⟩, by decide, rfl,
    ready_of_empty rfl rfl, slotsOk_of_check (by decide +kernel), rfl, rfl, ⟨_, _, rfl⟩, rfl, by decide⟩

/-- A segment body of a LINE with its end, length, headings and feed. -/
def lineBody (x y : Int) (len entry exit feed : Nat) : List Byte :=
  [0, 0, 0] ++ i32 x ++ i32 y ++ u32 len ++ u16 entry ++ u16 exit ++ u16 feed

/-- A segment body of an arc, counter-clockwise, with its end, centre, length and headings. -/
def arcBody (x y cx cy : Int) (len entry exit : Nat) : List Byte :=
  [2, 0, 0] ++ i32 x ++ i32 y ++ i32 cx ++ i32 cy ++ u32 len ++ u16 entry ++ u16 exit ++ u16 20000

/-- What an arrival of a body at (20000, 30000) answers under a policy for every class. -/
def answerOf (act : PolicyAction) (heading : Option Nat) (body : List Byte) :
    Option ResultCode × Option (GeometryClass × Bool) :=
  match judgeArrival
      ((beforeA.mapParams fun q =>
        { q with polLength := act, polRadius := act, polHeading := act, polPivot := act }).mapStore fun st =>
          { st with tailHeading := heading }) body with
  | .accepted _ code => (some code, none)
  | .badField => (some .badField, none)
  | .outOfTravel => (some .outOfTravel, none)
  | .rejected cls hold => (none, some (cls, hold))

/-- R4, R9, R12, R13: a LINE accepted at the edge of its length tolerance, clamped, out of range and out of travel. -/
theorem witness_arrival_line :
    (parseSegment (lineBody 32000 30000 12001 0 0 100)).isSome = true ∧ (parseSegment [0]).isSome = false ∧
      answerOf .reject none (lineBody 32000 30000 12001 0 0 100) = (some .ok, none) ∧
      answerOf .reject none (lineBody 32000 30000 12000 0 0 99) = (some .clamped, none) ∧
      answerOf .reject none (lineBody 32000 30000 300001 0 0 100) = (some .badField, none) ∧
      answerOf .reject none (lineBody 220001 30000 200001 0 0 100) = (some .outOfTravel, none) := by decide +kernel

/-- R13, R16, R18, R19: the geometry classes of a LINE, at the edge of their tolerances, under each policy. -/
theorem witness_arrival_line_classes :
    answerOf .reject none (lineBody 32000 30000 12002 0 0 100) = (none, some (.length, false)) ∧
      answerOf .halt none (lineBody 32000 30000 12002 0 0 100) = (none, some (.length, true)) ∧
      answerOf .correct none (lineBody 32000 30000 12002 0 0 100) = (some .corrected, none) ∧
      answerOf .reject none (lineBody 32000 30000 12000 18000 18000 100) = (none, some (.heading, false)) ∧
      answerOf .reject (some 26999) (lineBody 32000 30000 12000 0 0 100) = (none, some (.pivot, false)) ∧
      answerOf .reject (some 27000) (lineBody 32000 30000 12000 0 0 100) = (some .ok, none) ∧
      answerOf .accept (some 18000) (lineBody 32000 30000 12000 0 0 100) = (some .ok, none) := by decide +kernel

/-- R14 to R16: each outcome of the arrival checks of an arc. -/
theorem witness_arrival_arc :
    answerOf .reject none (arcBody 28000 38000 20000 38000 12566 0 9000) = (some .ok, none) ∧
      answerOf .reject none (arcBody 28003 38000 20000 38000 12566 0 9000) = (none, some (.radius, false)) ∧
      answerOf .reject none (arcBody 28000 38000 20000 38000 12566 0 9100) = (none, some (.heading, false)) ∧
      answerOf .reject none (arcBody 28000 38000 20000 38000 12700 0 9000) = (none, some (.length, false)) ∧
      answerOf .reject (some 18000) (arcBody 28000 38000 20000 38000 12566 0 9000) = (none, some (.pivot, false)) ∧
      answerOf .reject (some 18000) pauseBody = (some .ok, none) := by decide +kernel

theorem witness_AppendRefused_halt :
    let s := afterA.mapParams fun q => { q with polLength := .halt }
    judgeArrival (inState .cutting s) lineA = .rejected .length true ∧ appendRefusal (inState .cutting s) = none ∧
        (inState .cutting s).store.free ≠ 0 ∧ (inState .cutting s).ready ∧
        judgeArrival (inState .starved s) lineA = .rejected .length true ∧
        judgeArrival s lineA = .rejected .length true ∧
        s.job.state.holdable = false ∧ (inState .starved s).link.notices.length < 16 :=
  ⟨by decide +kernel, by decide +kernel, by decide +kernel, ready_of_empty (by decide +kernel) (by decide +kernel),
    by decide +kernel, by decide +kernel, by decide +kernel, by decide +kernel⟩

/-- A held job between two segments, the second the LAST of its chain, with the flow state HELD. -/
def heldBetween : State :=
  { heldJob with
    store :=
      { heldJob.store with
        slots := [(0, ⟨.planned, { line12000 with number := 7 }⟩), (1, ⟨.planned, { line12000 with last := true }⟩)]
        chainClosed := true, flowHeld := true }
    interp := { Interp.reset with timer := some 0 } }

theorem witness_FlushActs_clauses :
    heldBetween.ready ∧ heldBetween.slotsOk ∧ heldBetween.store.activeSlot = none ∧
      heldBetween.store.slot heldBetween.store.execPtr ≠ none ∧
      heldBetween.store.mode = .stream ∧ heldBetween.job.state = .holding ∧ heldBetween.job.held = true ∧
      ((heldBetween.store.runFrom 512 0).any fun e => e.2.seg.last) = true ∧ starvedAt.slotsOk ∧
      starvedAt.store.slots = [] ∧ starvedAt.store.mode = .stream ∧ starvedAt.job.state = .starved ∧
      (after .flush starvedAt).link.notices = [.low 0] ∧ (inState .holding r).job.held = false :=
  ⟨ready_of_empty rfl rfl, slotsOk_of_check (by decide +kernel), by decide, by decide, rfl, rfl, rfl, by decide,
    slotsOk_of_check (by decide +kernel), rfl, rfl, rfl, by decide +kernel, rfl⟩

/-! ## Witnesses: the job and the path, clause by clause -/

theorem witness_StartBegins_pivot :
    (referencedAt 0 0 18000 repeatWindow).ready ∧ (referencedAt 0 0 18000 repeatWindow).axes.located ∧
      ¬(referencedAt 0 0 18000 repeatWindow).guard.barsCut ∧
      (∀ e ∈ (referencedAt 0 0 18000 repeatWindow).store.slots, e.2.seg.box = ⟨0, 12000, 0, 0⟩) ∧
      (after (.start 64 0 0) (referencedAt 0 0 18000 repeatWindow)).interp.pivot = 18000 ∧
      (after (.start 64 0 0) (referencedAt 0 0 18000 repeatWindow)).interp.pivotNeg = false ∧
      (after (.start 64 0 0) (referencedAt 0 0 18000 repeatWindow)).interp.startPending = true :=
  ⟨ready_of_empty rfl rfl, located_of (by decide), not_barsCut_of (by decide +kernel), by decide, by decide +kernel,
    by decide +kernel, by decide +kernel⟩

/-- A STREAM job in a state with the slots given, slot 0 active at `p`, and a previous feed. -/
def runningAt (j : JobState) (slots : List (Nat × Slot)) (p vprev : Nat) : State :=
  { cutting p vprev with
    job := { Job.reset with state := j }
    store := { Store.reset with slots := slots, writePtr := slots.length, tailOpen := true, origin := some ⟨0, 0⟩ } }

/-- A PAUSE of 2 ms. -/
def pause2 : Segment := { line12000 with kind := .pause, stopAt := ⟨12000, 0⟩, length := 0, duration := 2 }

/-- A moving segment whose junction is of a class. -/
def nextWith (c : JunctionClass) (delta : Int) : Slot :=
  ⟨.planned, { line12000 with junction := some c, delta := delta }⟩

theorem witness_HoldRequested_held :
    let s := runningAt .holding [(0, ⟨.active, line12000⟩)] 5000000 0
    s.interp.timer.isSome = true ∧ s.job.held = false ∧ s.interp.active = some 0 ∧
      s.store.slot 0 = some ⟨.active, line12000⟩ ∧ s.interp.pivot = 0 ∧ (evaluateGovernor s).gov.v = 0 ∧
      s.interp.p < line12000.length * 1000 ∧ s.link.notices.length < 16 := by decide +kernel

/-- The last of a stretch, about to reach the frontier with an overshoot of 10 mc. -/
def atFrontier (j : JobState) (last : Bool) : State :=
  runningAt j [(0, ⟨.active, { line12000 with last := last }⟩)] 11999980 (if j = .holding then 60 else 0)

theorem witness_frontier :
    (atFrontier .holding false).atEndOf line12000 10 ∧ (atFrontier .cutting false).atEndOf line12000 10 ∧
      (atFrontier .cutting true).atEndOf { line12000 with last := true } 10 ∧
      (atFrontier .cutting true).job.mode = (atFrontier .cutting true).store.mode ∧
      (atFrontier .holding false).job.held = false ∧ (atFrontier .cutting false).store.execPtr = 0 ∧
      (atFrontier .cutting false).store.slot ((atFrontier .cutting false).store.after 0) = none ∧
      (atFrontier .cutting false).store.slot 0 = some ⟨.active, line12000⟩ ∧
      (atFrontier .cutting false).interp.timer.isSome = true ∧ (atFrontier .cutting false).interp.pivot = 0 ∧
      (atFrontier .cutting false).link.notices.length < 16 := by
  unfold State.atEndOf
  decide +kernel

/-- A cut whose active segment ends at this expiry, with a slot after it. -/
def passing (c : JunctionClass) (delta : Int) : State :=
  runningAt .cutting [(0, ⟨.active, line12000⟩), (1, nextWith c delta)] 11999980 0

theorem witness_ActiveSegmentAdvances_end :
    (passing .smooth 0).atEndOf line12000 10 ∧ (passing .smooth 0).interp.timer.isSome = true ∧
      (passing .smooth 0).job.state = .cutting ∧ (passing .smooth 0).interp.active = some 0 ∧
      (passing .smooth 0).store.execPtr = 0 ∧ (passing .smooth 0).store.slot 0 = some ⟨.active, line12000⟩ ∧
      (passing .smooth 0).interp.pivot = 0 ∧ (passing .smooth 0).store.mode = .stream ∧ line12000.last = false ∧
      (passing .smooth 0).store.slot ((passing .smooth 0).store.after 0) = some (nextWith .smooth 0) ∧
      (nextWith .smooth 0).state = .planned := by
  unfold State.atEndOf
  decide +kernel

/-- A cut at 12000 cps whose active segment ends at this expiry, with two short segments in line after it. -/
def carrying : State :=
  let short : Segment := { line12000 with length := 5, startAt := ⟨12000, 0⟩, stopAt := ⟨12005, 0⟩ }
  runningAt .cutting
    [(0, ⟨.active, { line12000 with exitSpeed := 20000 }⟩), (1, ⟨.planned, short⟩),
      (2, ⟨.planned, { short with startAt := ⟨12005, 0⟩, stopAt := ⟨24005, 0⟩, length := 12000 }⟩)]
    11999000 12000

theorem witness_ActiveSegmentAdvances_carry :
    carrying.slotsOk ∧ carrying.interp.timer.isSome = true ∧ carrying.job.state = .cutting ∧
      carrying.interp.active = some 0 ∧ carrying.interp.pivot = 0 ∧
      11999000 + (evaluateGovernor carrying).gov.v = 12000 * 1000 + 11030 ∧ carrying.store.after 0 = 1 ∧
      (after .interpolationPeriodExpiry carrying).interp.active = some 2 ∧
      (after .interpolationPeriodExpiry carrying).interp.p = 6030 ∧
      (after .interpolationPeriodExpiry carrying).job.executed = 2 :=
  ⟨slotsOk_of_check (by decide +kernel), by decide, by decide, by decide, by decide, by decide +kernel, by decide,
    by decide +kernel, by decide +kernel, by decide +kernel⟩

/-- A job in CUTTING with nothing active and a PLANNED segment at the execution pointer. -/
def opening : State :=
  (runningAt .cutting [(0, ⟨.planned, { line12000 with tag := some 5, entryHeading := 9000, exitHeading := 9000 }⟩)] 0
    0).mapInterp fun n => { n with active := none }

/-- R60, R61: the taking at the opening of an expiry: at START the short turn from the C target, TAG, and the motion of
the same expiry, which is a step of that pivot. -/
theorem witness_ActiveSegmentAdvances_opening :
    opening.slotsOk ∧ opening.interp.timer.isSome = true ∧ opening.job.state = .cutting ∧
      opening.interp.active = none ∧ opening.interp.link = none ∧ opening.interp.pivot = 0 ∧
      (opening.store.slot opening.store.execPtr).map Slot.state = some .planned ∧
      (after .interpolationPeriodExpiry opening).interp.active = some 0 ∧
      (after .interpolationPeriodExpiry opening).interp.pivot = 8982 ∧
      (after .interpolationPeriodExpiry opening).link.notices = [.tag 5 0 0] :=
  ⟨slotsOk_of_check (by decide +kernel), by decide, by decide, by decide, by decide, by decide, by decide,
    by decide +kernel, by decide +kernel, by decide +kernel⟩

/-- What stands in slot `j` after the completion of `line12000` in slot 0 and the replan. -/
def followerOf (s : State) (j : Nat) : Option Segment :=
  ((replan (some line12000) { s with store := s.store.completedAt s.params.flowGo 0 }).store.slot j).map Slot.seg

/-- R64, R65, R69: a completion in CUTTING at a junction that is carried and at one that is not, and one in HOLDING. -/
theorem witness_ActiveSegmentAdvances_taken :
    let held := runningAt .holding [(0, ⟨.active, line12000⟩), (1, nextWith .smooth 0)] 11999980 60
    let ends := runningAt .holding [(0, ⟨.active, line12000⟩), (1, nextWith .pivot 9000)] 11999980 60
    (passing .smooth 0).slotsOk ∧ (followerOf (passing .smooth 0) 1).bind Segment.junction = some .smooth ∧
      (followerOf (passing .pivot 9000) 1).bind Segment.junction = some .pivot ∧
      (followerOf (passing .smooth 0) 1).map Segment.length = some 12000 ∧ held.atEndOf line12000 10 ∧
      0 < (evaluateGovernor held).gov.v ∧ held.job.held = false ∧
      (after .interpolationPeriodExpiry held).interp.p = 10 ∧ (after .interpolationPeriodExpiry held).job.held = false ∧
      (after .interpolationPeriodExpiry ends).interp.pivot = 9000 ∧
      (after .interpolationPeriodExpiry ends).job.held = false ∧
      (after .interpolationPeriodExpiry (runningAt .holding [(0, ⟨.active, line12000⟩)] 5000000 100)).interp.p =
        5000070 :=
  ⟨slotsOk_of_check (by decide +kernel), by decide +kernel, by decide +kernel, by decide +kernel,
    by unfold State.atEndOf; decide +kernel, by decide +kernel, by decide, by decide +kernel, by decide +kernel,
    by decide +kernel, by decide +kernel, by decide +kernel⟩

/-- Segments carried into in STOPPING, the junction delta of the third as given. -/
def carryingStopped (delta : Int) : State :=
  let short : Segment := { line12000 with length := 5, startAt := ⟨12000, 0⟩, stopAt := ⟨12005, 0⟩ }
  stoppingFrom .cutting (runningAt .stopping
    [(0, ⟨.active, { line12000 with exitSpeed := 20000 }⟩), (1, ⟨.planned, short⟩),
      (2, ⟨.planned, { short with length := 12000, delta := delta }⟩)] 11999000 12100)

/-- R65, R70: two completions of one expiry in STOPPING, the third segment carried into and not. -/
theorem witness_ActiveSegmentAdvances_stopping :
    (carryingStopped 0).slotsOk ∧ (carryingStopped 0).job.state = .stopping ∧
      0 < (evaluateGovernor (carryingStopped 0)).gov.v ∧
      (after .interpolationPeriodExpiry (carryingStopped 0)).interp.active = some 2 ∧
      (after .interpolationPeriodExpiry (carryingStopped 0)).interp.p = 6000 ∧
      (after .interpolationPeriodExpiry (carryingStopped 9000)).interp.active = none ∧
      (after .interpolationPeriodExpiry (carryingStopped 9000)).interp.targetX = 12005 ∧
      (after .interpolationPeriodExpiry (carryingStopped 9000)).job.executed = 2 :=
  ⟨slotsOk_of_check (by decide +kernel), by decide, by decide +kernel, by decide +kernel, by decide +kernel,
    by decide +kernel, by decide +kernel, by decide +kernel⟩

/-- R64 to R68: how the next segment is taken at a SMOOTH, a BLEND and a PIVOT junction, and a PAUSE. -/
theorem test_junctions :
    let paused := runningAt .cutting [(0, ⟨.active, line12000⟩), (1, ⟨.planned, pause2⟩)] 11999980 0
    (after .interpolationPeriodExpiry (passing .smooth 0)).interp.p = 10 ∧
      (after .interpolationPeriodExpiry (passing .blend 100)).interp.p = 10 ∧
      (after .interpolationPeriodExpiry (passing .pivot (-9000))).interp.pivot = 9000 ∧
      (after .interpolationPeriodExpiry (passing .pivot (-9000))).interp.pivotNeg = true ∧
      (after .interpolationPeriodExpiry (passing .pivot (-9000))).gov.vprev = 0 ∧
      (after .interpolationPeriodExpiry paused).interp.pause = 2 ∧
      (after .interpolationPeriodExpiry paused).interp.active = some 1 := by decide +kernel

theorem witness_PivotSteps_pause :
    let s := (runningAt .cutting [(0, ⟨.active, pause2⟩)] 0 0).mapInterp fun n => { n with pause := 2 }
    s.interp.timer.isSome = true ∧ s.store.slot 0 = some ⟨.active, pause2⟩ ∧ pause2.kind.moving = false ∧
      s.interp.pivot = 0 ∧ 1 < s.interp.pause ∧ (inState .warmup s).job.state = .warmup ∧
      (inState .holding s).job.held = false := by decide

/-- On the way between two passes, 1 count from the origin of the next. -/
def linking (p : Nat) : State :=
  (runningAt .cutting [(0, ⟨.planned, line12000⟩)] p 0).mapInterp fun n =>
    { n with active := none, pass := 1, link := some { startAt := ⟨1, 0⟩, stopAt := ⟨0, 0⟩, length := 1 } }

theorem witness_PivotSteps_link :
    (linking 0).interp.timer.isSome = true ∧ (linking 0).interp.active = none ∧ (linking 0).interp.pivot = 0 ∧
      (linking 0).interp.p + (evaluateGovernor (linking 0)).gov.v < 1 * 1000 ∧
      1 * 1000 ≤ (linking 970).interp.p + (evaluateGovernor (linking 970)).gov.v ∧
      (inState .holding (linking 0)).job.held = false ∧
      (after .interpolationPeriodExpiry (inState .holding (linking 0))).job.held = true := by decide +kernel

/-- R142: a controlled stop on a link move, at 100 cps and at 101. -/
theorem witness_ControlledStopEnds_link :
    let at100 := (stoppingFrom .cutting (linking 0)).mapGov fun g => { g with vprev := 100 }
    let at101 := (stoppingFrom .cutting (linking 0)).mapGov fun g => { g with vprev := 101 }
    (evaluateGovernor at100).gov.v = 0 ∧ (after .interpolationPeriodExpiry at100).job.state = .idle ∧
      0 < (evaluateGovernor at101).gov.v ∧ (after .interpolationPeriodExpiry at101).interp.p = 1 ∧
      (after .interpolationPeriodExpiry at101).job.state = .stopping := by decide +kernel

/-- R64, R70: a segment that reaches its end in STOPPING, before one it carries into, before one it does not, and at the
frontier. -/
theorem witness_ControlledStopEnds_reaching :
    let s (slots : List (Nat × Slot)) :=
      stoppingFrom .cutting (runningAt .stopping ((0, ⟨.active, line12000⟩) :: slots) 11999980 130)
    let carries := s [(1, nextWith .smooth 0)]
    let turns := s [(1, nextWith .pivot 9000)]
    carries.slotsOk ∧ carries.atEndOf line12000 10 ∧ 0 < (evaluateGovernor carries).gov.v ∧
      (followerOf carries 1).bind Segment.junction = some .smooth ∧
      (followerOf turns 1).bind Segment.junction = some .pivot ∧ followerOf (s []) 1 = none ∧
      (after .interpolationPeriodExpiry carries).interp.p = 10 ∧
      (after .interpolationPeriodExpiry carries).interp.active = some 1 ∧
      (after .interpolationPeriodExpiry turns).interp.active = none ∧
      (after .interpolationPeriodExpiry turns).job.state = .stopping ∧
      (after .interpolationPeriodExpiry (s [])).job.state = .stopping ∧
      (after .interpolationPeriodExpiry (s [])).interp.targetX = 12000 :=
  ⟨slotsOk_of_check (by decide +kernel), by unfold State.atEndOf; decide +kernel, by decide +kernel, by decide +kernel,
    by decide +kernel, by decide +kernel, by decide +kernel, by decide +kernel, by decide +kernel, by decide +kernel,
    by decide +kernel, by decide +kernel⟩

/-- R69: what stands with its targets: a segment and a link move in WARMUP and held, and a starved head. -/
theorem witness_PivotSteps_standing :
    let segment := (runningAt .warmup [(0, ⟨.active, line12000⟩)] 5000000 0).mapInterp fun n => { n with targetX := 5000 }
    let between := inState .warmup (linking 500)
    (segment.interp.timer.isSome = true ∧ segment.interp.pivot = 0 ∧ segment.interp.active = some 0 ∧
      segment.store.slot 0 = some ⟨.active, line12000⟩ ∧ segment.interp.p < line12000.length * 1000) ∧
      (between.interp.active = none ∧ between.interp.pivot = 0 ∧ between.interp.p < 1 * 1000) ∧
      (heldAt segment).job.held = true ∧ (after .interpolationPeriodExpiry (heldAt segment)).interp.p = 5000000 ∧
      (after .interpolationPeriodExpiry (heldAt segment)).interp.targetX = 5000 ∧
      (after .interpolationPeriodExpiry (heldAt between)).interp.p = 500 ∧
      (starvedAt.interp.active = none ∧ starvedAt.interp.link = none ∧ starvedAt.interp.pivot = 0) ∧
      (after .interpolationPeriodExpiry (starvedAt.mapInterp fun n => { n with timer := some 999 })).interp.timer =
        some 0 := by decide +kernel

/-- R142: a controlled stop that finds a PAUSE active, and one that finds a pivot. -/
theorem witness_ControlledStopEnds_pause :
    let s := stoppingFrom .cutting ((runningAt .cutting [(0, ⟨.active, pause2⟩)] 0 0).mapInterp fun n =>
      { n with pause := 2 })
    let u := (stoppingFrom .cutting (cutting 0 0)).mapInterp fun n => { n with pivot := 19 }
    (evaluateGovernor s).gov.v = 0 ∧ pause2.kind.moving = false ∧ (after .interpolationPeriodExpiry s).job.state = .idle ∧
      (evaluateGovernor u).gov.v = 0 ∧ (after .interpolationPeriodExpiry u).job.state = .idle := by decide +kernel

theorem witness_StoppingDistance_clauses :
    (cutting 0 0).interp.active = some 0 ∧ (cutting 0 0).store.slot 0 = some ⟨.active, line12000⟩ ∧
      (linking 0).interp.active = none ∧ (linking 0).interp.link.isSome = true ∧ r.interp.active = none ∧
      r.interp.link = none ∧ pathInput r = none ∧
      0 < ((cutting 0 0).mapInterp fun n => { n with pivot := 1 }).interp.pivot ∧
      (inState .warmup (cutting 0 0)).job.state = .warmup ∧ heldJob.job.held = true ∧ heldJob.job.state = .holding ∧
      ¬(0 < (cutting 0 0).interp.pivot ∨ (cutting 0 0).job.state = .warmup ∨
        ((cutting 0 0).job.state = .holding ∧ (cutting 0 0).job.held = true)) := by decide

theorem witness_MoveBegins_turn :
    beforeA.axes.c.pos = 0 ∧ ((18000 : Half).toNat : Int) % 36000 ≤ 18000 ∧
      ¬((18001 : Half).toNat : Int) % 36000 ≤ 18000 ∧
      ((after (.move 20000 30000 18001) beforeA).axes.traverse.map fun t => (t.turnLeft, t.turnNeg)) = some (17999,
          true) ∧
      ((after (.move 20000 30000 18000) beforeA).axes.traverse.map fun t => (t.turnLeft, t.turnNeg)) =
        some (18000, false) := by decide +kernel

/-- A HOME of X and C with X in a phase at a speed and C homed. -/
def homing (phase : HomingPhase) (speed m : Nat) : State :=
  (inState .motion r).mapAxes fun u =>
    { u with
      x := { u.x with ref := .homing, enable := true, phase := phase, speed := speed, moved := m }
      c := { u.c with ref := .referenced, enable := true, phase := .done, outcome := .referenced }
      home := some ⟨true, false, true⟩
      timer := some 0 }

theorem witness_TraverseAdvances_home :
    (homing .search 0 0).axes.timer.isSome = true ∧ (homing .search 0 0).job.state = .motion ∧
      (homing .search 0 0).axes.home = some ⟨true, false, true⟩ ∧ (homing .search 0 0).axes.traverse = none ∧
      ((homing .search 0 0).axes.get .x).ref = .homing ∧ ((homing .search 0 0).axes.get .y).ref ≠ .homing ∧
      (after .traversePeriodExpiry (homing .search 70 229999930)).job.state = .idle ∧
      (after .traversePeriodExpiry (homing .brake 30 500)).axes.x.phase = .backoffSeek ∧
      (after .traversePeriodExpiry (homing .brake 31 500)).axes.x.speed = 1 ∧
      (after .traversePeriodExpiry (homing .backoffSeek 200 1999799)).axes.x.phase = .backoffSeek ∧
      (after .traversePeriodExpiry (homing .backoff 200 1999800)).axes.x.outcome = .switch ∧
      (after .traversePeriodExpiry (homing .backoff 200 1999800)).link.notices =
        [.homed ⟨true, false, true⟩ (.switch, 0) (.none, 0) (.referenced, 0)] := by decide +kernel

/-- In STOPPING after a stop of a traverse. -/
def stoppedMotion (s : State) : State := (inState .stopping s).mapGuard fun g => { g with stop := some .motion }

/-- A MOVE of 1000 counts half way along at a speed. -/
def movingFast (v : Nat) : State :=
  (moving 0 18).mapAxes fun u =>
    { u with
      traverse := u.traverse.map fun t =>
        { t with stopAt := ⟨1000, 0⟩, length := 1000, p := 500000, v := v, vprev := v } }

theorem witness_TraverseAdvances_stop :
    (stoppedMotion (movingFast 130)).axes.timer.isSome = true ∧ (stoppedMotion (movingFast 130)).job.state = .stopping ∧
      (stoppedMotion (movingFast 130)).guard.stop = some .motion ∧ (stoppedMotion (movingFast 130)).axes.home = none ∧
      ((after .traversePeriodExpiry (stoppedMotion (movingFast 130))).axes.traverse.map fun t => (t.p, t.v, t.turnLeft)) =
        some (500030, 30, 0) ∧
      (after .traversePeriodExpiry (stoppedMotion (movingFast 100))).job.state = .idle ∧
      (after .traversePeriodExpiry (latchCause (.input .door) (stoppedMotion (movingFast 100)))).job.state = .fault ∧
      (stoppedMotion (homing .search 101 0)).axes.home = some ⟨true, false, true⟩ ∧
      (after .traversePeriodExpiry (stoppedMotion (homing .search 101 0))).axes.x.speed = 1 ∧
      (after .traversePeriodExpiry (stoppedMotion (homing .search 100 0))).link.notices =
        [.homed ⟨true, false, true⟩ (.aborted, 0) (.none, 0) (.referenced, 0), .stopped .controlled .motion 0] := by
  decide +kernel

theorem witness_TraverseAdvances_stop_axes : ∀ a, ((stoppedMotion (movingFast 130)).axes.get a).ref ≠ .homing := by
  intro a
  cases a <;> decide

/-! ## Witnesses: blade, load and inputs, clause by clause -/

theorem witness_IndexArrivals_edges :
    (blade .coast 0 (some 0) 0).stroke.state = .coast ∧ (blade .coast 0 none 0).stroke.index = none ∧
      (after (.indexArrival 12500) (blade .coast 0 (some 0) 0)).stroke.m = 4800 ∧
      (after (.indexArrival 12821) (blade .spinup 350 (some 0) 3)).stroke.m = 4679 ∧
      (after (.indexArrival 12821) (blade .spinup 350 (some 0) 3)).stroke.lock = 0 ∧
      (after (.indexArrival 12820) (blade .spinup 350 (some 0) 3)).stroke.m = 4680 ∧
      (4800 - 4680 : Int).natAbs = (blade .spinup 350 (some 0) 3).params.lockBand ∧
      (after (.indexArrival 12820) (blade .spinup 350 (some 0) 3)).stroke.lock = 4 := by decide +kernel

/-- R109, R150: at lock a job in WARMUP passes to CUTTING; the phase-delay timer starts, or with SAMPLE_PHASE 0 a
conversion. -/
theorem witness_IndexArrivals_lock :
    let s := inState .warmup (blade .spinup 350 (some 0) 7)
    let u := s.mapParams fun q => { q with samplePhase := 0 }
    (after (.indexArrival 12500) s).job.state = .cutting ∧ (after (.indexArrival 12500) s).load.phase = some 800 ∧
      (after (.indexArrival 12500) u).load.phase = none ∧
      (after (.indexArrival 12500) u).load.inFlight = some (.settling 0) := by decide +kernel

/-- A measuring conversion that serves STROKE in RUN, with a count of samples at or above OVERLOAD. -/
def overloading (run : Nat) : State :=
  (blade .run 434 (some 0) 0).mapLoad fun m =>
    { m with powered := true, settled := true, reqStroke := true, inFlight := some (.measuring 24), run := run }

theorem witness_ConversionsServe_overload :
    (overloading 4).load.reqStroke = true ∧ (overloading 4).stroke.state = .run ∧
      (after (.measuringComplete 960) (overloading 4)).load.run = 5 ∧
      (after (.measuringComplete 959) (overloading 5)).load.run = 0 ∧
      (after (.measuringComplete 960) (overloading 5)).guard.latch = 0x4000 ∧
      (after (.measuringComplete 960) (overloading 5)).stroke.state = .coast ∧
      (inState .idle (overloading 5)).job.state = .idle := by decide +kernel

/-- R116: from band 3 with the average 540 and HYST 16, a fall of two levels passes the threshold of both. -/
theorem test_band_two_levels :
    (evaluateBand (r.mapLoad fun m => { m with acc := 4320, band := 3 })).load.band = 2 ∧
      (evaluateBand (r.mapLoad fun m => { m with acc := 4264, band := 3 })).load.band = 1 := by decide

/-- An input about to be accepted ACTIVE, or inactive, with an action, in a job state and with the stroke in a state. -/
def edgeComing (i : InputId) (active : Bool) (act : InputAction) (j : JobState) (k : StrokeState) : State :=
  { inState j (blade k 0 none 0) with
    guard := (filtering active (!active) 2 i).guard.updateInput i fun inp =>
      { inp with action := act, notifyRelease := !active } }

theorem witness_InputFilters_actions :
    ((edgeComing .aux false .notice .idle .off).guard.input .aux).raw = false ∧
      ((edgeComing .aux false .notice .idle .off).guard.input .aux).accepted = true ∧
      timerOut ((edgeComing .aux false .notice .idle .off).guard.input .aux).timer
        ((edgeComing .aux false .notice .idle .off).guard.input .aux).filter ∧
      (∀ a, InputId.aux ≠ homeInputOf a ∧ limitInputOf a ≠ some .aux) ∧
      ((edgeComing .limitX true .halt .cutting .run).guard.input .limitX).action = .halt ∧
      (edgeComing .limitX true .halt .cutting .run).job.state ≠ .motion ∧
      (after (.filterTimerExpiry .aux) (edgeComing .aux false .notice .idle .off)).link.notices = [.edge .aux false] ∧
      (after (.filterTimerExpiry .aux) (edgeComing .aux true .notice .motion .off)).link.notices = [.edge .aux true] ∧
      (after (.filterTimerExpiry .aux) (edgeComing .aux true .hold .warmup .off)).job.state = .holding ∧
      (after (.filterTimerExpiry .aux) (edgeComing .aux true .hold .starved .off)).job.held = true ∧
      (after (.filterTimerExpiry .aux) (edgeComing .aux true .hold .idle .off)).link.notices = [.edge .aux true] := by
  refine ⟨by decide, by decide, timerOut_of (by decide), ?_, by decide, by decide, by decide, by decide, by decide,
    by decide, by decide⟩
  intro a
  cases a <;> decide

theorem witness_InputFilters_causes :
    (after (.filterTimerExpiry .door) (edgeComing .door true .stop .cutting .run)).guard.stop = some .cutting ∧
      (after (.filterTimerExpiry .door) (edgeComing .door true .stop .stopping .run)).guard.latch = 0x0002 ∧
      (after (.filterTimerExpiry .door) (edgeComing .door true .stop .idle .off)).guard.latch = 0 ∧
      (edgeComing .door true .stop .idle .run).stroke.state.driven = true ∧
      (after (.filterTimerExpiry .door) (edgeComing .door true .stop .idle .run)).link.notices =
        [.stopped .controlled .idle 0x0002] ∧
      (after (.filterTimerExpiry .door) (edgeComing .door true .halt .idle .off)).job.state = .fault ∧
      (after (.filterTimerExpiry .door) (edgeComing .door true .halt .fault .off)).link.notices = [] := by decide

/-- A HOME of X and C with the home or the limit input of X about to be accepted. -/
def homingEdge (phase : HomingPhase) (i : InputId) (active : Bool) (act : InputAction) : State :=
  { homing phase 200 5000 with
    guard := (filtering active (!active) 2 i).guard.updateInput i fun inp => { inp with action := act } }

theorem witness_InputFilters_reports :
    (homingEdge .search .homeX true .ignore).job.state = .motion ∧
      (homingEdge .search .homeX true .ignore).axes.home = some ⟨true, false, true⟩ ∧
      (homingEdge .search .homeX true .ignore).axes.timer.isSome = true ∧
      ((homingEdge .search .homeX true .ignore).axes.get .x).ref = .homing ∧
      ((homingEdge .search .homeX true .ignore).guard.input .homeX).timer = some (2 * 1000) ∧
      (after (.filterTimerExpiry .homeX) (homingEdge .search .homeX true .ignore)).axes.x.phase = .brake ∧
      (after (.filterTimerExpiry .homeX) (homingEdge .backoffSeek .homeX true .ignore)).axes.x.phase = .backoff ∧
      (after (.filterTimerExpiry .homeX) (homingEdge .backoff .homeX false .ignore)).axes.x.ref = .referenced ∧
      (after (.filterTimerExpiry .homeX) (homingEdge .backoff .homeX false .ignore)).axes.x.moved = 0 ∧
      (after (.filterTimerExpiry .homeX) (homingEdge .backoff .homeX false .ignore)).job.state = .idle ∧
      limitInputOf .x = some .limitX ∧
      (after (.filterTimerExpiry .limitX) (homingEdge .search .limitX true .ignore)).axes.x.outcome = .limit ∧
      ((homingEdge .search .limitX true .halt).guard.input .limitX).action = .halt := by decide

/-! ## Witnesses: the ends of a job, clause by clause -/

/-- The last slot of a REPEAT pass, about to end. -/
def passEnding (pass programmed : Nat) (offX : Int) (stopX : Int) : State :=
  let s := atFrontier .cutting false
  { s with
    store := { s.store with mode := .repeating, slots := [(0, ⟨.active, { line12000 with stopAt := ⟨stopX, 0⟩ }⟩)] }
    interp := { s.interp with pass := pass }
    job := { s.job with mode := .repeating, passesProgrammed := programmed, offX := offX } }

theorem witness_ControlledStopEnds_passes :
    (passEnding 1 2 100 12000).store.mode = .repeating ∧ (passEnding 1 2 100 12000).job.passesProgrammed ≤ 1 + 1 ∧
      (passEnding 0 2 100 12000).interp.pass + 1 < (passEnding 0 2 100 12000).job.passesProgrammed ∧
      0 + 1 = (passEnding 0 2 100 12000).store.writePtr ∧
      (after .interpolationPeriodExpiry (passEnding 1 2 100 12000)).job.state = .idle ∧
      (after .interpolationPeriodExpiry (passEnding 0 2 100 12000)).interp.link.isSome = true ∧
      (after .interpolationPeriodExpiry (passEnding 0 2 12000 12000)).interp.link = none ∧
      (after .interpolationPeriodExpiry (atFrontier .cutting true)).link.notices = [.done 1 1] ∧
      (after .interpolationPeriodExpiry (atFrontier .cutting false)).job.state = .starved ∧
      (after .interpolationPeriodExpiry (atFrontier .holding false)).job.held = true := by decide +kernel

/-- R73, R152: a fill end taken in HOLDING, with a link move to go and with none: V is above 0, and the held flag waits
for the expiry that finds it 0; and the Store of each end is in its form. -/
theorem witness_ControlledStopEnds_holding :
    let s (offX : Int) := (inState .holding (passEnding 0 2 offX 12000)).mapGov fun g => { g with vprev := 60 }
    (s 100).cuts ∧ (s 100).atEndOf line12000 10 ∧ (s 100).slotsOk ∧ (atFrontier .cutting false).slotsOk ∧
      (after .interpolationPeriodExpiry (s 100)).interp.link.isSome = true ∧
      (after .interpolationPeriodExpiry (s 100)).job.held = false ∧
      (after .interpolationPeriodExpiry (s 100)).link.notices = [.pass 1] ∧
      (after .interpolationPeriodExpiry (s 12000)).interp.link = none ∧
      (after .interpolationPeriodExpiry (s 12000)).job.held = false :=
  ⟨by unfold State.cuts; decide, by unfold State.atEndOf; decide +kernel, slotsOk_of_check (by decide +kernel),
    slotsOk_of_check (by decide +kernel), by decide +kernel, by decide +kernel, by decide +kernel, by decide +kernel,
    by decide +kernel⟩

/-! ## Witnesses: what every step keeps -/

theorem witness_SlotsKept : r.modesOk ∧ r.slotsOk ∧ step r = .next (elapse 1 r) :=
  ⟨reset_modesOk, slotsOk_of_check (by decide +kernel), rfl⟩

/-- The form of a STREAM window across its end, and of a REPEAT window, full and with its fill end to come. -/
theorem witness_SlotsKept_windows :
    let ring : Store :=
      { Store.reset with
        winEnd := 7, slots := [(0, ⟨.queued, line12000⟩), (7, ⟨.active, line12000⟩)], writePtr := 1, execPtr := 7 }
    let filled (n : Nat) : Store :=
      { Store.reset with
        winEnd := 7, mode := .repeating, slots := (List.range n).map fun i => (i, ⟨.queued, line12000⟩), writePtr := n }
    ring.windowOk (some 7) ∧ (filled 8).windowOk none ∧ (filled 3).windowOk none :=
  ⟨windowOk_of_check (by decide +kernel), windowOk_of_check (by decide +kernel), windowOk_of_check (by decide +kernel)⟩

theorem witness_QueuesKept : r.queuesOk ∧ step r = .next (elapse 1 r) := ⟨by constructor <;> decide, rfl⟩

theorem witness_ModesKept : r.bladeOk ∧ r.modesOk ∧ r.faultOk ∧ step r = .next (elapse 1 r) :=
  ⟨reset_bladeOk, reset_modesOk, reset_faultOk, rfl⟩

theorem witness_BladeKept : r.bladeOk ∧ step r = .next (elapse 1 r) := ⟨reset_bladeOk, rfl⟩

theorem witness_ParamsKept : r.paramsOk ∧ step r = .next (elapse 1 r) := ⟨reset_paramsOk, rfl⟩

theorem witness_RangesKept : r.rangesOk ∧ step r = .next (elapse 1 r) := ⟨reset_rangesOk, rfl⟩

/-! ## Worked examples of the spec -/

theorem test_frame_ident : frameLine 0x01 [] = [0xA5, 0x01, 0x01, 0xFE] := by decide

/-- 11.11: a check of 0xA8 is sent as 0xA6 0x88. -/
theorem test_check_escaped : frameLine 0x03 [0x53] = [0xA5, 0x02, 0x03, 0x53, 0xA6, 0x88] := by decide

theorem test_received_get :
    receiveBytes [0xA5, 0x02, 0x03, 0x53, 0xA6, 0x88] r = some (after (.frameReceived 0x03 [0x53]) r) := by
  decide +kernel

/-- The kinds of 12.1 and the bodies of 12.3. -/
theorem test_kinds :
    judgeRequest 0x01 [] = .request .ident ∧ judgeRequest 0x02 [1, 30, 0, 0, 0] = .request (.set 1 30) ∧
      judgeRequest 0x08 [2, 1, 0, 0, 0, 0xFF, 0xFF, 0xFF, 0xFF] = .request (.start 2 1 (-1)) ∧
      judgeRequest 0x0E [0x10, 0x27, 0, 0, 0, 0, 0, 0, 0x84, 3] = .request (.move 10000 0 900) ∧
      judgeRequest 0x13 [] = .badKind ∧ judgeRequest 0x01 [0] = .badSize := by decide

/-- 1.10, arrival A. -/
theorem test_arrival_A :
    ((afterA.store.slot 0).map fun sl => (sl.seg.number, sl.seg.startAt, sl.seg.delta)) = some (0, ⟨20000, 30000⟩, 0) ∧
      afterA.store.tailPoint = some ⟨32000, 30000⟩ ∧ afterA.store.tailHeading = some 0 ∧ afterA.store.arrival = 1 ∧
      afterA.store.origin = some ⟨20000, 30000⟩ ∧ afterA.job.state = .idle := by decide +kernel

/-- 1.10, arrival B. -/
theorem test_arrival_B :
    (((after (.append arcB) afterA).store.slot 1).map fun sl =>
      (sl.seg.number, sl.seg.radius, sl.seg.sweep, sl.seg.delta, sl.seg.box)) =
        some (1, 8000, 9000, 0, ⟨32000, 40000, 30000, 38000⟩) ∧
      (after (.append arcB) afterA).store.tailPoint = some ⟨40000, 38000⟩ ∧
      (after (.append arcB) afterA).store.tailHeading = some 9000 := by decide +kernel

/-- 1.10, the line checks at 45.00°. -/
theorem test_sine_4500 : sine 4500 = 46341 ∧ cosine 4500 = 46341 ∧ sine 27000 = -65536 ∧ cosine 18000 = -65536 := by
  decide +kernel

/-- 5.8, periods 1 and 702. -/
theorem test_governor_5_8 :
    (evaluateGovernor (cutting 0 0)).gov =
        { v := 30, vprev := 30, stage := .slew, vreq := 17500, vplan := 27129, vstroke := 23400 } ∧
      (evaluateGovernor (cutting 7172080 17500)).gov =
        { v := 17483, vprev := 17483, stage := .plan, vreq := 17500, vplan := 17483, vstroke := 23400 } := by
  decide +kernel

/-- 5.9: the load band rises to 3 before period 703. -/
theorem test_governor_5_9 :
    (evaluateGovernor ((cutting 7189563 17483).mapLoad fun m => { m with band := 3 })).gov.v = 10000 := by decide +kernel

/-- 5.10: the first period of a hold and of a controlled stop from 10000 cps. -/
theorem test_ramps_5_10 :
    (evaluateGovernor (inState .holding (cutting 5000000 10000))).gov.v = 9970 ∧
      (evaluateGovernor (inState .stopping (cutting 5000000 10000))).gov.v = 9900 := by decide +kernel

/-- 6.8, indices 2 and 5 to lock. -/
theorem test_spin_up_6_8 :
    (after (.indexArrival 20000) (blade .spinup 350 (some 0) 0)).stroke.duty = 406 ∧
      (after (.indexArrival 12400) (blade .spinup 434 (some 0) 1)).stroke.duty = 433 ∧
      (after (.indexArrival 12400) (blade .spinup 434 (some 0) 1)).stroke.lock = 2 ∧
      (after (.indexArrival 12480) (blade .spinup 434 (some 0) 7)).stroke.state = .run := by decide +kernel

/-- R94: a duty of 0.1 % holds the output high for the first 50 ns of the cycle in progress. -/
theorem test_pwm :
    let k := { (blade .run 1 none 0).stroke with pwmDuty := 1 }
    k.outputAt 49 = true ∧ k.outputAt 50 = false ∧ ((blade .run 434 none 0).stroke.elapse 50).pwmDuty = 434 := by
  decide

/-- 7.10: 4375 − 546 + 700 = 4529, average 566, takes the band from 1 to 2. -/
theorem test_samples_7_10 :
    let s := blade .run 434 (some 0) 0
    let m := s.mapLoad fun m => { m with acc := 4375, band := 1, reqStroke := true, inFlight := some (.measuring 24) }
    (after (.measuringComplete 700) m).load.acc = 4529 ∧ (after (.measuringComplete 700) m).load.band = 2 := by
  decide +kernel

/-- 8.10: HOME of X and Y with HOME_Y active; seven periods on, X has searched at 210 and Y crept at 200. -/
theorem test_homing_8_10 :
    let s := after (.home 3) (withActive .homeY r)
    let t := (List.range 7).foldl (fun u _ => after .traversePeriodExpiry u) s
    s.axes.x.phase = .search ∧ s.axes.y.phase = .backoff ∧ t.axes.x.speed = 210 ∧ t.axes.y.speed = 200 ∧
      t.axes.x.pos + t.axes.x.steps = -1 ∧ t.axes.y.pos + t.axes.y.steps = 1 := by decide +kernel

/-- 8.11: the first period of the MOVE. -/
theorem test_move_8_11 :
    let s := after .traversePeriodExpiry (after (.move 23000 34000 900) beforeA)
    s.axes.traverse.map (fun t => (t.length, t.p, t.v, t.turnLeft)) = some (5000, 30, 30, 882) ∧
      s.axes.c.steps = 18 := by decide +kernel

/-- 9.2: DOOR accepted open in a cut: the STOP cause starts a controlled stop. -/
theorem test_door_stops :
    let s := { cutting 0 0 with guard := (filtering true false 2 .door).guard }
    (after (.filterTimerExpiry .door) s).job.state = .stopping ∧
      (after (.filterTimerExpiry .door) s).guard.latch = 0x0002 ∧
      (after (.filterTimerExpiry .door) s).guard.stop = some .cutting := by decide +kernel

/-- R149, R150: START of a PAUSE spins the blade up and warms up. -/
theorem test_start :
    (after (.start 1 0 0) startable).job.state = .warmup ∧ (after (.start 1 0 0) startable).stroke.state = .spinup ∧
      (after (.start 1 0 0) startable).stroke.duty = 350 ∧
      (after (.start 1 0 0) startable).link.requests =
        [⟨0x08, [1, 0, 0, 0, 0, 0, 0, 0, 0], .ready ⟨.ok, []⟩⟩] := by decide +kernel

/-- R171: the end of the RESET reply resets the part. -/
theorem test_reset : after .txFrameEnd resetReply = r := by decide +kernel

/-- R160: straps high, high select 2000000 bit/s. -/
theorem test_straps : (after (.hardwareReset 3) r).link.rate = .r2000000 := by decide

/-- R166: the reply of a SAMPLE waits for its conversion, and a notice goes first. -/
theorem test_sample_deferred :
    let s := queueNotice (.pass 1) (after .sample r)
    let settled := after .settlingComplete (elapse 24 s)
    let t := after (.measuringComplete 512) (elapse 24 settled)
    (after .txFrameStart s).link.tx.map TxFrame.isReply = some false ∧
      (after .txFrameStart t).link.tx.map TxFrame.isReply = some true := by decide +kernel

end Sys2Proof.Tests
end

namespace Sys2Proof.Machine

/-! ## Parameters in range (R169) -/

/-- The condition on the parameters looks only at them and at the settings of the inputs. -/
theorem paramsOk_of_settings {s t : State} (h : s.paramsOk) (hp : t.params = s.params)
    (hg : sameSettings s.guard t.guard) : t.paramsOk := by
  obtain ⟨pend, base, free, prm, store, planner, interp, gov, stroke, load, axes, guard, job, link⟩ := t
  subst hp
  exact { h with
    inputs := fun i => ⟨(hg i).1 ▸ (h.inputs i).1, fun hf => (hg i).2.1.trans ((h.inputs i).2 hf)⟩ }

/-- A value clamped into a range of naturals is stored within it. -/
theorem clamp_toNat_bounds {v : Int} {lo hi : Nat} (h : lo ≤ hi) :
    lo ≤ (clamp v lo hi).toNat ∧ (clamp v lo hi).toNat ≤ hi := by
  have := clamp_bounds (x := v) (Int.ofNat_le.mpr h)
  omega

theorem clamp_toNat_le {v : Int} (hi : Nat) : (clamp v 0 hi).toNat ≤ hi :=
  (clamp_toNat_bounds (lo := 0) (Nat.zero_le hi)).2

/-- R17: what a SET stores for a class is an action the class allows. -/
theorem policyAllowed_held (cls : GeometryClass) {v : Int} :
    policyAllowed cls (policyOfCode (if policyAllowed cls (policyOfCode v.toNat) then v else 0).toNat) = true := by
  split
  · assumption
  · cases cls <;> rfl

theorem paramsOk_setPolicy {s : State} (cls : GeometryClass) {a : PolicyAction} (h : s.paramsOk)
    (ha : policyAllowed cls a = true) : (s.mapParams (Params.setPolicy cls a)).paramsOk := by
  obtain ⟨hLength, hRadius, hHeading, hPivot⟩ := h.policies
  cases cls with
  | length => exact { h with policies := ⟨ha, hRadius, hHeading, hPivot⟩ }
  | radius => exact { h with policies := ⟨hLength, ha, hHeading, hPivot⟩ }
  | heading => exact { h with policies := ⟨hLength, hRadius, ha, hPivot⟩ }
  | pivot => exact { h with policies := ⟨hLength, hRadius, hHeading, ha⟩ }

theorem paramsOk_updateInput {s : State} (i : InputId) {f : InputState → InputState} (h : s.paramsOk)
    (hf : (f (s.guard.input i)).filter ≤ 15)
    (ha : actionFixed i = true → (f (s.guard.input i)).action = .halt) :
    (s.mapGuard fun g => g.updateInput i f).paramsOk := by
  refine { h with inputs := fun j => ?_ }
  show ((s.guard.updateInput i f).input j).filter ≤ 15 ∧
    (actionFixed j = true → ((s.guard.updateInput i f).input j).action = .halt)
  rw [input_updateInput]
  split
  · next e =>
    subst e
    exact ⟨hf, ha⟩
  · exact h.inputs j

/-- R169, check 5: what a SET stores is in range and held against the related parameters. -/
theorem paramsOk_write {s : State} (p : ParamId) (v : Int) (h : s.paramsOk) (hf : p.fixed = false) :
    (p.write (p.hold s v).toNat s).paramsOk := by
  obtain ⟨hAccelLow, hAccelStop, hStopHigh, hAccelHigh⟩ := h.accel
  obtain ⟨hIdleLow, hIdleCut, hCutLow, hCutHigh⟩ := h.strokes
  obtain ⟨ht12, ht23, ht3⟩ := h.thresholds
  obtain ⟨hHoldLow, hHoldHigh, hHoldGo, hGoHigh⟩ := h.flow
  obtain ⟨hTravelX, hTravelY⟩ := h.travel
  obtain ⟨hd0, hd1, hd2, hd3⟩ := h.derates
  cases p with
  | accel =>
    obtain ⟨hLow, hHigh⟩ : 5 ≤ (clamp v 5 200).toNat ∧ (clamp v 5 200).toNat ≤ 200 := clamp_toNat_bounds (by decide)
    exact { h with accel := ⟨hLow, Nat.le_max_right _ _, Nat.max_le.mpr ⟨hStopHigh, hHigh.trans (by decide)⟩, hHigh⟩ }
  | stopDecel =>
    obtain ⟨hLow, hHigh⟩ := clamp_toNat_bounds (v := v) (lo := s.params.accel) (hi := 400) (by omega)
    exact { h with accel := ⟨hAccelLow, hLow, hHigh, hAccelHigh⟩ }
  | overridePct => exact { h with overridePct := clamp_toNat_bounds (by decide) }
  | advanceLimit => exact { h with advanceLimit := clamp_toNat_bounds (by decide) }
  | blendAngle => exact { h with blendAngle := clamp_toNat_le _ }
  | pivotLimit => exact { h with pivotLimit := clamp_toNat_bounds (by decide) }
  | cornerFloor => exact { h with cornerFloor := clamp_toNat_le _ }
  | pivotRate => exact { h with pivotRate := clamp_toNat_bounds (by decide) }
  | linkFeed => exact { h with linkFeed := clamp_toNat_bounds (by decide) }
  | strokeCut =>
    obtain ⟨hLow, hHigh⟩ : 1200 ≤ (clamp v 1200 9000).toNat ∧ (clamp v 1200 9000).toNat ≤ 9000 :=
      clamp_toNat_bounds (by decide)
    exact { h with
      strokes := ⟨Nat.le_min.mpr ⟨hIdleLow, Nat.le_trans (by decide) hLow⟩, Nat.min_le_right _ _, hLow, hHigh⟩ }
  | strokeIdle =>
    obtain ⟨hLow, hHigh⟩ := clamp_toNat_bounds (v := v) (lo := 600) (hi := s.params.strokeCut) (by omega)
    exact { h with strokes := ⟨hLow, hHigh, hCutLow, hCutHigh⟩ }
  | startDuty => exact { h with startDuty := clamp_toNat_le _ }
  | ki => exact { h with ki := clamp_toNat_bounds (by decide) }
  | lockBand => exact { h with lockBand := clamp_toNat_bounds (by decide) }
  | lockCount => exact { h with lockCount := clamp_toNat_bounds (by decide) }
  | stallTime => exact { h with stallTime := clamp_toNat_bounds (by decide) }
  | spinupLimit => exact { h with spinupLimit := clamp_toNat_bounds (by decide) }
  | t1 =>
    have hv := clamp_bounds (x := v) (lo := 0) (hi := 1023) (by decide)
    refine { h with thresholds := ⟨?_, ht23, ht3⟩ }
    show (min (clamp v 0 1023) (s.params.t2 - 1)).toNat < s.params.t2
    omega
  | t2 =>
    refine { h with thresholds := ?_ }
    show s.params.t1 < (min (max (clamp v 0 1023) (s.params.t1 + 1)) (s.params.t3 - 1)).toNat ∧
      (min (max (clamp v 0 1023) (s.params.t1 + 1)) (s.params.t3 - 1)).toNat < s.params.t3 ∧ s.params.t3 ≤ 1023
    omega
  | t3 =>
    have hv := clamp_bounds (x := v) (lo := 0) (hi := 1023) (by decide)
    refine { h with thresholds := ⟨ht12, ?_⟩ }
    show s.params.t2 < (max (clamp v 0 1023) (s.params.t2 + 1)).toNat ∧
      (max (clamp v 0 1023) (s.params.t2 + 1)).toNat ≤ 1023
    omega
  | d0 => exact { h with derates := ⟨clamp_toNat_le _, hd1, hd2, hd3⟩ }
  | d1 => exact { h with derates := ⟨hd0, clamp_toNat_le _, hd2, hd3⟩ }
  | d2 => exact { h with derates := ⟨hd0, hd1, clamp_toNat_le _, hd3⟩ }
  | d3 => exact { h with derates := ⟨hd0, hd1, hd2, clamp_toNat_le _⟩ }
  | hyst => exact { h with hyst := clamp_toNat_le _ }
  | overload => exact { h with overload := clamp_toNat_le _ }
  | overloadCount => exact { h with overloadCount := clamp_toNat_bounds (by decide) }
  | samplePhase => exact { h with samplePhase := clamp_toNat_le _ }
  | bandNotice => exact { h with }
  | travelX =>
    have hv := clamp_bounds (x := v) (lo := 1000) (hi := 250000) (by decide)
    refine { h with travel := ⟨?_, hTravelY⟩ }
    show 1000 ≤ (max (clamp v 1000 250000) (travelFloorX s)).toNat
    omega
  | travelY =>
    have hv := clamp_bounds (x := v) (lo := 1000) (hi := 150000) (by decide)
    refine { h with travel := ⟨hTravelX, ?_⟩ }
    show 1000 ≤ (max (clamp v 1000 150000) (travelFloorY s)).toNat
    omega
  | traverseFeed => exact { h with traverseFeed := clamp_toNat_bounds (by decide) }
  | homeFeed => exact { h with homeFeed := clamp_toNat_bounds (by decide) }
  | homeSearch => exact { h with homeSearch := clamp_toNat_bounds (by decide) }
  | starveDwell => exact { h with starveDwell := clamp_toNat_bounds (by decide) }
  | flowHold =>
    obtain ⟨hLow, hHigh⟩ : 1 ≤ (clamp v 1 64).toNat ∧ (clamp v 1 64).toNat ≤ 64 := clamp_toNat_bounds (by decide)
    refine { h with flow := ⟨hLow, hHigh, ?_⟩ }
    show (clamp v 1 64).toNat <
        (if s.params.flowGo ≤ (clamp v 1 64).toNat then (clamp v 1 64).toNat + 1 else s.params.flowGo) ∧
      (if s.params.flowGo ≤ (clamp v 1 64).toNat then (clamp v 1 64).toNat + 1 else s.params.flowGo) ≤ 128
    split <;> omega
  | flowGo =>
    obtain ⟨hLow, hHigh⟩ := clamp_toNat_bounds (v := v) (lo := s.params.flowHold + 1) (hi := 128) (by omega)
    exact { h with flow := ⟨hHoldLow, hHoldHigh, hLow, hHigh⟩ }
  | lowWater => exact { h with lowWater := clamp_toNat_le _ }
  | frameTimeout => exact { h with frameTimeout := clamp_toNat_bounds (by decide) }
  | filter i => exact paramsOk_updateInput i h (clamp_toNat_le (v := v) 15) (h.inputs i).2
  | action i =>
    have hFree : actionFixed i = false := hf
    exact paramsOk_updateInput i h (h.inputs i).1 fun hFixed => nomatch hFree.symm.trans hFixed
  | notifyRelease i => exact paramsOk_updateInput i h (h.inputs i).1 (h.inputs i).2
  | policy cls => exact paramsOk_setPolicy cls h (policyAllowed_held cls)

theorem resetTo_paramsOk (rate : LineRate) (straps : BitVec 2) (s : State) : (s.resetTo rate straps).paramsOk := by
  constructor
  case inputs =>
    intro i
    simp only [State.resetTo, input_reset, InputState.reset]
    cases i <;> decide
  all_goals simp [State.resetTo, Params.reset, policyAllowed]

/-- Only a SET and a reset touch the parameters and the settings of the inputs, and both leave them in range. -/
theorem stable_paramsOk : Stable State.paramsOk where
  free _ h := { h with }
  store _ _ h _ := { h with }
  planner _ _ h _ := { h with }
  interp _ _ h := { h with }
  gov _ _ h _ := { h with }
  stroke _ _ h _ := { h with }
  load _ _ h _ := { h with }
  axes _ _ h _ := { h with }
  guard _ _ h hs := paramsOk_of_settings h rfl hs
  job _ _ h := { h with }
  link _ _ h _ _ _ := { h with }
  set _ p v h hf _ := paramsOk_write p v h hf
  pending _ _ h := { h with }
  timeBase _ _ h := { h with }
  reset s rate straps _ := resetTo_paramsOk rate straps s
  queues _ _ h _ _ := { h with }

/-- Settles O59: the condition is stable, so every step keeps it. -/
theorem paramsKept : Obligations.ParamsKept :=
  fun _ _ h he => stable_paramsOk.step h he

end Sys2Proof.Machine

namespace Sys2Proof.Machine

/-! ## Sine and cosine (R10) -/

/-- The levels of the nested sine series, the innermost first. -/
def sineLevels : List Nat :=
  [12, 11, 10, 9, 8, 7, 6, 5, 4, 3, 2, 1]

/-- The value of `quarterSine` before it is rounded: the sine with 64 fraction bits. -/
def fixedSine (h : Nat) : Nat :=
  let x := h * piFixed / 18000
  let xx := x * x / 2 ^ 64
  x * sineLevels.foldl (sineLevel xx) (2 ^ 64) / 2 ^ 64

theorem quarterSine_eq (h : Nat) : quarterSine h = (fixedSine h + 2 ^ 47) / 2 ^ 48 := rfl

/-- The unrounded sine lies more than 2^30 units of its last bit from the midpoint of two values of S. -/
def clearOfMidpoint (h : Nat) : Bool :=
  let r := (fixedSine h + 2 ^ 47) % 2 ^ 48
  Nat.blt (2 ^ 30) r && Nat.blt r (2 ^ 48 - 2 ^ 30)

/-- `clearOfMidpoint` for every heading below a bound. -/
def clearBelow : Nat → Bool
  | 0 => true
  | n + 1 => clearOfMidpoint n && clearBelow n

theorem clearBelow_iff (n : Nat) : clearBelow n = true ↔ ∀ h < n, clearOfMidpoint h = true := by
  induction n with
  | zero => simp [clearBelow]
  | succ n ih => simp only [clearBelow, Bool.and_eq_true, ih, Nat.forall_lt_succ_right, and_comm]

/-- No sine of the first quarter is a near tie. That is a fact about these 9001 values and no others (the closest misses
a midpoint by 2^31 units), so it is evaluated; what it says of the real sine is proved from `fixedSine_close`. -/
theorem clearBelow_quarter : clearBelow 9001 = true := by decide +kernel

/-! ### The series -/

/-- `sineLevel` in the reals. -/
noncomputable def seriesLevel (y rest : ℝ) (k : Nat) : ℝ :=
  1 - y * rest / (2 * k * (2 * k + 1))

/-- The imaginary part of the first terms of exp(ix) is the Taylor polynomial of the sine. -/
theorem im_expSeries (x : ℝ) (n : Nat) :
    (∑ m ∈ Finset.range (2 * n + 1), ((x : ℂ) * Complex.I) ^ m / (m.factorial : ℂ)).im =
      ∑ j ∈ Finset.range n, (-1) ^ j * x ^ (2 * j + 1) / (2 * j + 1).factorial := by
  induction n with
  | zero => simp
  | succ n ih =>
    have hOdd : ((x : ℂ) * Complex.I) ^ (2 * n + 1) = (((-1) ^ n * x ^ (2 * n + 1) : ℝ) : ℂ) * Complex.I := by
      rw [mul_pow, pow_succ Complex.I, pow_mul Complex.I, Complex.I_sq]
      push_cast
      ring
    have hEven : ((x : ℂ) * Complex.I) ^ (2 * n + 2) = (((-1) ^ (n + 1) * x ^ (2 * n + 2) : ℝ) : ℂ) := by
      rw [mul_pow, show 2 * n + 2 = 2 * (n + 1) by ring, pow_mul Complex.I, Complex.I_sq]
      push_cast
      ring
    rw [show 2 * (n + 1) + 1 = 2 * n + 1 + 1 + 1 by ring, Finset.sum_range_succ, Finset.sum_range_succ,
      Finset.sum_range_succ _ n, Complex.add_im, Complex.add_im, ih, hOdd, hEven, ← Complex.ofReal_natCast,
      ← Complex.ofReal_natCast, ← Complex.ofReal_div, Complex.ofReal_im, add_zero, mul_div_right_comm,
      ← Complex.ofReal_div, Complex.im_ofReal_mul, Complex.I_im, mul_one]

/-- The sine and its Taylor polynomial of n terms. -/
theorem sin_sub_taylor (x : ℝ) (n : Nat) (hx : |x| ≤ n + 1) :
    |Real.sin x - ∑ j ∈ Finset.range n, (-1) ^ j * x ^ (2 * j + 1) / (2 * j + 1).factorial| ≤
      |x| ^ (2 * n + 1) / (2 * n + 1).factorial * 2 := by
  have hNorm : ‖(x : ℂ) * Complex.I‖ = |x| := by simp
  have hBound := Complex.exp_bound' (x := (x : ℂ) * Complex.I) (n := 2 * n + 1) (by
    rw [hNorm]
    push_cast
    rw [div_le_iff₀ (by positivity)]
    linarith)
  rw [hNorm] at hBound
  rw [← im_expSeries, ← Complex.exp_ofReal_mul_I_im, ← Complex.sub_im]
  exact (Complex.abs_im_le_norm _).trans hBound

theorem taylor_eq_nested (x : ℝ) :
    ∑ j ∈ Finset.range 13, (-1) ^ j * x ^ (2 * j + 1) / (2 * j + 1).factorial =
      x * sineLevels.foldl (seriesLevel (x ^ 2)) 1 := by
  simp only [Finset.sum_range_succ, Finset.sum_range_zero, sineLevels, seriesLevel, List.foldl_cons,
    List.foldl_nil, Nat.factorial]
  push_cast
  ring

/-- For an angle of the first quarter the nested series of twelve levels is the sine to 2^-40. -/
theorem nested_close_sin {x : ℝ} (h0 : 0 ≤ x) (h1 : x ≤ 8 / 5) :
    |x * sineLevels.foldl (seriesLevel (x ^ 2)) 1 - Real.sin x| ≤ 1 / 2 ^ 40 := by
  rw [← taylor_eq_nested, abs_sub_comm]
  have hx : |x| ≤ 8 / 5 := by rwa [abs_of_nonneg h0]
  calc _ ≤ |x| ^ 27 / (27).factorial * 2 := sin_sub_taylor x 13 (by norm_num; linarith)
    _ ≤ (8 / 5) ^ 27 / (27).factorial * 2 := by gcongr
    _ ≤ 1 / 2 ^ 40 := by norm_num [Nat.factorial]

/-! ### The fixed point -/

/-- A rounded-down quotient as a number with 64 fraction bits is the real quotient to its last bit. -/
theorem quotient_close (a b : Nat) (hb : 0 < b) {a' b' : ℝ} (ha : (a : ℝ) = a') (hb' : (b : ℝ) = b') :
    |((a / b : Nat) : ℝ) / 2 ^ 64 - a' / b' / 2 ^ 64| ≤ 1 / 2 ^ 64 := by
  subst ha hb'
  have hLe : ((a / b : Nat) : ℝ) ≤ a / b := Nat.cast_div_le
  have hGt : (a : ℝ) / b < (a / b : Nat) + 1 := by
    rw [div_lt_iff₀ (by exact_mod_cast hb)]
    exact_mod_cast Nat.lt_mul_of_div_lt (Nat.lt_succ_self _) hb
  rw [← sub_div, abs_div, abs_of_pos (by positivity : (0 : ℝ) < 2 ^ 64)]
  gcongr
  rw [abs_le]
  constructor <;> linarith

/-- The error of a product from the errors of its factors. -/
theorem abs_mul_sub_mul_le {a b c d p q m n : ℝ} (hac : |a - c| ≤ p) (hbd : |b - d| ≤ q) (hb : |b| ≤ m) (hc : |c| ≤ n) :
    |a * b - c * d| ≤ p * m + n * q := by
  have e : a * b - c * d = (a - c) * b + c * (b - d) := by ring
  rw [e]
  refine (abs_add_le _ _).trans ?_
  rw [abs_mul, abs_mul]
  have := abs_nonneg (a - c)
  have := abs_nonneg c
  gcongr
  all_goals linarith

/-- A number with 64 fraction bits follows a real of the unit interval to 48 bits. -/
structure Follows (s : Nat) (t : ℝ) : Prop where
  whole : s ≤ 2 ^ 64
  nonneg : 0 ≤ t
  le_one : t ≤ 1
  close : |(s : ℝ) / 2 ^ 64 - t| ≤ 1 / 2 ^ 48

theorem Follows.abs_le_one {s : Nat} {t : ℝ} (h : Follows s t) : |(s : ℝ) / 2 ^ 64| ≤ 1 := by
  rw [abs_of_nonneg (by positivity), div_le_one (by positivity)]
  exact_mod_cast h.whole

/-- One level of the series: the fixed-point level follows the real one when what it starts from does. -/
theorem Follows.level {xx s k : Nat} {y t : ℝ} (h : Follows s t) (hk : 1 ≤ k) (hy0 : 0 ≤ y) (hy : y ≤ 5 / 2)
    (hxx : |(xx : ℝ) / 2 ^ 64 - y| ≤ 1 / 2 ^ 56) : Follows (sineLevel xx s k) (seriesLevel y t k) := by
  have hk' : (1 : ℝ) ≤ k := by exact_mod_cast hk
  obtain ⟨c, hc⟩ : ∃ c : Nat, c = 2 * k * (2 * k + 1) := ⟨_, rfl⟩
  have hc6 : (6 : ℝ) ≤ c := by
    rw [hc]
    push_cast
    nlinarith
  have hProduct : |(xx : ℝ) / 2 ^ 64 * (s / 2 ^ 64) - y * t| ≤ 1 / 2 ^ 56 * 1 + 5 / 2 * (1 / 2 ^ 48) :=
    abs_mul_sub_mul_le hxx h.close h.abs_le_one (by rwa [abs_of_nonneg hy0])
  have hc0 : (0 : ℝ) < c := by linarith
  obtain ⟨d, hd⟩ : ∃ d : Nat, d = xx * s / (2 ^ 64 * c) := ⟨_, rfl⟩
  have hTerm0 : 0 ≤ y * t / c := div_nonneg (mul_nonneg hy0 h.nonneg) hc0.le
  have hTerm1 : y * t / c ≤ 1 / 2 := by
    rw [div_le_iff₀ hc0]
    nlinarith [h.nonneg, h.le_one]
  have hClose : |(d : ℝ) / 2 ^ 64 - y * t / c| ≤ 1 / 2 ^ 48 := by
    have hFloor : |(d : ℝ) / 2 ^ 64 - (xx : ℝ) / 2 ^ 64 * (s / 2 ^ 64) / c| ≤ 1 / 2 ^ 64 := by
      have hc0' : 0 < c := by exact_mod_cast hc0
      have hQuotient := quotient_close (xx * s) (2 ^ 64 * c) (by positivity) (Nat.cast_mul xx s)
        (b' := 2 ^ 64 * c) (by norm_num)
      rw [← hd] at hQuotient
      convert hQuotient using 2
      field_simp
    have hScaled : |(xx : ℝ) / 2 ^ 64 * (s / 2 ^ 64) / c - y * t / c| ≤
        (1 / 2 ^ 56 * 1 + 5 / 2 * (1 / 2 ^ 48)) / 6 := by
      rw [← sub_div, abs_div, abs_of_pos hc0]
      gcongr
    exact (abs_sub_le _ _ _).trans ((add_le_add hFloor hScaled).trans (by norm_num))
  have hdLe : d ≤ 2 ^ 64 := by
    have hUnit : (d : ℝ) / 2 ^ 64 ≤ 1 := by linarith [(abs_le.mp hClose).2]
    rw [div_le_one (by positivity)] at hUnit
    exact_mod_cast hUnit
  have hFixed : sineLevel xx s k = 2 ^ 64 - d := by rw [hd, hc]; rfl
  have hReal : seriesLevel y t k = 1 - y * t / c := by rw [hc]; push_cast; rfl
  rw [hFixed, hReal]
  refine ⟨Nat.sub_le _ _, by linarith, by linarith, ?_⟩
  rw [Nat.cast_sub hdLe, abs_sub_comm]
  convert hClose using 2
  push_cast
  ring

/-- The fixed-point series follows the real one. -/
theorem Follows.series {xx : Nat} {y : ℝ} (hy0 : 0 ≤ y) (hy : y ≤ 5 / 2) (hxx : |(xx : ℝ) / 2 ^ 64 - y| ≤ 1 / 2 ^ 56)
    (levels : List Nat) (hl : ∀ k ∈ levels, 1 ≤ k) {s : Nat} {t : ℝ} (h : Follows s t) :
    Follows (levels.foldl (sineLevel xx) s) (levels.foldl (seriesLevel y) t) := by
  induction levels generalizing s t with
  | nil => exact h
  | cons k rest ih =>
    rw [List.forall_mem_cons] at hl
    exact ih hl.2 (h.level hl.1 hy0 hy hxx)

/-- The angle of a heading in fixed point. -/
theorem angle_close {h : Nat} (hh : h ≤ 9000) :
    |((h * piFixed / 18000 : Nat) : ℝ) / 2 ^ 64 - h * Real.pi / 18000| ≤ 1 / 2 ^ 60 := by
  have hFloor := quotient_close (h * piFixed) 18000 (by decide) (Nat.cast_mul h piFixed) (b' := 18000) (by norm_num)
  have hPi : |(piFixed : ℝ) / 2 ^ 64 - Real.pi| ≤ 1 / 2 ^ 63 := by
    have := Real.pi_gt_d20
    have := Real.pi_lt_d20
    rw [abs_le, show piFixed = 57952155664616982739 from rfl]
    constructor <;> norm_num at * <;> linarith
  have hh' : (h : ℝ) ≤ 9000 := by exact_mod_cast hh
  have hScaled : |(h : ℝ) * piFixed / 18000 / 2 ^ 64 - h * Real.pi / 18000| ≤ 1 / 2 * (1 / 2 ^ 63) := by
    have e : (h : ℝ) * piFixed / 18000 / 2 ^ 64 - h * Real.pi / 18000 =
        h / 18000 * (piFixed / 2 ^ 64 - Real.pi) := by ring
    rw [e, abs_mul, abs_of_nonneg (by positivity : (0 : ℝ) ≤ h / 18000)]
    exact mul_le_mul (by linarith) hPi (abs_nonneg _) (by norm_num)
  exact (abs_sub_le _ _ _).trans ((add_le_add hFloor hScaled).trans (by norm_num))

/-- The square of an angle in fixed point. -/
theorem square_close {x : Nat} {θ : ℝ} (hAngle : |(x : ℝ) / 2 ^ 64 - θ| ≤ 1 / 2 ^ 60) (hx : |(x : ℝ) / 2 ^ 64| ≤ 8 / 5)
    (hθ : |θ| ≤ 8 / 5) : |((x * x / 2 ^ 64 : Nat) : ℝ) / 2 ^ 64 - θ ^ 2| ≤ 1 / 2 ^ 56 := by
  have hFloor := quotient_close (x * x) (2 ^ 64) (by decide) (Nat.cast_mul x x) (b' := 2 ^ 64) (by norm_num)
  have hProduct := abs_mul_sub_mul_le hAngle hAngle hx hθ
  rw [show (x : ℝ) * x / 2 ^ 64 / 2 ^ 64 = x / 2 ^ 64 * (x / 2 ^ 64) by ring] at hFloor
  rw [sq]
  exact (abs_sub_le _ _ _).trans ((add_le_add hFloor hProduct).trans (by norm_num))

/-- The unrounded sine of a heading of the first quarter is the sine to 34 bits after the point. -/
theorem fixedSine_close {h : Nat} (hh : h ≤ 9000) :
    |(fixedSine h : ℝ) / 2 ^ 64 - Real.sin (h * Real.pi / 18000)| ≤ 1 / 2 ^ 34 := by
  obtain ⟨θ, hθ⟩ : ∃ θ : ℝ, θ = h * Real.pi / 18000 := ⟨_, rfl⟩
  obtain ⟨x, hx⟩ : ∃ x : Nat, x = h * piFixed / 18000 := ⟨_, rfl⟩
  obtain ⟨xx, hxx⟩ : ∃ xx : Nat, xx = x * x / 2 ^ 64 := ⟨_, rfl⟩
  have hAngle : |(x : ℝ) / 2 ^ 64 - θ| ≤ 1 / 2 ^ 60 := by rw [hx, hθ]; exact angle_close hh
  have hθ0 : 0 ≤ θ := by rw [hθ]; positivity
  have hθ1 : θ ≤ 79 / 50 := by
    have hh' : (h : ℝ) ≤ 9000 := by exact_mod_cast hh
    have := Real.pi_lt_d2
    have := Real.pi_pos
    rw [hθ]
    nlinarith
  have hx1 : |(x : ℝ) / 2 ^ 64| ≤ 8 / 5 := by
    rw [abs_of_nonneg (by positivity)]
    have := (abs_le.mp hAngle).2
    norm_num at *
    linarith
  have hSquare : |(xx : ℝ) / 2 ^ 64 - θ ^ 2| ≤ 1 / 2 ^ 56 := by
    rw [hxx]
    exact square_close hAngle hx1 (by rw [abs_of_nonneg hθ0]; linarith)
  have hStart : Follows (2 ^ 64) 1 := ⟨le_rfl, zero_le_one, le_rfl, by norm_num⟩
  have hSeries := Follows.series (sq_nonneg θ) (by nlinarith) hSquare sineLevels
    (by decide) hStart
  have hSine := nested_close_sin hθ0 (by linarith)
  have hFixed : fixedSine h = x * sineLevels.foldl (sineLevel xx) (2 ^ 64) / 2 ^ 64 := by
    rw [hxx, hx]
    rfl
  rw [hFixed, ← hθ]
  generalize sineLevels.foldl (sineLevel xx) (2 ^ 64) = s at *
  generalize sineLevels.foldl (seriesLevel (θ ^ 2)) 1 = t at *
  have hProduct : |(x : ℝ) / 2 ^ 64 * (s / 2 ^ 64) - θ * t| ≤ 1 / 2 ^ 60 * 1 + 8 / 5 * (1 / 2 ^ 48) :=
    abs_mul_sub_mul_le hAngle hSeries.close hSeries.abs_le_one (by rw [abs_of_nonneg hθ0]; linarith)
  have hFloor := quotient_close (x * s) (2 ^ 64) (by decide) (Nat.cast_mul x s) (b' := 2 ^ 64) (by norm_num)
  rw [show (x : ℝ) * s / 2 ^ 64 / 2 ^ 64 = x / 2 ^ 64 * (s / 2 ^ 64) by ring] at hFloor
  have hSeriesClose := (abs_sub_le _ _ _).trans (add_le_add hFloor hProduct)
  exact (abs_sub_le _ _ _).trans ((add_le_add hSeriesClose hSine).trans (by norm_num))

/-- A sine clear of the midpoints rounds as the fixed-point one does. -/
theorem quarterSine_rounds {h : Nat} (hh : h ≤ 9000) :
    |(quarterSine h : ℝ) - 65536 * Real.sin (h * Real.pi / 18000)| < 1 / 2 := by
  have hClear := (clearBelow_iff 9001).mp clearBelow_quarter h (by omega)
  have hClose := abs_le.mp (fixedSine_close hh)
  rw [quarterSine_eq]
  unfold clearOfMidpoint at hClear
  generalize fixedSine h = f at *
  simp only [Bool.and_eq_true, Nat.blt_eq] at hClear
  obtain ⟨q, hq⟩ : ∃ q : Nat, q = (f + 2 ^ 47) / 2 ^ 48 := ⟨_, rfl⟩
  obtain ⟨r, hr⟩ : ∃ r : Nat, r = (f + 2 ^ 47) % 2 ^ 48 := ⟨_, rfl⟩
  rw [← hr] at hClear
  rw [← hq]
  have hSplit : f + 140737488355328 = 281474976710656 * q + r := by omega
  have hSplit' : (f : ℝ) + 140737488355328 = 281474976710656 * q + r := by exact_mod_cast hSplit
  have hLow : (1073741824 : ℝ) < r := by exact_mod_cast hClear.1
  have hHigh : (r : ℝ) < 281473902968832 := by exact_mod_cast hClear.2
  rw [abs_lt]
  constructor <;> linarith

/-! ### Every heading -/

/-- S(h) is the rounded sine: each quarter of the circle reads the first one. -/
theorem sine_rounds {h : Nat} (hh : h < 36000) : |(sine h : ℝ) - 65536 * Real.sin (h * Real.pi / 18000)| < 1 / 2 := by
  unfold sine
  split
  · exact quarterSine_rounds (by assumption)
  split
  · have hq := quarterSine_rounds (h := 18000 - h) (by omega)
    rw [Nat.cast_sub (by assumption), show ((18000 : Nat) - h : ℝ) * Real.pi / 18000 = Real.pi - h * Real.pi / 18000 by
      push_cast; ring, Real.sin_pi_sub] at hq
    exact hq
  split
  · have hq := quarterSine_rounds (h := h - 18000) (by omega)
    rw [Nat.cast_sub (by omega), show ((h : ℝ) - (18000 : Nat)) * Real.pi / 18000 = h * Real.pi / 18000 - Real.pi by
      push_cast; ring, Real.sin_sub_pi] at hq
    rw [← abs_neg]
    push_cast
    convert hq using 2
    ring
  · have hq := quarterSine_rounds (h := 36000 - h) (by omega)
    rw [Nat.cast_sub (by omega), show ((36000 : Nat) - h : ℝ) * Real.pi / 18000 = 2 * Real.pi - h * Real.pi / 18000 by
      push_cast; ring, Real.sin_two_pi_sub] at hq
    rw [← abs_neg]
    push_cast
    convert hq using 2
    ring

/-- C(h) is the rounded cosine: it reads the sine a quarter of the circle on. -/
theorem cosine_rounds {h : Nat} (hh : h < 36000) :
    |(cosine h : ℝ) - 65536 * Real.cos (h * Real.pi / 18000)| < 1 / 2 := by
  have hs := sine_rounds (h := (h + 9000) % 36000) (Nat.mod_lt _ (by decide))
  have hAngle : Real.sin (((h + 9000) % 36000 : Nat) * Real.pi / 18000) = Real.cos (h * Real.pi / 18000) := by
    rw [← Real.sin_add_pi_div_two]
    by_cases hTurn : h + 9000 < 36000
    · rw [Nat.mod_eq_of_lt hTurn]
      push_cast
      congr 1
      ring
    · rw [show (h + 9000) % 36000 = h + 9000 - 36000 by omega, Nat.cast_sub (by omega),
        ← Real.sin_sub_two_pi (h * Real.pi / 18000 + Real.pi / 2)]
      push_cast
      congr 1
      ring
  rw [hAngle] at hs
  exact hs

/-- A rounded multiple of a number of at most one lies within the multiplier. -/
theorem rounded_bounds {z : Int} {r : ℝ} (hz : |(z : ℝ) - 65536 * r| < 1 / 2) (hr : -1 ≤ r ∧ r ≤ 1) :
    -65536 ≤ z ∧ z ≤ 65536 := by
  rw [abs_lt] at hz
  have hLow : (-65537 : ℝ) < z := by linarith
  have hHigh : (z : ℝ) < 65537 := by linarith
  have hLow' : -65537 < z := by exact_mod_cast hLow
  have hHigh' : z < 65537 := by exact_mod_cast hHigh
  omega

/-- Settles O6: the fixed-point series is close to the sine, and no value of the table is near a tie. -/
theorem sineAndCosine : Obligations.SineAndCosine := by
  intro h hh
  have hs := sine_rounds hh
  have hc := cosine_rounds hh
  obtain ⟨hsLow, hsHigh⟩ := rounded_bounds hs ⟨Real.neg_one_le_sin _, Real.sin_le_one _⟩
  obtain ⟨hcLow, hcHigh⟩ := rounded_bounds hc ⟨Real.neg_one_le_cos _, Real.cos_le_one _⟩
  exact ⟨hs, hc, hsLow, hsHigh, hcLow, hcHigh⟩

end Sys2Proof.Machine

namespace Sys2Proof.Machine

/-! ## Records and notices (12.3 to 12.5) -/

theorem identData_length (s : State) : (identData s).length = 14 := rfl

theorem statusData_length (s : State) : (statusData s).length = 154 := by
  unfold statusData
  simp only [List.length_append, jobBytes_length, storeBytes_length, interpBytes_length, govBytes_length,
    strokeBytes_length, loadBytes_length, axisBytes_length, traverseBytes_length, guardBytes_length, linkBytes_length]

/-- R40, 12.4: 3 bytes for an EMPTY slot, 78 with a record. -/
theorem slotData_length (s : State) (i : Nat) : (slotData s i).length = if s.store.slot i = none then 3 else 78 := by
  unfold slotData
  cases s.store.slot i with
  | none => rfl
  | some sl =>
    simp only [List.length_append, u8_length, flag8_length, recordBytes_length]
    rfl

/-- 12.1, 12.5: the kind code of a notice and its fields in their order. -/
theorem notice_record (n : Notice) : (n.kind, n.data) =
    match n with
    | .tag tag number pass => (0x81, u8 tag ++ u16 number ++ u8 pass)
    | .pass done => (0x82, u8 done)
    | .done executed passes => (0x83, u32 executed ++ u8 passes)
    | .stopped category entered latch => (0x84, u8 category.code ++ u8 entered.code ++ u16 latch.toNat)
    | .held segment p =>
      (0x85, flag8 segment.isSome ++ u16 ((segment.map Prod.fst).getD 0) ++ u16 ((segment.map Prod.snd).getD 0) ++ u32 p)
    | .low ahead => (0x86, u32 ahead)
    | .starved last passes => (0x87, flag8 last.isSome ++ u16 (last.getD 0) ++ u8 passes)
    | .edge input active => (0x88, u8 (inputIndex input).val ++ flag8 active)
    | .band now before average => (0x89, u8 now ++ u8 before ++ u16 average)
    | .homed w x y c =>
      (0x8A, u8 (bits [w.x, w.y, w.c]) ++ u8 x.1.code ++ i32 x.2 ++ u8 y.1.code ++ i32 y.2 ++ u8 c.1.code ++ i32 c.2)
    | .moved x y c => (0x8B, i32 x ++ i32 y ++ u16 c) := by
  cases n with
  | held segment p => cases segment <;> rfl
  | starved last passes => cases last <;> rfl
  | _ => rfl

/-- 12.5: the size of a notice's data. -/
theorem noticeData_length (n : Notice) : n.data.length =
    match n with
    | .tag _ _ _ => 4
    | .pass _ => 1
    | .done _ _ => 5
    | .stopped _ _ _ => 4
    | .held _ _ => 9
    | .low _ => 4
    | .starved _ _ => 4
    | .edge _ _ => 2
    | .band _ _ _ => 4
    | .homed _ _ _ _ => 16
    | .moved _ _ _ => 10 := by
  cases n with
  | held segment p => cases segment <;> rfl
  | starved last passes => cases last <;> rfl
  | _ => rfl

/-- R173: a body is read as the one record whose body it is. -/
theorem parseSegment_iff (body : List Byte) (raw : RawSegment) :
    parseSegment body = some raw ↔ raw.plain ∧ raw.body = body :=
  ⟨body_of_parse body raw, fun ⟨hPlain, hBody⟩ => hBody ▸ parse_of_body raw hPlain⟩

/-- Settles O19, clause by clause, from the sizes of the groups and the reading of a body. -/
theorem recordSizes : Obligations.RecordSizes :=
  ⟨fun s => ⟨identData_length s, statusData_length s, slotData_length s⟩, fun _ _ => rfl, noticeData_length, notice_record,
    rfl, rfl, fields_eq, bits_testBit, rfl, rfl, rfl, rfl, rfl, rfl, rfl, rfl, rfl, rfl, rfl, rfl, rfl, rfl, rfl,
    parseSegment_iff⟩

end Sys2Proof.Machine

namespace Sys2Proof.Machine

/-! ## A replan is the replan of the rules (R43 to R53) -/

theorem copyDerates_params (s : State) : (copyDerates s).params = s.params := by
  unfold copyDerates
  split <;> rfl

/-- R43: the derates a replan plans with. -/
theorem copyDerates_planner (s : State) :
    (copyDerates s).planner =
      { s.planner with
        p0 := if s.job.state = .idle then s.params.d0 else s.planner.p0
        p1 := if s.job.state = .idle then s.params.d1 else s.planner.p1
        p2 := if s.job.state = .idle then s.params.d2 else s.planner.p2
        p3 := if s.job.state = .idle then s.params.d3 else s.planner.p3 } := by
  unfold copyDerates
  by_cases h : s.job.state = .idle
  · simp only [if_pos h]
    rfl
  · simp only [if_neg h]

/-- The speeds a replan plans for the span. -/
def planSpeeds (completed : Option Segment) (s : State) : List Speeds :=
  backwardPass s.params.accel (spanLegs completed (copyDerates s))

theorem planSpeeds_eq (completed : Option Segment) (s : State) :
    planSpeeds completed s = backwardPass (copyDerates s).params.accel (spanLegs completed (copyDerates s)) := by
  rw [copyDerates_params]
  rfl

/-- The planned speeds of the k-th segment of the span. -/
def speedsAt (completed : Option Segment) (s : State) (k : Nat) : Speeds :=
  (planSpeeds completed s)[k]?.getD ⟨0, 0⟩

theorem speedsAt_of_get {completed : Option Segment} {s : State} {k : Nat} {sp : Speeds}
    (h : (planSpeeds completed s)[k]? = some sp) : speedsAt completed s k = sp := by
  unfold speedsAt
  rw [h]
  rfl

/-- R41, R44, R58: the segment held before the k-th of the span, which stands in slot `i`. -/
def heldAt (completed : Option Segment) (s : State) (k i : Nat) : Option Segment :=
  if k = 0 then
    match s.store.mode with
    | .stream => completed
    | .repeating => if i = s.store.winBegin then none else (s.store.slot (i - 1)).map Slot.seg
  else (s.store.span[k - 1]?).map fun e => e.2.seg

/-- With the window in its form, the span begins in the first slot it lists. -/
theorem spanStart_of_head {st : Store} {e : Nat × Slot} (he : st.span.head? = some e) : st.spanStart = e.1 := by
  rw [show st.span.head? = _ from runFrom_head st 63 st.spanStart] at he
  obtain ⟨sl, -, rfl⟩ := Option.map_eq_some_iff.mp he
  rfl

/-- R44: the leg of each segment of the span is that after the segment held before it. -/
theorem spanLegs_get (completed : Option Segment) {s : State} {active : Option Nat} (h : s.store.windowOk active)
    {k i : Nat} {sl : Slot} (hk : s.store.span[k]? = some (i, sl)) :
    (spanLegs completed (copyDerates s))[k]? =
      some (legOf s.params (copyDerates s).planner (heldAt completed s k i) sl.seg) := by
  have hSeg : (s.store.span.map fun e => e.2.seg)[k]? = some sl.seg := by rw [List.getElem?_map, hk]; rfl
  unfold spanLegs
  rw [copyDerates_store, copyDerates_params, legsOf_get hSeg]
  congr 2
  unfold heldAt
  by_cases h0 : k = 0
  · subst h0
    have hStart := spanStart_of_head (List.head?_eq_getElem? ▸ hk)
    have hBegin := h.execPtr.1
    rw [← spanStart_of_windowOk h, hStart] at hBegin
    rw [if_pos rfl, if_pos rfl]
    unfold Store.heldBefore
    rw [hStart]
    have hAt : i ≤ s.store.winBegin ↔ i = s.store.winBegin := by dsimp only at hBegin; omega
    cases s.store.mode with
    | stream => rfl
    | repeating => simp only [hAt]
  · rw [if_neg h0, if_neg h0, List.getElem?_map]

/-- R50: the k-th slot of the span has the planned speeds of its own leg. -/
theorem planSpeeds_get {completed : Option Segment} {s : State} {k : Nat} {leg : Leg}
    (hk : (spanLegs completed (copyDerates s))[k]? = some leg) :
    (planSpeeds completed s)[k]? = some (speedsAt completed s k) ∧
      (speedsAt completed s k).entry =
        min leg.corner (min leg.feed (isqrt ((speedsAt completed s k).exit * (speedsAt completed s k).exit +
          2000 * s.params.accel * leg.length))) ∧
      ((spanLegs completed (copyDerates s))[k + 1]? = none → (speedsAt completed s k).exit = 0) ∧
      ∀ next, (spanLegs completed (copyDerates s))[k + 1]? = some next →
        (speedsAt completed s k).exit =
          if leg.restsAfter || next.junction.rests then 0 else (speedsAt completed s (k + 1)).entry := by
  obtain ⟨out, hGet, hLast, hNext⟩ := backwardPass_get (a := s.params.accel) hk
  have hAt := speedsAt_of_get hGet
  refine ⟨?_, ?_, fun hn => ?_, fun next hn => ?_⟩
  · rw [hAt]
    exact hGet
  · rw [hAt]
  · rw [hAt]
    exact hLast hn
  · obtain ⟨out', hGet', -, -⟩ := backwardPass_get (a := s.params.accel) hn
    rw [hAt, speedsAt_of_get hGet']
    exact hNext next _ hn hGet'

/-- R51: what the replan writes into a slot of the span. -/
theorem plannedSlot_eq (sl : Slot) (leg : Leg) (sp : Speeds) :
    plannedSlot sl leg sp =
      if sl.state = .active then { sl with seg := { sl.seg with exitSpeed := sp.exit } }
      else
        { state := .planned
          seg := { sl.seg with junction := some leg.junction, entrySpeed := sp.entry, exitSpeed := sp.exit } } := by
  unfold plannedSlot
  cases sl.state <;> rfl

/-- R53: the slots a replan leaves of the span. -/
theorem replan_slot_span (completed : Option Segment) {s : State} {active : Option Nat} (h : s.store.windowOk active)
    {k i : Nat} {sl : Slot} (hk : s.store.span[k]? = some (i, sl)) {leg : Leg}
    (hLeg : (spanLegs completed (copyDerates s))[k]? = some leg) :
    (replan completed s).store.slot i = some (plannedSlot sl leg (speedsAt completed s k)) := by
  have hWrite := plannedSlots_get hk hLeg (planSpeeds_get hLeg).1
  unfold Store.slot
  rw [replan_slots, ← planSpeeds_eq]
  refine slotAt_slotsPut_mem hWrite fun j f hj hf => ?_
  obtain ⟨e, he, hef⟩ := plannedSlots_key hj
  unfold Store.span at he hk
  rw [spanStart_of_windowOk h] at he hk
  exact runFrom_inj h he hk (hef.trans hf)

/-- R53: a replan leaves the slots outside the span. -/
theorem replan_slot_outside (completed : Option Segment) (s : State) {i : Nat} (hi : ∀ e ∈ s.store.span, e.1 ≠ i) :
    (replan completed s).store.slot i = s.store.slot i := by
  unfold Store.slot
  rw [replan_slots]
  refine slotAt_slotsPut_not _ _ fun f hf => ?_
  obtain ⟨j, hj⟩ := List.mem_iff_getElem?.mp hf
  obtain ⟨e, he, hef⟩ := plannedSlots_key hj
  exact hef ▸ hi e (List.mem_of_getElem? he)

/-- R49: a leg exits at rest by its own segment or by the class of the one after it. -/
theorem leg_rests_iff (prm : Params) (pl : Planner) (pred : Option Segment) (seg next : Segment) :
    ((legOf prm pl pred seg).restsAfter || (legOf prm pl (some seg) next).junction.rests) = true ↔
      seg.last = true ∨ seg.kind = .pause ∨
        next.classAfter prm.blendAngle (some seg) ∈ [JunctionClass.start, .pivot, .stop] := by
  have hPause : (!seg.kind.moving) = true ↔ seg.kind = .pause := by cases seg.kind <;> decide
  show ((seg.last || !seg.kind.moving) || (classify prm.blendAngle (some seg) next).rests) = true ↔ _
  rw [Bool.or_eq_true, Bool.or_eq_true, hPause, rests_iff, classify_eq, or_assoc]

/-- R43 to R53: with the window in its form, a replan makes of a state what the rules say. -/
theorem replan_replanned (completed : Option Segment) {s : State} {active : Option Nat} (h : s.store.windowOk active) :
    s.replanned completed (replan completed s) := by
  have hPlanner : (replan completed s).planner =
      { (copyDerates s).planner with
        spanFirst := s.store.spanStart
        spanCount := s.store.span.length
        frontier := match s.store.span.getLast? with | some e => e.1 | none => 0 } := by
    rw [← copyDerates_store s]
    rfl
  refine ⟨replan_keeps completed s, replan_store completed s, s.store.span, fun k => (speedsAt completed s k).entry,
    fun k => (speedsAt completed s k).exit, span_spans s.store, ?_, fun e he => ?_, fun e he => ?_,
    fun i hi => replan_slot_outside completed s hi, fun k i sl hk => ?_⟩
  · rw [hPlanner, copyDerates_planner]
  · rw [hPlanner]
    exact spanStart_of_head he
  · rw [hPlanner]
    dsimp only
    rw [he]
  · have hLeg := spanLegs_get completed h hk
    obtain ⟨-, hEntry, hLast, hNext⟩ := planSpeeds_get hLeg
    have hLegAfter : ∀ e, s.store.span[k + 1]? = some e → (spanLegs completed (copyDerates s))[k + 1]? =
        some (legOf s.params (copyDerates s).planner (some sl.seg) e.2.seg) := fun e he => by
      rw [spanLegs_get completed h (i := e.1) (sl := e.2) he]
      unfold heldAt
      rw [if_neg (Nat.succ_ne_zero k), Nat.add_sub_cancel, hk]
      rfl
    refine ⟨fun hn => hLast ?_, fun e he => ?_, ⟨_, isqrt_spec _, ?_⟩, ?_⟩
    · unfold spanLegs
      rw [copyDerates_store, List.getElem?_eq_none_iff, legsOf_length, List.length_map]
      exact List.getElem?_eq_none_iff.mp hn
    · have hExit := hNext _ (hLegAfter e he)
      have hRests := leg_rests_iff s.params (copyDerates s).planner (heldAt completed s k i) sl.seg e.2.seg
      refine ⟨fun hr => ?_, fun hr => ?_⟩
      · rw [if_pos (hRests.mpr hr)] at hExit
        exact hExit
      · rw [if_neg fun hc => hr (hRests.mp hc)] at hExit
        exact hExit
    · rw [hPlanner]
      dsimp only
      rw [hEntry, cornerAfter_eq]
      congr 1
      congr 1
      exact effectiveFeed_eq _ _
    · have hClass : (legOf s.params (copyDerates s).planner (heldAt completed s k i) sl.seg).junction =
          sl.seg.classAfter s.params.blendAngle (heldAt completed s k i) := classify_eq _ _ _
      rw [replan_slot_span completed h hk hLeg, plannedSlot_eq, hClass]
      rfl

end Sys2Proof.Machine

namespace Sys2Proof.Machine

/-! ## An APPEND taken (R26) -/

/-- R165: the state the taking of an APPEND leaves: what the Store's part of it does, and its entry, marked. -/
theorem exec_append_ready {body : List Byte} {s : State} (hr : s.ready) (hw : (Instr.append body).wellFormed = true) :
    let taken := takeAppend body (s.arrived (.append body))
    exec (.append body) s =
      .next (taken.1.mapLink fun l => { l with requests := s.link.requests ++ entryOf (.append body) taken.2 }) := by
  have hBounds : 5 ≤ body.length ∧ body.length ≤ 33 := by
    simpa [Instr.wellFormed] using hw
  have hJudged : judgeRequest 0x05 body = .request (.append body) := if_pos hBounds
  rw [exec_append, takeRequest_ready (kind := 0x05) rfl hJudged hr (block_queue (i := .append body) rfl _).1
    (block_mark (i := .append body) rfl _)]

/-- R165: an APPEND answered without an effect leaves its answered entry and nothing else. -/
theorem exec_append_answer {body : List Byte} {s : State} {r : Reply} (hr : s.ready)
    (hw : (Instr.append body).wellFormed = true)
    (ht : takeAppend body (s.arrived (.append body)) = (s.arrived (.append body), .ready r)) :
    exec (.append body) s = .next (s.withEntry (.append body) (.ready r)) := by
  rw [exec_append_ready hr hw, ht]
  rfl

/-- R26: the frame of an arriving request does not bear on whether an APPEND is admitted or what its checks decide. -/
theorem append_arrived (body : List Byte) (i : Instr) (s : State) :
    appendRefusal (s.arrived i) = appendRefusal s ∧ judgeArrival (s.arrived i) body = judgeArrival s body :=
  ⟨rfl, rfl⟩

/-! ### Refusals -/

/-- R26: an APPEND that is not admitted is answered with its refusal. -/
theorem exec_append_notAdmitted {body : List Byte} {s : State} {code : ResultCode} (hr : s.ready)
    (hw : (Instr.append body).wellFormed = true) (h : appendRefusal s = some code) :
    exec (.append body) s = .next (s.withEntry (.append body) (.ready ⟨code, []⟩)) := by
  refine exec_append_answer hr hw ?_
  unfold takeAppend
  rw [(append_arrived body _ s).1, h]
  rfl

/-- R8, R18: what the taking of an admitted APPEND does, by what the arrival checks decide. -/
theorem takeAppend_admitted {body : List Byte} {s : State} (i : Instr) (h : appendRefusal s = none) :
    takeAppend body (s.arrived i) =
      match judgeArrival s body with
      | .badField => answer .badField (s.arrived i)
      | .outOfTravel => answer .outOfTravel (s.arrived i)
      | .rejected cls hold => (rejectRecord hold (s.arrived i), .ready ⟨.rejected, u8 cls.code ++ flag8 hold⟩)
      | .accepted seg code =>
        (starvedAcceptance (acceptRecord seg (s.arrived i)),
          .ready ⟨code, u16 s.store.nextNumber ++ u16 s.store.writePtr⟩) := by
  unfold takeAppend
  rw [(append_arrived body i s).1, (append_arrived body i s).2, h]
  rfl

/-- R26: an APPEND is admitted by the job state in IDLE, and in a running job in STREAM mode. -/
theorem appendByState_none {s : State} (hs : s.job.state = .idle ∨ s.store.mode = .stream)
    (hj : s.job.state = .idle ∨ s.job.state.holdable = true ∨ s.job.state = .holding) : appendByState s = none := by
  unfold appendByState
  rcases hj with hj | hj | hj
  · rw [hj]
  · rcases hs with hs | hs
    · rw [hs]
    · revert hj
      cases s.job.state <;> simp [hs, JobState.holdable]
  · have hs : s.store.mode = .stream := by simpa [hj] using hs
    rw [hj]
    exact if_pos hs

/-- R26: a running job in REPEAT mode takes no APPEND. -/
theorem appendByState_repeating {s : State} (hj : s.job.state.holdable = true ∨ s.job.state = .holding)
    (hm : s.store.mode = .repeating) : appendByState s = some .wrongMode := by
  unfold appendByState
  rcases hj with hj | hj
  · revert hj
    cases s.job.state <;> simp [hm, JobState.holdable]
  · rw [hj, hm]
    rfl

theorem appendRefusal_byState {s : State} {code : ResultCode} (h : appendByState s = some code) :
    appendRefusal s = some code := by
  unfold appendRefusal
  rw [h]

/-- R26: admitted by the state, an APPEND is refused for a closed chain of a STREAM window, then for a full window. -/
theorem appendRefusal_byStore {s : State} (h : appendByState s = none) :
    (s.store.mode = .stream → s.store.chainClosed = true → appendRefusal s = some .chainClosed) ∧
    ((s.store.mode = .stream → s.store.chainClosed = false) →
      appendRefusal s = if s.store.free = 0 then some .full else none) := by
  unfold appendRefusal
  rw [h]
  refine ⟨fun hm hc => ?_, fun ho => ?_⟩
  · simp [firstRefusal, hm, hc]
  · have hOpen : (decide (s.store.mode = .stream) && s.store.chainClosed) = false := by
      by_cases hm : s.store.mode = .stream
      · simp [ho hm]
      · simp [hm]
    simp [firstRefusal, hOpen]

/-! ### A geometry class refused -/

/-- R18: the state a refusal by a geometry class leaves. -/
theorem exec_append_rejected {body : List Byte} {s : State} {cls : GeometryClass} {hold : Bool} (hr : s.ready)
    (hw : (Instr.append body).wellFormed = true) (ha : appendRefusal s = none)
    (hj : judgeArrival s body = .rejected cls hold) :
    exec (.append body) s =
      .next ((rejectRecord hold (s.arrived (.append body))).mapLink fun l =>
        { l with
          requests := s.link.requests ++
            entryOf (.append body) (.ready ⟨.rejected, [BitVec.ofNat 8 cls.code, if hold then 1 else 0]⟩) }) := by
  rw [exec_append_ready hr hw, takeAppend_admitted _ ha, hj]
  cases hold <;> rfl

/-- R151: a hold request of a job that cuts or warms up. -/
theorem holdRequest_moving {s : State} (h : s.job.state = .warmup ∨ s.job.state = .cutting) :
    holdRequest s = s.mapJob fun j => { j with state := .holding, held := false } := by
  unfold holdRequest
  rcases h with h | h <;> rw [h]

theorem holdRequest_starved {s : State} (h : s.job.state = .starved) :
    holdRequest s = setHeld (s.mapJob fun j => { j with state := .holding, dwell := none }) := by
  unfold holdRequest
  rw [h]

/-- R151: a job that takes no hold is left as it is. -/
theorem holdRequest_other {s : State} (h : s.job.state.holdable = false) : holdRequest s = s := by
  unfold holdRequest
  revert h
  cases s.job.state <;> simp [JobState.holdable]

/-- What a geometry class refused under HALT leaves: the hold requested of the job, and the entry of the APPEND. -/
def State.heldBy (i : Instr) (m : Mark) (s : State) : State :=
  (holdRequest (s.arrived i)).mapLink fun l => { l with requests := s.link.requests ++ entryOf i m }

theorem heldBy_keeps (i : Instr) (m : Mark) (s : State) : Keeps [.job, .stroke, .load, .link] s (s.heldBy i m) :=
  (mapLink_keeps _ _).after ((holdRequest_keeps _).after (mapLink_keeps _ s).mono)

theorem heldBy_moving {s : State} (i : Instr) (m : Mark) (h : s.job.state = .warmup ∨ s.job.state = .cutting) :
    Keeps [.job, .link] s (s.heldBy i m) ∧ (s.heldBy i m).job = { s.job with state := .holding, held := false } := by
  unfold State.heldBy
  rw [holdRequest_moving (s := s.arrived i) h]
  exact ⟨(mapLink_keeps _ _).after ((mapJob_keeps _ _).after (mapLink_keeps _ s).mono), rfl⟩

theorem heldBy_starved {s : State} (i : Instr) (m : Mark) (h : s.job.state = .starved) :
    (s.heldBy i m).job = { s.job with state := .holding, held := true, dwell := none } ∧
    (s.heldBy i m).stroke = s.stroke.toIdle s.params.startDuty ∧
    (s.link.notices.length < 16 →
      (s.heldBy i m).link.notices = s.link.notices ++ [.held (activeNumber s) s.interp.p]) := by
  unfold State.heldBy
  rw [holdRequest_starved (s := s.arrived i) h]
  obtain ⟨hJob, hStroke, hLink, -⟩ :=
    setHeld_eq ((s.arrived i).mapJob fun j => { j with state := .holding, dwell := none })
  refine ⟨hJob, hStroke, fun hRoom => ?_⟩
  rw [mapLink_link, hLink, (queueNotice_link _ _).2.2]
  exact if_pos hRoom

theorem heldBy_other {s : State} (i : Instr) (m : Mark) (h : s.job.state.holdable = false) :
    Keeps [.link] s (s.heldBy i m) ∧ (s.heldBy i m).link.notices = s.link.notices := by
  unfold State.heldBy
  rw [holdRequest_other (s := s.arrived i) h]
  exact ⟨(mapLink_keeps _ _).after (mapLink_keeps _ s), rfl⟩

/-! ### What refuses -/

/-- R13, R19: the length of a LINE refuses it, or is corrected or in order and leaves the rest of the checks. -/
theorem judgeLine_length {prm : Params} {tail : Option Nat} {code : ResultCode} {draft : Segment}
    (hk : draft.kind = .line) :
    (draft.lengthOff ∧ prm.polLength ≠ .correct → judgeLine prm tail code draft = geometryFailure prm .length) ∧
    (¬(draft.lengthOff ∧ prm.polLength ≠ .correct) →
      ∃ n c, (draft.lengthOff → n = chord draft.dx draft.dy ∧ c = .corrected) ∧
        (¬draft.lengthOff → n = draft.length ∧ c = code) ∧
        judgeLine prm tail code draft =
          if lineHeadingFails draft then geometryFailure prm .heading
          else judgePivot prm tail c { draft with length := n }) := by
  have hOff := lineLengthFails_iff hk
  unfold judgeLine
  by_cases hf : draft.lengthOff
  · have hFails := hOff.mpr hf
    by_cases hc : prm.polLength = .correct
    · refine ⟨fun h => absurd hc h.2, fun _ => ⟨chord draft.dx draft.dy, .corrected, fun _ => ⟨rfl, rfl⟩,
        fun h => absurd hf h, ?_⟩⟩
      rw [hFails, hc]
      rfl
    · refine ⟨fun _ => ?_, fun h => absurd ⟨hf, hc⟩ h⟩
      simp [hFails, hc]
  · have hFails : lineLengthFails draft = false := Bool.not_eq_true _ |>.mp fun h => hf (hOff.mp h)
    refine ⟨fun h => absurd h.1 hf, fun _ => ⟨draft.length, code, fun h => absurd h hf, fun _ => ⟨rfl, rfl⟩, ?_⟩⟩
    rw [hFails]
    rfl

/-- R16: the class PIVOT does not look at the length. -/
theorem pivotOff_length (seg : Segment) (n : Nat) (s : State) :
    ({ seg with length := n } : Segment).pivotOff s ↔ seg.pivotOff s := Iff.rfl

/-- R13, R16: the classes that refuse a LINE, in their order (log entry 34). -/
theorem judgeLine_refuses {s : State} {code : ResultCode} {draft : Segment} (hk : draft.kind = .line) :
    let judged := judgeLine s.params s.store.tailHeading code draft
    let lengthFails := draft.lengthOff ∧ s.params.polLength ≠ .correct
    (lengthFails → judged = geometryFailure s.params .length) ∧
    (¬lengthFails → draft.headingOff → judged = geometryFailure s.params .heading) ∧
    (¬lengthFails → ¬draft.headingOff → draft.pivotOff s → judged = geometryFailure s.params .pivot) := by
  obtain ⟨hRefused, hPassed⟩ := judgeLine_length (prm := s.params) (tail := s.store.tailHeading) (code := code) hk
  have hHeading := lineHeadingFails_iff hk
  refine ⟨hRefused, fun hl hh => ?_, fun hl hh hp => ?_⟩
  · obtain ⟨n, c, -, -, hJudged⟩ := hPassed hl
    exact hJudged.trans (if_pos (hHeading.mpr hh))
  · obtain ⟨n, c, -, -, hJudged⟩ := hPassed hl
    refine hJudged.trans ((if_neg fun h => hh (hHeading.mp h)).trans ?_)
    exact judgePivot_off ((pivotOff_length draft n s).mpr hp)

/-- R14 to R16: the classes that refuse an arc, in their order. -/
theorem judgeArc_refuses {s : State} {code : ResultCode} {draft : Segment}
    (hk : draft.kind = .arcCw ∨ draft.kind = .arcCcw) :
    let judged := judgeArc s.params s.store.tailHeading code draft
    (draft.radiusOff → judged = geometryFailure s.params .radius) ∧
    (¬draft.radiusOff → draft.headingOff → judged = geometryFailure s.params .heading) ∧
    (¬draft.radiusOff → ¬draft.headingOff → draft.lengthOff → judged = geometryFailure s.params .length) ∧
    (¬draft.radiusOff → ¬draft.headingOff → ¬draft.lengthOff →
      judged = judgePivot s.params s.store.tailHeading code draft) := by
  have hRadius := arcRadiusFails_iff draft
  have hHeading := arcHeadingFails_iff hk
  have hLength := arcLengthFails_iff (seg := draft) (by rcases hk with hk | hk <;> rw [hk] <;> decide)
  unfold judgeArc
  refine ⟨fun hr => if_pos (hRadius.mpr hr), fun hr hh => ?_, fun hr hh hl => ?_, fun hr hh hl => ?_⟩
  · rw [if_neg (mt hRadius.mp hr), if_pos (hHeading.mpr hh)]
  · rw [if_neg (mt hRadius.mp hr), if_neg (mt hHeading.mp hh), if_pos (hLength.mpr hl)]
  · rw [if_neg (mt hRadius.mp hr), if_neg (mt hHeading.mp hh), if_neg (mt hLength.mp hl)]

/-- Settles O26: the refusals by admission, then those by the arrival checks in their order. -/
theorem appendRefused : Obligations.AppendRefused := by
  refine ⟨fun body s hr hw => ?_,
    fun body s => ⟨judgeArrival_badBody, fun raw hp => ⟨judgeArrival_unchecked hp, fun hc => ?_⟩⟩⟩
  · refine ⟨fun hj => ?_, fun hj => ?_, fun hj hm => ?_, fun hs hj => ?_⟩
    · refine exec_append_notAdmitted hr hw (appendRefusal_byState ?_)
      unfold appendByState
      rcases hj with hj | hj <;> rw [hj]
    · refine exec_append_notAdmitted hr hw (appendRefusal_byState ?_)
      unfold appendByState
      rw [hj]
    · exact exec_append_notAdmitted hr hw (appendRefusal_byState (appendByState_repeating hj hm))
    · obtain ⟨hClosed, hOpen⟩ := appendRefusal_byStore (appendByState_none hs hj)
      refine ⟨fun hm hc => exec_append_notAdmitted hr hw (hClosed hm hc), fun ho =>
        ⟨fun hf => exec_append_notAdmitted hr hw ((hOpen ho).trans (if_pos hf)), fun hf => ?_⟩⟩
      have hAdmitted : appendRefusal s = none := (hOpen ho).trans (if_neg hf)
      refine ⟨fun hb => ?_, fun hb => ?_, fun cls => ⟨fun hb => ?_, fun hb => ?_⟩⟩
      · exact exec_append_answer hr hw (by rw [takeAppend_admitted _ hAdmitted, hb]; rfl)
      · exact exec_append_answer hr hw (by rw [takeAppend_admitted _ hAdmitted, hb]; rfl)
      · exact exec_append_rejected hr hw hAdmitted hb
      · exact ⟨_, exec_append_rejected hr hw hAdmitted hb, heldBy_keeps _ _ s, rfl, heldBy_moving _ _,
          heldBy_starved _ _, heldBy_other _ _⟩
  · obtain ⟨draft, hDrawn, hOutside, hInside⟩ := judgeArrival_checked hp hc
    refine ⟨draft, hDrawn, hOutside, fun hIn => ?_⟩
    obtain ⟨-, hLine, hArc⟩ := hInside hIn
    refine ⟨fun hk => ?_, fun hk => ?_⟩
    · rw [hLine hk]
      exact judgeLine_refuses (hDrawn.kind.trans hk)
    · rw [hArc hk]
      obtain ⟨hRadius, hHeading, hLength, hPivot⟩ :=
        judgeArc_refuses (s := s) (code := if raw.clamped then .clamped else .ok) (hDrawn.kind ▸ hk)
      exact ⟨hRadius, hHeading, hLength, fun h1 h2 h3 h4 => (hPivot h1 h2 h3).trans (judgePivot_off h4)⟩

end Sys2Proof.Machine

namespace Sys2Proof.Machine

/-! ## An APPEND accepted (R27) -/

/-! ### The record -/

/-- R16, R41: a record whose junction has been judged after the tail heading: its delta, the opening mark and PIVOT_OK. -/
structure Segment.joins (seg draft : Segment) (s : State) : Prop where
  same : seg = { draft with delta := seg.delta, pivotOk := seg.pivotOk, opening := seg.opening }
  first : s.store.tailHeading = none → seg.delta = 0 ∧ seg.opening = true ∧ seg.pivotOk = draft.pivotOk
  next : ∀ h1, s.store.tailHeading = some h1 →
    seg.delta = draft.deltaFrom h1 ∧ seg.opening = draft.opening ∧ -17999 ≤ seg.delta ∧ seg.delta ≤ 18000 ∧
      seg.pivotOk = (draft.pivotOk || decide (s.params.pivotLimit < seg.delta.natAbs))

/-- R16, R19: a record whose class PIVOT does not fail, or may fail, is accepted. -/
theorem judgePivot_joins {s : State} (code : ResultCode) {draft : Segment} (h : ¬draft.pivotOff s) :
    ∃ seg, judgePivot s.params s.store.tailHeading code draft = .accepted seg code ∧ seg.joins draft s := by
  cases ht : s.store.tailHeading with
  | none =>
    refine ⟨_, judgePivot_first, rfl, fun _ => ⟨rfl, rfl, rfl⟩, fun h1 hh => ?_⟩
    rw [ht] at hh
    cases hh
  | some tail =>
    refine ⟨_, ht ▸ judgePivot_ok ht h, rfl, fun hh => ?_, fun h1 hh => ?_⟩
    · rw [ht] at hh
      cases hh
    · rw [ht] at hh
      cases hh
      obtain ⟨hLow, hHigh⟩ := turn_bounds tail draft.entryHeading
      rw [← deltaFrom_eq] at hLow hHigh
      exact ⟨rfl, rfl, hLow, hHigh, rfl⟩

/-- R16: a record that the judgement of its junction accepts is the one judged, but for what that judgement sets. -/
theorem judgePivot_accepted {prm : Params} {tail : Option Nat} {code c : ResultCode} {draft seg : Segment}
    (h : judgePivot prm tail code draft = .accepted seg c) :
    seg = { draft with delta := seg.delta, pivotOk := seg.pivotOk, opening := seg.opening } := by
  unfold judgePivot at h
  split at h
  · cases h
    rfl
  · dsimp only at h
    split at h
    · split at h
      · cases h
        rfl
      · cases h
    · cases h
      rfl

/-- R7: an accepted record starts where the tail or the head stood. -/
theorem accepted_startAt {s : State} {body : List Byte} {seg : Segment} {code : ResultCode}
    (h : judgeArrival s body = .accepted seg code) :
    seg.startAt = if s.store.tailOpen then s.store.tailPoint.getD s.axes.point else s.axes.point := by
  have hPivot : ∀ {tail : Option Nat} {c : ResultCode} {draft : Segment} {n : Nat},
      judgePivot s.params tail c { draft with length := n } = .accepted seg code → seg.startAt = draft.startAt := fun hp =>
    (congrArg Segment.startAt (judgePivot_accepted hp)).trans rfl
  cases hp : parseSegment body with
  | none => rw [judgeArrival_badBody hp] at h; cases h
  | some raw =>
    by_cases hc : raw.checked
    swap
    · rw [judgeArrival_unchecked hp hc] at h
      cases h
    obtain ⟨draft, hDrawn, hOutside, hInside⟩ := judgeArrival_checked hp hc
    rw [← hDrawn.start]
    by_cases hIn : draft.box.inTravel s.params
    swap
    · rw [hOutside hIn] at h
      cases h
    obtain ⟨hPause, hLine, hArc⟩ := hInside hIn
    have ofArc (hk : raw.kind = .arcCw ∨ raw.kind = .arcCcw) : seg.startAt = draft.startAt := by
      rw [hArc hk] at h
      unfold judgeArc at h
      split at h
      · cases h
      split at h
      · cases h
      split at h
      · cases h
      exact hPivot (n := draft.length) h
    cases hk : raw.kind with
    | pause =>
      rw [hPause hk] at h
      cases h
      rfl
    | line =>
      obtain ⟨hRefused, hPassed⟩ := judgeLine_length (prm := s.params) (tail := s.store.tailHeading)
        (code := if raw.clamped then .clamped else .ok) (hDrawn.kind.trans hk)
      rw [hLine hk] at h
      by_cases hl : draft.lengthOff ∧ s.params.polLength ≠ .correct
      · rw [hRefused hl] at h
        cases h
      · obtain ⟨n, c, -, -, hJudged⟩ := hPassed hl
        rw [hJudged] at h
        split at h
        · cases h
        · exact hPivot h
    | arcCw => exact ofArc (.inl hk)
    | arcCcw => exact ofArc (.inr hk)

/-! ### The Store and the plan -/

/-- R24, R25: the write pointer after an acceptance. -/
theorem advanceWrite_eq (st : Store) :
    st.advanceWrite =
      if st.mode = .stream ∧ st.writePtr = st.winEnd then st.winBegin else st.writePtr + 1 := by
  unfold Store.advanceWrite
  cases st.mode with
  | stream => simp
  | repeating => simp

/-- R27: the Store of an acceptance, field by field, with what its rules leave of the flow state and the flag. -/
theorem accept_eq {seg : Segment} {st : Store} {head : Point} (hs : st.tailOpen = false → seg.startAt = head)
    (flowHeld armed : Bool) :
    ({ st.accept seg with flowHeld := flowHeld, armed := armed } : Store) =
      { st with
        slots := (st.accept seg).slots
        writePtr := if st.mode = .stream ∧ st.writePtr = st.winEnd then st.winBegin else st.writePtr + 1
        tailOpen := true
        tailPoint := some seg.stopAt
        tailHeading := if seg.kind.moving then some seg.exitHeading else st.tailHeading
        origin := if st.tailOpen then st.origin else some head
        chainClosed := st.chainClosed || decide (st.mode = .stream ∧ seg.last = true)
        arrival := (st.nextNumber + 1) % 65536
        flowHeld := flowHeld
        armed := armed } := by
  have hOrigin : (st.accept seg).origin = if st.tailOpen then st.origin else some head := by
    show (if st.tailOpen then st.origin else some seg.startAt) = _
    cases hOpen : st.tailOpen with
    | true => rfl
    | false => rw [hs hOpen]
  have hClosed : (st.accept seg).chainClosed = (st.chainClosed || decide (st.mode = .stream ∧ seg.last = true)) := by
    show (st.chainClosed || (decide (st.mode = .stream) && seg.last)) = _
    simp
  rw [← advanceWrite_eq, ← hOrigin, ← hClosed]
  rfl

/-- R22, R27: the accepted record stands in the slot the write pointer named, and no other slot is touched. -/
theorem accept_slot (seg : Segment) (st : Store) (j : Nat) :
    (st.accept seg).slot j =
      if st.writePtr = j then some ⟨.queued, { seg with number := st.nextNumber }⟩ else st.slot j :=
  slotAt_slotPut _ _ _ _

/-- What the acceptance of a record leaves, the job apart, on the state with the frame of its request arrived. -/
def State.recorded (i : Instr) (seg : Segment) (s : State) : State :=
  acceptRecord seg (s.arrived i)

/-- R35, R38, R53: the Store after the acceptance of a record, before the replan, and what the replan makes of it. -/
theorem recorded_plan {s : State} (i : Instr) (seg : Segment) (h : s.store.windowOk s.interp.active)
    (hf : s.store.slots.length < s.store.size) :
    let a := s.recorded i seg
    let accepted : Store := { s.store.accept seg with flowHeld := a.store.flowHeld, armed := a.store.armed }
    ∃ v, ({ s with store := accepted } : State).replanned none v ∧ a.store = v.store ∧ a.planner = v.planner := by
  intro a accepted
  have hWindow : accepted.windowOk s.interp.active := windowOk_of_core (windowOk_accept h seg hf) rfl
  obtain ⟨hStore, hBefore, -, -, -, -, hReplan⟩ := acceptRecord_parts seg (s.arrived i)
  obtain ⟨x, hx⟩ : ∃ x, x = lowWater (holdMarkRule ((s.arrived i).mapStore (Store.accept seg))) := ⟨_, rfl⟩
  have hKeeps : Keeps [.store, .link] s x := by
    rw [hx]
    exact (lowWater_keeps _).after ((holdMarkRule_keeps _).after ((mapStore_keeps _ _).after (mapLink_keeps _ s).mono))
  have hAccepted : x.store = accepted := by
    have hFlow : a.store.flowHeld = x.store.flowHeld := by
      rw [hx]
      show (acceptRecord seg (s.arrived i)).store.flowHeld = _
      rw [hReplan, replan_store]
    have hArmed : a.store.armed = x.store.armed := by
      rw [hx]
      show (acceptRecord seg (s.arrived i)).store.armed = _
      rw [hReplan, replan_store]
    show x.store = { s.store.accept seg with flowHeld := a.store.flowHeld, armed := a.store.armed }
    rw [hFlow, hArmed, hx, lowWater_store, hBefore]
    rfl
  refine ⟨replan none { s with store := accepted }, replan_replanned none hWindow, ?_⟩
  show (acceptRecord seg (s.arrived i)).store = _ ∧ (acceptRecord seg (s.arrived i)).planner = _
  rw [hReplan, ← hx]
  refine replan_congr none (s := { s with store := accepted }) hAccepted ?_ ?_ ?_
  · exact hKeeps .planner (by decide)
  · exact hKeeps .params (by decide)
  · rw [show x.job = s.job from hKeeps .job (by decide)]

/-- R35, R38: what an acceptance leaves of the flow state, the flow marks, the low-water flag and the notices. -/
theorem recorded_flow {s : State} (i : Instr) (seg : Segment) (hw : slotsWf s.store.slots = true) :
    let a := s.recorded i seg
    let others := s.store.slots.filter fun e => e.1 ≠ s.store.writePtr
    let few := s.store.mode = .stream ∧ s.store.size - (others.length + 1) ≤ s.params.flowHold
    let ahead := (others.map fun e =>
      if e.2.state = .active then
        if e.2.seg.kind.moving then (e.2.seg.length * 1000 - s.interp.p + 999) / 1000 else 0
      else e.2.seg.length).sum + seg.length
    a.store.flowHeld = (s.store.flowHeld || decide few) ∧
    a.link.marks = (if s.store.flowHeld = false ∧ few then s.link.marks ++ [.hold] else s.link.marks) ∧
    (s.store.mode = .stream → a.store.chainClosed = false → a.store.armed = decide (s.params.lowWater ≤ ahead)) ∧
    (s.store.mode = .stream → a.store.chainClosed = false → s.store.armed = true → ahead < s.params.lowWater →
      s.link.notices.length < 16 → a.link.notices = s.link.notices ++ [.low ahead]) := by
  intro a others few ahead
  obtain ⟨hStore, hBefore, hLink, hParams, hInterp, hLinkAfter, -⟩ := acceptRecord_parts seg (s.arrived i)
  have hFree : ((s.arrived i).store.accept seg).free = s.store.size - (others.length + 1) := accept_free seg hw
  rw [hFree] at hStore hBefore hLink
  obtain ⟨u, hu⟩ : ∃ u, u = holdMarkRule ((s.arrived i).mapStore (Store.accept seg)) := ⟨_, rfl⟩
  rw [← hu] at hStore hBefore hLink hParams hInterp hLinkAfter
  have hAhead : pathAhead u = ahead :=
    pathAhead_accept hw (by rw [hBefore]; rfl) (congrArg Interp.p hInterp)
  have hFlow : a.store.flowHeld = (s.store.flowHeld || decide few) := (congrArg Store.flowHeld hStore).trans rfl
  have hMode : u.store.mode = s.store.mode := by rw [hBefore]; rfl
  have hClosed : u.store.chainClosed = a.store.chainClosed := by
    rw [hBefore]
    exact ((congrArg Store.chainClosed hStore).trans rfl).symm
  have hArmed : a.store.armed = (lowWater u).store.armed := (congrArg Store.armed hStore).trans rfl
  have hLowWater : u.params.lowWater = s.params.lowWater := congrArg Params.lowWater hParams
  have hMarks : u.link.marks = if s.store.flowHeld = false ∧ few then s.link.marks ++ [.hold] else s.link.marks :=
    (congrArg Link.marks hLink).trans rfl
  have hNotices : u.link.notices = s.link.notices := (congrArg Link.notices hLink).trans rfl
  refine ⟨hFlow, ?_, fun hm hc => ?_, fun hm hc ha hl hRoom => ?_⟩
  · show (acceptRecord seg (s.arrived i)).link.marks = _
    rw [hLinkAfter, (lowWater_queues u).2.1, hMarks]
  · rw [hArmed, lowWater_store, hLowWater, hAhead]
    exact if_pos ⟨hMode.trans hm, hClosed.trans hc⟩
  · have hWas : u.store.armed = true := by
      rw [hBefore]
      exact ha
    show (acceptRecord seg (s.arrived i)).link.notices = _
    rw [hLinkAfter, lowWater_link, if_pos ⟨hMode.trans hm, hClosed.trans hc, hWas, by rwa [hAhead, hLowWater]⟩,
      (queueNotice_link _ _).2.2, hNotices, hAhead]
    exact if_pos hRoom

/-- What the taking of an accepted APPEND leaves. -/
def State.appended (i : Instr) (seg : Segment) (m : Mark) (s : State) : State :=
  (starvedAcceptance (s.recorded i seg)).mapLink fun l => { l with requests := s.link.requests ++ entryOf i m }

theorem recorded_keeps (i : Instr) (seg : Segment) (s : State) :
    Keeps [.store, .planner, .link] s (s.recorded i seg) :=
  (acceptRecord_keeps _ _).after (mapLink_keeps _ s).mono

theorem appended_keeps (i : Instr) (seg : Segment) (m : Mark) (s : State) :
    Keeps [.store, .planner, .job, .stroke, .load, .link] s (s.appended i seg m) :=
  (mapLink_keeps _ _).after ((starvedAcceptance_keeps _).after (recorded_keeps i seg s).mono)

/-- R155: the acceptance in STARVED does not touch the Store, the plan, the notices or the marks. -/
theorem appended_recorded (i : Instr) (seg : Segment) (m : Mark) (s : State) :
    let t := s.appended i seg m
    let a := s.recorded i seg
    t.store = a.store ∧ t.planner = a.planner ∧ t.link.marks = a.link.marks ∧ t.link.notices = a.link.notices := by
  unfold State.appended
  generalize s.recorded i seg = a
  have hKeeps := starvedAcceptance_keeps a
  have hLink : (starvedAcceptance a).link = a.link := hKeeps .link (by decide)
  simp only [mapLink_store, mapLink_planner, mapLink_link, hLink, and_true]
  exact ⟨hKeeps .store (by decide), hKeeps .planner (by decide)⟩

/-- R155: a record accepted in STARVED takes the job to WARMUP and spins up the blade. -/
theorem appended_starved {s : State} (i : Instr) (seg : Segment) (m : Mark) (h : s.job.state = .starved) :
    let t := s.appended i seg m
    t.job =
      { s.job with
        state := if t.stroke.state = .run ∧ s.interp.startPending = false then .cutting else .warmup
        dwell := none } ∧
    t.stroke = s.stroke.spinUp s.params.startDuty ∧ t.load = s.load.told s.stroke.state t.stroke.state := by
  have hKeeps := recorded_keeps i seg s
  unfold State.appended
  generalize s.recorded i seg = a at *
  have hJob : a.job = s.job := hKeeps .job (by decide)
  have hStroke : a.stroke = s.stroke := hKeeps .stroke (by decide)
  have hLoad : a.load = s.load := hKeeps .load (by decide)
  have hParams : a.params = s.params := hKeeps .params (by decide)
  have hInterp : a.interp = s.interp := hKeeps .interp (by decide)
  have hStarved : a.job.state = .starved := by rw [hJob, h]
  obtain ⟨hStrokeAfter, hJobAfter⟩ := starvedAcceptance_eq hStarved
  simp only [mapLink_job, mapLink_stroke, mapLink_load, hJobAfter, hStrokeAfter, starvedAcceptance_load hStarved, hJob,
    hStroke, hLoad, hParams, hInterp, and_self]

/-- R155: in any other state an acceptance leaves the job and the blade. -/
theorem appended_other {s : State} (i : Instr) (seg : Segment) (m : Mark) (h : s.job.state ≠ .starved) :
    let t := s.appended i seg m
    t.job = s.job ∧ t.stroke = s.stroke ∧ t.load = s.load := by
  have hKeeps := recorded_keeps i seg s
  have hJob : (s.recorded i seg).job = s.job := hKeeps .job (by decide)
  have hSame : starvedAcceptance (s.recorded i seg) = s.recorded i seg := if_neg fun hc => h (hJob ▸ hc)
  unfold State.appended
  rw [hSame]
  exact ⟨hJob, hKeeps .stroke (by decide), hKeeps .load (by decide)⟩

/-! ### What is accepted -/

/-- R8, R19: what an arrival of a body `raw` is accepted as, from the record `draft` drawn up for it: with the length `n`,
the chord where it is corrected, under its result code, its junction judged. -/
structure Segment.acceptedFrom (seg : Segment) (code : ResultCode) (n : Nat) (draft : Segment) (raw : RawSegment)
    (s : State) : Prop where
  corrected : raw.kind = .line ∧ draft.lengthOff → n = chord draft.dx draft.dy ∧ code = .corrected
  kept : ¬(raw.kind = .line ∧ draft.lengthOff) → n = draft.length ∧ code = if raw.clamped then .clamped else .ok
  pause : raw.kind = .pause → seg = draft
  moving : raw.kind ≠ .pause → seg.joins { draft with length := n } s

/-- R14 to R16: an arc whose checks pass. -/
theorem judgeArc_passes {s : State} {raw : RawSegment} {draft : Segment} (hDrawn : draft.drawnFrom raw s)
    (hk : raw.kind = .arcCw ∨ raw.kind = .arcCcw) (hr : ¬draft.radiusOff) (hh : ¬draft.headingOff)
    (hl : ¬draft.lengthOff) (hp : ¬draft.pivotOff s) :
    ∃ n seg code, judgeArc s.params s.store.tailHeading (if raw.clamped then .clamped else .ok) draft =
      .accepted seg code ∧ seg.acceptedFrom code n draft raw s := by
  obtain ⟨seg, hJudged, hJoins⟩ := judgePivot_joins (if raw.clamped then .clamped else .ok) hp
  obtain ⟨-, -, -, hPivot⟩ := judgeArc_refuses (s := s) (code := if raw.clamped then .clamped else .ok)
    (hDrawn.kind ▸ hk)
  refine ⟨draft.length, seg, _, (hPivot hr hh hl).trans hJudged, fun hc => absurd hc.2 hl, fun _ => ⟨rfl, rfl⟩,
    fun hc => ?_, fun _ => hJoins⟩
  rw [hc] at hk
  rcases hk with hk | hk <;> cases hk

/-- R13, R16, R19: a LINE whose checks pass, its length corrected where it is off. -/
theorem judgeLine_passes {s : State} {raw : RawSegment} {draft : Segment} (hDrawn : draft.drawnFrom raw s)
    (hk : raw.kind = .line) (hl : draft.lengthOff → s.params.polLength = .correct) (hh : ¬draft.headingOff)
    (hp : ¬draft.pivotOff s) :
    ∃ n seg code, judgeLine s.params s.store.tailHeading (if raw.clamped then .clamped else .ok) draft =
      .accepted seg code ∧ seg.acceptedFrom code n draft raw s := by
  have hLine := hDrawn.kind.trans hk
  obtain ⟨-, hPassed⟩ := judgeLine_length (prm := s.params) (tail := s.store.tailHeading)
    (code := if raw.clamped then .clamped else .ok) hLine
  obtain ⟨n, c, hOff, hIn, hJudged⟩ := hPassed fun hc => hc.2 (hl hc.1)
  obtain ⟨seg, hAccepted, hJoins⟩ := judgePivot_joins c (mt (pivotOff_length draft n s).mp hp)
  rw [if_neg (mt (lineHeadingFails_iff hLine).mp hh)] at hJudged
  refine ⟨n, seg, c, hJudged.trans hAccepted, fun hc => hOff hc.2, fun hc => hIn fun ho => hc ⟨hk, ho⟩, fun hc => ?_,
    fun _ => hJoins⟩
  rw [hk] at hc
  cases hc

end Sys2Proof.Machine

namespace Sys2Proof.Machine

/-- R8, R26, R27: the state the taking of an accepted APPEND leaves. -/
theorem exec_append_accepted {body : List Byte} {seg : Segment} {code : ResultCode} {s : State} (hr : s.ready)
    (hw : (Instr.append body).wellFormed = true) (ha : appendRefusal s = none)
    (hj : judgeArrival s body = .accepted seg code) :
    exec (.append body) s = .next (s.appended (.append body) seg
      (.ready ⟨code, u16 s.store.nextNumber ++ u16 s.store.writePtr⟩)) := by
  rw [exec_append_ready hr hw, takeAppend_admitted _ ha, hj]
  rfl

/-- R19, R41: of a record accepted as drawn up with a length of its own, only what the judgement of its junction sets is
new. -/
theorem joins_fields {seg draft : Segment} {n : Nat} {s : State} (h : seg.joins { draft with length := n } s) :
    seg.length = n ∧
      seg = { draft with length := seg.length, delta := seg.delta, pivotOk := seg.pivotOk, opening := seg.opening } := by
  have hLength : seg.length = n := (congrArg Segment.length h.same).trans rfl
  exact ⟨hLength, hLength ▸ h.same⟩

/-- Settles O25: what the acceptance leaves, block by block, and then the record the checks accept. -/
theorem appendAccepted : Obligations.AppendAccepted := by
  refine ⟨fun body seg code s hr hOk hw hState hOpen hFree hJudged => ?_, fun body raw s hp hc => ?_⟩
  · have hAdmitted := appendRefusal_none hState hOpen hFree
    have hSlots : slotsWf s.store.slots = true := hOk.window.order
    obtain ⟨v, hReplanned, hStore, hPlanner⟩ := recorded_plan (.append body) seg hOk.window hFree
    obtain ⟨hFlow, hMarks, hArmed, hNotices⟩ := recorded_flow (.append body) seg hSlots
    obtain ⟨m, hm⟩ : ∃ m : Mark, m = .ready ⟨code, u16 s.store.nextNumber ++ u16 s.store.writePtr⟩ := ⟨_, rfl⟩
    obtain ⟨tStore, tPlanner, tMarks, tNotices⟩ := appended_recorded (.append body) seg m s
    have hStart : s.store.tailOpen = false → seg.startAt = s.axes.point := fun ht => by
      rw [accepted_startAt hJudged, ht]
      rfl
    have hAccepted := accept_eq hStart (s.appended (.append body) seg m).store.flowHeld
      (s.appended (.append body) seg m).store.armed
    have hSlot := accept_slot seg s.store
    refine ⟨s.appended (.append body) seg m, v, (s.store.accept seg).slots,
      hm ▸ exec_append_accepted hr hw hAdmitted hJudged, appended_keeps _ _ _ _, hm ▸ rfl, rfl, ⟨?_, ?_, fun j hne => ?_,
      ?_, tStore.trans hStore, tPlanner.trans hPlanner⟩, ?_, appended_starved _ _ _, appended_other _ _ _⟩
    · exact slotsWf_slotPut _ _ hSlots
    · exact (hSlot _).trans (if_pos rfl)
    · exact (hSlot _).trans (if_neg (Ne.symm hne))
    · rw [← hAccepted, tStore]
      exact hReplanned
    · rw [tStore, tMarks, tNotices]
      exact ⟨hFlow, hMarks, hArmed, hNotices⟩
  · obtain ⟨draft, hDrawn, -, hInside⟩ := judgeArrival_checked hp hc
    obtain ⟨-, hDelta, hOpening, -⟩ := hDrawn.unset
    refine ⟨draft, hDrawn, fun hIn hPasses => ?_⟩
    obtain ⟨hPause, hLine, hArc⟩ := hInside hIn
    have hAccepted : ∃ n seg code, judgeArrival s body = .accepted seg code ∧ seg.acceptedFrom code n draft raw s := by
      cases hk : raw.kind with
      | pause =>
        refine ⟨draft.length, draft, _, hPause hk, fun hc => ?_, fun _ => ⟨rfl, rfl⟩, fun _ => rfl,
          fun hc => absurd hk hc⟩
        rw [hk] at hc
        cases hc.1
      | line =>
        simp only [hk] at hPasses
        obtain ⟨hl, hh, hp⟩ := hPasses
        exact hLine hk ▸ judgeLine_passes hDrawn hk hl hh hp
      | arcCw =>
        simp only [hk] at hPasses
        obtain ⟨hr, hh, hl, hp⟩ := hPasses
        exact hArc (.inl hk) ▸ judgeArc_passes hDrawn (.inl hk) hr hh hl hp
      | arcCcw =>
        simp only [hk] at hPasses
        obtain ⟨hr, hh, hl, hp⟩ := hPasses
        exact hArc (.inr hk) ▸ judgeArc_passes hDrawn (.inr hk) hr hh hl hp
    obtain ⟨n, seg, code, hJudged, hCorrected, hKept, hOfPause, hJoins⟩ := hAccepted
    have hFields : seg.length = n ∧
        seg = { draft with length := seg.length, delta := seg.delta, pivotOk := seg.pivotOk, opening := seg.opening } := by
      by_cases hk : raw.kind = .pause
      · obtain ⟨hn, -⟩ := hKept fun hc => by
          rw [hk] at hc
          cases hc.1
        rw [hOfPause hk, hn]
        exact ⟨rfl, rfl⟩
      · exact joins_fields (hJoins hk)
    obtain ⟨hLength, hSame⟩ := hFields
    refine ⟨seg, code, hJudged, hSame, fun hc => ?_, fun hc => ?_, fun hk => ?_, fun hk ht => ?_, fun h1 hk ht => ?_⟩
    · obtain ⟨hn, hCode⟩ := hCorrected hc
      rw [hLength, hn]
      exact ⟨chord_isRoot _ _, hCode⟩
    · obtain ⟨hn, hCode⟩ := hKept hc
      refine ⟨hLength.trans hn, fun hcl => ?_, fun hcl => ?_⟩
      · rw [hCode, if_pos ((clamped_iff raw).mpr hcl)]
      · rw [hCode, if_neg (mt (clamped_iff raw).mp hcl)]
    · have hPivotOk : draft.pivotOk = false := Bool.not_eq_true _ |>.mp fun hp => (hDrawn.flags.1.mp hp).1 hk
      rw [hOfPause hk]
      exact ⟨hDelta, hOpening, hPivotOk⟩
    · exact (hJoins hk).first ht
    · obtain ⟨hTurn, hMark, hLow, hHigh, hPivotOk⟩ := (hJoins hk).next h1 ht
      exact ⟨hTurn, hMark.trans hOpening, hLow, hHigh, hPivotOk⟩

end Sys2Proof.Machine

namespace Sys2Proof.Machine

set_option Elab.async false

/-! ## The window under every step (R21 to R25, R59, R70, R141) -/

/-! ### What the condition turns on -/

theorem slotsOk_of_same {s t : State} (h : s.slotsOk) (hs : t.store = s.store)
    (ha : t.interp.active = s.interp.active) (hj : t.job.state = s.job.state) (hg : t.guard.stop = s.guard.stop) :
    t.slotsOk := by
  obtain ⟨hWindow, hRunning, hStop, hMotion⟩ := h
  refine ⟨?_, ?_, ?_, ?_⟩
  · rwa [hs, ha]
  · rwa [ha, hj]
  · rwa [hg, hj]
  · rwa [hg, ha]

theorem slotsOk_of_keeps {m : List Block} {s t : State} (k : Keeps m s t) (h : s.slotsOk)
    (hm : (m.contains .store || m.contains .interp || m.contains .job || m.contains .guard) = false := by rfl) :
    t.slotsOk := by
  simp only [Bool.or_eq_false_iff, List.contains_eq_mem, decide_eq_false_iff_not] at hm
  obtain ⟨⟨⟨hs, hi⟩, hj⟩, hg⟩ := hm
  exact slotsOk_of_same h (k .store hs) (congrArg Interp.active (k .interp hi)) (congrArg Job.state (k .job hj))
    (congrArg Guard.stop (k .guard hg))

/-- An operation that leaves the active slot and the job state, and touches neither the Store nor the Guard Unit. -/
theorem slotsOk_of_modes {m : List Block} {s t : State} (k : Keeps m s t) (e : t.modes = s.modes) (h : s.slotsOk)
    (hm : (m.contains .store || m.contains .guard) = false := by rfl) : t.slotsOk := by
  simp only [Bool.or_eq_false_iff, List.contains_eq_mem, decide_eq_false_iff_not] at hm
  exact slotsOk_of_same h (k .store hm.1) (congrArg Modes.active e) (congrArg Modes.job e)
    (congrArg Guard.stop (k .guard hm.2))

/-- An operation on the Store that keeps the window with the active slot. -/
theorem slotsOk_of_window {m : List Block} {s t : State} (k : Keeps m s t) (h : s.slotsOk)
    (hw : t.store.windowOk s.interp.active)
    (hm : (m.contains .interp || m.contains .job || m.contains .guard) = false := by rfl) : t.slotsOk := by
  simp only [Bool.or_eq_false_iff, List.contains_eq_mem, decide_eq_false_iff_not] at hm
  obtain ⟨⟨hi, hj⟩, hg⟩ := hm
  have ei : t.interp = s.interp := k .interp hi
  have ej : t.job = s.job := k .job hj
  have eg : t.guard = s.guard := k .guard hg
  refine ⟨?_, ?_, ?_, ?_⟩
  · rwa [ei]
  · rw [ei, ej]
    exact h.running
  · rw [eg, ej]
    exact h.stop
  · rw [eg, ei]
    exact h.motion

theorem stop_none {s : State} (h : s.slotsOk) (hj : s.job.state ≠ .stopping) : s.guard.stop = none := by
  cases hg : s.guard.stop with
  | none => rfl
  | some e => exact absurd (h.stop (by rw [hg]; rfl)) hj

theorem active_none {s : State} (h : s.slotsOk) (hj : s.job.state.inJob = false) : s.interp.active = none := by
  cases ha : s.interp.active with
  | none => rfl
  | some i =>
    have := h.running (by rw [ha]; rfl)
    rw [hj] at this
    cases this

/-- With a segment active, a stop in progress was not entered from MOTION. -/
theorem stop_ne_motion {s : State} (h : s.slotsOk) (ha : s.interp.active.isSome = true) :
    s.guard.stop ≠ some .motion := fun e => by
  rw [h.motion e] at ha
  cases ha

/-- Outside STOPPING the job may go to any state, if it stays in a job while a segment is active. -/
theorem slotsOk_toState {s t : State} (h : s.slotsOk) (hn : s.job.state ≠ .stopping) (hs : t.store = s.store)
    (ha : t.interp.active = s.interp.active) (hg : t.guard.stop = s.guard.stop)
    (hj : s.interp.active.isSome = true → t.job.state.inJob = true) : t.slotsOk := by
  have hNone : t.guard.stop = none := hg.trans (stop_none h hn)
  refine ⟨?_, ?_, ?_, ?_⟩
  · rw [hs, ha]
    exact h.window
  · rwa [ha]
  · rw [hNone]
    exact nofun
  · rw [hNone]
    exact nofun

theorem slotsOk_toState_of_keeps {m : List Block} {s t : State} (k : Keeps m s t) (h : s.slotsOk)
    (hn : s.job.state ≠ .stopping) (hj : s.interp.active.isSome = true → t.job.state.inJob = true)
    (hm : (m.contains .store || m.contains .interp || m.contains .guard) = false := by rfl) : t.slotsOk := by
  simp only [Bool.or_eq_false_iff, List.contains_eq_mem, decide_eq_false_iff_not] at hm
  obtain ⟨⟨hs, hi⟩, hg⟩ := hm
  exact slotsOk_toState h hn (k .store hs) (congrArg Interp.active (k .interp hi))
    (congrArg Guard.stop (k .guard hg)) hj

/-- From a state without a job, with no stop in progress, the job may go to any state. -/
theorem slotsOk_apart {m : List Block} {s t : State} (k : Keeps m s t) (h : s.slotsOk)
    (hj : s.job.state.inJob = false)
    (hm : (m.contains .store || m.contains .interp || m.contains .guard) = false := by rfl) : t.slotsOk :=
  slotsOk_toState_of_keeps k h (fun e => by rw [e] at hj; cases hj)
    (fun ha => by rw [active_none h hj] at ha; cases ha) hm

/-- The path is given up: nothing is active and no stop is in progress. -/
theorem slotsOk_ended {t : State} (hw : t.store.windowOk none) (ha : t.interp.active = none)
    (hg : t.guard.stop = none) : t.slotsOk := by
  refine ⟨?_, ?_, ?_, ?_⟩
  · rwa [ha]
  · rw [ha]
    exact nofun
  · rw [hg]
    exact nofun
  · exact fun _ => ha

theorem slotsOk_mapLink (f : Link → Link) {s : State} (h : s.slotsOk) : (s.mapLink f).slotsOk :=
  slotsOk_of_keeps (mapLink_keeps f s) h

theorem slotsOk_receiveError {s : State} (h : s.slotsOk) : (receiveError s).slotsOk :=
  slotsOk_of_keeps ((setRxFault_keeps _).after (mapLink_keeps Link.hunt s)) h

/-! ### Stops and causes -/

/-- R141: a stop entered from MOTION finds no segment active. -/
theorem active_of_stopEntered_motion {s : State} (h : s.slotsOk) (he : stopEntered s = .motion) :
    s.interp.active = none := by
  unfold stopEntered at he
  cases hg : s.guard.stop with
  | none =>
    rw [hg] at he
    exact active_none h (by rw [show s.job.state = .motion from he]; rfl)
  | some e =>
    rw [hg] at he
    exact h.motion (hg.trans (congrArg some he))

theorem slotsOk_controlledStop {s : State} (h : s.slotsOk) : (controlledStop s).slotsOk :=
  ⟨h.window, fun _ => rfl, fun _ => rfl, fun e =>
    show s.interp.active = none from active_none h (by rw [show s.job.state = .motion from Option.some.inj e]; rfl)⟩

/-- R142: the end of a controlled stop, however it was entered. -/
theorem slotsOk_controlledStopEnd {s : State} (h : s.slotsOk) : (controlledStopEnd s).slotsOk := by
  refine slotsOk_ended ?_ ?_ (congrArg Guard.stop (controlledStopEnd_guard s))
  · by_cases he : stopEntered s = .motion
    · rw [show (controlledStopEnd s).store = s.store from (controlledStopEnd_motion he).1 .store (by decide),
        ← active_of_stopEntered_motion h he]
      exact h.window
    · rw [(controlledStopEnd_store he).1, ← (storeStop_parts s).1]
      exact windowOk_storeStop h.window
  · rw [(controlledStopEnd_parts s).2.2.1]
    rfl

/-- R143: the immediate stop. -/
theorem slotsOk_immediateStop (k : Cause) {s : State} (h : s.slotsOk) : (immediateStop k s).slotsOk := by
  obtain ⟨-, -, -, hMotion, hJob, -⟩ := immediateStop_stops k s
  refine slotsOk_ended ?_ ?_ (congrArg Guard.stop (immediateStop_guard k s))
  · by_cases he : stopEntered s = .motion
    · rw [(hMotion he).1, ← active_of_stopEntered_motion h he]
      exact h.window
    · rw [(hJob he).1, ← (storeStop_parts s).1]
      exact windowOk_storeStop h.window
  · rw [(immediateStop_parts k s).2.2.1]
    rfl

theorem slotsOk_latchCause (k : Cause) {s : State} (h : s.slotsOk) : (latchCause k s).slotsOk :=
  slotsOk_of_same h rfl rfl rfl rfl

/-- R145: a cause takes an idle job to FAULT. -/
theorem slotsOk_faultFromIdle (cat : Category) (k : Cause) {s : State} (h : s.slotsOk) (hj : s.job.state = .idle) :
    (faultFromIdle cat k s).slotsOk := by
  have kf := faultFromIdle_keeps cat k s
  refine slotsOk_toState h (by rw [hj]; decide) (kf .store (by decide))
    (congrArg Interp.active (kf .interp (by decide)))
    ((congrArg Guard.stop (faultFromIdle_guard cat k s)).trans rfl) fun ha => ?_
  rw [active_none h (by rw [hj]; rfl)] at ha
  cases ha

theorem slotsOk_causeInIdle (cat : Category) (k : Cause) {s : State} (h : s.slotsOk) (hj : s.job.state = .idle) :
    (causeInIdle cat k s).slotsOk := by
  unfold causeInIdle
  split
  · exact slotsOk_faultFromIdle _ k (slotsOk_of_keeps (dropEnables_keeps s) h) hj
  · split
    · exact slotsOk_faultFromIdle _ _ h hj
    · split
      · exact slotsOk_faultFromIdle _ _ h hj
      · exact h
    all_goals exact h

theorem slotsOk_causeInFault (cat : Category) (k : Cause) {s : State} (h : s.slotsOk) :
    (causeInFault cat k s).slotsOk := by
  have kf := causeInFault_keeps cat k s
  exact slotsOk_of_same h (kf .store (by decide)) (congrArg Interp.active (kf .interp (by decide)))
    (congrArg Job.state (kf .job (by decide))) ((congrArg Guard.stop (causeInFault_guard cat k s)).trans rfl)

/-- R140: a cause is taken in any job state. -/
theorem slotsOk_takeCause (cat : Category) (k : Cause) {s : State} (h : s.slotsOk) : (takeCause cat k s).slotsOk := by
  unfold takeCause
  split
  · next hj => exact slotsOk_causeInIdle cat k h hj
  · exact slotsOk_causeInFault cat k h
  · split
    · exact slotsOk_immediateStop k h
    · exact slotsOk_latchCause k h
  all_goals
    split
    · exact slotsOk_immediateStop k h
    · exact slotsOk_controlledStop (slotsOk_latchCause k h)

/-! ### The Job Controller and the guard inputs -/

theorem slotsOk_setHeld {s : State} (h : s.slotsOk) : (setHeld s).slotsOk := by
  have k := setHeld_keeps s
  exact slotsOk_of_same h (k .store (by decide)) (congrArg Interp.active (k .interp (by decide)))
    ((congrArg Job.state (setHeld_eq s).1).trans rfl) (congrArg Guard.stop (k .guard (by decide)))

theorem slotsOk_holdRequest {s : State} (h : s.slotsOk) : (holdRequest s).slotsOk := by
  unfold holdRequest
  split
  · next hj => exact slotsOk_toState h (by rw [hj]; decide) rfl rfl rfl fun _ => rfl
  · next hj => exact slotsOk_toState h (by rw [hj]; decide) rfl rfl rfl fun _ => rfl
  · next hj => exact slotsOk_setHeld (slotsOk_toState h (by rw [hj]; decide) rfl rfl rfl fun _ => rfl)
  all_goals exact h

theorem slotsOk_warmupPassage {s : State} (h : s.slotsOk) : (warmupPassage s).slotsOk := by
  unfold warmupPassage
  split
  · next hc =>
    simp only [Bool.and_eq_true, decide_eq_true_eq] at hc
    exact slotsOk_toState h (by rw [hc.1.1]; decide) rfl rfl rfl fun _ => rfl
  · exact h

theorem slotsOk_becomeStarved {s : State} (h : s.slotsOk) (hj : s.job.state ≠ .stopping) :
    (becomeStarved s).slotsOk :=
  slotsOk_toState_of_keeps (becomeStarved_keeps s) h hj fun _ => rfl

/-- R153, R155: the job goes to WARMUP with the blade spun up, and may pass to CUTTING at once. -/
theorem slotsOk_warmUp (f : Job → Job) {s : State} (h : s.slotsOk) (hj : s.job.state ≠ .stopping)
    (hf : (f s.job).state = .warmup) : (warmupPassage (spinUpRequest (s.mapJob f))).slotsOk :=
  slotsOk_warmupPassage (slotsOk_of_keeps (spinUpRequest_keeps _)
    (slotsOk_toState h hj rfl rfl rfl fun _ => (congrArg JobState.inJob hf).trans rfl))

theorem slotsOk_starvedAcceptance {s : State} (h : s.slotsOk) : (starvedAcceptance s).slotsOk := by
  unfold starvedAcceptance
  split
  · next hj => exact slotsOk_warmUp _ h (by rw [hj]; decide) rfl
  · exact h

theorem slotsOk_activationAction (i : InputId) {s : State} (h : s.slotsOk) : (activationAction i s).slotsOk := by
  unfold activationAction
  split
  · exact h
  · exact slotsOk_mapLink _ h
  · split
    · exact slotsOk_holdRequest h
    · exact slotsOk_mapLink _ h
  · exact slotsOk_takeCause _ _ h
  · exact slotsOk_takeCause _ _ h

theorem slotsOk_edgeAction (i : InputId) (active : Bool) {s : State} (h : s.slotsOk) :
    (edgeAction i active s).slotsOk := by
  unfold edgeAction releaseAction
  split
  · exact slotsOk_activationAction i h
  · split
    · exact slotsOk_mapLink _ h
    · exact h

theorem slotsOk_finishHome {s : State} (h : s.slotsOk) : (finishHome s).slotsOk := by
  unfold finishHome
  split
  · exact h
  · split
    · next hc =>
      simp only [Bool.and_eq_true, decide_eq_true_eq] at hc
      exact slotsOk_mapLink _ (slotsOk_apart
        ((setJobState_keeps _ _).after (mapAxes_keeps _ s).mono (m := [.axes, .job]))
        h (by rw [hc.1]; rfl))
    · exact h

theorem slotsOk_reportToAxis (a : Axis) (f : AxisState → AxisState) {s : State} (h : s.slotsOk) :
    (reportToAxis a f s).slotsOk := by
  unfold reportToAxis
  split
  · exact slotsOk_finishHome (slotsOk_of_keeps (mapAxes_keeps _ s) h)
  · exact h

theorem slotsOk_levelEffects (i : InputId) (active : Bool) {s : State} (h : s.slotsOk) :
    (levelEffects i active s).slotsOk := by
  have hFree : ({ s with free := s.free + 1 } : State).slotsOk := slotsOk_of_same h rfl rfl rfl rfl
  unfold levelEffects
  split
  · exact slotsOk_edgeAction i active h
  · split
    · extract_lets quiet u choice
      refine iteInduction (fun _ => slotsOk_reportToAxis _ _ h) fun _ => ?_
      split
      · exact slotsOk_edgeAction i active (slotsOk_reportToAxis _ _ hFree)
      · exact slotsOk_reportToAxis _ _ (slotsOk_edgeAction i active hFree)
    · exact slotsOk_edgeAction i active h

theorem slotsOk_updateInput (i : InputId) (f : InputState → InputState) {s : State} (h : s.slotsOk) :
    (s.mapGuard fun g => g.updateInput i f).slotsOk :=
  slotsOk_of_same h rfl rfl rfl rfl

theorem slotsOk_filterReached (i : InputId) {s : State} (h : s.slotsOk) : (filterReached i s).slotsOk := by
  unfold filterReached filterEnds acceptLevel
  split
  · dsimp only
    split
    · exact slotsOk_updateInput i _ h
    · exact slotsOk_levelEffects i _ (slotsOk_updateInput i _ h)
  · exact h

theorem slotsOk_rawChange (i : InputId) (active : Bool) {s : State} (h : s.slotsOk) :
    (rawChange i active s).slotsOk := by
  unfold rawChange
  split
  · exact h
  · exact slotsOk_filterReached i (slotsOk_updateInput i _ h)

theorem slotsOk_dwellReached {s : State} (h : s.slotsOk) : (dwellReached s).slotsOk := by
  unfold dwellReached
  split
  · exact slotsOk_takeCause _ _ (slotsOk_of_same h rfl rfl rfl rfl)
  · exact h

/-! ### The blade -/

theorem slotsOk_spinupFailed {s : State} (h : s.slotsOk) : (spinupFailed s).slotsOk := by
  unfold spinupFailed
  split
  · exact slotsOk_takeCause _ _ (slotsOk_of_keeps (strokeTo_keeps _ s) h)
  · exact h

theorem slotsOk_stallReached {s : State} (h : s.slotsOk) : (stallReached s).slotsOk := by
  unfold stallReached
  split
  · split
    · exact slotsOk_of_keeps (mapStroke_keeps _ s) h
    · exact slotsOk_takeCause _ _ (slotsOk_of_keeps (strokeTo_keeps _ s) h)
  · exact h

theorem slotsOk_drivenIndex (t : Word) {s : State} (h : s.slotsOk) : (drivenIndex t s).slotsOk := by
  unfold drivenIndex
  extract_lets formed u v w x
  have hv : v.slotsOk := slotsOk_of_keeps (Keeps.ite ((mapStroke_keeps _ u).after (mapStroke_keeps _ s).mono
    (m := [.stroke]))
    (mapStroke_keeps _ s)) h
  have hw : w.slotsOk := slotsOk_warmupPassage (slotsOk_of_keeps (strokeTo_keeps _ v) hv)
  exact slotsOk_of_keeps ((mapLoad_keeps _ x).after (mapStroke_keeps _ w).mono (m := [.stroke, .load])) hw

theorem slotsOk_indexTaken (t : Word) {s : State} (h : s.slotsOk) : (indexTaken t s).slotsOk := by
  unfold indexTaken
  split
  · exact slotsOk_drivenIndex t h
  · exact slotsOk_drivenIndex t h
  · exact slotsOk_drivenIndex t h
  · exact slotsOk_of_keeps (mapStroke_keeps _ s) h
  · exact h
  · exact h

theorem slotsOk_serveStroke (sample : Nat) {s : State} (h : s.slotsOk) : (serveStroke sample s).slotsOk := by
  have hBand := slotsOk_of_keeps ((evaluateBand_keeps _).after (mapLoad_keeps (Load.accumulate sample) s).mono
    (m := [.load, .link])) h
  unfold serveStroke countOverload
  split
  · extract_lets n
    split
    · exact slotsOk_takeCause _ _ (slotsOk_of_keeps (mapLoad_keeps _ _) hBand)
    · exact slotsOk_of_keeps (mapLoad_keeps _ _) hBand
  · exact hBand

theorem slotsOk_measured (code : Nat) {s : State} (h : s.slotsOk) : (measured code s).slotsOk := by
  have hServe : (serve code s).slotsOk := by
    unfold serve
    extract_lets forStroke forLink strokeState u v w
    have hu : u.slotsOk := slotsOk_of_keeps (mapLoad_keeps _ s) h
    have hv : v.slotsOk := by
      show (if forStroke then serveStroke code u else u).slotsOk
      split
      · exact slotsOk_serveStroke code hu
      · exact hu
    exact slotsOk_of_keeps ((powerDownIfOff_keeps w).after
      (Keeps.ite (serveLink_keeps _ v).mono (.refl [.load, .link] v)) (m := [.load, .link])) hv
  unfold measured
  split
  · split
    · exact hServe
    · exact h
  · exact h
  · exact h

/-! ### The Segment Store -/

theorem slotsOk_replan (completed : Option Segment) {s : State} (h : s.slotsOk) : (replan completed s).slotsOk :=
  slotsOk_of_window (replan_keeps completed s) h (windowOk_replan h.window)

theorem windowOk_lowWater {s : State} {active : Option Nat} (h : s.store.windowOk active) :
    (lowWater s).store.windowOk active := by
  rw [lowWater_store]
  exact windowOk_of_core h rfl

theorem windowOk_openFlow {s : State} {active : Option Nat} (h : s.store.windowOk active) :
    (openFlow s).store.windowOk active := by
  unfold openFlow
  split
  · exact windowOk_of_core h rfl
  · exact h

theorem windowOk_goMarkRule {s : State} {active : Option Nat} (h : s.store.windowOk active) :
    (goMarkRule s).store.windowOk active := by
  unfold goMarkRule
  split
  · exact windowOk_openFlow h
  · exact h

theorem windowOk_holdMarkRule {s : State} {active : Option Nat} (h : s.store.windowOk active) :
    (holdMarkRule s).store.windowOk active := by
  unfold holdMarkRule
  split
  · exact windowOk_of_core h rfl
  · exact h

theorem slotsOk_lowWater {s : State} (h : s.slotsOk) : (lowWater s).slotsOk :=
  slotsOk_of_window (lowWater_keeps s) h (windowOk_lowWater h.window)

theorem slotsOk_partialFlush {s : State} (h : s.slotsOk) (hm : s.store.mode = .stream) : (partialFlush s).slotsOk := by
  refine slotsOk_of_window (partialFlush_keeps s) h ?_
  unfold partialFlush
  exact windowOk_lowWater (windowOk_openFlow (windowOk_partialFlush h.window hm _))

theorem slotsOk_acceptRecord (seg : Segment) {s : State} (h : s.slotsOk) (hf : s.store.slots.length < s.store.size) :
    (acceptRecord seg s).slotsOk := by
  refine slotsOk_of_window (acceptRecord_keeps seg s) h ?_
  unfold acceptRecord
  exact windowOk_replan (windowOk_lowWater (windowOk_holdMarkRule (windowOk_accept h.window seg hf)))

/-- R30, R55: the completion of the active segment and its replan. -/
theorem windowOk_storeCompletion (seg : Segment) {s : State} (h : s.store.windowOk (some s.store.execPtr)) :
    (storeCompletion seg s).store.windowOk none := by
  have hc : (s.mapStore Store.complete).store.windowOk none := windowOk_complete h
  unfold storeCompletion
  dsimp only
  split
  · exact windowOk_replan (windowOk_goMarkRule hc)
  · exact windowOk_replan hc

/-! ### The Interpolator -/

theorem slotsOk_mapInterp (f : Interp → Interp) {s : State} (h : s.slotsOk)
    (hf : (f s.interp).active = s.interp.active) : (s.mapInterp f).slotsOk :=
  slotsOk_of_same h rfl hf rfl rfl

/-- R61: the segment of the slot at the execution pointer is taken in a job. -/
theorem slotsOk_takeSegment (seg : Segment) (p : Nat) {s : State} (h : s.slotsOk) (ha : s.interp.active = none)
    (hj : s.job.state.inJob = true) (hg : s.guard.stop ≠ some .motion) (hs : s.store.slot s.store.execPtr ≠ none) :
    (takeSegment s.store.execPtr seg p s).slotsOk := by
  have k := takeSegment_keeps s.store.execPtr seg p s
  have eActive : (takeSegment s.store.execPtr seg p s).interp.active = some s.store.execPtr :=
    congrArg Modes.active (modes_takeSegment s.store.execPtr seg p s)
  have eJob : (takeSegment s.store.execPtr seg p s).job = s.job := k .job (by decide)
  have eGuard : (takeSegment s.store.execPtr seg p s).guard = s.guard := k .guard (by decide)
  refine ⟨?_, fun _ => ?_, ?_, fun e => ?_⟩
  · rw [takeSegment_store, eActive]
    exact windowOk_activate (ha ▸ h.window) seg hs
  · rwa [eJob]
  · rw [eGuard, eJob]
    exact h.stop
  · rw [eGuard] at e
    exact absurd e hg

theorem slot_of_nextPlanned {s : State} {seg : Segment} (h : nextPlanned s = some seg) :
    s.store.slot s.store.execPtr ≠ none := by
  unfold nextPlanned at h
  split at h
  · cases h
  · next hs =>
    rw [hs]
    exact nofun

theorem slotsOk_openingTake {s : State} (h : s.slotsOk) : (openingTake s).slotsOk := by
  unfold openingTake
  split
  · next hc =>
    simp only [Bool.and_eq_true, decide_eq_true_eq, Option.isNone_iff_eq_none] at hc
    obtain ⟨⟨⟨hj, ha⟩, -⟩, -⟩ := hc
    split
    · exact h
    · next hs =>
      exact slotsOk_takeSegment _ 0 h ha (by rw [hj]; rfl)
        (by rw [stop_none h (by rw [hj]; decide)]; exact nofun) (slot_of_nextPlanned hs)
  · exact h

/-- R64: the report of a completion leaves nothing active and the job and the stop in progress as they are. -/
theorem slotsOk_reportCompletion (seg : Segment) {s : State} (h : s.slotsOk) (ha : s.interp.active.isSome = true) :
    (reportCompletion seg s).slotsOk ∧ (reportCompletion seg s).interp.active = none ∧
      (reportCompletion seg s).job.state = s.job.state ∧ (reportCompletion seg s).guard = s.guard := by
  obtain ⟨i, hi⟩ := Option.isSome_iff_exists.mp ha
  have hw : s.store.windowOk (some s.store.execPtr) := by
    rw [← (h.window.taken i hi).1, ← hi]
    exact h.window
  have hWindow : (reportCompletion seg s).store.windowOk none :=
    windowOk_storeCompletion seg (s := s.mapJob (Job.count seg)) hw
  have eActive : (reportCompletion seg s).interp.active = none :=
    congrArg Interp.active (reportCompletion_eq seg s).2.1
  have eJob : (reportCompletion seg s).job.state = s.job.state :=
    (congrArg Job.state (reportCompletion_eq seg s).1).trans rfl
  have eGuard : (reportCompletion seg s).guard = s.guard := reportCompletion_keeps seg s .guard (by decide)
  refine ⟨⟨?_, ?_, ?_, fun _ => eActive⟩, eActive, eJob, eGuard⟩
  · rwa [eActive]
  · rw [eActive]
    exact nofun
  · rw [eGuard, eJob]
    exact h.stop

/-- R156: the end of a job. -/
theorem slotsOk_endJob {s : State} (h : s.slotsOk) (ha : s.interp.active = none) (hj : s.job.state ≠ .stopping) :
    (endJob s).slotsOk := by
  refine slotsOk_ended ?_ ?_ ?_
  · have hs : ((coastRequest (s.mapJob fun j => if j.mode = .stream then
      { j with passesDone := 1 } else j))).store.windowOk
        s.interp.active := h.window
    exact windowOk_storeJobEnd hs
  · rw [(endJob_eq s).2.2.1]
    exact ha
  · rw [show (endJob s).guard = s.guard from endJob_keeps s .guard (by decide)]
    exact stop_none h hj

theorem slotsOk_frontierArrival {s : State} (h : s.slotsOk) : (frontierArrival s).slotsOk := by
  unfold frontierArrival
  split
  · next hj =>
    exact slotsOk_becomeStarved (slotsOk_of_keeps (idleRequest_keeps s) h) (fun e => by
      have := hj.symm.trans e
      cases this)
  · split
    · exact h
    · exact slotsOk_setHeld h
  all_goals exact h

theorem slotsOk_startPivot {s : State} (h : s.slotsOk) : (startPivot s).slotsOk :=
  slotsOk_of_modes (startPivot_keeps s) (modes_startPivot s) h

theorem slotsOk_endPass (seg : Segment) {s : State} (h : s.slotsOk) (ha : s.interp.active = none)
    (hj : s.job.state ≠ .stopping) : (endPass seg s).slotsOk := by
  unfold endPass
  extract_lets pathEnd u
  have hu : u.slotsOk := slotsOk_of_same h rfl rfl rfl rfl
  split
  · unfold beginLink
    dsimp only
    have hPass := slotsOk_mapInterp (fun n => { n with pass := n.pass + 1 })
      (slotsOk_of_keeps (queueNotice_keeps (.pass (u.interp.pass + 1)) u) hu) rfl
    split
    · exact slotsOk_startPivot hPass
    · exact slotsOk_mapInterp _ hPass rfl
  · exact slotsOk_endJob hu ha hj

theorem slotsOk_takeFeedAsZero {s : State} (h : s.slotsOk) : (takeFeedAsZero s).slotsOk :=
  slotsOk_of_keeps (takeFeedAsZero_keeps s) h

/-- R64, R65: what is taken after a completion is the PLANNED segment at the execution pointer. -/
theorem nextPlanned_of_afterEnd {seg next : Segment} {fillEnd : Bool} {s : State}
    (h : afterEnd seg fillEnd s = .carry next ∨ afterEnd seg fillEnd s = .fromRest next) :
    nextPlanned s = some next := by
  unfold afterEnd at h
  split at h
  · simp at h
  · split at h
    · simp at h
    · split at h
      · simp at h
      · next nx hn =>
        split at h <;> simp at h <;> rw [hn, h]

/-- R64, R65: a completion with all its carries. -/
theorem slotsOk_completeSegment (fuel : Nat) (seg : Segment) (past : Nat) {s : State} (h : s.slotsOk)
    (ha : s.interp.active.isSome = true) : (completeSegment fuel seg past s).slotsOk := by
  induction fuel generalizing seg past s with
  | zero => exact h
  | succ fuel ih =>
    obtain ⟨hr, eActive, eJob, eGuard⟩ := slotsOk_reportCompletion seg h ha
    have hz := slotsOk_takeFeedAsZero hr
    have hIn : (reportCompletion seg s).job.state.inJob = true := by
      rw [eJob]
      exact h.running ha
    have hNot : (reportCompletion seg s).guard.stop ≠ some .motion := by
      rw [eGuard]
      exact stop_ne_motion h ha
    unfold completeSegment
    dsimp only
    split
    · split
      · exact hz
      · next hn => exact slotsOk_endJob hz eActive fun e => hn (decide_eq_true e)
    · split
      · exact hz
      · next hn => exact slotsOk_endPass seg hz eActive fun e => hn (decide_eq_true e)
    · split
      · exact hz
      · exact slotsOk_frontierArrival (slotsOk_of_keeps (standAtFrontier_keeps _) hr)
    · next next ht =>
      split
      · exact hz
      · exact slotsOk_takeSegment next 0 hz eActive hIn hNot (slot_of_nextPlanned (nextPlanned_of_afterEnd (.inr ht)))
    · next next ht =>
      have hTaken := slotsOk_takeSegment next past hr eActive hIn hNot
        (slot_of_nextPlanned (nextPlanned_of_afterEnd (.inl ht)))
      split
      · have eTaken := congrArg Modes.active ((modes_snapToEnd next _).trans
          (modes_takeSegment (reportCompletion seg s).store.execPtr next past (reportCompletion seg s)))
        exact ih _ _ (slotsOk_of_modes (snapToEnd_keeps _ _) (modes_snapToEnd _ _) hTaken)
          ((congrArg Option.isSome eTaken).trans rfl)
      · exact slotsOk_of_modes (targetSegment_keeps _ _) (modes_targetSegment _ _) hTaken

theorem slotsOk_advanceSegment (seg : Segment) {s : State} (h : s.slotsOk) (ha : s.interp.active.isSome = true) :
    (advanceSegment seg s).slotsOk := by
  have hp := slotsOk_mapInterp (fun n => { n with p := n.p + s.gov.v }) h rfl
  unfold advanceSegment
  dsimp only
  split
  · exact slotsOk_completeSegment _ seg _ (slotsOk_of_modes (snapToEnd_keeps seg _) (modes_snapToEnd seg _) hp) ha
  · split
    · exact hp
    · exact slotsOk_of_modes (targetSegment_keeps seg _) (modes_targetSegment seg _) hp

theorem slotsOk_countPause (seg : Segment) {s : State} (h : s.slotsOk) (ha : s.interp.active.isSome = true) :
    (countPause seg s).slotsOk := by
  unfold countPause
  split
  · exact slotsOk_mapInterp _ h rfl
  · split
    · dsimp only
      split
      · exact slotsOk_completeSegment _ seg 0 (slotsOk_mapInterp (fun n => { n with pause := n.pause - 1 }) h rfl) ha
      · exact slotsOk_mapInterp _ h rfl
    · exact h

theorem slotsOk_motionAndEnds {s : State} (h : s.slotsOk) : (motionAndEnds s).slotsOk := by
  unfold motionAndEnds
  split
  · split
    · exact slotsOk_mapInterp _ h rfl
    · exact slotsOk_mapInterp _ h rfl
  · split
    · next seg hs =>
      have ha : s.interp.active.isSome = true := by
        unfold activeSegment at hs
        split at hs
        · cases hs
        · next e => rw [e]; rfl
      split
      · exact slotsOk_advanceSegment seg h ha
      · exact slotsOk_countPause seg h ha
    · split
      · exact h
      · exact slotsOk_of_modes (advanceLink_keeps _ s) (modes_advanceLink _ s) h

theorem slotsOk_reportRest {s : State} (h : s.slotsOk) : (reportRest s).slotsOk := by
  unfold reportRest
  split
  · split
    · exact slotsOk_setHeld h
    · exact h
  · split
    · exact slotsOk_controlledStopEnd h
    · exact h
  all_goals exact h

/-- R60: one expiry of the interpolation period timer. -/
theorem slotsOk_interpolationExpiry {s : State} (h : s.slotsOk) : (interpolationExpiry s).slotsOk := by
  have hBegin : (beginPeriod s).slotsOk := slotsOk_of_same h rfl rfl rfl rfl
  have hMoved := slotsOk_motionAndEnds (slotsOk_of_keeps (evaluateGovernor_keeps _) (slotsOk_openingTake hBegin))
  have hRest := slotsOk_reportRest (slotsOk_of_keeps (t := handInterpTargets _) (mapAxes_keeps _ _) hMoved)
  unfold interpolationExpiry lowWaterAfter
  refine slotsOk_warmupPassage ?_
  split
  · exact slotsOk_lowWater hRest
  · exact hRest

/-! ### The traverse -/

theorem slotsOk_finishMove {s : State} (h : s.slotsOk) (hj : s.job.state.inJob = false) : (finishMove s).slotsOk := by
  unfold finishMove
  split
  · exact h
  · split
    · exact slotsOk_mapLink _ (slotsOk_apart
        ((setJobState_keeps _ _).after (mapAxes_keeps _ s).mono (m := [.axes, .job])) h hj)
    · exact h

/-- R126: one expiry of the traverse period timer, which runs only in MOTION and STOPPING. -/
theorem slotsOk_traverseExpiry {s : State} (h : s.slotsOk) (hj : s.job.state = .motion ∨ s.job.state = .stopping) :
    (traverseExpiry s).slotsOk := by
  have kb : Keeps [.axes] s (beginTraversePeriod s) := mapAxes_keeps _ s
  have hb := slotsOk_of_keeps kb h
  have ej : (beginTraversePeriod s).job = s.job := kb .job (by decide)
  unfold traverseExpiry
  dsimp only
  generalize beginTraversePeriod s = u at hb ej ⊢
  split
  · have hSlow := slotsOk_of_keeps (slowMotion_keeps u) hb
    unfold restInMotion
    split
    · exact slotsOk_controlledStopEnd (slotsOk_of_keeps (endHome_keeps _) hSlow)
    · exact hSlow
  · next hn =>
    have hMotion : u.job.state = .motion := by
      rw [ej] at hn ⊢
      exact hj.resolve_right hn
    have km : Keeps [.axes] u (advanceMove (advanceHoming u)) :=
      (advanceMove_keeps _).after (mapAxes_keeps _ u)
    have em : (advanceMove (advanceHoming u)).job.state = .motion := by
      rw [show (advanceMove (advanceHoming u)).job = u.job from km .job (by decide), hMotion]
    refine slotsOk_finishMove (slotsOk_finishHome (slotsOk_of_keeps km hb)) ?_
    unfold finishHome
    split
    · rw [em]
      rfl
    · split
      · rfl
      · rw [em]
        rfl

/-! ### The requests -/

theorem slotsOk_judged {refusal : Option ResultCode} {act : State → State} {s : State} (h : s.slotsOk)
    (ha : refusal = none → (act s).slotsOk) : (judged refusal act s).1.slotsOk := by
  unfold judged
  split
  · exact h
  · exact ha rfl

theorem slotsOk_afterSet (before : Int) (p : ParamId) {s : State} (h : s.slotsOk) : (p.afterSet before s).slotsOk := by
  unfold ParamId.afterSet
  split
  · split
    · exact h
    · exact slotsOk_of_keeps (mapStroke_keeps _ s) h
  · split
    · exact slotsOk_stallReached h
    · exact slotsOk_of_keeps (coastReached_keeps s) h
  · exact slotsOk_spinupFailed h
  · exact slotsOk_dwellReached h
  · unfold gapReached
    split
    · exact slotsOk_receiveError h
    · exact h
  · exact slotsOk_filterReached _ h
  · exact h

theorem slotsOk_write (n : Nat) (p : ParamId) {s : State} (h : s.slotsOk) : (p.write n s).slotsOk := by
  cases p <;> exact slotsOk_of_same h rfl rfl rfl rfl

theorem slotsOk_takeSet (id : Byte) (v : Word) {s : State} (h : s.slotsOk) : (takeSet id v s).1.slotsOk := by
  unfold takeSet
  split
  · exact h
  · exact slotsOk_afterSet _ _ (slotsOk_write _ _ h)

/-- R23: a window that is set fits and is empty. -/
theorem slotsOk_takeWindow (b e : Half) (m : Byte) {s : State} (h : s.slotsOk) : (takeWindow b e m s).1.slotsOk := by
  unfold takeWindow
  split
  · exact h
  · next hIdle =>
    split
    · exact h
    · next hEmpty =>
      split
      · exact h
      · split
        · next hFits =>
          unfold windowFits at hFits
          simp only [decide_eq_true_eq] at hFits
          refine slotsOk_of_window (mapStore_keeps _ s) h ?_
          rw [active_none h (by rw [not_not.mp hIdle]; rfl)]
          exact windowOk_empty (by show b.toNat + 7 ≤ e.toNat ∧ e.toNat ≤ 511; omega) (not_not.mp hEmpty) rfl rfl
        · exact h

theorem room_of_appendRefusal {s : State} (h : appendRefusal s = none) : s.store.slots.length < s.store.size := by
  unfold appendRefusal at h
  split at h
  · cases h
  · simp only [firstRefusal] at h
    split at h
    · cases h
    · split at h
      · cases h
      · next hf =>
        have hFree : s.store.free ≠ 0 := by simpa using hf
        unfold Store.free Store.occupied at hFree
        omega

theorem slotsOk_takeAppend (body : List Byte) {s : State} (h : s.slotsOk) : (takeAppend body s).1.slotsOk := by
  unfold takeAppend
  split
  · exact h
  · next hn =>
    split
    · exact h
    · exact h
    · next hold _ =>
      show (rejectRecord hold s).slotsOk
      unfold rejectRecord
      split
      · exact slotsOk_holdRequest h
      · exact h
    · exact slotsOk_starvedAcceptance (slotsOk_acceptRecord _ h (room_of_appendRefusal hn))

theorem slotsOk_flushPartly {s : State} (h : s.slotsOk) : (flushPartly s).1.slotsOk := by
  unfold flushPartly
  split
  · next hm => exact slotsOk_replan none (slotsOk_partialFlush h hm)
  · exact h

theorem slotsOk_takeFlush {s : State} (h : s.slotsOk) : (takeFlush s).1.slotsOk := by
  unfold takeFlush
  split
  · next hj =>
    refine slotsOk_replan none (slotsOk_of_window (emptyWindow_keeps s) h ?_)
    rw [active_none h (by rw [hj]; rfl)]
    exact windowOk_emptyWindow h.window
  · split
    · exact slotsOk_flushPartly h
    · exact h
  · exact slotsOk_flushPartly h
  all_goals exact h

theorem idle_of_idleRefusal {s : State} (h : idleRefusal s = none) : s.job.state = .idle := by
  unfold idleRefusal at h
  split at h
  · assumption
  all_goals cases h

theorem idle_of_startRefusal {n : Nat} {x y : Int} {s : State} (h : startRefusal n x y s = none) :
    s.job.state = .idle := by
  unfold startRefusal at h
  split at h
  · cases h
  · next hi => exact idle_of_idleRefusal hi

theorem slotsOk_beginJob (n : Nat) (x y : Int) {s : State} (h : s.slotsOk) (hj : s.job.state = .idle) :
    (beginJob n x y s).slotsOk := by
  unfold beginJob
  extract_lets u v
  have kr := replan_keeps none s
  have hu : u.slotsOk := slotsOk_toState (slotsOk_replan none h)
    (by rw [show (replan none s).job = s.job from kr .job (by decide), hj]; decide) rfl rfl rfl fun _ => rfl
  have hv : v.slotsOk := slotsOk_of_keeps ((spinUpRequest_keeps _).after (mapGov_keeps _ u).mono
    (m := [.stroke, .load, .gov])) hu
  exact slotsOk_warmupPassage (slotsOk_startPivot (slotsOk_mapInterp _ hv rfl))

theorem slotsOk_resumeJob {s : State} (h : s.slotsOk) (hj : s.job.state = .holding) : (resumeJob s).slotsOk := by
  have hn : s.job.state ≠ .stopping := by rw [hj]; decide
  unfold resumeJob
  split
  · split
    · exact slotsOk_warmUp _ h hn rfl
    · exact slotsOk_becomeStarved h hn
  · split
    · exact slotsOk_toState h hn rfl rfl rfl fun _ => rfl
    · exact slotsOk_toState h hn rfl rfl rfl fun _ => rfl

theorem holding_of_resumeRefusal {s : State} (h : resumeRefusal s = none) : s.job.state = .holding := by
  unfold resumeRefusal at h
  simp only [firstRefusal] at h
  split at h
  · cases h
  · next hn => simpa using hn

theorem fault_of_clearRefusal {s : State} (h : clearRefusal s = none) : s.job.state = .fault := by
  unfold clearRefusal at h
  simp only [firstRefusal] at h
  split at h
  · cases h
  · next hn => simpa using hn

theorem idle_of_homeRefusal {axes : Byte} {s : State} (h : homeRefusal axes s = none) : s.job.state = .idle := by
  unfold homeRefusal at h
  split at h
  · cases h
  · next hi => exact idle_of_idleRefusal hi

theorem idle_of_moveRefusal {x y : Int} {c : Nat} {s : State} (h : moveRefusal x y c s = none) :
    s.job.state = .idle := by
  unfold moveRefusal at h
  split at h
  · cases h
  · next hi => exact idle_of_idleRefusal hi

theorem slotsOk_clearLatch {s : State} (h : s.slotsOk) (hj : s.job.state = .fault) : (clearLatch s).slotsOk := by
  have hCleared : (s.mapGuard fun g => { g with latch := 0 }).slotsOk := slotsOk_of_same h rfl rfl rfl rfl
  exact slotsOk_apart ((setJobState_keeps .idle _).after (strokeTo_keeps Stroke.unstall _).mono
    (m := [.job, .stroke, .load])) hCleared (by show s.job.state.inJob = false; rw [hj]; rfl)

theorem slotsOk_takeAbort {s : State} (h : s.slotsOk) : (takeAbort s).1.slotsOk := by
  unfold takeAbort
  split
  · exact h
  · exact h
  · exact h
  all_goals exact slotsOk_controlledStop h

/-- R127, R130: HOME and MOVE begin in IDLE and take the job to MOTION. -/
theorem slotsOk_toMotion (f : Axes → Axes) {s : State} (h : s.slotsOk) (hj : s.job.state = .idle) :
    (setJobState .motion (s.mapAxes f)).slotsOk :=
  slotsOk_apart ((setJobState_keeps _ _).after (mapAxes_keeps f s).mono (m := [.axes, .job])) h (by rw [hj]; rfl)

theorem slotsOk_takeBlade (v : Byte) {s : State} (h : s.slotsOk) : (takeBlade v s).1.slotsOk := by
  unfold takeBlade
  split
  · exact h
  · split
    · exact slotsOk_of_keeps (spinUpRequest_keeps s) h
    · exact slotsOk_of_keeps (idleRequest_keeps s) h
    · exact slotsOk_of_keeps (coastRequest_keeps s) h
    · exact h

/-- R165: what a block does with a request it takes. -/
theorem slotsOk_block {i : Instr} {take : State → State × Mark} (ht : requestTake i = some take) {s : State}
    (h : s.slotsOk) : (take s).1.slotsOk := by
  cases i
  case get id =>
    injection ht with ht
    subst ht
    unfold takeGet
    split <;> exact h
  case slot index =>
    injection ht with ht
    subst ht
    unfold takeSlot
    split <;> exact h
  case set id v => injection ht with ht; exact ht ▸ slotsOk_takeSet id v h
  case window b e m => injection ht with ht; exact ht ▸ slotsOk_takeWindow b e m h
  case append body => injection ht with ht; exact ht ▸ slotsOk_takeAppend body h
  case flush => injection ht with ht; exact ht ▸ slotsOk_takeFlush h
  case start n x y =>
    injection ht with ht
    exact ht ▸ slotsOk_judged h fun e => slotsOk_beginJob _ _ _ h (idle_of_startRefusal e)
  case hold => injection ht with ht; exact ht ▸ slotsOk_judged h fun _ => slotsOk_holdRequest h
  case resume =>
    injection ht with ht
    exact ht ▸ slotsOk_judged h fun e => slotsOk_resumeJob h (holding_of_resumeRefusal e)
  case abort => injection ht with ht; exact ht ▸ slotsOk_takeAbort h
  case clear =>
    injection ht with ht
    exact ht ▸ slotsOk_judged h fun e => slotsOk_clearLatch h (fault_of_clearRefusal e)
  case home axes =>
    injection ht with ht
    exact ht ▸ slotsOk_judged h fun e => slotsOk_toMotion _ h (idle_of_homeRefusal e)
  case move x y c =>
    injection ht with ht
    exact ht ▸ slotsOk_judged h fun e => slotsOk_toMotion _ h (idle_of_moveRefusal e)
  case blade v => injection ht with ht; exact ht ▸ slotsOk_takeBlade v h
  case sample => injection ht with ht; exact ht ▸ slotsOk_of_keeps (mapLoad_keeps _ s) h
  case reset =>
    injection ht with ht
    subst ht
    exact slotsOk_of_keeps (mapLink_keeps (fun l => { l with stopped := true }) s) h
  case ident => injection ht with ht; exact ht ▸ h
  case status => injection ht with ht; exact ht ▸ h
  all_goals cases ht

theorem slotsOk_appendRequest (kind : Byte) (body : List Byte) {s : State} (h : s.slotsOk) :
    (appendRequest kind body s).slotsOk := by
  unfold appendRequest
  split
  · exact slotsOk_mapLink _ h
  · exact slotsOk_mapLink _ h

theorem slotsOk_answerNext {i : Instr} {take : State → State × Mark} (ht : requestTake i = some take) {s : State}
    (h : s.slotsOk) : (answerNext take s).slotsOk := by
  unfold answerNext
  exact slotsOk_mapLink _ (slotsOk_block ht h)

/-- R165: a request row keeps what its block keeps. -/
theorem slotsOk_takeRequest {i : Instr} {take : State → State × Mark} (ht : requestTake i = some take) {s : State}
    (h : s.slotsOk) : (takeRequest i take s).slotsOk := by
  unfold takeRequest
  split
  · exact h
  · next kind body _ =>
    extract_lets u
    have hu : u.slotsOk := by
      show (if s.link.handsNext kind body then s else appendRequest kind body s).slotsOk
      split
      · exact h
      · exact slotsOk_appendRequest kind body h
    split
    · exact slotsOk_answerNext ht hu
    · exact hu

/-! ### The line -/

theorem slotsOk_completeFrame (kind : Byte) (body : List Byte) {s : State} (h : s.slotsOk) :
    (completeFrame kind body s).slotsOk := by
  have hArrive : ∀ {u : State}, u.slotsOk → (arriveRequest kind body u).slotsOk := fun {u} hu => by
    have ha := slotsOk_appendRequest kind body hu
    unfold arriveRequest handDue
    split
    · split
      · exact ha
      · split
        · exact ha
        · next ht => exact slotsOk_answerNext ht ha
    · exact slotsOk_mapLink _ hu
  unfold completeFrame
  dsimp only
  split
  · exact hArrive (slotsOk_mapLink _ h)
  · exact slotsOk_mapLink _ (slotsOk_mapLink _ h)

theorem slotsOk_takeFrameByte (b : Byte) {s : State} (h : s.slotsOk) : (takeFrameByte b s).slotsOk := by
  unfold takeFrameByte
  split
  · exact h
  · split
    · exact slotsOk_mapLink _ h
    · exact slotsOk_receiveError h
  · exact slotsOk_mapLink _ h
  · split
    · exact slotsOk_receiveError h
    · split
      · exact slotsOk_completeFrame _ _ h
      · exact slotsOk_receiveError h

theorem slotsOk_frameByte (b : Byte) {s : State} (h : s.slotsOk) : (frameByte b s).slotsOk := by
  unfold frameByte
  split
  · exact slotsOk_mapLink _ (slotsOk_receiveError h)
  · split
    · split
      · exact slotsOk_takeFrameByte _ (slotsOk_mapLink _ h)
      · exact slotsOk_receiveError h
    · split
      · exact slotsOk_mapLink _ h
      · exact slotsOk_takeFrameByte _ (slotsOk_mapLink _ h)

theorem slotsOk_receiveByte (b : Byte) (stopHigh : Bool) {s : State} (h : s.slotsOk) :
    (receiveByte b stopHigh s).slotsOk := by
  unfold receiveByte huntByte
  split
  · split
    · exact slotsOk_mapLink _ h
    · split
      · exact slotsOk_mapLink _ h
      · split
        · split
          · exact slotsOk_mapLink _ h
          · exact h
        · exact slotsOk_frameByte b h
  · split
    · exact h
    · exact slotsOk_receiveError h

theorem windowOk_reset : Store.reset.windowOk none :=
  windowOk_empty (by decide) rfl rfl rfl

/-- R21, R59, R134: a reset leaves an empty window and nothing in progress. -/
theorem slotsOk_resetTo (rate : LineRate) (straps : BitVec 2) (s : State) : (s.resetTo rate straps).slotsOk :=
  slotsOk_ended windowOk_reset rfl rfl

theorem slotsOk_txStart {s : State} (h : s.slotsOk) : (txStart s).slotsOk := by
  have hNotice : (beginNotice s).slotsOk := by
    unfold beginNotice
    split
    · exact h
    · exact slotsOk_mapLink _ (slotsOk_mapLink _ h)
  unfold txStart chooseFrame
  split
  · split
    · exact hNotice
    · split
      · exact slotsOk_mapLink _ h
      · exact hNotice
      · exact hNotice
  · exact h

theorem slotsOk_txEnd {s : State} (h : s.slotsOk) : (txEnd s).slotsOk := by
  unfold txEnd
  split
  · exact h
  · split
    · split
      · exact slotsOk_resetTo _ _ s
      · exact slotsOk_txStart (slotsOk_mapLink _ h)
    · exact h

/-! ### Every command -/

theorem slotsOk_elapse (us : Nat) {s : State} (h : s.slotsOk) : (elapse us s).slotsOk :=
  slotsOk_of_same h rfl rfl rfl rfl

/-- Every command keeps the window; the traverse period timer runs only in MOTION and STOPPING. -/
theorem slotsOk_exec (i : Instr) {s t : State} (h : s.slotsOk)
    (hTraverse : s.axes.timer.isSome = true → s.job.state = .motion ∨ s.job.state = .stopping)
    (he : exec i s = .next t) : t.slotsOk := by
  have next_iff : ∀ {u}, Host.Outcome.next (φ := Fault) (ρ := Refusal) u = .next t → u.slotsOk → t.slotsOk := by
    intro u e hu
    injection e with e
    exact e ▸ hu
  cases i with
  | hardwareReset straps => exact next_iff he (slotsOk_resetTo _ _ s)
  | frameReceived kind body => exact next_iff he (slotsOk_completeFrame kind body h)
  | gapTimerExpiry => exact next_iff he (slotsOk_afterSet 0 .frameTimeout h)
  | holdFlowMark => exact next_iff he (slotsOk_mapLink _ h)
  | goFlowMark => exact next_iff he (slotsOk_mapLink _ h)
  | txFrameStart => exact next_iff he (slotsOk_txStart h)
  | txFrameEnd => exact next_iff he (slotsOk_txEnd h)
  | flowMarkSend => exact next_iff he (slotsOk_mapLink _ h)
  | interpolationPeriodExpiry =>
    refine next_iff he ?_
    split
    · exact slotsOk_interpolationExpiry h
    · exact h
  | indexArrival now => exact next_iff he (slotsOk_indexTaken now (slotsOk_elapse _ h))
  | spinupTimerExpiry => exact next_iff he (slotsOk_spinupFailed h)
  | stallTimerExpiry => exact next_iff he (slotsOk_stallReached h)
  | coastTimerExpiry => exact next_iff he (slotsOk_of_keeps (coastReached_keeps s) h)
  | phaseDelayExpiry => exact next_iff he (slotsOk_of_keeps (.ite (mapLoad_keeps _ s) (.refl _ s)) h)
  | settlingComplete =>
    refine next_iff he ?_
    unfold settled
    split
    · exact slotsOk_of_keeps (.ite (mapLoad_keeps _ s) (.refl _ s)) h
    · exact h
    · exact h
  | measuringComplete code => exact next_iff he (slotsOk_measured _ h)
  | inputRawChange i active => exact next_iff he (slotsOk_rawChange i active h)
  | filterTimerExpiry i => exact next_iff he (slotsOk_filterReached i h)
  | traversePeriodExpiry =>
    refine next_iff he ?_
    split
    · next ht => exact slotsOk_traverseExpiry h (hTraverse ht)
    · exact h
  | starveDwellExpiry => exact next_iff he (slotsOk_dwellReached h)
  | receivedByte b stopHigh => exact next_iff he (slotsOk_receiveByte b stopHigh h)
  | stepIssued a => exact next_iff he (slotsOk_of_keeps (mapAxes_keeps _ s) h)
  | _ => exact next_iff he (slotsOk_takeRequest rfl h)

/-- Settles O55: every command keeps the window, and so does the passing of time. -/
theorem slotsKept : Obligations.SlotsKept := by
  intro s t hModes h he
  unfold step at he
  split at he
  · unfold idleStep at he
    split at he
    · exact slotsOk_exec _ h hModes.traversing he
    · injection he with he
      exact he ▸ slotsOk_elapse 1 h
  · next c rest _ =>
      exact slotsOk_exec c (s := { s with pending := rest })
        (slotsOk_of_same h rfl rfl rfl rfl) hModes.traversing he

end Sys2Proof.Machine

namespace Sys2Proof.Machine

set_option Elab.async false

/-! ## The two resets (R21, R59, R76, R93, R108, R121, R134, R147, R160) -/

/-- Power-up leaves what a reset of that state leaves. -/
theorem reset_eq_resetTo : State.reset = State.reset.resetTo (.ofStraps 0) 0 := rfl

theorem resetTo_modesOk (rate : LineRate) (straps : BitVec 2) (s : State) : (s.resetTo rate straps).modesOk := by
  constructor <;> simp [State.resetTo, Guard.reset, Interp.reset, Axes.reset, Job.reset]

theorem resetTo_faultOk (rate : LineRate) (straps : BitVec 2) (s : State) : (s.resetTo rate straps).faultOk := by
  intro h
  cases h

theorem resetTo_queuesOk (rate : LineRate) (straps : BitVec 2) (s : State) : (s.resetTo rate straps).queuesOk :=
  ⟨Nat.zero_le _, Nat.zero_le _, fun _ _ he => absurd he List.not_mem_nil⟩

theorem resetTo_bladeOk (rate : LineRate) (straps : BitVec 2) (s : State) : (s.resetTo rate straps).bladeOk := by
  constructor <;> simp [State.resetTo, Stroke.reset, Params.reset]

theorem get_reset (a : Axis) : Axes.reset.get a = .reset := by
  cases a <;> rfl

theorem resetTo_rangesOk (rate : LineRate) (straps : BitVec 2) (s : State) : (s.resetTo rate straps).rangesOk := by
  constructor
  case enabled =>
    intro a _
    show (Axes.reset.get a).ref = _
    rw [get_reset]
    rfl
  all_goals simp [State.resetTo, Load.reset, Governor.reset, Axes.reset, AxisState.reset, Planner.reset]

/-- Settles O4: each condition holds after any reset, and power-up leaves what a reset leaves. -/
theorem conditionsAtReset : Obligations.ConditionsAtReset := by
  unfold Obligations.ConditionsAtReset
  rw [reset_eq_resetTo]
  exact ⟨slotsOk_resetTo _ _ _, resetTo_queuesOk _ _ _, resetTo_modesOk _ _ _, resetTo_faultOk _ _ _,
    resetTo_bladeOk _ _ _, resetTo_paramsOk _ _ _, resetTo_rangesOk _ _ _⟩

/-- R160: the strap levels name the line rate. -/
theorem ofStraps_bits (straps : BitVec 2) : (LineRate.ofStraps straps).bits =
    if straps = 0 then 115200 else if straps = 1 then 460800 else if straps = 2 then 921600 else 2000000 := by
  decide +revert

theorem resetTo_keeps (rate : LineRate) (straps : BitVec 2) (s : State) :
    Keeps [.params, .store, .planner, .interp, .gov, .stroke, .load, .axes, .guard, .job, .link] s
      (s.resetTo rate straps) := by
  intro b hb
  cases b <;> first | rfl | simp at hb

/-- Settles O3: every block is at its reset value; the accepted levels are those of the pins. -/
theorem hardwareResetLeaves : Obligations.HardwareResetLeaves := by
  intro straps s
  refine ⟨_, exec_hardwareReset straps s, resetTo_keeps _ _ s, rfl, rfl, rfl, rfl, rfl, rfl, rfl, fun a => ?_, rfl, rfl,
    rfl, rfl, rfl, fun i => ?_, rfl, rfl, ofStraps_bits straps⟩
  · show Axes.reset.get a = _
    rw [get_reset]
    rfl
  · show (Guard.reset fun j => (s.guard.input j).raw).input i = _
    rw [input_reset]
    cases i <;> rfl

end Sys2Proof.Machine

namespace Sys2Proof.Machine

set_option Elab.async false

/-! ## A request taken by a ready Link (R165) -/

/-- R165: the frame of a well-formed request is judged as that request. -/
theorem judgeRequest_frame {i : Instr} {kind : Byte} {body : List Byte} (hf : requestFrame i = some (kind, body))
    (hw : i.wellFormed = true) : judgeRequest kind body = .request i := by
  cases i <;> cases hf
  case set id v => exact congrArg (fun w => Judged.request (.set id w)) (rd32_le32 v)
  case window b e m =>
    exact (congrArg₂ (fun b e => Judged.request (.window b e m)) (rd16_le16 b) (rd16_le16 e))
  case append => exact if_pos (by simpa [Instr.wellFormed] using hw)
  case slot index => exact congrArg (fun w => Judged.request (.slot w)) (rd16_le16 index)
  case start n x y => exact congrArg₂ (fun x y => Judged.request (.start n x y)) (rd32_le32 x) (rd32_le32 y)
  case move x y c =>
    show Judged.request (.move _ _ _) = _
    rw [rd32_le32, rd32_le32, rd16_le16]
  all_goals rfl

/-- R165: a ready Link hands a request to its block at once; its entry stands last, with the block's mark. -/
theorem exec_ready {i : Instr} {kind : Byte} {body : List Byte} {take : State → State × Mark} {s : State} (hr : s.ready)
    (hf : requestFrame i = some (kind, body) := by rfl) (hw : i.wellFormed = true := by rfl)
    (ht : requestTake i = some take := by rfl) :
    exec i s = .next ((take (s.arrived i)).1.mapLink fun l =>
      { l with requests := s.link.requests ++ entryOf i (take (s.arrived i)).2 }) := by
  obtain ⟨take', ht', he⟩ := exec_request hf
  cases ht.symm.trans ht'
  rw [he, takeRequest_ready hf (judgeRequest_frame hf hw) hr (block_queue ht _).1 (block_mark ht _)]

/-- R165: a request that its block answers without an effect leaves its answered entry and nothing else. -/
theorem exec_ready_answer {i : Instr} {kind : Byte} {body : List Byte} {take : State → State × Mark} {r : Reply}
    {s : State} (hr : s.ready) (ha : take (s.arrived i) = (s.arrived i, .ready r))
    (hf : requestFrame i = some (kind, body) := by rfl) (hw : i.wellFormed = true := by rfl)
    (ht : requestTake i = some take := by rfl) : exec i s = .next (s.withEntry i (.ready r)) := by
  rw [exec_ready hr hf hw ht, ha]
  rfl

/-! ## GET and SLOT (R40, R169, 12.4) -/

/-- R169: GET reads the parameter of its identifier, if there is one. -/
theorem exec_get_ready (id : Byte) {s : State} (hr : s.ready) :
    exec (.get id) s = .next (s.withEntry (.get id) (.ready
      (match s.storedAt id.toNat with
      | none => ⟨.badField, []⟩
      | some h => ⟨.ok, i32 h⟩))) := by
  refine exec_ready_answer (take := takeGet id) hr ?_
  unfold takeGet
  rw [storedAt_eq]
  cases hp : paramOfId id.toNat with
  | none => rfl
  | some p => cases p <;> rfl

/-- R40: SLOT reads the slot of its number. -/
theorem exec_slot_ready (index : Half) {s : State} (hr : s.ready) :
    exec (.slot index) s = .next (s.withEntry (.slot index) (.ready
      (if index.toNat ≤ 511 then ⟨.ok, slotData s index.toNat⟩ else ⟨.badField, []⟩))) := by
  refine exec_ready_answer (take := takeSlot index) hr ?_
  unfold takeSlot
  split <;> rfl

theorem inWindow_eq (st : Store) (i : Nat) :
    st.inWindow i = (decide (st.winBegin ≤ i) && decide (i ≤ st.winEnd)) := by
  unfold Store.inWindow
  exact Bool.decide_and _ _

/-- 12.4: an EMPTY slot is sent as its state, whether it lies inside the window, and no presence. -/
theorem slotData_empty {i : Nat} {s : State} (h : s.store.slot i = none) :
    slotData s i =
      u8 SlotState.empty.code ++ flag8 (decide (s.store.winBegin ≤ i) && decide (i ≤ s.store.winEnd)) ++ u8 0 := by
  unfold slotData Store.slotState
  rw [h, inWindow_eq]

/-- 12.4: the kinds with a path are those other than PAUSE, and the arcs are the two turning kinds. -/
theorem kind_flags (k : SegmentKind) :
    k.moving = decide (k ≠ .pause) ∧ k.isArc = (decide (k = .arcCw) || decide (k = .arcCcw)) := by
  cases k <;> exact ⟨rfl, rfl⟩

/-- 12.4: the record of a slot that is not EMPTY, field by field. -/
theorem recordBytes_eq (g : Segment) (p : Nat) :
    recordBytes g p =
      u8 g.kind.code ++ u8 (bits [g.pivotOk, g.last]) ++ i32 g.stopAt.x ++ i32 g.stopAt.y ++ i32 g.centre.x ++
        i32 g.centre.y ++ u32 (if g.kind = .pause then g.duration else g.length) ++ u16 g.entryHeading ++
        u16 g.exitHeading ++ u16 g.feed ++ u8 (g.tag.getD 0) ++ u8 (g.hint.getD 0) ++ u16 (g.advance.getD 0) ++
        u16 g.number ++ i32 g.startAt.x ++ i32 g.startAt.y ++ i32 g.box.minX ++ i32 g.box.maxX ++ i32 g.box.minY ++
        i32 g.box.maxY ++ u32 g.radius ++ u16 g.sweep ++ i16 g.delta ++
        u8 ((g.junction.map JunctionClass.code).getD 0) ++ u16 g.entrySpeed ++ u16 g.exitSpeed ++ u32 p := by
  have hLength : (if g.kind.moving then g.length else g.duration) =
      if g.kind = .pause then g.duration else g.length := by
    cases g.kind <;> rfl
  unfold recordBytes
  rw [hLength]
  cases g.junction <;> rfl

/-- Settles O20: a stored value is what its parameter reads, and a record is sent field by field. -/
theorem readsAnswer : Obligations.ReadsAnswer := by
  refine ⟨fun s hr => ⟨fun id => exec_get_ready id hr, fun i => exec_slot_ready i hr⟩, fun i s => ⟨slotData_empty, ?_⟩⟩
  intro sl hs
  obtain ⟨hMoving, hArc⟩ := kind_flags sl.seg.kind
  unfold slotData Store.slotState Segment.presence
  rw [hs, inWindow_eq]
  dsimp only
  rw [recordBytes_eq, hMoving, hArc, List.append_assoc]
  rfl

/-! ## WINDOW (R23) -/

/-- R23: the window modes. -/
theorem modeOfCode_eq (m : Nat) :
    modeOfCode m = if m = 0 then some .stream else if m = 1 then some .repeating else none := by
  unfold modeOfCode
  split <;> simp_all

/-- R23: outside IDLE, and over a window that holds a record, WINDOW is refused. -/
theorem takeWindow_refused (b e : Half) (m : Byte) (s : State) :
    (s.job.state ≠ .idle → takeWindow b e m s = answer .busy s) ∧
      (s.job.state = .idle → s.store.slots ≠ [] → takeWindow b e m s = answer .notEmpty s) := by
  unfold takeWindow
  refine ⟨fun hj => if_pos hj, fun hj hs => ?_⟩
  rw [if_neg (not_not.mpr hj), if_pos hs]

/-- R23: in IDLE, over an empty window, the window is set if it fits. -/
theorem takeWindow_idle {b e : Half} {m : Byte} {s : State} (hj : s.job.state = .idle) (hs : s.store.slots = []) :
    takeWindow b e m s =
      if b.toNat ≤ 511 ∧ e.toNat ≤ 511 ∧ b.toNat ≤ e.toNat ∧ 8 ≤ e.toNat - b.toNat + 1 ∧ m.toNat ≤ 1 then
        answer .ok (setWindow b.toNat e.toNat (if m.toNat = 0 then .stream else .repeating) s)
      else answer .badField s := by
  unfold takeWindow windowFits
  rw [if_neg (not_not.mpr hj), if_neg (not_not.mpr hs), modeOfCode_eq]
  by_cases h0 : m.toNat = 0
  · simp [h0]
  · by_cases h1 : m.toNat = 1
    · simp [h1]
    · have : ¬m.toNat ≤ 1 := by omega
      simp [h0, h1, this]

/-- Settles O24: each refusal of WINDOW in its turn, and the window it sets. -/
theorem windowSet : Obligations.WindowSet := by
  intro b e m s hr fits
  obtain ⟨hBusy, hNotEmpty⟩ := takeWindow_refused b e m (s.arrived (.window b e m))
  refine ⟨fun hj => exec_ready_answer hr (hBusy hj), fun hj hs => exec_ready_answer hr (hNotEmpty hj hs),
    fun hj hs hf => exec_ready_answer hr ((takeWindow_idle (s := s.arrived _) hj hs).trans (if_neg hf)),
    fun hj hs hf => ?_⟩
  have hTake : takeWindow b e m (s.arrived (.window b e m)) =
      answer .ok
        (setWindow b.toNat e.toNat (if m.toNat = 0 then .stream else .repeating) (s.arrived (.window b e m))) :=
    (takeWindow_idle (s := s.arrived _) hj hs).trans (if_pos hf)
  refine ⟨_, exec_ready hr, ?_, ?_, ?_⟩
  · rw [hTake]
    exact (mapLink_keeps _ _).after ((mapStore_keeps _ _).after (mapLink_keeps _ s).mono (m := [.store, .link]))
  · rw [hTake]
    rfl
  · rw [hTake]
    rfl

/-! ## SET of a parameter with related ones (R37, R92, R107, R125, R169) -/

theorem afterSet_params (before : Int) (p : ParamId) (s : State) : (p.afterSet before s).params = s.params :=
  ((quiet_settings s.params s.guard).afterSet before p ⟨rfl, fun _ => ⟨rfl, rfl, rfl⟩⟩).1

/-- R169: the parameters an accepted SET leaves are those its storing leaves. -/
theorem exec_set_params {id : Byte} {p : ParamId} (v : Word) {s : State} (hr : s.ready)
    (hp : paramOfId id.toNat = some p) (hFixed : p.fixed = false)
    (hIdle : p.idleOnly = true → s.job.state = .idle) (hCode : p.undefinedCode v.toInt = false) :
    ∃ t, exec (.set id v) s = .next t ∧
      t.params = (p.write (p.hold (s.arrived (.set id v)) v.toInt).toNat (s.arrived (.set id v))).params := by
  have hIdleOnly : ¬(p.idleOnly && decide ((s.arrived (.set id v)).job.state ≠ .idle)) = true := by
    rw [Bool.and_eq_true, decide_eq_true_eq]
    exact fun h => h.2 (hIdle h.1)
  have hTake : (takeSet id v (s.arrived (.set id v))).1 = applySet p v.toInt (s.arrived (.set id v)) := by
    unfold takeSet judgeSet
    rw [hp]
    dsimp only
    rw [hFixed, hCode, if_neg Bool.false_ne_true, if_neg hIdleOnly, if_neg Bool.false_ne_true]
  refine ⟨_, exec_ready hr, ?_⟩
  rw [mapLink_params, hTake]
  exact afterSet_params _ p _

theorem clamp_nonneg (v : Int) {lo : Int} (hi : Int) (h : 0 ≤ lo) (h' : lo ≤ hi) : 0 ≤ clamp v lo hi := by
  rw [clamp_max v h']
  omega

/-- R125: the travel that is stored, against a number of counts. -/
theorem travel_toNat_le (f : Segment → Int) (ax : AxisState) (slots : List (Nat × Slot)) (v : Int) {hi : Int}
    (h : 1000 ≤ hi) (n : Nat) :
    (max (clamp v 1000 hi) (greatest f ax.referencedPos slots)).toNat ≤ n ↔
      clamp v 1000 hi ≤ n ∧ (ax.ref = .referenced → ax.pos ≤ n) ∧ ∀ e ∈ slots, f e.2.seg ≤ n := by
  rw [Int.toNat_le]
  exact travel_le f ax slots (clamp_nonneg v hi (by decide) h) n

/-- Settles O23: the related parameter is written with the one that is set, and a travel is raised to its floor. -/
theorem relatedParameters : Obligations.RelatedParameters := by
  intro v s hr _
  refine ⟨fun hj => ?_, ?_, ?_, fun hj => ?_, fun hj => ?_⟩
  · obtain ⟨t, he, ht⟩ := exec_set_params (id := 0x01) (p := .accel) v hr rfl rfl (fun _ => hj) rfl
    refine ⟨t, he, ?_⟩
    rw [ht]
    exact ⟨Int.toNat_of_nonneg (clamp_nonneg _ _ (by decide) (by decide)), rfl⟩
  · obtain ⟨t, he, ht⟩ := exec_set_params (id := 0x0A) (p := .strokeCut) v hr rfl rfl nofun rfl
    refine ⟨t, he, ?_⟩
    rw [ht]
    exact ⟨Int.toNat_of_nonneg (clamp_nonneg _ _ (by decide) (by decide)), rfl⟩
  · obtain ⟨t, he, ht⟩ := exec_set_params (id := 0x24) (p := .flowHold) v hr rfl rfl nofun rfl
    refine ⟨t, he, ?_⟩
    rw [ht]
    refine ⟨Int.toNat_of_nonneg (clamp_nonneg _ _ (by decide) (by decide)), ?_⟩
    show (if s.params.flowGo ≤ (clamp v.toInt 1 64).toNat then (clamp v.toInt 1 64).toNat + 1 else s.params.flowGo) =
      max s.params.flowGo ((clamp v.toInt 1 64).toNat + 1)
    split <;> omega
  · obtain ⟨t, he, ht⟩ := exec_set_params (id := 0x1E) (p := .travelX) v hr rfl rfl (fun _ => hj) rfl
    refine ⟨t, he, fun n => ?_⟩
    rw [ht]
    exact travel_toNat_le (fun seg => seg.box.maxX) s.axes.x s.store.slots v.toInt (by decide) n
  · obtain ⟨t, he, ht⟩ := exec_set_params (id := 0x1F) (p := .travelY) v hr rfl rfl (fun _ => hj) rfl
    refine ⟨t, he, fun n => ?_⟩
    rw [ht]
    exact travel_toNat_le (fun seg => seg.box.maxY) s.axes.y s.store.slots v.toInt (by decide) n

end Sys2Proof.Machine

namespace Sys2Proof.Machine

set_option Elab.async false

/-! ## ESTOP and the immediate stop (R31, R70, R87, R101, R124, R132, R143) -/

/-- R135: an input is accepted ACTIVE. -/
def State.acceptedActive (i : InputId) (s : State) : State :=
  s.mapGuard fun g => g.updateInput i fun inp => { inp with accepted := true, timer := none }

/-- R132: ESTOP is reported to no axis, so the filter timer's end with a raw level ACTIVE makes its activation edge. -/
theorem filterReached_estop {s : State} (ht : timerOut (s.guard.input .estop).timer (s.guard.input .estop).filter)
    (hRaw : (s.guard.input .estop).raw = true) (hAccepted : (s.guard.input .estop).accepted = false) :
    filterReached .estop s = activationAction .estop (s.acceptedActive .estop) := by
  rw [filterReached_ends ht]
  unfold filterEnds acceptLevel
  dsimp only
  rw [if_neg (by rw [hRaw, hAccepted]; decide), hRaw]
  rfl

/-- R136, R143: with the action HALT, outside IDLE and FAULT, it makes an immediate stop. -/
theorem exec_estop {s : State} (hIdle : s.job.state ≠ .idle) (hFault : s.job.state ≠ .fault)
    (hAction : (s.guard.input .estop).action = .halt)
    (ht : timerOut (s.guard.input .estop).timer (s.guard.input .estop).filter)
    (hRaw : (s.guard.input .estop).raw = true) (hAccepted : (s.guard.input .estop).accepted = false) :
    exec (.filterTimerExpiry .estop) s =
      .next (immediateStop (.input .estop) (s.acceptedActive .estop)) := by
  have hHalt : ((s.acceptedActive .estop).guard.input .estop).action = .halt := by
    unfold State.acceptedActive
    rw [mapGuard_guard, input_updateInput, if_pos rfl]
    exact hAction
  rw [exec_filterTimerExpiry, filterReached_estop ht hRaw hAccepted]
  unfold activationAction
  rw [hHalt]
  dsimp only
  rw [takeCause_immediate_eq, if_neg (show (s.acceptedActive .estop).job.state ≠ .idle from hIdle),
    if_neg (show (s.acceptedActive .estop).job.state ≠ .fault from hFault)]

/-- R101: after a coast request the blade is not driven. -/
theorem toCoast_undriven {k : Stroke} (h : k.state.driven = false → k.duty = 0) :
    k.toCoast.state.driven = false ∧ k.toCoast.duty = 0 := by
  unfold Stroke.toCoast
  split
  · exact ⟨rfl, rfl⟩
  · next hd =>
    have hd : k.state.driven = false := Bool.not_eq_true _ |>.mp hd
    exact ⟨hd, h hd⟩

/-- Settles O52: the filter timer of ESTOP makes an immediate stop, which leaves each block as its rules say. -/
theorem immediateStopActs : Obligations.ImmediateStopActs := by
  intro s hBlade hIdle hFault hAction hTimer hRaw hAccepted
  have kStop := immediateStop_keeps (.input .estop) (s.acceptedActive .estop)
  obtain ⟨hJob, hGov, hInterp, hStroke, hAxes⟩ := immediateStop_parts (.input .estop) (s.acceptedActive .estop)
  have hGuard := immediateStop_guard (.input .estop) (s.acceptedActive .estop)
  have hLoad := immediateStop_load (.input .estop) (s.acceptedActive .estop)
  have hOutcome := immediateStop_outcome (.input .estop) (s.acceptedActive .estop)
  obtain ⟨hHome, hTraverse, hTimers, hMotion, hPath, hNotices⟩ :=
    immediateStop_stops (.input .estop) (s.acceptedActive .estop)
  obtain ⟨hDriven, hDuty⟩ := toCoast_undriven hBlade.undriven
  generalize ht : immediateStop (.input .estop) (s.acceptedActive .estop) = t at *
  refine ⟨t, ht ▸ exec_estop hIdle hFault hAction hTimer hRaw hAccepted, kStop.after (mapGuard_keeps _ s).mono,
    by rw [hJob], by rw [hJob], by rw [hJob], by rw [hGuard]; rfl, by rw [hGuard], hGov, hAxes, hTraverse, hTimers,
    hHome, by rw [hInterp]; rfl, by rw [hInterp]; rfl, by rw [hInterp]; rfl, by rw [hInterp]; rfl, by rw [hInterp]; rfl,
    by rw [hInterp]; rfl, by rw [hInterp]; rfl, by rw [hStroke]; exact hDriven, by rw [hStroke]; exact hDuty,
    hStroke, ?_, hMotion, fun he hm => ?_, fun he hm => ?_, fun w hw a ha => ?_, hNotices⟩
  · rw [hLoad, hStroke]
    exact strokeTo_load _ _
  · obtain ⟨hStore, hMarks⟩ := hPath he
    rw [show (s.acceptedActive .estop).store.mode = .stream from hm] at hStore hMarks
    exact ⟨hStore, hMarks⟩
  · obtain ⟨hStore, hMarks⟩ := hPath he
    rw [show (s.acceptedActive .estop).store.mode = .repeating from hm] at hStore hMarks
    exact ⟨hStore, hMarks⟩
  · rw [hOutcome a]
    exact if_pos ⟨by show s.axes.home.isSome = true; rw [hw]; rfl, ha⟩

end Sys2Proof.Machine

namespace Sys2Proof.Machine

set_option Elab.async false

/-! ## An expiry under way (R60) -/

/-- `y` stands in an expiry of `s` whose path has been moved along, before the targets are handed on: only the count of
the completions has moved in the job, nothing but `queued` has been queued, GO is handed when the flow state has
opened. -/
structure Underway (s y : State) (queued : List Notice) : Prop where
  keeps : Keeps [.store, .planner, .interp, .gov, .axes, .job, .link] s y
  job : y.job = { s.job with executed := y.job.executed, lastCompleted := y.job.lastCompleted }
  axes : y.axes = s.axes.each AxisState.issueRest
  pass : y.interp.pass = s.interp.pass
  mode : y.store.mode = s.store.mode
  armed : y.store.armed = s.store.armed
  flow : y.store.flowHeld = true → s.store.flowHeld = true
  requests : y.link.requests = s.link.requests
  marks : y.link.marks =
    if s.store.flowHeld = true ∧ y.store.flowHeld = false then s.link.marks ++ [.go] else s.link.marks
  notices : s.link.notices.length + queued.length ≤ 16 → y.link.notices = s.link.notices ++ queued

theorem underway_atEvaluation (s : State) : Underway s (atEvaluation s) [] := by
  refine ⟨?_, rfl, rfl, rfl, rfl, rfl, id, rfl, ?_, fun _ => (List.append_nil _).symm⟩
  · intro b hb
    cases b <;> first | rfl | simp at hb
  · show s.link.marks = if s.store.flowHeld = true ∧ s.store.flowHeld = false then _ else _
    rw [if_neg fun h => by rw [h.1] at h; cases h.2]

variable {s y z : State} {queued : List Notice}

theorem Underway.state (u : Underway s y queued) : y.job.state = s.job.state ∧ y.job.held = s.job.held := by
  rw [u.job]
  exact ⟨rfl, rfl⟩

theorem Underway.shift (u : Underway s y queued) : passShift y = passShift s := by
  unfold passShift
  rw [u.mode, u.pass, u.job]

/-- A motion of the Interpolator and what the Governor makes of it. -/
theorem Underway.moves (u : Underway s y queued) (k : Keeps [.interp, .gov] y z)
    (hp : z.interp.pass = y.interp.pass) : Underway s z queued := by
  have eStore : z.store = y.store := k .store (by decide)
  have eLink : z.link = y.link := k .link (by decide)
  have eJob : z.job = y.job := k .job (by decide)
  refine ⟨k.after u.keeps, ?_, (k .axes (by decide)).trans u.axes, hp.trans u.pass, ?_, ?_, ?_, ?_, ?_, ?_⟩
  · rw [eJob]
    exact u.job
  · rw [eStore]
    exact u.mode
  · rw [eStore]
    exact u.armed
  · rw [eStore]
    exact u.flow
  · rw [eLink]
    exact u.requests
  · rw [eLink, eStore]
    exact u.marks
  · rw [eLink]
    exact u.notices

theorem completedFlow_le (h : completedFlow y = true) : y.store.flowHeld = true := by
  unfold completedFlow at h
  exact (Bool.and_eq_true _ _ ▸ h).1

/-- A flow state that opens over two completions hands GO at one of them. -/
theorem opened_once {a b c : Bool} (m : List FlowMark) (hb : b = true → a = true) (hc : c = true → b = true) :
    (if (b && !c) = true then (if a = true ∧ b = false then m ++ [.go] else m) ++ [.go]
      else if a = true ∧ b = false then m ++ [.go] else m) = if a = true ∧ c = false then m ++ [.go] else m := by
  cases c with
  | true =>
    rw [hb (hc rfl), hc rfl]
    rfl
  | false =>
    cases b with
    | true =>
      rw [hb rfl]
      rfl
    | false => cases a <;> rfl

/-- R30, R36, R64: a completion is reported. -/
theorem Underway.report (u : Underway s y queued) (seg : Segment) : Underway s (reportCompletion seg y) queued := by
  obtain ⟨eJob, eInterp, eStore, eLink⟩ := reportCompletion_eq seg y
  have k := reportCompletion_keeps seg y
  have eFlow : (reportCompletion seg y).store.flowHeld = completedFlow y := (congrArg Store.flowHeld eStore).trans rfl
  have eMode : y.store.complete.mode = y.store.mode := complete_mode _
  have eArmed : y.store.complete.armed = y.store.armed := by
    unfold Store.complete
    split <;> rfl
  refine ⟨k.after u.keeps, ?_, (k .axes (by decide)).trans u.axes, ?_, ?_, ?_, fun h => ?_, ?_, ?_, ?_⟩
  · rw [eJob]
    unfold Job.count
    rw [u.job]
  · rw [eInterp]
    exact u.pass
  · rw [eStore]
    exact eMode.trans u.mode
  · rw [eStore]
    exact eArmed.trans u.armed
  · exact u.flow (completedFlow_le (eFlow ▸ h))
  · rw [eLink]
    exact u.requests
  · rw [eLink, eFlow]
    show (if (y.store.flowHeld && !completedFlow y) = true then y.link.marks ++ [.go] else y.link.marks) = _
    rw [u.marks]
    exact opened_once _ u.flow completedFlow_le
  · rw [eLink]
    exact u.notices

/-- R61: a segment is taken. -/
theorem Underway.take (u : Underway s y queued) (k : Nat) (nx : Segment) (p : Nat) :
    Underway s (takeSegment k nx p y) (queued ++ s.tagOf nx) := by
  have kt := takeSegment_keeps k nx p y
  have eStore := takeSegment_store k nx p y
  have eJob : (takeSegment k nx p y).job = y.job := kt .job (by decide)
  have ePass : (takeSegment k nx p y).interp.pass = y.interp.pass := by
    rw [takeSegment_interp, junctionAction_pass]
    rfl
  obtain ⟨eMarks, eRequests, hNotices⟩ := takeSegment_queues k nx p y
  refine ⟨kt.after u.keeps, ?_, (kt .axes (by decide)).trans u.axes, ePass.trans u.pass, ?_, ?_, ?_,
    eRequests.trans u.requests, ?_, fun hl => ?_⟩
  · rw [eJob]
    exact u.job
  · rw [eStore]
    exact u.mode
  · rw [eStore]
    exact u.armed
  · rw [eStore]
    exact u.flow
  · rw [eMarks, eStore]
    exact u.marks
  · have hTag : s.tagOf nx = y.tagOf nx := by
      unfold State.tagOf
      rw [u.pass]
    rw [List.length_append] at hl
    have hBefore := u.notices (by omega)
    rw [hTag] at hl ⊢
    unfold State.tagOf at hl ⊢
    cases hg : nx.tag with
    | none =>
      rw [takeSegment_link, hg]
      dsimp only
      rw [hBefore]
      simp
    | some g =>
      rw [hg] at hl
      have hRoom : y.link.notices.length < 16 := by
        rw [hBefore, List.length_append]
        simp only [Option.map_some, Option.toList_some, List.length_singleton] at hl
        omega
      rw [hNotices g hg hRoom, hBefore, List.append_assoc]
      rfl

/-! ### The end of an expiry that goes on -/

/-- R60, steps 5 and 6: `t` is `y` with the targets handed on and the low-water evaluation made. -/
structure HandedOn (s y t : State) (queued : List Notice) : Prop where
  keeps : Keeps [.axes, .store, .link] y t
  store : t.store = { y.store with armed := t.store.armed }
  requests : t.link.requests = s.link.requests
  marks : s.goMarked t
  notices : s.link.notices.length + queued.length < 16 →
    t.link.notices = s.link.notices ++ queued ++ s.lowQueued t
  handed : Axes.handed s.params t.interp.targetX t.interp.targetY t.interp.targetC s.axes t.axes

theorem Underway.hand_axes (u : Underway s y queued) :
    Axes.handed s.params y.interp.targetX y.interp.targetY y.interp.targetC s.axes (handInterpTargets y).axes := by
  rw [handInterpTargets_eq]
  show Axes.handed _ _ _ _ _ (handTargets y.params _ _ _ y.axes)
  rw [u.axes, show y.params = s.params from u.keeps .params (by decide)]
  exact handTargets_handed _ _ _ _ _

theorem handInterpTargets_keeps (y : State) : Keeps [.axes] y (handInterpTargets y) :=
  mapAxes_keeps _ y

theorem Underway.handedOn (u : Underway s y queued) : HandedOn s y (lowWater (handInterpTargets y)) queued := by
  have kl := lowWater_keeps (handInterpTargets y)
  have kh := handInterpTargets_keeps y
  have eInterp : (lowWater (handInterpTargets y)).interp = y.interp := kl .interp (by decide)
  have eParams : (handInterpTargets y).params = s.params := u.keeps .params (by decide)
  obtain ⟨q1, q2, -⟩ := lowWater_queues (handInterpTargets y)
  refine ⟨(kl.mono (m := [.axes, .store, .link])).after kh.mono, ?_, q1.trans u.requests, ?_, fun hl => ?_, ?_⟩
  · rw [lowWater_store]
    rfl
  · unfold State.goMarked
    rw [q2, lowWater_store]
    exact u.marks
  · have hBefore : (handInterpTargets y).link.notices = s.link.notices ++ queued := u.notices (by omega)
    rw [lowWater_notices (s := s) (x := handInterpTargets y) u.armed eParams
      (by rw [hBefore, List.length_append]; omega), hBefore]
  · rw [eInterp, show (lowWater (handInterpTargets y)).axes = _ from kl .axes (by decide)]
    exact u.hand_axes

/-- R38, R70, R77, R150: where the path is gone on along, the low-water evaluation ends the expiry. -/
theorem expiryTail_goingOn {x : State} (h : x.job.state = .cutting ∨ x.job.state = .starved ∨
    (x.job.state = .holding ∧ (x.job.held = true ∨ 0 < x.gov.v)) ∨ (x.job.state = .stopping ∧ 0 < x.gov.v)) :
    expiryTail x = lowWater x := by
  have hRest : reportRest x = x := by
    rcases h with h | h | ⟨h, hv⟩ | ⟨h, hv⟩ <;> unfold reportRest <;> rw [h] <;> dsimp only
    · rw [if_neg]
      simp only [Bool.and_eq_true, Bool.not_eq_true', decide_eq_true_eq]
      rintro ⟨⟨hHeld, hStands⟩, -⟩
      rcases hv with hv | hv
      · rw [hv] at hHeld
        cases hHeld
      · omega
    · rw [if_neg (by omega)]
  have hIn : x.job.state.inJob = true ∧ x.job.state ≠ .warmup := by
    rcases h with h | h | ⟨h, -⟩ | ⟨h, -⟩ <;> rw [h] <;> exact ⟨rfl, nofun⟩
  have eJob : (lowWater x).job = x.job := lowWater_keeps x .job (by decide)
  unfold expiryTail
  rw [hRest, lowWaterAfter_job, if_pos hIn.1, warmupPassage_other (by rw [eJob]; exact hIn.2)]

/-- R60: an expiry of a job that cuts, or that holds under way or stops and has feed left. -/
theorem Underway.goesOn (u : Underway s y queued)
    (h : s.job.state = .cutting ∨ ((s.cuts ∨ s.job.state = .stopping) ∧ 0 < y.gov.v)) :
    HandedOn s y (expiryTail (handInterpTargets y)) queued := by
  have hs : (handInterpTargets y).job.state = s.job.state := u.state.1
  rw [expiryTail_goingOn]
  · exact u.handedOn
  · rw [hs]
    rcases h with h | ⟨(h | ⟨h, -⟩) | h, hv⟩
    · exact .inl h
    · exact .inl h
    · exact .inr (.inr (.inl ⟨h, .inr hv⟩))
    · exact .inr (.inr (.inr ⟨h, hv⟩))

/-! ### Motion short of the end -/

/-- R77, R86: a job that cuts, holds under way or stops, with no pivot left, is fed. -/
theorem feedBarred_false {s : State} (hj : s.cuts ∨ s.job.state = .stopping) (hp : s.interp.pivot = 0) :
    feedBarred s = false := by
  unfold feedBarred
  rw [hp]
  rcases hj with (h | ⟨h, hh⟩) | h
  · rw [h]
    rfl
  · rw [h, hh]
    rfl
  · rw [h]
    rfl

/-- The Interpolator moved along by V. -/
def State.movedOn (s : State) : State :=
  (atEvaluation s).mapInterp fun n => { n with p := n.p + (atEvaluation s).gov.v }

theorem movedOn_keeps (s : State) : Keeps [.interp] (atEvaluation s) s.movedOn :=
  mapInterp_keeps _ _

theorem underway_movedOn (s : State) : Underway s s.movedOn [] :=
  (underway_atEvaluation s).moves (movedOn_keeps s).mono rfl

theorem activeSegment_atEvaluation {s : State} {i : Nat} {sl : Slot} (ha : s.interp.active = some i)
    (hs : s.store.slot i = some sl) : activeSegment (atEvaluation s) = some sl.seg := by
  unfold activeSegment
  rw [show (atEvaluation s).interp.active = some i from ha]
  dsimp only
  rw [show (atEvaluation s).store.slot i = some sl from hs]
  rfl

/-- R62 to R64: a moving segment is followed to its new progress. -/
theorem motionAndEnds_short {s : State} {i : Nat} {sl : Slot} (hj : s.cuts ∨ s.job.state = .stopping)
    (ha : s.interp.active = some i) (hs : s.store.slot i = some sl) (hm : sl.seg.kind.moving = true)
    (hp : s.interp.pivot = 0) (hShort : s.interp.p + (evaluateGovernor s).gov.v < sl.seg.length * 1000) :
    motionAndEnds (atEvaluation s) = targetSegment sl.seg s.movedOn := by
  have hFed : ¬feedBarred s.movedOn = true := by
    rw [feedBarred_false (s := s.movedOn) hj hp]
    exact Bool.false_ne_true
  have hNot : ¬sl.seg.length * 1000 ≤ s.movedOn.interp.p := Nat.not_le.mpr hShort
  unfold motionAndEnds
  rw [if_neg (show ¬0 < (atEvaluation s).interp.pivot from Nat.not_lt.mpr hp.le), activeSegment_atEvaluation ha hs]
  dsimp only
  rw [if_pos hm]
  exact (if_neg hNot).trans (if_neg hFed)

end Sys2Proof.Machine

namespace Sys2Proof.Machine

set_option Elab.async false

/-! ## The end of the active segment (R30, R55, R64, R65, R68) -/

/-- The state of an expiry once the completion of its active segment is reported. -/
def State.ended (seg : Segment) (s : State) : State :=
  reportCompletion seg (atSegmentEnd seg (atEvaluation s))

/-- The plan a completion at the execution pointer is followed by. -/
def State.completion (seg : Segment) (s : State) : State :=
  replan (some seg) { s with store := s.store.completedAt s.params.flowGo s.store.execPtr }

theorem atSegmentEnd_keeps (seg : Segment) (s : State) : Keeps [.interp] s (atSegmentEnd seg s) := by
  rw [atSegmentEnd_eq]
  exact mapInterp_keeps (fun _ => (atSegmentEnd seg s).interp) s

theorem atSegmentEnd_pass (seg : Segment) (s : State) : (atSegmentEnd seg s).interp.pass = s.interp.pass := by
  rw [atSegmentEnd_interp]

theorem underway_atSegmentEnd (seg : Segment) (s : State) : Underway s (atSegmentEnd seg (atEvaluation s)) [] :=
  (underway_atEvaluation s).moves (atSegmentEnd_keeps seg _).mono (atSegmentEnd_pass seg _)

theorem underway_ended (seg : Segment) (s : State) : Underway s (s.ended seg) [] :=
  (underway_atSegmentEnd seg s).report seg

theorem ended_gov (seg : Segment) (s : State) : (s.ended seg).gov = (evaluateGovernor s).gov :=
  (reportCompletion_keeps seg _ .gov (by decide)).trans (atSegmentEnd_keeps seg (atEvaluation s) .gov (by decide))

theorem ended_job (seg : Segment) (s : State) : (s.ended seg).job = s.job.count seg :=
  (reportCompletion_eq seg _).1.trans
    (congrArg (Job.count seg) (atSegmentEnd_keeps seg (atEvaluation s) .job (by decide)))

theorem kind_moving_iff (k : SegmentKind) : k.moving = false ↔ k = .pause := by
  cases k <;> decide

/-- R64, R68: where the Interpolator stands once the completion is reported. -/
theorem ended_interp {seg : Segment} {past : Nat} {s : State} (he : s.atEndOf seg past) :
    (s.ended seg).interp = s.atEnd seg := by
  have hReport : (s.ended seg).interp =
      { (atSegmentEnd seg (atEvaluation s)).interp with active := none, p := 0 } := (reportCompletion_eq seg _).2.1
  rw [hReport]
  unfold atSegmentEnd State.atEnd
  cases hm : seg.kind.moving with
  | true =>
    have hk : seg.kind ≠ .pause := fun hk => by rw [(kind_moving_iff _).mpr hk] at hm; cases hm
    rw [if_pos rfl]
    dsimp only
    rw [if_neg hk]
    rfl
  | false =>
    have hp : s.interp.pause - 1 = 0 := by
      unfold State.atEndOf at he
      rw [hm] at he
      have := he.1
      omega
    rw [if_neg Bool.false_ne_true]
    dsimp only
    rw [if_pos ((kind_moving_iff _).mp hm)]
    exact congrArg (fun k => ({ s.interp with timer := some 0, active := none, p := 0, pause := k } : Interp)) hp

/-- R60, R64: a moving segment ends, in any job state. -/
theorem motionAndEnds_movingEnd {s : State} {seg : Segment} {past : Nat} (ha : activeSegment s = some seg)
    (hp : s.interp.pivot = 0) (hm : seg.kind.moving = true) (he : s.interp.p + s.gov.v = seg.length * 1000 + past) :
    motionAndEnds s = completeSegment (carryFuel past) seg past (atSegmentEnd seg s) := by
  have hPast : s.interp.p + s.gov.v - seg.length * 1000 = past := by omega
  have hLe : seg.length * 1000 ≤ s.interp.p + s.gov.v := by omega
  unfold motionAndEnds
  rw [if_neg (by omega), ha]
  dsimp only
  rw [if_pos hm]
  unfold advanceSegment atSegmentEnd
  dsimp only
  refine (if_pos hLe).trans ?_
  rw [if_pos hm, ← hPast]
  rfl

/-- R64, R68, R70: the expiry that ends the active segment; in STOPPING only a moving one ends. -/
theorem exec_pathEnd {i past : Nat} {sl : Slot} {s : State} (ht : s.interp.timer.isSome = true)
    (hj : s.cuts ∨ sl.seg.kind.moving = true) (ha : s.interp.active = some i)
    (hs : s.store.slot i = some sl) (hp : s.interp.pivot = 0) (he : s.atEndOf sl.seg past) :
    exec .interpolationPeriodExpiry s = .next (expiryTail (handInterpTargets
      (completeSegment (past / 1000 + 1 + 1) sl.seg past (atSegmentEnd sl.seg (atEvaluation s))))) := by
  rcases hj with hj | hm
  · exact exec_segmentEnd ht hj ha hs hp he
  · unfold State.atEndOf at he
    rw [if_pos hm] at he
    rw [exec_expiry ht (.inr (.inl (by rw [ha]; rfl))),
      motionAndEnds_movingEnd (past := past) (activeSegment_atEvaluation ha hs) hp hm he]
    rfl

/-! ### What follows a completion -/

theorem carries_iff (seg : Segment) : (seg.junction.map JunctionClass.carries).getD false = true ↔ seg.carried := by
  unfold Segment.carried
  rcases seg.junction with _ | j
  · simp
  · cases j <;> simp [JunctionClass.carries]

theorem pathGoesOn_iff (seg : Segment) (st : Store) : pathGoesOn seg st ↔
    (st.mode = .stream ∧ seg.last = false ∨ st.mode = .repeating ∧ st.execPtr + 1 ≠ st.writePtr) := by
  unfold pathGoesOn
  cases st.mode <;> simp

/-- R61, R65: the segment `nx` of slot `k` is taken: with the overshoot carried into it, or from rest. -/
def State.takesNext (k past : Nat) (nx : Segment) (r : State) : State :=
  if (nx.junction.map JunctionClass.carries).getD false then targetSegment nx (takeSegment k nx past r)
  else takeSegment k nx 0 (takeFeedAsZero r)

/-- R64: only where the path goes on, at a SMOOTH or BLEND junction, is progress carried. -/
theorem afterEnd_carry {seg next : Segment} {s u : State} (hm : u.store.mode = s.store.mode)
    (h : afterEnd seg (atFillEnd s) u = .carry next) :
    pathGoesOn seg s.store ∧ nextPlanned u = some next ∧ next.carried := by
  by_cases hg : pathGoesOn seg s.store
  · rw [afterEnd_goesOn hg hm] at h
    split at h
    · cases h
    · next nx hn =>
      split at h
      · next hc =>
        cases h
        exact ⟨hg, hn, (carries_iff _).mp hc⟩
      · cases h
  · unfold pathGoesOn at hg
    unfold afterEnd atFillEnd at h
    rw [hm] at h
    cases hs : s.store.mode <;> simp_all

variable {seg : Segment} {y : State} {nx : Segment} {n past : Nat}

theorem report_state (seg : Segment) (y : State) : (reportCompletion seg y).job.state = y.job.state :=
  (congrArg Job.state (reportCompletion_eq seg y).1).trans rfl

/-- R64, R65: the segment that follows is taken, if the overshoot does not carry past its end too. -/
theorem completeSegment_takesNext (hg : pathGoesOn seg y.store) (hn : nextPlanned (reportCompletion seg y) = some nx)
    (ho : past < nx.length * 1000 ∨ ¬nx.carried) (hj : nx.carried ∨ y.job.state ≠ .stopping) :
    completeSegment (n + 1) seg past y =
      (reportCompletion seg y).takesNext (reportCompletion seg y).store.execPtr past nx := by
  unfold completeSegment State.takesNext
  dsimp only
  rw [afterEnd_goesOn hg (reportCompletion_execPtr seg y).2, hn]
  dsimp only
  by_cases hc : (nx.junction.map JunctionClass.carries).getD false = true
  · have hShort : ¬nx.length * 1000 ≤ past := by
      rcases ho with ho | ho
      · omega
      · exact absurd ((carries_iff _).mp hc) ho
    rw [if_pos hc, if_pos hc]
    dsimp only
    rw [if_neg hShort]
  · have hRuns : (reportCompletion seg y).job.state ≠ .stopping := by
      rw [report_state]
      exact hj.resolve_left fun h => hc ((carries_iff _).mpr h)
    rw [if_neg hc, if_neg hc]
    dsimp only
    rw [if_neg (by simpa using hRuns)]

/-- R65: the overshoot passes the end of the segment that follows, and completes it too. -/
theorem completeSegment_overruns (hg : pathGoesOn seg y.store) (hn : nextPlanned (reportCompletion seg y) = some nx)
    (hc : nx.carried) (ho : nx.length * 1000 ≤ past) :
    completeSegment (n + 1) seg past y = completeSegment n nx (past - nx.length * 1000)
      (snapToEnd nx (takeSegment (reportCompletion seg y).store.execPtr nx past (reportCompletion seg y))) := by
  conv_lhs => unfold completeSegment
  dsimp only
  rw [afterEnd_goesOn hg (reportCompletion_execPtr seg y).2, hn]
  dsimp only
  rw [if_pos ((carries_iff _).mpr hc)]
  dsimp only
  rw [if_pos ho]

/-- R70: in STOPPING nothing is taken but through a SMOOTH or BLEND junction. -/
theorem completeSegment_runsOut (hj : y.job.state = .stopping)
    (hc : ∀ next, ¬(pathGoesOn seg y.store ∧ nextPlanned (reportCompletion seg y) = some next ∧ next.carried)) :
    completeSegment (n + 1) seg past y = takeFeedAsZero (reportCompletion seg y) := by
  have hStops : decide ((reportCompletion seg y).job.state = .stopping) = true := by
    rw [report_state, hj]
    rfl
  unfold completeSegment
  dsimp only
  rw [hStops]
  split
  · rfl
  · rfl
  · rfl
  · rfl
  · next next he => exact absurd (afterEnd_carry (reportCompletion_execPtr seg y).2 he) (hc next)

/-! ### The plan after a completion -/

theorem windowOk_completedAt {st : Store} (h : st.windowOk (some st.execPtr)) (flowGo : Nat) :
    (st.completedAt flowGo st.execPtr).windowOk none := by
  have hSlot : st.slot st.execPtr ≠ none := by
    obtain ⟨-, sl, hs, -⟩ := h.taken _ rfl
    rw [hs]
    exact nofun
  have hEq := complete_eq_completedAt
    (s := { State.reset with store := st, params := { State.reset.params with flowGo := flowGo } })
    h.order hSlot
  rw [← show _ = st.completedAt flowGo st.execPtr from hEq]
  exact windowOk_of_core (windowOk_complete h) rfl

theorem completedAt_execPtr {st : Store} (hg : pathGoesOn seg st) (flowGo : Nat) :
    (st.completedAt flowGo st.execPtr).execPtr = st.after st.execPtr := by
  unfold pathGoesOn at hg
  unfold Store.completedAt Store.after
  cases hm : st.mode with
  | stream => rfl
  | repeating =>
    rw [hm] at hg
    exact if_neg hg

theorem completion_completed {s : State} (h : s.store.windowOk (some s.store.execPtr)) (seg : Segment) :
    s.completed s.store.execPtr seg (s.completion seg) :=
  replan_replanned (some seg) (s := { s with store := s.store.completedAt s.params.flowGo s.store.execPtr })
    (windowOk_completedAt h _)

theorem windowOk_completion {s : State} (h : s.store.windowOk (some s.store.execPtr)) (seg : Segment) :
    (s.completion seg).store.windowOk none :=
  windowOk_replan (s := { s with store := s.store.completedAt s.params.flowGo s.store.execPtr })
    (windowOk_completedAt h _)

theorem completion_execPtr {s : State} (hg : pathGoesOn seg s.store) :
    (s.completion seg).store.execPtr = s.store.after s.store.execPtr := by
  unfold State.completion
  rw [replan_store]
  exact completedAt_execPtr hg _

/-- R48, R50: with nothing active, the replan leaves the slot at the execution pointer PLANNED, and a PAUSE there at a
STOP junction. -/
theorem replan_slot_execPtr {completed : Option Segment} {s : State} {sl : Slot} (h : s.store.windowOk none)
    (hs : (replan completed s).store.slot s.store.execPtr = some sl) :
    sl.state = .planned ∧ (sl.seg.carried → sl.seg.kind.moving = true) := by
  cases hOld : s.store.slot s.store.execPtr with
  | none =>
    rw [replan_slot_none hOld] at hs
    cases hs
  | some old =>
    have hSpan : s.store.span[0]? = some (s.store.execPtr, old) := by
      rw [← List.head?_eq_getElem?]
      unfold Store.span
      rw [spanStart_of_windowOk h, show (64 : Nat) = 63 + 1 from rfl, runFrom_head, hOld]
      rfl
    have hNew := replan_slot_span completed h hSpan (spanLegs_get completed h hSpan)
    rw [hs, plannedSlot_eq, if_neg (windowOk_idle h hOld)] at hNew
    cases hNew
    refine ⟨rfl, fun hc => ?_⟩
    by_contra hm
    have hPause : old.seg.kind = .pause := (kind_moving_iff _).mp (Bool.not_eq_true _ |>.mp hm)
    have hClass : (legOf s.params (copyDerates s).planner (heldAt completed s 0 s.store.execPtr) old.seg).junction =
        .stop := (classify_eq _ _ _).trans (if_pos hPause)
    unfold Segment.carried at hc
    dsimp only at hc
    rw [hClass] at hc
    simp at hc

/-- R64: a completion leaves the Store and the plan of the completed Store, replanned. -/
theorem report_completion {s : State} (h : s.store.windowOk (some s.store.execPtr)) (hs : y.store = s.store)
    (hp : y.planner = s.planner) (hq : y.params = s.params) (hj : y.job.state = s.job.state) :
    (reportCompletion seg y).store = (s.completion seg).store ∧
      (reportCompletion seg y).planner = (s.completion seg).planner := by
  refine reportCompletion_plan seg h.order ?_ hs hp hq hj
  obtain ⟨-, sl, hSlot, -⟩ := h.taken _ rfl
  rw [hSlot]
  exact nofun

theorem ended_plan {s : State} (h : s.store.windowOk (some s.store.execPtr)) (seg : Segment) :
    (s.ended seg).store = (s.completion seg).store ∧ (s.ended seg).planner = (s.completion seg).planner := by
  have k := atSegmentEnd_keeps seg (atEvaluation s)
  exact report_completion h (k .store (by decide)) (k .planner (by decide)) (k .params (by decide))
    (congrArg Job.state (k .job (by decide)))

/-- R64: what follows the completion is the slot at the execution pointer, PLANNED. -/
theorem nextPlanned_completion {s r : State} {next : Slot} (h : s.store.windowOk (some s.store.execPtr))
    (hg : pathGoesOn seg s.store) (hr : r.store = (s.completion seg).store)
    (hn : (s.completion seg).store.slot (s.store.after s.store.execPtr) = some next) :
    nextPlanned r = some next.seg ∧ next.state = .planned ∧ (next.seg.carried → next.seg.kind.moving = true) := by
  have hPtr := completedAt_execPtr hg s.params.flowGo
  obtain ⟨hState, hKind⟩ := replan_slot_execPtr (completed := some seg)
    (s := { s with store := s.store.completedAt s.params.flowGo s.store.execPtr }) (windowOk_completedAt h _)
    (sl := next) (by
      show (s.completion seg).store.slot (s.store.completedAt s.params.flowGo s.store.execPtr).execPtr = _
      rw [hPtr, hn])
  refine ⟨?_, hState, hKind⟩
  unfold nextPlanned
  rw [hr, completion_execPtr hg, hn]
  exact if_pos hState

/-! ### What is taken after it -/

theorem underway_takesNext {s r : State} {queued : List Notice} (u : Underway s r queued)
    (k past : Nat) (nx : Segment) :
    Underway s (r.takesNext k past nx) (queued ++ s.tagOf nx) := by
  unfold State.takesNext
  split
  · exact (u.take k nx past).moves (targetSegment_keeps nx _).mono rfl
  · exact (u.moves (takeFeedAsZero_keeps r).mono rfl).take k nx 0

theorem taking_p (k : Nat) (seg : Segment) (p : Nat) (n : Interp) : (n.taking k seg p).p = p := by
  unfold Interp.taking
  dsimp only
  split
  · rfl
  · split <;> rfl

/-- R61, R64, R65: an expiry that has taken the segment `nx` of slot `k` after a completion. -/
theorem wentOn_takesNext {s v r t : State} {queued : List Notice} {k : Nat} (u : Underway s r queued)
    (hg : r.gov = (evaluateGovernor s).gov) (hs : r.store = v.store) (hp : r.planner = v.planner)
    (hw : v.store.wf = true) (hk : v.store.slot k ≠ none)
    (ht : Keeps [.axes, .store, .link, .job, .stroke, .load] (r.takesNext k past nx) t)
    (ha : t.store = { (r.takesNext k past nx).store with armed := t.store.armed }) :
    s.wentOn r.interp k past nx v t := by
  have hStore : (r.takesNext k past nx).store = v.store.takenAt k nx := by
    rw [← activate_eq_takenAt hw nx hk, ← hs]
    unfold State.takesNext
    split
    · rw [show (targetSegment _ _).store = _ from targetSegment_keeps _ _ .store (by decide), takeSegment_store]
    · rw [takeSegment_store]
      rfl
  have hPlanner : (r.takesNext k past nx).planner = v.planner := by
    rw [← hp]
    unfold State.takesNext
    split
    · exact takeSegment_keeps k nx past r .planner (by decide)
    · exact takeSegment_keeps k nx 0 (takeFeedAsZero r) .planner (by decide)
  have eInterp : t.interp = (r.takesNext k past nx).interp := ht .interp (by decide)
  have eGov : t.gov = (r.takesNext k past nx).gov := ht .gov (by decide)
  refine ⟨?_, (ht .planner (by decide)).trans hPlanner, fun hc => ?_, fun hc => ?_⟩
  · rw [← hStore]
    exact ha
  · have hTakes : r.takesNext k past nx = targetSegment nx (takeSegment k nx past r) := if_pos ((carries_iff _).mpr hc)
    rw [eInterp, eGov, hTakes]
    refine ⟨?_, ?_⟩
    · have hShift := (u.take k nx past).shift
      unfold targetSegment targetHeading targetPoint
      dsimp only [mapInterp_interp]
      rw [hShift, takeSegment_taking, taking_p]
    · rw [← hg]
      exact takeSegment_keeps k nx past r .gov (by decide)
  · have hTakes : r.takesNext k past nx = takeSegment k nx 0 (takeFeedAsZero r) :=
      if_neg fun h => hc ((carries_iff _).mp h)
    rw [eInterp, eGov, hTakes]
    refine ⟨takeSegment_taking _ _ _ _, ?_⟩
    rw [show (takeSegment k nx 0 (takeFeedAsZero r)).gov = _ from takeSegment_keeps k nx 0 _ .gov (by decide), ← hg]
    rfl

end Sys2Proof.Machine

namespace Sys2Proof.Machine

set_option Elab.async false

/-! ## Rest: the frontier, the dwell and HOLD (R71, R84, R151 to R155) -/

variable {s : State} {seg : Segment} {i past : Nat}

/-- The state of an expiry that has arrived at the frontier. -/
def State.atFrontier (seg : Segment) (s : State) : State :=
  standAtFrontier (s.ended seg)

theorem underway_atFrontier (seg : Segment) (s : State) : Underway s (s.atFrontier seg) [] :=
  (underway_ended seg s).moves (standAtFrontier_keeps _).mono rfl

theorem atFrontier_gov (seg : Segment) (s : State) :
    (s.atFrontier seg).gov = { (evaluateGovernor s).gov with v := 0, vprev := 0 } :=
  congrArg (fun g : Governor => { g with v := 0, vprev := 0 }) (ended_gov seg s)

theorem atEnd_targets (seg : Segment) (s : State) :
    (s.atEnd seg).targetX = (if seg.kind.moving then (seg.stopAt.shift (passShift s)).x else s.interp.targetX) ∧
      (s.atEnd seg).targetY = (if seg.kind.moving then (seg.stopAt.shift (passShift s)).y else s.interp.targetY) ∧
      (s.atEnd seg).targetC = (if seg.kind.moving then seg.exitHeading else s.interp.targetC) := by
  unfold State.atEnd
  cases seg.kind <;> exact ⟨rfl, rfl, rfl⟩

theorem atEnd_rest (seg : Segment) (s : State) :
    (s.atEnd seg).active = none ∧ (s.atEnd seg).p = 0 ∧ (s.atEnd seg).timer = some 0 ∧
      (s.atEnd seg).pivot = s.interp.pivot ∧ (s.atEnd seg).pass = s.interp.pass := by
  unfold State.atEnd
  dsimp only
  split <;> exact ⟨rfl, rfl, rfl, rfl, rfl⟩

/-- R30: the Store after a completion in a STREAM window with nothing after the segment. -/
theorem ended_store_frontier (hm : s.store.mode = .stream) (hi : s.store.execPtr = i) :
    (s.ended seg).store.slot i = none ∧ (s.ended seg).store.execPtr = s.store.after i ∧
      (s.ended seg).store.tailOpen = s.store.tailOpen ∧ (s.ended seg).store.tailPoint = s.store.tailPoint := by
  let x := atSegmentEnd seg (atEvaluation s)
  have eStore : x.store = s.store := atSegmentEnd_keeps seg (atEvaluation s) .store (by decide)
  have eComplete : x.store.complete =
      { s.store with slots := slotDrop s.store.slots i, execPtr := s.store.after i } := by
    rw [eStore, complete_stream hm, hi]
  have eReport : (s.ended seg).store =
      { x.store.complete with flowHeld := completedFlow x, slots := (s.ended seg).store.slots } :=
    (reportCompletion_eq seg x).2.2.1
  have hSlot : x.store.complete.slot i = none := by
    rw [complete_slot, eStore, if_pos hi, hm]
  refine ⟨reportCompletion_slot_none hSlot, ?_, ?_, ?_⟩
  · rw [eReport, eComplete]
  · rw [eReport, eComplete]
  · rw [eReport, eComplete]

/-- R64, R71: the expiry that completes the last record of an open STREAM chain arrives at the frontier. -/
theorem exec_frontier {sl : Slot} (ht : s.interp.timer.isSome = true) (hj : s.cuts) (hm : s.store.mode = .stream)
    (ha : s.interp.active = some i) (hi : s.store.execPtr = i) (hs : s.store.slot i = some sl)
    (hp : s.interp.pivot = 0) (he : s.atEndOf sl.seg past) (hl : sl.seg.last = false)
    (hn : s.store.slot (s.store.after i) = none) :
    exec .interpolationPeriodExpiry s =
      .next (expiryTail (handInterpTargets (frontierArrival (s.atFrontier sl.seg)))) := by
  let x := atSegmentEnd sl.seg (atEvaluation s)
  have eStore : x.store = s.store := atSegmentEnd_keeps sl.seg (atEvaluation s) .store (by decide)
  have eJob : x.job = s.job := atSegmentEnd_keeps sl.seg (atEvaluation s) .job (by decide)
  have hRuns : x.job.state ≠ .stopping := by
    rw [eJob]
    rcases hj with h | ⟨h, -⟩ <;> rw [h] <;> decide
  have hGoesOn : pathGoesOn sl.seg x.store := by
    rw [eStore, pathGoesOn_iff]
    exact .inl ⟨hm, hl⟩
  have hEmpty : x.store.complete.slot x.store.complete.execPtr = none := by
    rw [eStore, complete_slot, complete_stream hm, hi]
    dsimp only
    split
    · rw [hm]
    · exact hn
  rw [exec_pathEnd ht (.inl hj) ha hs hp he, completeSegment_frontier hRuns hGoesOn hEmpty]
  rfl

/-- R60, step 5: the hand-over, when the reports have left the path, the parameters and the axes. -/
theorem Underway.handed_after {y x t : State} {queued : List Notice} (u : Underway s y queued)
    (kx : Keeps [.job, .stroke, .load, .link] y x)
    (kt : Keeps [.job, .stroke, .load, .store, .link] (handInterpTargets x) t) :
    Axes.handed s.params t.interp.targetX t.interp.targetY t.interp.targetC s.axes t.axes := by
  have eInterp : x.interp = y.interp := kx .interp (by decide)
  have eAxes : (handInterpTargets x).axes = (handInterpTargets y).axes := by
    rw [handInterpTargets_eq, handInterpTargets_eq]
    show handTargets x.params _ _ _ x.axes = _
    rw [eInterp, show x.params = y.params from kx .params (by decide), show x.axes = y.axes from kx .axes (by decide)]
  rw [show t.interp = y.interp from (kt .interp (by decide)).trans eInterp, kt .axes (by decide), eAxes]
  exact u.hand_axes

/-- R38: what the low-water evaluation leaves, with whatever it queues. -/
theorem lowWater_rest (x : State) :
    (lowWater x).store = { x.store with armed := (lowWater x).store.armed } ∧
      (lowWater x).link.requests = x.link.requests ∧ (lowWater x).link.marks = x.link.marks ∧
      ∃ rest, (lowWater x).link.notices = x.link.notices ++ rest := by
  obtain ⟨q1, q2, q3⟩ := lowWater_queues x
  refine ⟨?_, q1, q2, q3⟩
  rw [lowWater_store]

/-! ### The dwell -/

/-- R155: the dwell's expiry stops the job. -/
theorem dwellReached_stops (hj : s.job.state = .starved) (ht : timerOut s.job.dwell s.params.starveDwell) :
    dwellReached s = controlledStop (latchCause .starved (s.mapJob fun j => { j with dwell := none })) := by
  unfold dwellReached
  rw [if_pos ((reached_iff _ _).mpr ht)]
  unfold takeCause
  rw [show (s.mapJob fun j => { j with dwell := none }).job.state = .starved from hj]

theorem dwell_expires (hj : s.job.state = .starved) (ht : timerOut s.job.dwell s.params.starveDwell) : ∃ t,
    exec .starveDwellExpiry s = .next t ∧ Keeps [.guard, .job] s t ∧
    t.job = { s.job with state := .stopping, held := false, dwell := none } ∧
    t.guard = { s.guard with latch := s.guard.latch ||| 0x8000#16, stop := some .starved } := by
  refine ⟨_, (exec_starveDwellExpiry s).trans (congrArg _ (dwellReached_stops hj ht)), ?_, rfl, ?_⟩
  · exact (controlledStop_keeps _).after ((latchCause_keeps _ _).after (mapJob_keeps _ s).mono (m := [.guard, .job]))
  · show ({ s.guard with latch := s.guard.latch ||| Cause.starved.mask, stop := some s.job.state } : Guard) = _
    rw [hj]
    rfl

/-- R71: the head rests at the frontier: the completion and its replan stand, the blade is sent to idle and `n` is
queued. -/
structure RestsAtFrontier (s : State) (seg : Segment) (n : Notice) (t : State) : Prop where
  keeps : Keeps [.store, .planner, .interp, .gov, .stroke, .load, .axes, .job, .link] s t
  gov : t.gov = { (evaluateGovernor s).gov with v := 0, vprev := 0 }
  interp : t.interp = s.atEnd seg
  stroke : t.stroke = s.stroke.toIdle s.params.startDuty
  load : t.load = s.load.told s.stroke.state t.stroke.state
  store : t.store = { (s.ended seg).store with armed := t.store.armed }
  planner : t.planner = (s.ended seg).planner
  requests : t.link.requests = s.link.requests
  notices : s.link.notices.length < 16 → ∃ rest, t.link.notices = s.link.notices ++ n :: rest
  handed : Axes.handed s.params t.interp.targetX t.interp.targetY t.interp.targetC s.axes t.axes

/-- R38, R60, R71: what ends the expiry once the Job Controller has taken the arrival. -/
theorem restsAtFrontier {y : State} {n : Notice} (he : s.atEndOf seg past)
    (k : Keeps [.job, .stroke, .load, .link] (s.atFrontier seg) y)
    (hStroke : y.stroke = s.stroke.toIdle s.params.startDuty)
    (hLoad : y.load = s.load.told s.stroke.state y.stroke.state)
    (hLink : y.link = (queueNotice n (s.atFrontier seg)).link) :
    RestsAtFrontier s seg n (lowWater (handInterpTargets y)) ∧ (lowWater (handInterpTargets y)).job = y.job := by
  have u := underway_atFrontier seg s
  have kl : Keeps [.store, .link] (handInterpTargets y) (lowWater (handInterpTargets y)) := lowWater_keeps _
  have eStroke : (lowWater (handInterpTargets y)).stroke = y.stroke := kl .stroke (by decide)
  obtain ⟨tStore, tRequests, -, rest, tNotices⟩ := lowWater_rest (handInterpTargets y)
  obtain ⟨n1, -, n3⟩ := queueNotice_link n (s.atFrontier seg)
  rw [← hLink] at n1 n3
  refine ⟨⟨?_, ?_, ?_, ?_, ?_, ?_, ?_, ?_, fun hRoom => ⟨rest, ?_⟩, ?_⟩, kl .job (by decide)⟩
  · exact kl.after ((handInterpTargets_keeps y).after (k.after u.keeps.mono
      (m := [.store, .planner, .interp, .gov, .stroke, .load, .axes, .job, .link])))
  · exact (kl .gov (by decide)).trans ((k .gov (by decide)).trans (atFrontier_gov seg s))
  · exact (kl .interp (by decide)).trans ((k .interp (by decide)).trans (ended_interp he))
  · exact eStroke.trans hStroke
  · rw [eStroke, ← hLoad]
    exact kl .load (by decide)
  · rw [tStore, show (handInterpTargets y).store = (s.ended seg).store from k .store (by decide)]
  · exact (kl .planner (by decide)).trans (k .planner (by decide))
  · exact tRequests.trans (n1.trans u.requests)
  · have hBefore : (s.atFrontier seg).link.notices = s.link.notices := by
      rw [u.notices (by simp only [List.length_nil]; omega), List.append_nil]
    rw [tNotices]
    show y.link.notices ++ rest = _
    rw [n3, hBefore, if_pos hRoom, List.append_assoc]
    rfl
  · exact u.handed_after k kl.mono

/-- The blocks that the arrival finds as the expiry found them. -/
theorem atFrontier_same (seg : Segment) (s : State) : (s.atFrontier seg).stroke = s.stroke ∧
    (s.atFrontier seg).load = s.load ∧ (s.atFrontier seg).params = s.params ∧
    (s.atFrontier seg).job = s.job.count seg := by
  have k := (underway_atFrontier seg s).keeps
  exact ⟨k .stroke (by decide), k .load (by decide), k .params (by decide), ended_job seg s⟩

/-- R71, R153, R154: arrival at the frontier in CUTTING. -/
theorem cutting_starves (hj : s.job.state = .cutting) (he : s.atEndOf seg past) : ∃ t,
    expiryTail (handInterpTargets (frontierArrival (s.atFrontier seg))) = t ∧
    RestsAtFrontier s seg (.starved (some seg.number) s.job.passesDone) t ∧
    t.job = { s.job.count seg with state := .starved, held := false, dwell := some 0 } := by
  obtain ⟨eStroke, eLoad, eParams, eJob⟩ := atFrontier_same seg s
  obtain ⟨yJob, yLink, ky⟩ := becomeStarved_eq (idleRequest (s.atFrontier seg))
  have kIdle := idleRequest_keeps (s.atFrontier seg)
  have hJob : (becomeStarved (idleRequest (s.atFrontier seg))).job =
      { s.job.count seg with state := .starved, held := false, dwell := some 0 } := by
    rw [yJob, kIdle .job (by decide), eJob]
  have hStroke : (becomeStarved (idleRequest (s.atFrontier seg))).stroke = s.stroke.toIdle s.params.startDuty := by
    rw [ky .stroke (by decide), ← eStroke, ← eParams]
    rfl
  have hLoad : (becomeStarved (idleRequest (s.atFrontier seg))).load =
      s.load.told s.stroke.state (becomeStarved (idleRequest (s.atFrontier seg))).stroke.state := by
    rw [hStroke, ky .load (by decide)]
    unfold idleRequest
    rw [strokeTo_load, eStroke, eLoad, eParams]
  obtain ⟨hRests, tJob⟩ := restsAtFrontier (n := .starved (some seg.number) s.job.passesDone) he
    (ky.after kIdle.mono) hStroke hLoad (by
      rw [yLink, kIdle .job (by decide), eJob]
      exact queueNotice_link_congr (kIdle .link (by decide)))
  have hCutting : (s.atFrontier seg).job.state = .cutting := by
    rw [eJob]
    exact hj
  rw [frontierArrival_cutting hCutting,
    expiryTail_goingOn (x := handInterpTargets (becomeStarved (idleRequest (s.atFrontier seg))))
      (.inr (.inl (congrArg Job.state yJob)))]
  exact ⟨_, rfl, hRests, tJob.trans hJob⟩

/-- R71, R152: arrival at the frontier in HOLDING with the held flag clear. -/
theorem holding_rests (hj : s.job.state = .holding) (hh : s.job.held = false) (he : s.atEndOf seg past) : ∃ t,
    expiryTail (handInterpTargets (frontierArrival (s.atFrontier seg))) = t ∧
    RestsAtFrontier s seg (.held none 0) t ∧ t.job = { s.job.count seg with held := true } := by
  obtain ⟨eStroke, eLoad, eParams, eJob⟩ := atFrontier_same seg s
  obtain ⟨yJob, yStroke, yLink, ky⟩ := setHeld_eq (s.atFrontier seg)
  have hStroke : (setHeld (s.atFrontier seg)).stroke = s.stroke.toIdle s.params.startDuty := by
    rw [yStroke, eStroke, eParams]
  have hLoad : (setHeld (s.atFrontier seg)).load =
      s.load.told s.stroke.state (setHeld (s.atFrontier seg)).stroke.state := by
    rw [hStroke]
    show (strokeTo _ _).load = _
    rw [strokeTo_load]
    show (s.atFrontier seg).load.told (s.atFrontier seg).stroke.state
      ((s.atFrontier seg).stroke.toIdle (s.atFrontier seg).params.startDuty).state = _
    rw [eStroke, eLoad, eParams]
  have eInterp : (s.atFrontier seg).interp = s.atEnd seg := ended_interp he
  obtain ⟨hActive, hP, -⟩ := atEnd_rest seg s
  have hNumber : activeNumber (s.atFrontier seg) = none := by
    unfold activeNumber
    rw [eInterp, hActive]
  obtain ⟨hRests, tJob⟩ := restsAtFrontier (n := .held none 0) he ky hStroke hLoad (by rw [yLink, hNumber, eInterp, hP])
  have hHolding : (s.atFrontier seg).job.state = .holding ∧ (s.atFrontier seg).job.held = false := by
    rw [eJob]
    exact ⟨hj, hh⟩
  rw [frontierArrival_holding hHolding.1 hHolding.2, expiryTail_goingOn
    (x := handInterpTargets (setHeld (s.atFrontier seg)))
    (.inr (.inr (.inl ⟨(congrArg Job.state yJob).trans hHolding.1, .inl (congrArg Job.held yJob)⟩)))]
  exact ⟨_, rfl, hRests, tJob.trans (yJob.trans (congrArg (fun j : Job => { j with held := true }) eJob))⟩

/-- R30, R55: with the window in its form, the Store and the plan at rest are those of the completion and its replan. -/
theorem RestsAtFrontier.plan {n : Notice} {t : State} (r : RestsAtFrontier s seg n t) (ha : s.interp.active = some i)
    (hOk : s.slotsOk) : ∃ v, s.completed i seg v ∧ t.store = { v.store with armed := t.store.armed } ∧
      t.planner = v.planner := by
  have hi : i = s.store.execPtr := (hOk.window.taken i ha).1
  have hWindow : s.store.windowOk (some s.store.execPtr) := by
    rw [← hi, ← ha]
    exact hOk.window
  obtain ⟨eStore, ePlanner⟩ := ended_plan hWindow seg
  refine ⟨s.completion seg, hi ▸ completion_completed hWindow seg, ?_, r.planner.trans ePlanner⟩
  rw [← eStore]
  exact r.store

/-- Settles O54: the dwell's expiry, and its beginning by arrival at the frontier. -/
theorem dwellExpires : Obligations.DwellExpires := by
  refine ⟨fun s hn => ?_, fun s hj ht => dwell_expires hj ht, ?_⟩
  · rw [exec_starveDwellExpiry, dwellReached_idle hn]
  · intro i past sl s ht hj hm ha hi hs hp he hl hn
    obtain ⟨t, hEnd, hRests, hJob⟩ := cutting_starves hj he
    obtain ⟨hSlot, hPtr, hOpen, hPoint⟩ := ended_store_frontier (seg := sl.seg) hm hi
    obtain ⟨hActive, hP, hTimer, hPivot, -⟩ := atEnd_rest sl.seg s
    obtain ⟨hX, hY, hC⟩ := atEnd_targets sl.seg s
    have tStore := hRests.store
    have tInterp := hRests.interp
    refine ⟨t, (exec_frontier ht (.inl hj) hm ha hi hs hp he hl hn).trans (congrArg _ hEnd), hRests.keeps,
      by rw [hJob]; rfl, hRests.gov, by rw [tInterp, hActive], by rw [tInterp, hTimer], by rw [tInterp, hP],
      by rw [tInterp, hPivot, hp], by rw [tInterp, hX], by rw [tInterp, hY], by rw [tInterp, hC], hRests.stroke,
      hRests.load, by rw [tStore]; exact hSlot, by rw [tStore]; exact hPtr, hRests.plan ha, by rw [tStore]; exact hOpen,
      by rw [tStore]; exact hPoint, hRests.requests, hRests.notices, hRests.handed⟩

/-! ### HOLD -/

/-- R151: what HOLD leaves where it is taken. -/
theorem exec_hold_ready {s : State} (hr : s.ready) (hj : s.job.state.holdable = true) :
    exec .hold s = .next (s.heldBy .hold (.ready ⟨.ok, []⟩)) := by
  have hTake : takeHold (s.arrived .hold) = (holdRequest (s.arrived .hold), .ready ⟨.ok, []⟩) := by
    unfold takeHold
    rw [show (s.arrived .hold).job.state.holdable = true from hj]
    rfl
  rw [exec_ready hr (take := takeHold), hTake]
  rfl

theorem exec_hold_refused {s : State} (hr : s.ready) (hj : s.job.state.holdable = false) :
    exec .hold s = .next (s.withEntry .hold (.ready ⟨.noJob, []⟩)) := by
  refine exec_ready_answer hr (take := takeHold) ?_
  unfold takeHold
  rw [show (s.arrived .hold).job.state.holdable = false from hj]
  rfl

/-- R100, R151: the Load Monitor is told of the blade a starved job sends to idle. -/
theorem heldBy_starved_load {s : State} (i : Instr) (m : Mark) (h : s.job.state = .starved) :
    (s.heldBy i m).load = s.load.told s.stroke.state (s.heldBy i m).stroke.state := by
  obtain ⟨-, hStroke, -⟩ := heldBy_starved i m h
  rw [hStroke]
  unfold State.heldBy
  rw [holdRequest_starved (s := s.arrived i) h]
  exact strokeTo_load _ _

/-- R151: the answer to a HOLD that is taken. -/
theorem heldBy_answered {s : State} (i : Instr) (code : ResultCode) :
    answered i code s (s.heldBy i (.ready ⟨code, []⟩)) := rfl

/-- R77, R84, R152: an expiry in HOLDING whose V is 0, short of the end of the active segment. -/
theorem holding_stands {sl : Slot} (ht : s.interp.timer.isSome = true) (hj : s.job.state = .holding)
    (hh : s.job.held = false) (ha : s.interp.active = some i) (hs : s.store.slot i = some sl)
    (hp : s.interp.pivot = 0) (hm : sl.seg.kind.moving = true) (hv : (evaluateGovernor s).gov.v = 0)
    (hShort : s.interp.p < sl.seg.length * 1000) : ∃ t,
      exec .interpolationPeriodExpiry s = .next t ∧
      Keeps [.store, .interp, .gov, .stroke, .load, .axes, .job, .link] s t ∧
      t.job = { s.job with held := true } ∧ t.stroke = s.stroke.toIdle s.params.startDuty ∧ t.gov.v = 0 ∧
      t.interp.active = some i ∧ t.interp.p = s.interp.p ∧ t.interp.timer = some 0 ∧
      (s.link.notices.length < 16 → ∃ rest,
        t.link.notices = s.link.notices ++ .held (some (sl.seg.number, i)) s.interp.p :: rest) := by
  have hMove := motionAndEnds_short (.inl (.inr ⟨hj, hh⟩)) ha hs hm hp (by rw [hv]; omega)
  obtain ⟨x, hX⟩ : ∃ x, x = handInterpTargets (targetSegment sl.seg s.movedOn) := ⟨_, rfl⟩
  have kE : Keeps [.axes, .interp, .gov] s s.movedOn :=
    (movedOn_keeps s).after (m := [.axes, .interp, .gov]) (by
      intro b hb
      cases b <;> first | rfl | simp at hb)
  have kx : Keeps [.axes, .interp, .gov] s x :=
    hX ▸ (handInterpTargets_keeps _).after ((targetSegment_keeps _ _).after kE)
  have kTail := expiryTail_keeps (s := x) (by
    rw [show x.job = s.job from kx .job (by decide), hj]
    decide)
  have hInterp : x.interp.active = some i ∧ x.interp.p = s.interp.p ∧ x.interp.timer = some 0 ∧ x.interp.pivot = 0 := by
    subst hX
    exact ⟨ha, congrArg (s.interp.p + ·) hv, rfl, hp⟩
  obtain ⟨xActive, xP, xTimer, xPivot⟩ := hInterp
  have tInterp : (expiryTail x).interp = x.interp := kTail .interp (by decide)
  have tGov : (expiryTail x).gov.v = 0 := by
    rw [kTail .gov (by decide), ← hv, hX]
    rfl
  have hRests : s.job.state = .holding ∧ s.job.held = false ∧ (expiryTail x).gov.v = 0 ∧
      (expiryTail x).interp.pivot = 0 := ⟨hj, hh, tGov, by rw [tInterp, xPivot]⟩
  obtain ⟨tJob, tStroke, -, tNotices, -⟩ := expiryTail_stood (.inr (.inr hj)) kx (xActive.trans ha.symm)
  rw [if_pos hRests] at tJob tStroke
  refine ⟨expiryTail x, ?_, kTail.after kx.mono, tJob, tStroke, tGov, by rw [tInterp, xActive], by rw [tInterp, xP],
    by rw [tInterp, xTimer], fun hRoom => ?_⟩
  · rw [exec_expiry ht (.inr (.inl (by rw [ha]; rfl))), hMove, hX]
  · obtain ⟨rest, hRest⟩ := tNotices hRests hRoom
    refine ⟨rest, ?_⟩
    rw [hRest, tInterp, xP, ha]
    dsimp only [Option.bind_some]
    rw [hs]
    rfl

/-- Settles O30: HOLD by the job's state, and the rest in HOLDING, short of the end of a segment and at the frontier. -/
theorem holdRequested : Obligations.HoldRequested := by
  refine ⟨fun s hr => ⟨fun hj => ?_, fun hj => ?_, fun hj => exec_hold_refused hr hj⟩, ?_⟩
  · obtain ⟨hKeeps, hJob⟩ := heldBy_moving .hold (.ready ⟨.ok, []⟩) hj
    exact ⟨_, exec_hold_ready hr (by rcases hj with h | h <;> rw [h] <;> rfl), hKeeps, heldBy_answered _ _, hJob⟩
  · obtain ⟨hJob, hStroke, hNotices⟩ := heldBy_starved .hold (.ready ⟨.ok, []⟩) hj
    exact ⟨_, exec_hold_ready hr (by rw [hj]; rfl), heldBy_keeps _ _ s, heldBy_answered _ _, hJob, hStroke,
      heldBy_starved_load _ _ hj, hNotices⟩
  · intro i sl s ht hj hh ha hs hp
    refine ⟨fun hm hv hShort => holding_stands ht hj hh ha hs hp hm hv hShort, fun past hm hi he hl hn => ?_⟩
    obtain ⟨t, hEnd, hRests, hJob⟩ := holding_rests hj hh he
    obtain ⟨hSlot, -⟩ := ended_store_frontier (seg := sl.seg) hm hi
    obtain ⟨hActive, hP, -⟩ := atEnd_rest sl.seg s
    exact ⟨t, (exec_frontier ht (.inr ⟨hj, hh⟩) hm ha hi hs hp he hl hn).trans (congrArg _ hEnd), hRests.keeps,
      by rw [hJob]; rfl, hRests.gov, by rw [hRests.interp, hActive], by rw [hRests.interp, hP], hRests.stroke,
      by rw [hRests.store]; exact hSlot, hRests.plan ha, hRests.notices⟩

end Sys2Proof.Machine

namespace Sys2Proof.Machine

set_option Elab.async false

/-! ## FLUSH (R29, R33, R34, R53) -/

/-- R29: what the emptying of the window leaves of the Store and the flow marks, in either mode. -/
theorem emptyWindow_parts (s : State) :
    (emptyWindow s).store =
        { s.store with
          slots := [], writePtr := s.store.winBegin, execPtr := s.store.winBegin, tailOpen := false, tailPoint := none,
          tailHeading := none, origin := none, chainClosed := false, executedHeading := none, flowHeld := false,
          armed := false } ∧
      (emptyWindow s).link.notices = s.link.notices ∧
      (emptyWindow s).link.marks = if s.store.flowHeld then s.link.marks ++ [.go] else s.link.marks := by
  unfold emptyWindow openFlow
  split
  · next hf => exact ⟨rfl, rfl, (if_pos hf).symm⟩
  · next hf =>
    have hOpen : s.store.flowHeld = false := Bool.not_eq_true _ |>.mp hf
    refine ⟨?_, rfl, (if_neg hf).symm⟩
    exact congrArg (fun b => ({ s.store.clearChain with
      slots := [], writePtr := s.store.winBegin, execPtr := s.store.winBegin, armed := false,
      flowHeld := b } : Store)) hOpen

/-- R53: the replan of an empty window, whatever its limits. -/
theorem replan_empty_replanned {s : State} (h : s.store.slots = []) :
    s.replanned none (replan none s) ∧ (replan none s).store = s.store := by
  have hNone : ∀ i, s.store.slot i = none := fun i => by
    unfold Store.slot
    rw [h]
    rfl
  obtain ⟨hSlots, hCount⟩ := replan_of_empty none h
  have hStore : (replan none s).store = s.store := by
    rw [replan_store, hSlots, ← h]
  have hSpan : s.store.spans [] :=
    ⟨fun e he => absurd he List.not_mem_nil, by dsimp only; rw [hNone]; rfl, fun k e e' he => (nomatch he),
      Nat.zero_le _, fun e he => (nomatch he)⟩
  refine ⟨⟨replan_keeps none s, by rw [hStore], [], fun _ => 0, fun _ => 0, hSpan, ?_, fun e he => (nomatch he),
    fun e he => (nomatch he), fun i _ => by rw [hStore], fun k i sl hk => (nomatch hk)⟩, hStore⟩
  have hPlanner : (replan none s).planner = { (copyDerates s).planner with
      spanFirst := (replan none s).planner.spanFirst
      spanCount := (replan none s).planner.spanCount
      frontier := (replan none s).planner.frontier } := rfl
  rw [hPlanner, hCount, copyDerates_planner]
  rfl

/-! ### The refusals -/

theorem exec_flush_busy {s : State} (hr : s.ready)
    (hj : s.job.state = .motion ∨ s.job.state = .warmup ∨ s.job.state = .cutting ∨ s.job.state = .stopping ∨
      s.job.state = .fault ∨ (s.job.state = .holding ∧ s.job.held = false)) :
    exec .flush s = .next (s.withEntry .flush (.ready ⟨.busy, []⟩)) := by
  refine exec_ready_answer hr (take := takeFlush) ?_
  unfold takeFlush
  rw [show (s.arrived .flush).job = s.job from rfl]
  rcases hj with h | h | h | h | h | ⟨h, hh⟩
  all_goals rw [h]
  all_goals dsimp only
  all_goals first | rfl | (rw [hh]; rfl)

theorem takeFlush_partly {s : State}
    (hj : s.job.state = .starved ∨ (s.job.state = .holding ∧ s.job.held = true)) : takeFlush s = flushPartly s := by
  unfold takeFlush
  rcases hj with h | ⟨h, hh⟩
  · rw [h]
  · rw [h]
    exact if_pos hh

theorem exec_flush_wrongMode {s : State} (hr : s.ready) (hm : s.store.mode = .repeating) (hj : s.job.state = .holding)
    (hh : s.job.held = true) : exec .flush s = .next (s.withEntry .flush (.ready ⟨.wrongMode, []⟩)) := by
  refine exec_ready_answer hr (take := takeFlush) ?_
  rw [takeFlush_partly (s := s.arrived .flush) (.inr ⟨hj, hh⟩)]
  unfold flushPartly
  rw [if_neg (show ¬(s.arrived .flush).store.mode = .stream from fun h => by
    rw [show s.store.mode = _ from h] at hm
    cases hm)]
  rfl

/-! ### FLUSH in IDLE -/

theorem exec_flush_idle {s : State} (hr : s.ready) (hj : s.job.state = .idle) : ∃ t,
    exec .flush s = .next t ∧ Keeps [.store, .planner, .link] s t ∧ answered .flush .ok s t ∧
    t.store = (emptyWindow s).store ∧
    (∃ v, ({ s with store := t.store } : State).replanned none v ∧ v.store = t.store ∧ t.planner = v.planner) ∧
    t.planner.spanCount = 0 ∧ t.link.notices = s.link.notices ∧
    t.link.marks = (if s.store.flowHeld then s.link.marks ++ [.go] else s.link.marks) := by
  obtain ⟨e, hE⟩ : ∃ e, e = emptyWindow (s.arrived .flush) := ⟨_, rfl⟩
  have kE : Keeps [.store, .link] s e := hE ▸ (emptyWindow_keeps _).after (mapLink_keeps _ s).mono
  obtain ⟨eStore, -, -⟩ := emptyWindow_parts s
  obtain ⟨hStore, hNotices, hMarks⟩ := emptyWindow_parts (s.arrived .flush)
  rw [← hE] at hStore hNotices hMarks
  have hEmpty : e.store.slots = [] := by rw [hStore]
  obtain ⟨-, hSame⟩ := replan_empty_replanned hEmpty
  obtain ⟨-, hCount⟩ := replan_of_empty none hEmpty
  have kR := replan_keeps none e
  have hTake : takeFlush (s.arrived .flush) = (replan none e, .ready ⟨.ok, []⟩) := by
    unfold takeFlush
    rw [show (s.arrived .flush).job = s.job from rfl, hj, hE]
    rfl
  refine ⟨_, exec_ready hr (take := takeFlush), ?_⟩
  rw [hTake]
  have tStore : ((replan none e).mapLink fun l =>
      { l with requests := s.link.requests ++ entryOf .flush (.ready ⟨.ok, []⟩) }).store = e.store := hSame
  have tLink : (replan none e).link = e.link := kR .link (by decide)
  refine ⟨(mapLink_keeps _ _).after (kR.after kE.mono), rfl, ?_, ?_, hCount, ?_, ?_⟩
  · rw [tStore, eStore, hStore]
    rfl
  · rw [tStore]
    obtain ⟨hPlan, hPlanStore⟩ := replan_empty_replanned (s := { s with store := e.store }) hEmpty
    refine ⟨_, hPlan, hPlanStore, ?_⟩
    exact (replan_congr none (s := { s with store := e.store }) (u := e) rfl (kE .planner (by decide))
      (kE .params (by decide)) (congrArg Job.state (kE .job (by decide)))).2
  · rw [mapLink_link, tLink]
    exact hNotices
  · rw [mapLink_link, tLink]
    exact hMarks

/-! ### The partial flush -/

/-- R6, R34: the flush around the ACTIVE slot. -/
theorem partialFlush_active {st : Store} (pos : Point) {i : Nat} {sl : Slot} (h : st.activeSlot = some (i, sl)) :
    st.partialFlush pos =
      { st with
        slots := [(i, sl)]
        writePtr := st.after i
        tailPoint := some sl.seg.stopAt
        tailHeading := if sl.seg.kind.moving then some sl.seg.exitHeading else st.executedHeading
        arrival := flushedCounter st ((st.runFrom 512 i).drop 1)
        chainClosed := st.chainClosed && !((st.runFrom 512 i).drop 1).any fun e => e.2.seg.last } := by
  have hStart : st.spanStart = i := by
    unfold Store.spanStart
    rw [h]
  unfold Store.partialFlush
  rw [h, hStart]

/-- R6, R34: the flush with none ACTIVE. -/
theorem partialFlush_none {st : Store} (pos : Point) (h : st.activeSlot = none) (hs : st.slot st.execPtr ≠ none) :
    st.partialFlush pos =
      { st with
        slots := []
        writePtr := st.execPtr
        tailPoint := some pos
        tailHeading := st.executedHeading
        arrival := flushedCounter st (st.runFrom 512 st.execPtr)
        chainClosed := st.chainClosed && !(st.runFrom 512 st.execPtr).any fun e => e.2.seg.last } := by
  have hStart : st.spanStart = st.execPtr := by
    unfold Store.spanStart
    rw [h]
  obtain ⟨sl, hSlot⟩ := Option.ne_none_iff_exists'.mp hs
  obtain ⟨e, rest, hRun⟩ : ∃ e rest, st.runFrom 512 st.execPtr = e :: rest := by
    have hHead := runFrom_head st 511 st.execPtr
    rw [hSlot] at hHead
    cases hr : st.runFrom (511 + 1) st.execPtr with
    | nil =>
      rw [hr] at hHead
      cases hHead
    | cons e rest => exact ⟨e, rest, rfl⟩
  unfold Store.partialFlush
  rw [h, hStart, hRun]

/-- R34: the flush of an empty window. -/
theorem partialFlush_empty {st : Store} (pos : Point) (h : st.slots = []) : st.partialFlush pos = st := by
  have hActive : st.activeSlot = none := by
    unfold Store.activeSlot
    rw [h]
    rfl
  have hRun : st.runFrom 512 st.spanStart = [] := by
    unfold Store.runFrom Store.slot
    rw [h]
    rfl
  unfold Store.partialFlush
  rw [hActive, hRun]

/-- R24: in STREAM mode a window with its slot at the execution pointer EMPTY is empty. -/
theorem slots_nil_of_windowOk {st : Store} {active : Option Nat} (h : st.windowOk active) (hm : st.mode = .stream)
    (hs : st.slot st.execPtr = none) : st.slots = [] := by
  obtain ⟨-, -, hPlace⟩ := h.ring hm
  obtain ⟨hBegin, hEnd⟩ := h.execPtr
  have hFilled := hPlace _ hBegin hEnd
  have hZero : st.place st.execPtr = 0 := by
    unfold Store.place
    rw [if_pos (Nat.le_refl _)]
    omega
  rw [hs, hZero] at hFilled
  have : ¬0 < st.slots.length := fun hl => hFilled.mpr hl rfl
  exact List.length_eq_zero_iff.mp (by omega)

/-- R34: what a flush leaves of the Store whichever slots it gives up. -/
theorem partialFlush_kept {st : Store} {active : Option Nat} (h : st.windowOk active)
    (hm : st.mode = .stream) (pos : Point) :
    let f := st.partialFlush pos
    f.slots = st.activeSlot.toList ∧ f.origin = st.origin ∧ f.tailOpen = st.tailOpen ∧ f.execPtr = st.execPtr ∧
      f.mode = st.mode ∧ f.flowHeld = st.flowHeld ∧ f.armed = st.armed := by
  intro f
  cases ha : st.activeSlot with
  | some e =>
    rw [show f = _ from partialFlush_active pos ha]
    exact ⟨rfl, rfl, rfl, rfl, rfl, rfl, rfl⟩
  | none =>
    by_cases hs : st.slot st.execPtr = none
    · have hNil := slots_nil_of_windowOk h hm hs
      rw [show f = _ from partialFlush_empty pos hNil]
      exact ⟨hNil, rfl, rfl, rfl, rfl, rfl, rfl⟩
    · rw [show f = _ from partialFlush_none pos ha hs]
      exact ⟨rfl, rfl, rfl, rfl, rfl, rfl, rfl⟩

/-- The Store of a partial flush with the flow state OPEN, before the low-water evaluation. -/
def State.flushed (s : State) : State :=
  openFlow (s.mapStore (Store.partialFlush s.axes.point))

theorem flushed_keeps (s : State) : Keeps [.store, .link] s s.flushed :=
  (openFlow_keeps _).after (mapStore_keeps _ s).mono

theorem openFlow_parts (s : State) :
    (openFlow s).store = { s.store with flowHeld := false } ∧ (openFlow s).link.notices = s.link.notices ∧
      (openFlow s).link.requests = s.link.requests ∧
      (openFlow s).link.marks = if s.store.flowHeld then s.link.marks ++ [.go] else s.link.marks := by
  unfold openFlow
  split
  · next hf => exact ⟨rfl, rfl, rfl, rfl⟩
  · next hf =>
    have hOpen : s.store.flowHeld = false := Bool.not_eq_true _ |>.mp hf
    exact ⟨congrArg (fun b => ({ s.store with flowHeld := b } : Store)) hOpen, rfl, rfl, rfl⟩

/-- R53: the replan of a flushed window leaves it, but for the exit speed of the ACTIVE segment. -/
theorem replan_flushed {u : State} (h : u.store.slots = [] ∨ ∃ i sl, u.store.slots = [(i, sl)] ∧ sl.state = .active ∧
      u.store.after i = u.store.writePtr) : (replan none u).ahead = u.ahead := by
  have hInterp : (replan none u).interp = u.interp := replan_keeps none u .interp (by decide)
  unfold State.ahead
  rw [hInterp]
  rcases h with h | ⟨i, sl, h, ha, hw⟩
  · rw [(replan_of_empty none h).1, h]
  · rw [(replan_of_active none h ha hw).1, h]
    simp only [List.map_cons, List.map_nil]

theorem exec_flush_partly {s : State} (hr : s.ready) (hOk : s.slotsOk) (hm : s.store.mode = .stream)
    (hj : s.job.state = .starved ∨ (s.job.state = .holding ∧ s.job.held = true)) :
    let f := lowWater (s.arrived .flush).flushed
    exec .flush s = .next ((replan none f).mapLink fun l =>
      { l with requests := s.link.requests ++ entryOf .flush (.ready ⟨.ok, []⟩) }) ∧
    Keeps [.store, .link] s f ∧
    f.store = { s.store.partialFlush s.axes.point with flowHeld := false, armed := f.store.armed } ∧
    f.store.armed = (if f.store.chainClosed then s.store.armed else decide (s.params.lowWater ≤ f.ahead)) ∧
    f.link.marks = (if s.store.flowHeld then s.link.marks ++ [.go] else s.link.marks) ∧
    (s.link.notices.length < 16 → f.link.notices = s.link.notices ++ s.lowQueued f) := by
  intro f
  obtain ⟨hStore, hNotices, -, hMarks⟩ := openFlow_parts ((s.arrived .flush).mapStore
    (Store.partialFlush (s.arrived .flush).axes.point))
  obtain ⟨-, -, -, -, hMode, hFlow, hArmed⟩ := partialFlush_kept hOk.window hm s.axes.point
  have kG : Keeps [.store, .link] s (s.arrived .flush).flushed := (flushed_keeps _).after (mapLink_keeps _ s).mono
  have gStore : (s.arrived .flush).flushed.store =
    { s.store.partialFlush s.axes.point with flowHeld := false } := hStore
  have gNotices : (s.arrived .flush).flushed.link.notices = s.link.notices := hNotices
  have gMarks : (s.arrived .flush).flushed.link.marks =
      if s.store.flowHeld then s.link.marks ++ [.go] else s.link.marks := by
    rw [← hFlow]
    exact hMarks
  have gParams : (s.arrived .flush).flushed.params = s.params := kG .params (by decide)
  have kF := lowWater_keeps (s.arrived .flush).flushed
  have fStore : f.store = _ := lowWater_store (s.arrived .flush).flushed
  have fAhead : f.ahead = pathAhead (s.arrived .flush).flushed := by
    rw [ahead_eq]
    unfold State.ahead
    rw [fStore, show f.interp = _ from kF .interp (by decide)]
  refine ⟨?_, kF.after kG.mono, ?_, ?_, ?_, fun hRoom => ?_⟩
  · have hTake : takeFlush (s.arrived .flush) = (replan none f, .ready ⟨.ok, []⟩) := by
      rw [takeFlush_partly (s := s.arrived .flush) hj]
      exact if_pos hm
    rw [exec_ready hr (take := takeFlush), hTake]
  · rw [fStore, gStore]
  · rw [fAhead, fStore, gStore, gParams]
    dsimp only
    rw [hMode, hm, hArmed]
    cases (s.store.partialFlush s.axes.point).chainClosed <;> simp
  · exact (lowWater_queues _).2.1.trans gMarks
  · have hLow := lowWater_notices (s := s) (x := (s.arrived .flush).flushed) (by rw [gStore]; exact hArmed) gParams
      (by rw [gNotices]; exact hRoom)
    rw [gNotices] at hLow
    exact hLow

/-- Settles O27: the emptying in IDLE, the partial flush and its replan, and the refusals. -/
theorem flushActs : Obligations.FlushActs := by
  refine fun s hr => ⟨fun hj => ?_, fun hOk hm hj => ?_, fun hm hj hh => exec_flush_wrongMode hr hm hj hh,
    fun hj => exec_flush_busy hr hj⟩
  · obtain ⟨t, hExec, hKeeps, hAnswer, hStore, hPlan⟩ := exec_flush_idle hr hj
    exact ⟨t, hExec, hKeeps, hAnswer, hStore.trans (emptyWindow_parts s).1, hPlan⟩
  · obtain ⟨hExec, kF, fStore, fArmed, fMarks, fNotices⟩ := exec_flush_partly hr hOk hm hj
    obtain ⟨hSlots, hOrigin, hOpen, hPtr, hMode, -, -⟩ := partialFlush_kept hOk.window hm s.axes.point
    generalize lowWater (s.arrived .flush).flushed = f at *
    have hWindow : f.store.windowOk s.interp.active := by
      rw [fStore]
      exact windowOk_of_core (windowOk_partialFlush hOk.window hm _) rfl
    have hAlone : ∀ i sl, s.store.activeSlot = some (i, sl) → f.store.slots = [(i, sl)] ∧ sl.state = .active ∧
        f.store.after i = f.store.writePtr := fun i sl ha => by
      rw [fStore, partialFlush_active _ ha]
      exact ⟨rfl, (activeSlot_of_windowOk hOk.window ha).2.2.2, rfl⟩
    have hGone : s.store.activeSlot = none → f.store.slots = [] := fun ha => by
      rw [fStore]
      exact hSlots.trans (by rw [ha]; rfl)
    have hAhead : (replan none f).ahead = f.ahead := by
      refine replan_flushed ?_
      cases ha : s.store.activeSlot with
      | none => exact .inl (hGone ha)
      | some e => exact .inr ⟨e.1, e.2, hAlone e.1 e.2 ha⟩
    have tStore : (replan none f).store = { f.store with slots := (replan none f).store.slots } := replan_store none f
    obtain ⟨t, hT⟩ : ∃ t, t = (replan none f).mapLink fun l =>
      { l with requests := s.link.requests ++ entryOf .flush (.ready ⟨.ok, []⟩) } := ⟨_, rfl⟩
    have kR := replan_keeps none f
    have kT : Keeps [.store, .planner, .link] s t := hT ▸ (mapLink_keeps _ _).after (kR.after kF.mono)
    have eStore : t.store = (replan none f).store := by rw [hT]; rfl
    have ePlanner : t.planner = (replan none f).planner := by rw [hT]; rfl
    have eAhead : t.ahead = f.ahead := by rw [hT]; exact hAhead
    have eLink : t.link.notices = f.link.notices ∧ t.link.marks = f.link.marks := by
      have hLink : (replan none f).link = f.link := kR .link (by decide)
      rw [hT, mapLink_link, hLink]
      exact ⟨rfl, rfl⟩
    have hBefore : ({ t.store with slots := s.store.activeSlot.toList } : Store) = f.store := by
      rw [eStore, tStore, ← hSlots]
      exact congrArg (fun l => ({ f.store with slots := l } : Store)) ((congrArg Store.slots fStore).trans rfl).symm
    have hLow : s.lowQueued t = s.lowQueued f := by
      unfold State.lowQueued
      rw [eAhead, eStore, tStore]
    refine ⟨t, hExec.trans (by rw [hT]), kT, by rw [hT]; rfl, ?_, ?_, ?_, ?_, eLink.2.trans fMarks, ?_, ?_,
      fun hRoom => by rw [eLink.1, hLow]; exact fNotices hRoom, fun i sl ha => ?_, fun ha hs => ?_, fun hs => ?_⟩
    · rw [eStore, tStore, fStore]
    · rw [eStore, tStore, fStore]
      exact hOrigin
    · rw [eStore, tStore, fStore]
      exact hOpen
    · rw [eStore, tStore, fStore]
      exact hPtr
    · rw [hBefore]
      refine ⟨_, replan_replanned none (s := { s with store := f.store }) hWindow, ?_⟩
      rw [eStore, ePlanner]
      exact replan_congr none (s := { s with store := f.store }) (u := f) rfl (kF .planner (by decide))
        (kF .params (by decide)) (congrArg Job.state (kF .job (by decide)))
    · rw [eAhead, eStore, tStore]
      exact fArmed
    · obtain ⟨hOne, hState, hAfter⟩ := hAlone i sl ha
      obtain ⟨hPlanned, hCount⟩ := replan_of_active none hOne hState hAfter
      refine ⟨?_, by rw [ePlanner]; exact hCount⟩
      rw [eStore, tStore, hPlanned, fStore, partialFlush_active _ ha]
      rfl
    · obtain ⟨hPlanned, hCount⟩ := replan_of_empty none (hGone ha)
      refine ⟨?_, by rw [ePlanner]; exact hCount⟩
      rw [eStore, tStore, hPlanned, fStore, partialFlush_none _ ha hs]
      rfl
    · have ha : s.store.activeSlot = none := by
        unfold Store.activeSlot
        rw [hs]
        rfl
      rw [eStore, tStore, (replan_of_empty none (hGone ha)).1, fStore, partialFlush_empty _ hs, ← hs]

end Sys2Proof.Machine

namespace Sys2Proof.Machine

set_option Elab.async false

/-! ## Along the path (R38, R60 to R65, R77) -/

/-! ### Points and headings of a progress (R62, R63) -/

/-- R63: the heading of a progress along an arc. -/
theorem headingAt_arcCcw {seg : Segment} (p : Nat) (h : seg.kind = .arcCcw) :
    (headingAt seg p : Int) = (seg.entryHeading + roundNat (seg.sweep * p) (seg.length * 1000) : Int) % 36000 := by
  unfold headingAt
  rw [h]
  exact mod36000_cast _

theorem headingAt_arcCw {seg : Segment} (p : Nat) (h : seg.kind = .arcCw) :
    (headingAt seg p : Int) = (seg.entryHeading - roundNat (seg.sweep * p) (seg.length * 1000) : Int) % 36000 := by
  unfold headingAt
  rw [h]
  exact mod36000_cast _

/-- R62: the point of a progress along an arc. -/
theorem pointAt_arc {seg : Segment} (p : Nat) (h : seg.kind = .arcCw ∨ seg.kind = .arcCcw) :
    pointAt seg p = seg.implied seg.radius (headingAt seg p) := by
  rw [← circlePoint_implied h]
  unfold pointAt
  rcases h with h | h <;> rw [h]

/-- A step towards `b` rounded, by sign and size. -/
theorem roundDiv_mul (d : Int) (p n : Nat) : roundDiv (d * p) n = d.sign * (roundNat (d.natAbs * p) n : Nat) := by
  have hAbs : (d * p).natAbs = d.natAbs * p := by rw [Int.natAbs_mul, Int.natAbs_natCast]
  have hZero : roundNat 0 n = 0 := by
    unfold roundNat
    rw [Nat.mul_zero, Nat.zero_add]
    rcases Nat.eq_zero_or_pos n with h | h
    · rw [h]
    · exact Nat.div_eq_of_lt (by omega)
  unfold roundDiv
  rw [hAbs]
  rcases Nat.eq_zero_or_pos p with hp | hp
  · subst hp
    simp [hZero]
  · rcases lt_trichotomy d 0 with h | h | h
    · rw [if_pos (Int.mul_neg_of_neg_of_pos h (by omega)), Int.sign_eq_neg_one_of_neg h]
      omega
    · subst h
      simp [hZero]
    · rw [if_neg (Int.not_lt.mpr (Int.mul_nonneg h.le (by omega))), Int.sign_eq_one_of_pos h]
      omega

/-! ### The taking at the opening of an expiry (R60, step 1) -/

/-- R60, R61: a taking and the begin of the period touch different parts. -/
theorem takeSegment_beginPeriod (k : Nat) (seg : Segment) (p : Nat) (s : State) :
    takeSegment k seg p (beginPeriod s) = beginPeriod (takeSegment k seg p s) := by
  unfold takeSegment tagNotice junctionAction
  dsimp only
  cases seg.tag <;> cases seg.kind <;> rcases seg.junction with _ | _ | _ | _ | _ | _ <;> rfl

theorem nextPlanned_of_slot {s : State} {sl : Slot} (hs : s.store.slot s.store.execPtr = some sl)
    (hp : sl.state = .planned) : nextPlanned s = some sl.seg := by
  unfold nextPlanned
  rw [hs]
  exact if_pos hp

theorem openingTake_takes {s : State} {sl : Slot} (hj : s.job.state = .cutting) (ha : s.interp.active = none)
    (hl : s.interp.link = none) (hp : s.interp.pivot = 0) (hs : s.store.slot s.store.execPtr = some sl)
    (hsl : sl.state = .planned) : openingTake s = takeSegment s.store.execPtr sl.seg 0 s := by
  unfold openingTake
  rw [if_pos (by simp [hj, ha, hl, hp]), nextPlanned_of_slot hs hsl]

theorem takeSegment_active (k : Nat) (seg : Segment) (p : Nat) (s : State) :
    (takeSegment k seg p s).interp.active = some k := by
  rw [takeSegment_taking]
  unfold Interp.taking
  dsimp only
  split
  · rfl
  · split <;> rfl

theorem taking_timer (k : Nat) (seg : Segment) (p : Nat) (n : Interp) : (n.taking k seg p).timer = n.timer := by
  unfold Interp.taking
  dsimp only
  split
  · rfl
  · split <;> rfl

theorem exec_interpolationExpiry {s : State} (ht : s.interp.timer.isSome = true) :
    exec .interpolationPeriodExpiry s = .next (interpolationExpiry s) := by
  show Host.Outcome.next (if s.interp.timer.isSome then _ else _) = _
  rw [if_pos ht]

/-- R60, R61: an expiry that opens with a taking is the expiry of the state with the segment taken. -/
theorem exec_openingTake {s : State} {sl : Slot} (ht : s.interp.timer.isSome = true) (hj : s.job.state = .cutting)
    (ha : s.interp.active = none) (hl : s.interp.link = none) (hp : s.interp.pivot = 0)
    (hs : s.store.slot s.store.execPtr = some sl) (hsl : sl.state = .planned) :
    exec .interpolationPeriodExpiry s =
      exec .interpolationPeriodExpiry (takeSegment s.store.execPtr sl.seg 0 s) := by
  obtain ⟨u, hU⟩ : ∃ u, u = takeSegment s.store.execPtr sl.seg 0 s := ⟨_, rfl⟩
  have hTimer : u.interp.timer.isSome = true := by
    rw [hU, takeSegment_taking, taking_timer]
    exact ht
  have hActive : u.interp.active.isSome = true := by
    rw [hU, takeSegment_active]
    rfl
  have hOpened : openingTake (beginPeriod s) = openingTake (beginPeriod u) := by
    rw [openingTake_none (s := beginPeriod u) (.inr (.inl hActive)),
      openingTake_takes (s := beginPeriod s) hj ha hl hp hs hsl, hU]
    exact takeSegment_beginPeriod _ _ _ s
  rw [← hU, exec_interpolationExpiry ht, exec_interpolationExpiry hTimer]
  unfold interpolationExpiry
  rw [hOpened]

/-- R61: the Link after a taking, but for its notices. -/
theorem takeSegment_link_rest (k : Nat) (seg : Segment) (p : Nat) (s : State) :
    let l := (takeSegment k seg p s).link
    l = { s.link with notices := l.notices, noticeLost := l.noticeLost, tx := l.tx } ∧
      (seg.tag = none → l = s.link) := by
  intro l
  have hLink : l = _ := takeSegment_link k seg p s
  cases hg : seg.tag with
  | none =>
    rw [hg] at hLink
    rw [hLink]
    exact ⟨rfl, fun _ => rfl⟩
  | some g =>
    rw [hg] at hLink
    refine ⟨?_, nofun⟩
    rw [hLink]
    dsimp only
    unfold queueNotice
    simp only [mapLink_link]
    split <;> rfl

/-- R60, R61: what the taking at the opening leaves. -/
theorem opening_takes {s : State} {sl : Slot} (hOk : s.slotsOk) (ht : s.interp.timer.isSome = true)
    (hj : s.job.state = .cutting) (ha : s.interp.active = none) (hl : s.interp.link = none) (hp : s.interp.pivot = 0)
    (hs : s.store.slot s.store.execPtr = some sl) (hsl : sl.state = .planned) : ∃ t u,
    exec .interpolationPeriodExpiry s = .next t ∧ exec .interpolationPeriodExpiry u = .next t ∧
    Keeps [.store, .interp, .link] s u ∧
    u.store = s.store.takenAt s.store.execPtr sl.seg ∧ u.store.slot s.store.execPtr = some ⟨.active, sl.seg⟩ ∧
    u.interp = s.interp.taking s.store.execPtr sl.seg 0 ∧
    u.link = { s.link with notices := u.link.notices, noticeLost := u.link.noticeLost, tx := u.link.tx } ∧
    (sl.seg.tag = none → u.link = s.link) ∧
    (s.link.notices.length < 16 → u.link = { s.link with notices := s.link.notices ++ s.tagOf sl.seg }) := by
  have hTimer : (takeSegment s.store.execPtr sl.seg 0 s).interp.timer.isSome = true := by
    rw [takeSegment_taking, taking_timer]
    exact ht
  have hFilled : s.store.slot s.store.execPtr ≠ none := by
    rw [hs]
    exact nofun
  have hExec := exec_interpolationExpiry hTimer
  obtain ⟨hLink, hUntagged⟩ := takeSegment_link_rest s.store.execPtr sl.seg 0 s
  refine ⟨interpolationExpiry (takeSegment s.store.execPtr sl.seg 0 s), takeSegment s.store.execPtr sl.seg 0 s,
    (exec_openingTake ht hj ha hl hp hs hsl).trans hExec, hExec, takeSegment_keeps _ _ _ s, ?_, ?_,
    takeSegment_taking _ _ _ s, hLink, hUntagged, takeSegment_notices _ _ _ s⟩
  · rw [takeSegment_store, activate_eq_takenAt hOk.window.order _ hFilled]
  · rw [takeSegment_store]
    exact (slotAt_slotPut _ _ _ _).trans (if_pos rfl)

/-! ### Short of the end of a segment -/

/-- R60, R62, R77: an expiry that moves along a segment and does not end it. -/
theorem moves_short {s : State} {i : Nat} {sl : Slot} (ht : s.interp.timer.isSome = true)
    (hj : s.job.state = .cutting ∨ ((s.cuts ∨ s.job.state = .stopping) ∧ 0 < (evaluateGovernor s).gov.v))
    (ha : s.interp.active = some i) (hs : s.store.slot i = some sl) (hm : sl.seg.kind.moving = true)
    (hp : s.interp.pivot = 0) (hShort : s.interp.p + (evaluateGovernor s).gov.v < sl.seg.length * 1000) : ∃ t,
    exec .interpolationPeriodExpiry s = .next t ∧ HandedOn s (targetSegment sl.seg s.movedOn) t [] ∧
    Keeps [.store, .interp, .gov, .axes, .link] s t ∧
    t.gov = (evaluateGovernor s).gov ∧
    t.interp =
      { s.interp with
        timer := some 0
        p := s.interp.p + (evaluateGovernor s).gov.v
        targetX := ((pointAt sl.seg (s.interp.p + (evaluateGovernor s).gov.v)).shift (passShift s)).x
        targetY := ((pointAt sl.seg (s.interp.p + (evaluateGovernor s).gov.v)).shift (passShift s)).y
        targetC := headingAt sl.seg (s.interp.p + (evaluateGovernor s).gov.v) } ∧
    t.store = { s.store with armed := t.store.armed } ∧ t.link.marks = s.link.marks := by
  have hRuns : s.cuts ∨ s.job.state = .stopping := by
    rcases hj with h | ⟨h, -⟩
    · exact .inl (.inl h)
    · exact h
  have u : Underway s (targetSegment sl.seg s.movedOn) [] :=
    (underway_movedOn s).moves (targetSegment_keeps _ _).mono rfl
  have hOn := u.goesOn hj
  have kOn := hOn.keeps
  have kMove : Keeps [.store, .interp, .gov, .axes, .link] s (targetSegment sl.seg s.movedOn) :=
    (targetSegment_keeps _ _).after ((movedOn_keeps s).after (m := [.store, .interp, .gov, .axes, .link]) (by
      intro b hb
      cases b <;> first | rfl | simp at hb))
  have hMarks := hOn.marks
  have hFlow : (expiryTail (handInterpTargets (targetSegment sl.seg s.movedOn))).store.flowHeld = s.store.flowHeld :=
    (congrArg Store.flowHeld hOn.store).trans rfl
  refine ⟨expiryTail (handInterpTargets (targetSegment sl.seg s.movedOn)), ?_, hOn, kOn.after kMove, ?_, ?_,
    hOn.store, ?_⟩
  · rw [exec_expiry ht (.inr (.inl (by rw [ha]; rfl))), motionAndEnds_short hRuns ha hs hm hp hShort]
  · exact (kOn .gov (by decide)).trans rfl
  · exact (kOn .interp (by decide)).trans rfl
  · unfold State.goMarked at hMarks
    rw [hMarks, hFlow, if_neg]
    exact fun h => by rw [h.1] at h; cases h.2

/-! ### The segment that follows a completion -/

/-- R77, R84, R152: the reports of an expiry along the path, in CUTTING and in HOLDING with the held flag clear. -/
theorem Underway.judged {s y : State} {queued : List Notice} (u : Underway s y queued) (hc : s.cuts) :
    let t := expiryTail (handInterpTargets y)
    s.restJudged y.job queued t ∧ Keeps [.axes, .job, .stroke, .load, .store, .link] y t ∧
      t.store = { y.store with armed := t.store.armed } ∧ s.goMarked t ∧
      Axes.handed s.params t.interp.targetX t.interp.targetY t.interp.targetC s.axes t.axes := by
  intro t
  have r : Reporting s (handInterpTargets y) :=
    ⟨u.state, u.keeps .stroke (by decide), u.keeps .load (by decide), u.keeps .params (by decide), u.requests, u.armed⟩
  obtain ⟨hJudged, kt, hStore, hMarks⟩ :=
    expiryTail_judged (x := handInterpTargets y) hc r fun hl => u.notices (by omega)
  refine ⟨hJudged, kt.after (handInterpTargets_keeps y).mono, hStore, ?_, u.handed_after (.refl _ y) kt⟩
  have hFlow : t.store.flowHeld = y.store.flowHeld := (congrArg Store.flowHeld hStore).trans rfl
  unfold State.goMarked
  rw [hFlow, ← u.marks]
  exact hMarks

theorem tagOf_length (s : State) (seg : Segment) : (s.tagOf seg).length ≤ 1 := by
  unfold State.tagOf
  cases seg.tag <;> simp

theorem count_eq (seg : Segment) (j : Job) :
    j.count seg = { j with executed := (j.count seg).executed, lastCompleted := some seg.number } := rfl

theorem count_executed {seg : Segment} {j : Job} (h : j.executed < 4294967295) :
    (j.count seg).executed = j.executed + 1 := by
  unfold Job.count
  exact if_pos h

theorem takesNext_keeps (k past : Nat) (nx : Segment) (r : State) :
    Keeps [.store, .interp, .gov, .link] r (r.takesNext k past nx) := by
  unfold State.takesNext
  refine .ite ?_ ?_
  · exact (targetSegment_keeps _ _).after (takeSegment_keeps _ _ _ r).mono
  · exact (takeSegment_keeps _ _ _ _).after (takeFeedAsZero_keeps r).mono

theorem takesNext_v (k past : Nat) (nx : Segment) (r : State) : (r.takesNext k past nx).gov.v = r.gov.v := by
  unfold State.takesNext
  split
  · rw [show (targetSegment _ _).gov = _ from targetSegment_keeps _ _ .gov (by decide),
      takeSegment_keeps k nx past r .gov (by decide)]
  · rw [takeSegment_keeps k nx 0 (takeFeedAsZero r) .gov (by decide)]
    rfl

/-- With the window in its form, the active slot is the one at the execution pointer. -/
theorem windowOk_active {s : State} {i : Nat} (hOk : s.slotsOk) (ha : s.interp.active = some i) :
    i = s.store.execPtr ∧ s.store.windowOk (some s.store.execPtr) := by
  have hi := (hOk.window.taken i ha).1
  refine ⟨hi, ?_⟩
  rw [← hi, ← ha]
  exact hOk.window

/-- R64, R65: a completion after which the next segment is taken. -/
theorem completes_takes {s : State} {i past : Nat} {sl nx : Slot} (hOk : s.slotsOk) (ht : s.interp.timer.isSome = true)
    (hc : s.cuts) (ha : s.interp.active = some i) (hs : s.store.slot i = some sl) (hp : s.interp.pivot = 0)
    (he : s.atEndOf sl.seg past) (hg : pathGoesOn sl.seg s.store)
    (hn : (s.completion sl.seg).store.slot (s.store.after i) = some nx)
    (ho : past < nx.seg.length * 1000 ∨ ¬nx.seg.carried) : ∃ t,
      exec .interpolationPeriodExpiry s = .next t ∧ nx.state = .planned ∧
      Keeps [.store, .planner, .interp, .gov, .stroke, .load, .axes, .job, .link] s t ∧
      s.wentOn (s.atEnd sl.seg) (s.store.after i) past nx.seg (s.completion sl.seg) t ∧
      s.restJudged { s.job with executed := t.job.executed, lastCompleted := some sl.seg.number } (s.tagOf nx.seg) t ∧
      (s.job.executed < 4294967295 → t.job.executed = s.job.executed + 1) ∧ s.goMarked t ∧
      Axes.handed s.params t.interp.targetX t.interp.targetY t.interp.targetC s.axes t.axes := by
  obtain ⟨rfl, hWindow⟩ := windowOk_active hOk ha
  obtain ⟨hStore, hPlanner⟩ := ended_plan hWindow sl.seg
  obtain ⟨hNext, hPlanned, -⟩ := nextPlanned_completion hWindow hg hStore hn
  have hPtr : (s.ended sl.seg).store.execPtr = s.store.after s.store.execPtr := by
    rw [hStore, completion_execPtr hg]
  have hRuns : s.job.state ≠ .stopping := by
    rcases hc with h | ⟨h, -⟩ <;> rw [h] <;> decide
  have kAt := atSegmentEnd_keeps sl.seg (atEvaluation s)
  obtain ⟨y, hY⟩ : ∃ y, y = (s.ended sl.seg).takesNext (s.store.after s.store.execPtr) past nx.seg := ⟨_, rfl⟩
  have u : Underway s y (s.tagOf nx.seg) := by
    rw [hY]
    exact underway_takesNext (underway_ended sl.seg s) _ _ _
  have hExec : exec .interpolationPeriodExpiry s = .next (expiryTail (handInterpTargets y)) := by
    rw [exec_pathEnd ht (.inl hc) ha hs hp he, completeSegment_takesNext (by rw [kAt .store (by decide)]; exact hg)
      hNext ho (.inr (by rw [kAt .job (by decide)]; exact hRuns)), hY, ← hPtr]
    rfl
  have hJob : y.job = s.job.count sl.seg := by
    rw [hY, takesNext_keeps _ _ _ _ .job (by decide), ended_job]
  obtain ⟨hJudged, kt, hArmed, hMarks, hHanded⟩ := u.judged hc
  have hExecuted : (expiryTail (handInterpTargets y)).job.executed = (s.job.count sl.seg).executed := by
    rw [hJudged.1, hJob]
    split <;> rfl
  refine ⟨expiryTail (handInterpTargets y), hExec, hPlanned, kt.after u.keeps.mono, ?_, ?_, fun hl => ?_, hMarks,
    hHanded⟩
  · rw [← ended_interp he]
    refine wentOn_takesNext (underway_ended sl.seg s) (ended_gov sl.seg s) hStore hPlanner
      (windowOk_completion hWindow sl.seg).order (by rw [hn]; exact nofun) ?_ ?_
    · exact hY ▸ kt.mono
    · exact hY ▸ hArmed
  · rw [hExecuted, ← count_eq, ← hJob]
    exact hJudged
  · rw [hExecuted, count_executed hl]

/-! ### A segment passed over (R65) -/

/-- The segment `nx` of the slot after the completed one, taken with the overshoot and snapped to its end. -/
def State.passedOver (seg : Segment) (past : Nat) (nx : Segment) (s : State) : State :=
  snapToEnd nx (takeSegment (s.store.after s.store.execPtr) nx past (s.ended seg))

theorem underway_passedOver (seg : Segment) (past : Nat) (nx : Segment) (s : State) :
    Underway s (s.passedOver seg past nx) (s.tagOf nx) :=
  ((underway_ended seg s).take _ nx past).moves (snapToEnd_keeps nx _).mono rfl

theorem passedOver_job (seg : Segment) (past : Nat) (nx : Segment) (s : State) :
    (s.passedOver seg past nx).job = s.job.count seg :=
  (snapToEnd_keeps nx _ .job (by decide)).trans ((takeSegment_keeps _ nx past _ .job (by decide)).trans
    (ended_job seg s))

theorem passedOver_gov (seg : Segment) (past : Nat) (nx : Segment) (s : State) :
    (s.passedOver seg past nx).gov = (evaluateGovernor s).gov :=
  (snapToEnd_keeps nx _ .gov (by decide)).trans ((takeSegment_keeps _ nx past _ .gov (by decide)).trans
    (ended_gov seg s))

/-- R64: where a moving segment leaves an Interpolator `n` of the same pass. -/
theorem atEnd_moving {s : State} {n : Interp} {nx : Segment} (hm : nx.kind.moving = true) (ht : n.timer = some 0)
    (hp : n.pass = s.interp.pass) : ({ s with interp := n } : State).atEnd nx =
      { n with
        active := none
        p := 0
        targetX := (nx.stopAt.shift (passShift s)).x
        targetY := (nx.stopAt.shift (passShift s)).y
        targetC := nx.exitHeading } := by
  have hKind : nx.kind ≠ .pause := fun h => by
    rw [h] at hm
    cases hm
  have hShift : passShift ({ s with interp := n } : State) = passShift s := by
    unfold passShift
    rw [← hp]
  unfold State.atEnd
  rw [hShift, ← ht]
  exact if_neg hKind

/-- R64: the Interpolator at the end of the segment passed over. -/
theorem passedOver_ended {s : State} {seg nx : Segment} {past : Nat} (he : s.atEndOf seg past)
    (hm : nx.kind.moving = true) : (reportCompletion nx (s.passedOver seg past nx)).interp =
      ({ s with interp := (s.atEnd seg).taking (s.store.after s.store.execPtr) nx past } : State).atEnd nx := by
  have u := (underway_ended seg s).take (s.store.after s.store.execPtr) nx past
  have hTaken : (takeSegment (s.store.after s.store.execPtr) nx past (s.ended seg)).interp =
      (s.atEnd seg).taking (s.store.after s.store.execPtr) nx past := by
    rw [takeSegment_taking, ended_interp he]
  have hShift := u.shift
  have hPass := u.pass
  obtain ⟨-, -, hTimer, -⟩ := atEnd_rest seg s
  rw [atEnd_moving hm ((taking_timer _ _ _ _).trans hTimer) (hTaken ▸ hPass), ← hTaken, ← hShift,
    (reportCompletion_eq nx _).2.1]
  rfl

/-- The state of the rules in which the segment passed over is completed. -/
def State.withTaken (seg nx : Segment) (s : State) : State :=
  { s with
    store := (s.completion seg).store.takenAt (s.store.after s.store.execPtr) nx
    planner := (s.completion seg).planner }

theorem passedOver_plan {s : State} {seg : Segment} {past : Nat} {nx : Slot}
    (hw : s.store.windowOk (some s.store.execPtr)) (hg : pathGoesOn seg s.store)
    (hn : (s.completion seg).store.slot (s.store.after s.store.execPtr) = some nx) :
    (s.passedOver seg past nx.seg).store = (s.withTaken seg nx.seg).store ∧
      (s.passedOver seg past nx.seg).planner = (s.withTaken seg nx.seg).planner ∧
      (s.withTaken seg nx.seg).store.execPtr = s.store.after s.store.execPtr ∧
      (s.withTaken seg nx.seg).store.windowOk (some (s.withTaken seg nx.seg).store.execPtr) := by
  obtain ⟨hStore, hPlanner⟩ := ended_plan hw seg
  have hWindow := windowOk_completion hw seg
  have hPtr := completion_execPtr (s := s) hg
  have hFilled : (s.completion seg).store.slot (s.completion seg).store.execPtr ≠ none := by
    rw [hPtr, hn]
    exact nofun
  have hTaken : (s.withTaken seg nx.seg).store =
      (s.completion seg).store.activate (s.completion seg).store.execPtr nx.seg := by
    rw [activate_eq_takenAt hWindow.order _ hFilled, hPtr]
    rfl
  have hExec : (s.withTaken seg nx.seg).store.execPtr = s.store.after s.store.execPtr := hPtr
  refine ⟨?_, ?_, hExec, ?_⟩
  · rw [hTaken, hPtr, ← hStore, ← takeSegment_store _ _ past]
    exact snapToEnd_keeps _ _ .store (by decide)
  · exact (snapToEnd_keeps _ _ .planner (by decide)).trans
      ((takeSegment_keeps _ _ past _ .planner (by decide)).trans hPlanner)
  · rw [hExec, hTaken, ← hPtr]
    exact windowOk_activate hWindow _ hFilled

/-- R65: the expiry whose overshoot passes over the segment that follows. -/
theorem exec_passesOver {s : State} {past : Nat} {sl nx : Slot} (ht : s.interp.timer.isSome = true)
    (ha : s.interp.active = some s.store.execPtr) (hw : s.store.windowOk (some s.store.execPtr))
    (hs : s.store.slot s.store.execPtr = some sl) (hm : sl.seg.kind.moving = true) (hp : s.interp.pivot = 0)
    (he : s.atEndOf sl.seg past) (hg : pathGoesOn sl.seg s.store)
    (hn : (s.completion sl.seg).store.slot (s.store.after s.store.execPtr) = some nx) (hc : nx.seg.carried)
    (ho : nx.seg.length * 1000 ≤ past) :
    exec .interpolationPeriodExpiry s = .next (expiryTail (handInterpTargets (completeSegment (past / 1000 + 1) nx.seg
      (past - nx.seg.length * 1000) (s.passedOver sl.seg past nx.seg)))) := by
  obtain ⟨hStore, -⟩ := ended_plan hw sl.seg
  obtain ⟨hNext, -⟩ := nextPlanned_completion hw hg hStore hn
  have kAt := atSegmentEnd_keeps sl.seg (atEvaluation s)
  have hPtr : (s.ended sl.seg).store.execPtr = s.store.after s.store.execPtr := by
    rw [hStore, completion_execPtr hg]
  rw [exec_pathEnd ht (.inr hm) ha hs hp he,
    completeSegment_overruns (by rw [kAt .store (by decide)]; exact hg) hNext hc ho]
  unfold State.passedOver
  rw [← hPtr]
  rfl

/-- R65, R70: two completions in one expiry, the second followed by a taking. -/
theorem passesOver_takes {s : State} {past : Nat} {sl nx third : Slot} (ht : s.interp.timer.isSome = true)
    (hj : s.cuts ∨ s.job.state = .stopping) (ha : s.interp.active = some s.store.execPtr)
    (hw : s.store.windowOk (some s.store.execPtr)) (hs : s.store.slot s.store.execPtr = some sl)
    (hm : sl.seg.kind.moving = true) (hp : s.interp.pivot = 0) (hv : 0 < (evaluateGovernor s).gov.v)
    (he : s.atEndOf sl.seg past) (hg : pathGoesOn sl.seg s.store)
    (hn : (s.completion sl.seg).store.slot (s.store.after s.store.execPtr) = some nx) (hc : nx.seg.carried)
    (ho : nx.seg.length * 1000 ≤ past) (hg' : pathGoesOn nx.seg (s.withTaken sl.seg nx.seg).store)
    (h3 : ((s.withTaken sl.seg nx.seg).completion nx.seg).store.slot
      ((s.withTaken sl.seg nx.seg).store.after (s.store.after s.store.execPtr)) = some third)
    (ho' : past - nx.seg.length * 1000 < third.seg.length * 1000 ∨ ¬third.seg.carried) : ∃ t y queued,
      exec .interpolationPeriodExpiry s = .next t ∧ Underway s y queued ∧ HandedOn s y t queued ∧
      y.job = (s.job.count sl.seg).count nx.seg ∧ queued.length ≤ 2 ∧
      (s.cuts ∨ third.seg.carried → queued = s.tagOf nx.seg ++ s.tagOf third.seg ∧
        s.wentOn
          (({ s with interp := (s.atEnd sl.seg).taking (s.store.after s.store.execPtr) nx.seg past } : State).atEnd
            nx.seg)
          ((s.withTaken sl.seg nx.seg).store.after (s.store.after s.store.execPtr))
          (past - nx.seg.length * 1000) third.seg
          ((s.withTaken sl.seg nx.seg).completion nx.seg) t) ∧
      (s.job.state = .stopping → ¬third.seg.carried → queued = s.tagOf nx.seg ∧
        t.store = { ((s.withTaken sl.seg nx.seg).completion nx.seg).store with armed := t.store.armed } ∧
        t.planner = ((s.withTaken sl.seg nx.seg).completion nx.seg).planner ∧
        t.interp = ({ s with interp := (s.atEnd sl.seg).taking (s.store.after s.store.execPtr) nx.seg past } :
          State).atEnd nx.seg ∧
        t.gov = { (evaluateGovernor s).gov with vprev := 0 }) := by
  obtain ⟨pStore, pPlanner, pPtr, pWindow⟩ := passedOver_plan (past := past) hw hg hn
  obtain ⟨-, -, hMoves⟩ := nextPlanned_completion hw hg (r := s.ended sl.seg) (ended_plan hw sl.seg).1 hn
  have uPassed := underway_passedOver sl.seg past nx.seg s
  obtain ⟨x, hX⟩ : ∃ x, x = s.passedOver sl.seg past nx.seg := ⟨_, rfl⟩
  obtain ⟨b, hB⟩ : ∃ b, b = s.withTaken sl.seg nx.seg := ⟨_, rfl⟩
  rw [← hX] at pStore pPlanner uPassed
  rw [← hB] at pStore pPlanner pPtr pWindow hg' h3
  have hParams : x.params = b.params := by
    rw [hB]
    exact uPassed.keeps .params (by decide)
  have hState : x.job.state = b.job.state := by
    rw [hB]
    exact uPassed.state.1
  obtain ⟨rStore, rPlanner⟩ := report_completion (seg := nx.seg) pWindow pStore pPlanner hParams hState
  rw [← pPtr] at h3
  obtain ⟨hNext, -, -⟩ := nextPlanned_completion pWindow hg' rStore h3
  have rPtr : (reportCompletion nx.seg x).store.execPtr = b.store.after (s.store.after s.store.execPtr) := by
    rw [rStore, completion_execPtr hg', pPtr]
  have uReport := uPassed.report nx.seg
  have rGov : (reportCompletion nx.seg x).gov = (evaluateGovernor s).gov := by
    rw [reportCompletion_keeps nx.seg x .gov (by decide), hX, passedOver_gov]
  have rJob : (reportCompletion nx.seg x).job = (s.job.count sl.seg).count nx.seg := by
    rw [(reportCompletion_eq nx.seg x).1, hX, passedOver_job]
  have rInterp := passedOver_ended (past := past) he (hMoves hc)
  rw [← hX] at rInterp
  have hExec := exec_passesOver ht ha hw hs hm hp he hg hn hc ho
  rw [← hX] at hExec
  have hGoes : pathGoesOn nx.seg x.store := by
    rw [pStore]
    exact hg'
  by_cases hTakes : s.cuts ∨ third.seg.carried
  · have hRuns : third.seg.carried ∨ x.job.state ≠ .stopping := by
      rw [uPassed.state.1]
      rcases hTakes with (h | ⟨h, -⟩) | h
      · exact .inr (by rw [h]; decide)
      · exact .inr (by rw [h]; decide)
      · exact .inl h
    rw [completeSegment_takesNext hGoes hNext ho' hRuns, rPtr] at hExec
    have uTakes := underway_takesNext uReport (b.store.after (s.store.after s.store.execPtr))
      (past - nx.seg.length * 1000) third.seg
    have hOn := uTakes.goesOn (.inr ⟨hj, by rw [takesNext_v, rGov]; exact hv⟩)
    have hOne := tagOf_length s nx.seg
    have hTwo := tagOf_length s third.seg
    refine ⟨_, _, _, hExec, uTakes, hOn, ?_, ?_, fun _ => ⟨rfl, ?_⟩, fun hStop hNot => ?_⟩
    · rw [takesNext_keeps _ _ _ _ .job (by decide), rJob]
    · rw [List.length_append]
      omega
    · rw [← rInterp, ← hB]
      exact wentOn_takesNext uReport rGov rStore rPlanner (windowOk_completion pWindow nx.seg).order
        (by rw [← pPtr, h3]; exact nofun) hOn.keeps.mono hOn.store
    · rcases hTakes with (h | ⟨h, -⟩) | h
      · rw [hStop] at h
        cases h
      · rw [hStop] at h
        cases h
      · exact absurd h hNot
  · have hStop : s.job.state = .stopping := hj.resolve_left fun h => hTakes (.inl h)
    have hNot : ¬third.seg.carried := fun h => hTakes (.inr h)
    rw [completeSegment_runsOut (by rw [uPassed.state.1, hStop]) fun next ⟨_, hN, hC⟩ => by
      rw [hNext] at hN
      cases hN
      exact hNot hC] at hExec
    have uRests := uReport.moves (takeFeedAsZero_keeps _).mono rfl
    have hOn := uRests.goesOn (.inr ⟨hj, by
      show 0 < (reportCompletion nx.seg x).gov.v
      rw [rGov]
      exact hv⟩)
    have hOne := tagOf_length s nx.seg
    refine ⟨_, _, _, hExec, uRests, hOn, rJob, by omega, fun h => absurd h hTakes, fun _ _ => ⟨rfl, ?_, ?_, ?_, ?_⟩⟩
    · rw [← hB, ← rStore]
      exact hOn.store
    · rw [← hB, ← rPlanner]
      exact hOn.keeps .planner (by decide)
    · rw [← rInterp]
      exact hOn.keeps .interp (by decide)
    · rw [← rGov]
      exact hOn.keeps .gov (by decide)

/-! ### The low-water flag after every expiry (R38) -/

theorem outside_job {j : JobState} (h : j.inJob = false) : j = .idle ∨ j = .motion ∨ j = .fault := by
  revert h
  cases j <;> decide

/-- R38, log entry 10: while a job runs, the low-water evaluation leaves the flag by the path ahead. -/
theorem lowWaterAfter_armed {x t : State} (ht : t = warmupPassage (lowWaterAfter x)) (hIdle : t.job.state ≠ .idle)
    (hMotion : t.job.state ≠ .motion) (hFault : t.job.state ≠ .fault) (hm : t.store.mode = .stream)
    (hc : t.store.chainClosed = false) : t.store.armed = decide (t.params.lowWater ≤ t.ahead) := by
  cases hIn : x.job.state.inJob with
  | false =>
    have hSame : t = x := by
      rw [ht, lowWaterAfter_job, hIn, if_neg Bool.false_ne_true, warmupPassage_other]
      intro h
      rw [h] at hIn
      cases hIn
    rw [hSame] at hIdle hMotion hFault
    rcases outside_job hIn with h | h | h
    · exact absurd h hIdle
    · exact absurd h hMotion
    · exact absurd h hFault
  | true =>
    rw [lowWaterAfter_job, hIn, if_pos rfl] at ht
    have kw := warmupPassage_keeps (lowWater x)
    have kl := lowWater_keeps x
    rw [← ht] at kw
    have eStore : t.store = _ := (kw .store (by decide)).trans (lowWater_store x)
    have eInterp : t.interp = x.interp := (kw .interp (by decide)).trans (kl .interp (by decide))
    have eParams : t.params = x.params := (kw .params (by decide)).trans (kl .params (by decide))
    have eAhead : t.ahead = pathAhead x := by
      rw [ahead_eq]
      unfold State.ahead
      rw [eStore, eInterp]
    rw [eStore] at hm hc
    rw [eAhead, eParams, eStore]
    exact if_pos ⟨hm, hc⟩

/-! ### The statement -/

/-- R62: along a straight each coordinate goes towards the end, by sign and size. -/
theorem alongLine_eq (a b : Point) (length p : Nat) :
    alongLine a b length p =
      ⟨a.x + (b.x - a.x).sign * (roundNat ((b.x - a.x).natAbs * p) (length * 1000) : Nat),
        a.y + (b.y - a.y).sign * (roundNat ((b.y - a.y).natAbs * p) (length * 1000) : Nat)⟩ := by
  unfold alongLine
  rw [roundDiv_mul, roundDiv_mul]

theorem completedAt_same (flowGo i : Nat) (st : Store) :
    (st.completedAt flowGo i).mode = st.mode ∧ (st.completedAt flowGo i).writePtr = st.writePtr ∧
      (st.completedAt flowGo i).winEnd = st.winEnd ∧ (st.completedAt flowGo i).winBegin = st.winBegin := by
  unfold Store.completedAt
  split <;> exact ⟨rfl, rfl, rfl, rfl⟩

theorem completion_same (seg : Segment) (s : State) :
    (s.completion seg).store.mode = s.store.mode ∧ (s.completion seg).store.writePtr = s.store.writePtr ∧
      (s.completion seg).store.winEnd = s.store.winEnd ∧ (s.completion seg).store.winBegin = s.store.winBegin := by
  unfold State.completion
  rw [replan_store]
  exact completedAt_same _ _ s.store

/-- R24, R25: the slot after a slot stays so through a completion and a taking. -/
theorem withTaken_after (seg nx : Segment) (s : State) (k : Nat) :
    (s.withTaken seg nx).store.after k = s.store.after k ∧
      (s.withTaken seg nx).store.mode = s.store.mode ∧ (s.withTaken seg nx).store.writePtr = s.store.writePtr := by
  obtain ⟨hMode, hWrite, hEnd, hBegin⟩ := completion_same seg s
  refine ⟨?_, hMode, hWrite⟩
  unfold Store.after
  rw [show (s.withTaken seg nx).store.mode = s.store.mode from hMode,
    show (s.withTaken seg nx).store.winEnd = s.store.winEnd from hEnd,
    show (s.withTaken seg nx).store.winBegin = s.store.winBegin from hBegin]

theorem count_count_executed {seg nx : Segment} {j : Job} (h : j.executed < 4294967294) :
    ((j.count seg).count nx).executed = j.executed + 2 := by
  have hOne : (j.count seg).executed = j.executed + 1 := count_executed (by omega)
  rw [count_executed (by omega), hOne]

/-- Settles O39: the points of a progress, the taking at the opening, the motion short of an end, one completion
and two, and the low-water flag. -/
theorem activeSegmentAdvances : Obligations.ActiveSegmentAdvances := by
  refine ⟨fun seg p => ⟨?_, ?_⟩, fun a b length p => alongLine_eq a b length p,
    fun sl s hOk ht hj ha hl hp hs hsl => opening_takes hOk ht hj ha hl hp hs hsl,
    fun i sl s ht hj ha hs hm hp hShort => ?_,
    fun i past sl s hOk ht hc ha hs hp he hg => ?_, fun i past sl s hOk ht hj ha hs hm hp hv he => ?_, fun s ht => ?_⟩
  · cases hk : seg.kind
    · unfold headingAt
      rw [hk]
    · exact headingAt_arcCw p hk
    · exact headingAt_arcCcw p hk
    · unfold headingAt
      rw [hk]
  · cases hk : seg.kind
    · unfold pointAt
      rw [hk]
    · exact pointAt_arc p (.inl hk)
    · exact pointAt_arc p (.inr hk)
    · unfold pointAt
      rw [hk]
  · have hRuns : s.job.state = .cutting ∨ ((s.cuts ∨ s.job.state = .stopping) ∧ 0 < (evaluateGovernor s).gov.v) := by
      rcases hj with h | ⟨h, hh, hv⟩
      · exact .inl h
      · exact .inr ⟨.inl (.inr ⟨h, hh⟩), hv⟩
    obtain ⟨t, hExec, hOn, hKeeps, hGov, hInterp, hStore, hMarks⟩ := moves_short ht hRuns ha hs hm hp hShort
    refine ⟨t, hExec, hKeeps, hGov, ?_, hStore, hOn.requests, hMarks, fun hRoom => ?_, hOn.handed⟩
    · rw [hInterp, hGov]
    · rw [hOn.notices hRoom, List.append_nil]
  · obtain ⟨rfl, hWindow⟩ := windowOk_active hOk ha
    exact ⟨s.completion sl.seg, completion_completed hWindow sl.seg, fun nx hn ho =>
      completes_takes hOk ht hc ha hs hp he ((pathGoesOn_iff _ _).mpr hg) hn ho⟩
  · intro j k hg
    obtain ⟨rfl, hWindow⟩ := windowOk_active hOk ha
    have hGoes := (pathGoesOn_iff _ _).mpr hg
    refine ⟨s.completion sl.seg, completion_completed hWindow sl.seg, fun nx hn hc ho hg' => ?_⟩
    obtain ⟨-, -, pPtr, pWindow⟩ := passedOver_plan (past := past) hWindow hGoes hn
    obtain ⟨hAfter, hMode, hWrite⟩ := withTaken_after sl.seg nx.seg s j
    have hGoes' : pathGoesOn nx.seg (s.withTaken sl.seg nx.seg).store := by
      rw [pathGoesOn_iff, hMode, hWrite, pPtr]
      exact hg'
    refine ⟨(s.withTaken sl.seg nx.seg).completion nx.seg, ?_, fun third h3 ho' => ?_⟩
    · have hCompleted := completion_completed pWindow nx.seg
      rw [pPtr] at hCompleted
      exact hCompleted
    · obtain ⟨t, y, queued, hExec, u, hOn, hJob, hFew, hTakes, hStops⟩ :=
        passesOver_takes ht hj ha hWindow hs hm hp hv he hGoes hn hc ho hGoes' (by rw [hAfter]; exact h3) ho'
      have tJob : t.job = (s.job.count sl.seg).count nx.seg := (hOn.keeps .job (by decide)).trans hJob
      refine ⟨t, hExec, hOn.keeps.after u.keeps, by rw [tJob]; rfl,
        fun hl => by rw [tJob]; exact count_count_executed hl,
        hOn.requests, hOn.marks, hOn.handed, fun h => ?_, fun hStop hNot => ?_⟩
      · obtain ⟨hQueued, hWent⟩ := hTakes h
        rw [hAfter] at hWent
        refine ⟨hWent, fun hRoom => ?_⟩
        rw [hOn.notices (by omega), hQueued]
        simp only [List.append_assoc]
      · obtain ⟨hQueued, hStore, hPlanner, hInterp, hGov⟩ := hStops hStop hNot
        refine ⟨hStore, hPlanner, hInterp, hGov, fun hRoom => ?_⟩
        rw [hOn.notices (by omega), hQueued]
  · refine ⟨_, exec_interpolationExpiry ht, fun hIdle hMotion hFault hm hc => ?_⟩
    exact lowWaterAfter_armed (x := reportRest _) rfl hIdle hMotion hFault hm hc

end Sys2Proof.Machine

namespace Sys2Proof.Machine

set_option Elab.async false

/-! ## The end of a controlled stop (R31, R66, R68, R70, R77, R142) -/

/-- R60: the hand-over at the end of a period, whatever the reports before and after it. -/
theorem handed_of {s y t : State} (ha : y.axes = s.axes.each AxisState.issueRest) (hp : y.params = s.params)
    (kt : Keeps [.job, .stroke, .load, .store, .link] (handInterpTargets y) t) :
    Axes.handed s.params t.interp.targetX t.interp.targetY t.interp.targetC s.axes t.axes := by
  rw [show t.interp = y.interp from kt .interp (by decide), kt .axes (by decide), handInterpTargets_eq]
  show Axes.handed _ _ _ _ _ (handTargets y.params _ _ _ y.axes)
  rw [ha, hp]
  exact handTargets_handed _ _ _ _ _

/-- R31: a stop of a STREAM job hands GO when the flow state was HELD. -/
theorem storeStop_marks (s : State) : (storeStop s).link.marks =
    if s.store.mode = .stream ∧ s.store.flowHeld = true then s.link.marks ++ [.go] else s.link.marks := by
  obtain ⟨-, -, hMarks⟩ := storeStop_parts s
  rw [hMarks]
  cases s.store.mode <;> simp

/-- R31, R142: the GO of a flow state that was HELD when a controlled stop of a job ends. -/
theorem controlledStopEnd_marks {s : State} (h : stopEntered s ≠ .motion) :
    (controlledStopEnd s).link.marks =
      if s.store.mode = .stream ∧ s.store.flowHeld = true then s.link.marks ++ [.go] else s.link.marks := by
  unfold controlledStopEnd
  extract_lets entered u v w x
  have hx : x.link = u.link := enterStopEnd_keeps v .link (by decide)
  have hMarks := storeStop_marks ((coastRequest s).mapInterp Interp.stopClear)
  rw [← stopPath_job h] at hMarks
  rw [(queueNotice_link _ x).2.1, hx]
  exact hMarks

/-- R74: in STOPPING no start pivot is made at the end of a link move. -/
theorem endLink_stopping {s : State} {lk : LinkMove} (hj : s.job.state = .stopping) :
    endLink lk s = (takeFeedAsZero (targetPoint lk.stopAt s)).mapInterp fun n => { n with link := none, p := 0 } :=
  if_pos hj

/-- R66, R68, R70: what moves in an expiry in STOPPING whose V is 0 and which ends no moving segment. -/
theorem motionAndEnds_stops {e : State} (hj : e.job.state = .stopping) (hv : e.gov.v = 0)
    (hShort : ∀ seg, activeSegment e = some seg → seg.kind.moving = true → e.interp.p < seg.length * 1000) :
    Keeps [.interp, .gov] e (motionAndEnds e) ∧ (motionAndEnds e).gov.v = 0 ∧
      (motionAndEnds e).interp.pass = e.interp.pass := by
  have hInterp : ∀ f : Interp → Interp, (f e.interp).pass = e.interp.pass →
      Keeps [.interp, .gov] e (e.mapInterp f) ∧ (e.mapInterp f).gov.v = 0 ∧
        (e.mapInterp f).interp.pass = e.interp.pass :=
    fun f hf => ⟨(mapInterp_keeps f e).mono, hv, hf⟩
  unfold motionAndEnds
  rw [hj, if_pos rfl]
  split
  · exact hInterp _ rfl
  · split
    · next seg ha =>
      split
      · next hm =>
        unfold advanceSegment
        dsimp only
        rw [if_neg (by rw [mapInterp_interp, hv]; exact Nat.not_le.mpr (hShort seg ha hm))]
        split
        · exact hInterp _ rfl
        · exact ⟨(targetSegment_keeps _ _).after (mapInterp_keeps _ e).mono, hv, rfl⟩
      · unfold countPause
        rw [if_pos hj]
        exact hInterp _ rfl
    · split
      · exact ⟨.refl _ e, hv, rfl⟩
      · next lk hl =>
        unfold advanceLink
        dsimp only
        split
        · rw [endLink_stopping (by exact hj)]
          exact ⟨(mapInterp_keeps _ _).after ((takeFeedAsZero_keeps _).after ((targetPoint_keeps _ _).after
            (mapInterp_keeps _ e).mono)), hv, rfl⟩
        · split
          · exact hInterp _ rfl
          · exact ⟨(targetPoint_keeps _ _).after (mapInterp_keeps _ e).mono, hv, rfl⟩

/-- R77, R142: at rest in STOPPING the controlled stop ends, and nothing follows it. -/
theorem expiryTail_stopped {x : State} (hj : x.job.state = .stopping) (hv : x.gov.v = 0) :
    expiryTail x = controlledStopEnd x := by
  have hRest : reportRest x = controlledStopEnd x := by
    unfold reportRest
    rw [hj]
    exact if_pos hv
  have hOver : (controlledStopEnd x).job.state = .idle ∨ (controlledStopEnd x).job.state = .fault := by
    rw [(controlledStopEnd_parts x).1]
    show (if x.guard.latch = 0 then JobState.idle else .fault) = .idle ∨ _
    split
    · exact .inl rfl
    · exact .inr rfl
  have hAfter : expiryTail (controlledStopEnd x) = warmupPassage (lowWaterAfter (controlledStopEnd x)) := by
    unfold expiryTail
    rw [reportRest_other (by rcases hOver with h | h <;> rw [h] <;> decide)
      (by rcases hOver with h | h <;> rw [h] <;> decide)]
  rw [← expiryTail_ended hOver, hAfter]
  unfold expiryTail
  rw [hRest]

/-- R31, R101, R142: a controlled stop of a job ends at the first expiry whose V is 0. -/
theorem stop_ends {entered : JobState} {s : State} (ht : s.interp.timer.isSome = true) (hj : s.job.state = .stopping)
    (hg : s.guard.stop = some entered) (hv : (evaluateGovernor s).gov.v = 0)
    (hShort : ∀ i sl, s.interp.active = some i → s.store.slot i = some sl → sl.seg.kind.moving = true →
      s.interp.p < sl.seg.length * 1000) : ∃ x,
    exec .interpolationPeriodExpiry s = .next (controlledStopEnd x) ∧ Keeps [.interp, .gov, .axes] s x ∧
    stopEntered x = entered ∧
    ∀ a, ((x.axes.get a).enable = (s.axes.get a).enable ∧ (x.axes.get a).ref = (s.axes.get a).ref) := by
  have hShort' : ∀ seg, activeSegment (atEvaluation s) = some seg → seg.kind.moving = true →
      (atEvaluation s).interp.p < seg.length * 1000 := by
    intro seg hSeg hMoves
    unfold activeSegment at hSeg
    split at hSeg
    · cases hSeg
    · next i ha =>
      obtain ⟨sl, hs, rfl⟩ := Option.map_eq_some_iff.mp hSeg
      exact hShort i sl ha hs hMoves
  obtain ⟨kM, hStands, hPass⟩ := motionAndEnds_stops (e := atEvaluation s) hj hv hShort'
  have u := (underway_atEvaluation s).moves kM hPass
  obtain ⟨x, hX⟩ : ∃ x, x = handInterpTargets (motionAndEnds (atEvaluation s)) := ⟨_, rfl⟩
  have kX : Keeps [.interp, .gov, .axes] s x := hX ▸ (handInterpTargets_keeps _).after (kM.after
    (m := [.interp, .gov, .axes]) (by
      intro b hb
      cases b <;> first | rfl | simp at hb))
  obtain ⟨-, -, -, hAxes⟩ := u.hand_axes
  refine ⟨x, ?_, kX, ?_, fun a => ?_⟩
  · rw [exec_expiry ht (.inl (by rw [hj]; decide)), ← hX, expiryTail_stopped]
    · rw [show x.job = s.job from kX .job (by decide), hj]
    · rw [hX]
      exact hStands
  · unfold stopEntered
    rw [show x.guard = s.guard from kX .guard (by decide), hg]
    rfl
  · rw [hX, hAxes a]
    exact ⟨rfl, rfl⟩

theorem stop_end_leaves {entered : JobState} {s : State} (ht : s.interp.timer.isSome = true)
    (hj : s.job.state = .stopping) (hg : s.guard.stop = some entered) (hm : entered ≠ .motion)
    (hv : (evaluateGovernor s).gov.v = 0)
    (hShort : ∀ i sl, s.interp.active = some i → s.store.slot i = some sl → sl.seg.kind.moving = true →
      s.interp.p < sl.seg.length * 1000) : ∃ t,
      exec .interpolationPeriodExpiry s = .next t ∧
      Keeps [.job, .store, .interp, .gov, .stroke, .load, .axes, .guard, .link] s t ∧
      t.job = { s.job with state := if s.guard.latch = 0 then .idle else .fault } ∧
      t.guard = { s.guard with stop := none } ∧ t.stroke = s.stroke.toCoast ∧
      t.load = s.load.told s.stroke.state t.stroke.state ∧
      t.interp.timer = none ∧ t.interp.active = none ∧ t.interp.link = none ∧ t.interp.p = 0 ∧ t.interp.pivot = 0 ∧
      t.interp.pause = 0 ∧ t.interp.startPending = false ∧
      (s.store.mode = .stream →
        t.store =
          { s.store with
            slots := [], writePtr := s.store.winBegin, execPtr := s.store.winBegin, tailOpen := false,
            tailPoint := none,
            tailHeading := none, origin := none, chainClosed := false, executedHeading := none, flowHeld := false,
            armed := false }) ∧
      (s.store.mode = .repeating →
        t.store =
          { s.store with
            slots := s.store.slots.map fun e => (e.1, { e.2 with state := .queued }), execPtr := s.store.winBegin }) ∧
      t.link.marks =
        (if s.store.mode = .stream ∧ s.store.flowHeld = true then s.link.marks ++ [.go] else s.link.marks) ∧
      (∀ a, (t.axes.get a).enable = (s.axes.get a).enable ∧ (t.axes.get a).ref = (s.axes.get a).ref ∧
        (s.guard.latch ≠ 0 → (t.axes.get a).steps = 0)) ∧
      (s.link.notices.length < 16 →
        t.link.notices = s.link.notices ++ [.stopped .controlled entered s.guard.latch]) := by
  obtain ⟨x, hExec, kX, hEntered, hEnables⟩ := stop_ends ht hj hg hv hShort
  have hJobStop : stopEntered x ≠ .motion := by
    rw [hEntered]
    exact hm
  have eJob : x.job = s.job := kX .job (by decide)
  have eGuard : x.guard = s.guard := kX .guard (by decide)
  have eStroke : x.stroke = s.stroke := kX .stroke (by decide)
  have eLoad : x.load = s.load := kX .load (by decide)
  have eStore : x.store = s.store := kX .store (by decide)
  have eLink : x.link = s.link := kX .link (by decide)
  obtain ⟨tJob, tStroke, tInterp, -, tAxes⟩ := controlledStopEnd_parts x
  obtain ⟨tStore, tNotices⟩ := controlledStopEnd_store hJobStop
  have tMarks := controlledStopEnd_marks hJobStop
  have tGuard := controlledStopEnd_guard x
  have tLoad := controlledStopEnd_load x
  rw [eGuard] at tJob tAxes tNotices tGuard
  rw [eStore] at tStore tMarks
  rw [eLink] at tMarks tNotices
  refine ⟨controlledStopEnd x, hExec, (controlledStopEnd_keeps x).after kX.mono, by rw [tJob, eJob], tGuard,
    by rw [tStroke, eStroke], ?_, by rw [tInterp]; rfl, by rw [tInterp]; rfl, by rw [tInterp]; rfl,
    by rw [tInterp]; rfl,
    by rw [tInterp]; rfl, by rw [tInterp]; rfl, by rw [tInterp]; rfl, fun h => ?_, fun h => ?_, tMarks, fun a => ?_,
    fun hRoom => ?_⟩
  · rw [tLoad, tStroke, ← eLoad, ← eStroke]
    exact strokeTo_load _ _
  · rw [tStore, h]
    rfl
  · rw [tStore, h]
    rfl
  · obtain ⟨hEnable, hRef⟩ := hEnables a
    rw [tAxes, ← hEnable, ← hRef]
    split
    · next h => cases a <;> exact ⟨rfl, rfl, fun hn => absurd h hn⟩
    · cases a <;> exact ⟨rfl, rfl, fun _ => rfl⟩
  · rw [tNotices hRoom, hEntered]

/-! ### Along a link move in STOPPING (R70, R74) -/

/-- R74: a link move under way in STOPPING is gone on along, or ends with no start pivot begun. -/
theorem link_goes_on {s : State} {lk : LinkMove} (ht : s.interp.timer.isSome = true) (hj : s.job.state = .stopping)
    (hp : s.interp.pivot = 0) (hv : 0 < (evaluateGovernor s).gov.v) (ha : s.interp.active = none)
    (hl : s.interp.link = some lk) :
    let p := s.interp.p + (evaluateGovernor s).gov.v
    ∃ t, exec .interpolationPeriodExpiry s = .next t ∧ Keeps [.store, .interp, .gov, .axes, .link] s t ∧
      t.store = { s.store with armed := t.store.armed } ∧
      (p < lk.length * 1000 →
        t.gov = (evaluateGovernor s).gov ∧
        t.interp =
          { s.interp with
            timer := some 0, p := p, targetX := (alongLine lk.startAt lk.stopAt lk.length p).x,
            targetY := (alongLine lk.startAt lk.stopAt lk.length p).y }) ∧
      (lk.length * 1000 ≤ p →
        t.gov = { (evaluateGovernor s).gov with vprev := 0 } ∧
        t.interp =
          { s.interp with timer := some 0, p := 0, link := none, targetX := lk.stopAt.x, targetY := lk.stopAt.y }) ∧
      Axes.handed s.params t.interp.targetX t.interp.targetY t.interp.targetC s.axes t.axes := by
  intro p
  have hMove : motionAndEnds (atEvaluation s) = advanceLink lk (atEvaluation s) := by
    have hNone : activeSegment (atEvaluation s) = none := by
      unfold activeSegment
      rw [show (atEvaluation s).interp.active = none from ha]
    unfold motionAndEnds
    rw [if_neg (show ¬0 < (atEvaluation s).interp.pivot from Nat.not_lt.mpr hp.le), hNone]
    dsimp only
    rw [show (atEvaluation s).interp.link = some lk from hl]
  have kEval : Keeps [.store, .interp, .gov, .axes, .link] s s.movedOn :=
    (movedOn_keeps s).after (m := [.store, .interp, .gov, .axes, .link]) (by
      intro b hb
      cases b <;> first | rfl | simp at hb)
  have hExec := exec_expiry ht (s := s) (.inl (by rw [hj]; decide))
  rw [hMove] at hExec
  by_cases hEnds : lk.length * 1000 ≤ p
  · obtain ⟨y, hY⟩ : ∃ y, y = (takeFeedAsZero (targetPoint lk.stopAt s.movedOn)).mapInterp fun n =>
      { n with link := none, p := 0 } := ⟨_, rfl⟩
    have hAdvance : advanceLink lk (atEvaluation s) = y := by
      rw [hY]
      exact (if_pos hEnds).trans (if_pos hj)
    have kY : Keeps [.interp, .gov] s.movedOn y := hY ▸ (mapInterp_keeps _ _).after
      ((takeFeedAsZero_keeps _).after (targetPoint_keeps _ _).mono)
    have hOn := ((underway_movedOn s).moves kY (by rw [hY]; rfl)).goesOn (.inr ⟨.inr hj, by rw [hY]; exact hv⟩)
    rw [hAdvance] at hExec
    refine ⟨_, hExec, hOn.keeps.after (kY.after kEval), ?_, fun h => absurd hEnds (Nat.not_le.mpr h), fun _ => ⟨?_, ?_⟩,
      hOn.handed⟩
    · exact hOn.store.trans (by rw [hY]; rfl)
    · exact (hOn.keeps .gov (by decide)).trans (by rw [hY]; rfl)
    · exact (hOn.keeps .interp (by decide)).trans (by rw [hY]; rfl)
  · have hFed : ¬feedBarred s.movedOn = true := by
      rw [feedBarred_false (s := s.movedOn) (.inr hj) hp]
      exact Bool.false_ne_true
    obtain ⟨y, hY⟩ : ∃ y, y = targetPoint (alongLine lk.startAt lk.stopAt lk.length p) s.movedOn := ⟨_, rfl⟩
    have hAdvance : advanceLink lk (atEvaluation s) = y := by
      rw [hY]
      exact (if_neg hEnds).trans (if_neg hFed)
    have kY : Keeps [.interp, .gov] s.movedOn y := hY ▸ (targetPoint_keeps _ _).mono
    have hOn := ((underway_movedOn s).moves kY (by rw [hY]; rfl)).goesOn (.inr ⟨.inr hj, by rw [hY]; exact hv⟩)
    rw [hAdvance] at hExec
    refine ⟨_, hExec, hOn.keeps.after (kY.after kEval), ?_, fun _ => ⟨?_, ?_⟩, fun h => absurd h hEnds, hOn.handed⟩
    · exact hOn.store.trans (by rw [hY]; rfl)
    · exact (hOn.keeps .gov (by decide)).trans (by rw [hY]; rfl)
    · exact (hOn.keeps .interp (by decide)).trans (by rw [hY]; rfl)

/-! ### A completion in STOPPING (R64, R70) -/

theorem slot_of_nextPlanned_some {r : State} {next : Segment} (h : nextPlanned r = some next) :
    ∃ sl, r.store.slot r.store.execPtr = some sl ∧ sl.seg = next := by
  unfold nextPlanned at h
  split at h
  · cases h
  · next sl hs =>
    split at h
    · exact ⟨sl, hs, Option.some.inj h⟩
    · cases h

/-- R64, R70: a completion in STOPPING is followed through a SMOOTH or BLEND junction. -/
theorem stopping_takes {s : State} {past : Nat} {sl nx : Slot} (ht : s.interp.timer.isSome = true)
    (hj : s.job.state = .stopping) (ha : s.interp.active = some s.store.execPtr)
    (hw : s.store.windowOk (some s.store.execPtr)) (hs : s.store.slot s.store.execPtr = some sl)
    (hm : sl.seg.kind.moving = true) (hp : s.interp.pivot = 0) (hv : 0 < (evaluateGovernor s).gov.v)
    (he : s.atEndOf sl.seg past) (hg : pathGoesOn sl.seg s.store)
    (hn : (s.completion sl.seg).store.slot (s.store.after s.store.execPtr) = some nx) (hc : nx.seg.carried)
    (ho : past < nx.seg.length * 1000) : ∃ t y,
      exec .interpolationPeriodExpiry s = .next t ∧ Underway s y (s.tagOf nx.seg) ∧ HandedOn s y t (s.tagOf nx.seg) ∧
      y.job = s.job.count sl.seg ∧
      s.wentOn (s.atEnd sl.seg) (s.store.after s.store.execPtr) past nx.seg (s.completion sl.seg) t := by
  obtain ⟨hStore, hPlanner⟩ := ended_plan hw sl.seg
  obtain ⟨hNext, -, -⟩ := nextPlanned_completion hw hg hStore hn
  have hPtr : (s.ended sl.seg).store.execPtr = s.store.after s.store.execPtr := by
    rw [hStore, completion_execPtr hg]
  have kAt := atSegmentEnd_keeps sl.seg (atEvaluation s)
  have u := underway_takesNext (underway_ended sl.seg s) (s.store.after s.store.execPtr) past nx.seg
  rw [List.nil_append] at u
  have hOn := u.goesOn (.inr ⟨.inr hj, by rw [takesNext_v, ended_gov]; exact hv⟩)
  refine ⟨_, _, ?_, u, hOn, ?_, ?_⟩
  · rw [exec_pathEnd ht (.inr hm) ha hs hp he, completeSegment_takesNext (by rw [kAt .store (by decide)]; exact hg)
      hNext (.inl ho) (.inl hc), ← hPtr]
    rfl
  · rw [takesNext_keeps _ _ _ _ .job (by decide), ended_job]
  · rw [← ended_interp he]
    exact wentOn_takesNext (underway_ended sl.seg s) (ended_gov sl.seg s) hStore hPlanner
      (windowOk_completion hw sl.seg).order (by rw [hn]; exact nofun) hOn.keeps.mono hOn.store

/-- R64, R70: a completion in STOPPING after which nothing is taken. -/
theorem stopping_runs_out {s : State} {past : Nat} {sl : Slot} (ht : s.interp.timer.isSome = true)
    (hj : s.job.state = .stopping) (ha : s.interp.active = some s.store.execPtr)
    (hw : s.store.windowOk (some s.store.execPtr)) (hs : s.store.slot s.store.execPtr = some sl)
    (hm : sl.seg.kind.moving = true) (hp : s.interp.pivot = 0) (hv : 0 < (evaluateGovernor s).gov.v)
    (he : s.atEndOf sl.seg past)
    (hn : ∀ nx, pathGoesOn sl.seg s.store →
      (s.completion sl.seg).store.slot (s.store.after s.store.execPtr) = some nx → ¬nx.seg.carried) : ∃ t y,
      exec .interpolationPeriodExpiry s = .next t ∧ Underway s y [] ∧ HandedOn s y t [] ∧
      y.job = s.job.count sl.seg ∧ s.ranOut sl.seg (s.completion sl.seg) t := by
  obtain ⟨hStore, hPlanner⟩ := ended_plan hw sl.seg
  have kAt := atSegmentEnd_keeps sl.seg (atEvaluation s)
  have hNone : ∀ next, ¬(pathGoesOn sl.seg (atSegmentEnd sl.seg (atEvaluation s)).store ∧
      nextPlanned (s.ended sl.seg) = some next ∧ next.carried) := by
    rintro next ⟨hg, hNext, hc⟩
    rw [kAt .store (by decide)] at hg
    obtain ⟨nx, hSlot, rfl⟩ := slot_of_nextPlanned_some hNext
    rw [hStore, completion_execPtr (s := s) hg] at hSlot
    exact hn nx hg hSlot hc
  have u := (underway_ended sl.seg s).moves (takeFeedAsZero_keeps _).mono rfl
  have hOn := u.goesOn (.inr ⟨.inr hj, by
    show 0 < (s.ended sl.seg).gov.v
    rw [ended_gov]
    exact hv⟩)
  refine ⟨_, _, ?_, u, hOn, ended_job sl.seg s, ?_, ?_, ?_, ?_⟩
  · rw [exec_pathEnd ht (.inr hm) ha hs hp he, completeSegment_runsOut (by rw [kAt .job (by decide)]; exact hj) hNone]
    rfl
  · rw [← hStore]
    exact hOn.store
  · exact (hOn.keeps .planner (by decide)).trans hPlanner
  · exact (hOn.keeps .interp (by decide)).trans (ended_interp he)
  · rw [← ended_gov sl.seg s]
    exact hOn.keeps .gov (by decide)

end Sys2Proof.Machine

namespace Sys2Proof.Machine

set_option Elab.async false

/-! ## The ends of a job and of a pass (R32, R64, R72 to R74, R156) -/

/-! ### What the end of a job hands on -/

theorem endJob_marks (s : State) : (endJob s).link.marks =
    if s.store.mode = .stream ∧ s.store.flowHeld = true then s.link.marks ++ [.go] else s.link.marks := by
  unfold endJob
  extract_lets s1 s2 s3 s4
  have hEnd : s2.link.marks =
      if s.store.mode = .stream ∧ s.store.flowHeld = true then s.link.marks ++ [.go] else s.link.marks := by
    show (storeJobEnd (coastRequest s1)).link.marks = _
    unfold storeJobEnd
    rw [show (coastRequest s1).store = s.store from rfl]
    cases s.store.mode
    · dsimp only
      rw [(emptyWindow_parts _).2.2]
      simp
      rfl
    · simp
      rfl
  rw [(queueNotice_link _ s4).2.1]
  exact hEnd

/-- R101, R156: the Load Monitor is told of the coast request of a job's end. -/
theorem endJob_load (s : State) : (endJob s).load = s.load.told s.stroke.state s.stroke.toCoast.state := by
  unfold endJob
  extract_lets s1 s2 s3 s4
  rw [show (queueNotice _ s4).load = _ from queueNotice_keeps _ s4 .load (by decide)]
  have hStore : Keeps [.store, .link] (coastRequest s1) s2 := (storeJobEnd_keeps _).mono
  exact (hStore .load (by decide)).trans (strokeTo_load _ _)

/-- The blocks an expiry has left as it found them when the job ends after a completion. -/
structure JobEnding (s : State) (seg : Segment) (passes : Nat) (z : State) : Prop where
  keeps : Keeps [.store, .planner, .interp, .gov, .axes, .job, .link] s z
  job : z.job = { s.job.count seg with passesDone := passes }
  interp : z.interp = s.atEnd seg
  store : z.store = (s.ended seg).store
  link : z.link = (s.ended seg).link

/-- R156: the job over, nothing but the hand-over is left of the expiry. -/
theorem JobEnding.ends {s z : State} {seg : Segment} {passes : Nat} (e : JobEnding s seg passes z)
    (hMode : s.job.mode = s.store.mode) :
    let t := expiryTail (handInterpTargets (endJob z))
    Keeps [.store, .planner, .interp, .gov, .stroke, .load, .axes, .job, .link] s t ∧
    t.job =
      { s.job with
        state := .idle, held := false
        passesDone := if s.store.mode = .stream then 1 else passes
        executed := t.job.executed
        lastCompleted := some seg.number } ∧
    t.stroke = s.stroke.toCoast ∧ t.load = s.load.told s.stroke.state t.stroke.state ∧
    t.interp.timer = none ∧ t.interp.active = none ∧ t.store = (endJob z).store ∧
    t.link.marks = (endJob z).link.marks ∧
    (s.link.notices.length < 16 → t.link.notices = s.link.notices ++ [.done t.job.executed t.job.passesDone]) := by
  intro t
  obtain ⟨zJob, zStroke, zInterp, -, -, -, zNotices⟩ := endJob_eq z
  have eStroke : z.stroke = s.stroke := e.keeps .stroke (by decide)
  have eLoad : z.load = s.load := e.keeps .load (by decide)
  have eMode : z.job.mode = s.store.mode := by
    rw [e.job]
    exact hMode
  have hEnd : t = handInterpTargets (endJob z) :=
    expiryTail_ended (.inl ((congrArg Job.state zJob).trans rfl))
  have kEnd : Keeps [.axes] (endJob z) t := hEnd ▸ handInterpTargets_keeps _
  have tJob : t.job = (endJob z).job := kEnd .job (by decide)
  have hJob : t.job =
      { s.job.count seg with
        state := .idle, held := false
        passesDone := if s.store.mode = .stream then 1 else passes } := by
    rw [tJob, zJob, eMode, e.job]
  have hNotices : z.link.notices = (s.ended seg).link.notices := by rw [e.link]
  refine ⟨?_, ?_, ?_, ?_, ?_, ?_, kEnd .store (by decide), ?_, fun hRoom => ?_⟩
  · exact kEnd.after ((endJob_keeps z).after e.keeps.mono
      (m := [.store, .planner, .interp, .gov, .stroke, .load, .axes, .job, .link]))
  · rw [hJob]
    rfl
  · rw [kEnd .stroke (by decide), zStroke, eStroke]
  · rw [kEnd .load (by decide), kEnd .stroke (by decide), zStroke, endJob_load, eStroke, eLoad]
  · rw [kEnd .interp (by decide), zInterp]
  · rw [kEnd .interp (by decide), zInterp, e.interp]
    exact (atEnd_rest seg s).1
  · rw [kEnd .link (by decide)]
  · have hBefore : z.link.notices = s.link.notices := by
      rw [hNotices, (underway_ended seg s).notices (by simp only [List.length_nil]; omega), List.append_nil]
    rw [kEnd .link (by decide), zNotices (by rw [hBefore]; exact hRoom), hBefore, hJob, eMode, e.job]

/-! ### The Store at the end of a pass (R30, R32) -/

theorem replan_isSome (completed : Option Segment) (s : State) (i : Nat) :
    ((replan completed s).store.slot i).isSome = (s.store.slot i).isSome := by
  rcases replan_slot completed s i with h | ⟨sl, leg, sp, h, h'⟩
  · rw [h]
  · rw [h, h']
    rfl

/-- R30, R36: in REPEAT mode a completion fills and empties no slot, and leaves the flow state. -/
theorem ended_repeating {s : State} {sl : Slot} (seg : Segment) (hm : s.store.mode = .repeating)
    (hs : s.store.slot s.store.execPtr = some sl) :
    (∀ j, ((s.ended seg).store.slot j).isSome = (s.store.slot j).isSome) ∧
      (s.ended seg).store.mode = .repeating ∧ (s.ended seg).store.origin = s.store.origin ∧
      (s.ended seg).store.flowHeld = s.store.flowHeld ∧ (s.ended seg).link.marks = s.link.marks ∧
      (s.store.execPtr + 1 = s.store.writePtr → (s.ended seg).store.execPtr = s.store.winBegin) := by
  let x := atSegmentEnd seg (atEvaluation s)
  have eStore : x.store = s.store := atSegmentEnd_keeps seg (atEvaluation s) .store (by decide)
  have eComplete := complete_repeating hm hs
  have eReport : (s.ended seg).store =
      { x.store.complete with flowHeld := completedFlow x, slots := (s.ended seg).store.slots } :=
    (reportCompletion_eq seg x).2.2.1
  have eFlow : (s.ended seg).store.flowHeld = s.store.flowHeld := by
    rw [eReport]
    show completedFlow x = _
    unfold completedFlow
    rw [eStore, hm]
    simp
  have hMarks := (underway_ended seg s).marks
  rw [eFlow, if_neg fun h => by rw [h.1] at h; cases h.2] at hMarks
  rw [eStore, eComplete] at eReport
  refine ⟨fun j => ?_, (underway_ended seg s).mode.trans hm, ?_, eFlow, hMarks, fun hEnd => ?_⟩
  · obtain ⟨u, hSlots, hSlot⟩ := reportCompletion_slots seg x
    rw [show (s.ended seg).store.slot j = _ from hSlot j, replan_isSome,
      show u.store.slot j = x.store.complete.slot j by unfold Store.slot; rw [hSlots], eStore, complete_slot, hm]
    split
    · exact Option.isSome_map
    · rfl
  · rw [eReport]
  · rw [eReport]
    exact if_pos hEnd

/-- R32: the window of a STREAM job at its end. -/
theorem endJob_store_stream {z : State} (hm : z.store.mode = .stream) :
    (endJob z).store.slots = [] ∧ (endJob z).store.writePtr = z.store.winBegin ∧
      (endJob z).store.execPtr = z.store.winBegin ∧ (endJob z).store.tailOpen = false ∧
      (endJob z).store.origin = none ∧ (endJob z).store.flowHeld = false := by
  obtain ⟨-, -, -, -, -, hStore, -⟩ := endJob_eq z
  rw [hStore, hm]
  exact ⟨rfl, rfl, rfl, rfl, rfl, rfl⟩

/-- R32: the window of a REPEAT job at its end. -/
theorem endJob_store_repeating {z : State} (hm : z.store.mode = .repeating) :
    (endJob z).store.execPtr = z.store.execPtr ∧ (endJob z).store.origin = z.store.origin ∧
      (∀ j, ((endJob z).store.slot j).isSome = (z.store.slot j).isSome) ∧
      ∀ e ∈ (endJob z).store.slots, e.2.state = .queued := by
  obtain ⟨-, -, -, -, -, hStore, -⟩ := endJob_eq z
  rw [hStore, hm]
  refine ⟨rfl, rfl, fun j => ?_, fun e he => ?_⟩
  · show (slotAt (slotMap requeue z.store.slots) j).isSome = _
    rw [slotAt_slotMap]
    exact Option.isSome_map
  · obtain ⟨d, -, rfl⟩ := List.mem_map.mp he
    rfl

theorem ended_winBegin (seg : Segment) (s : State) : (s.ended seg).store.winBegin = s.store.winBegin := by
  let x := atSegmentEnd seg (atEvaluation s)
  have eStore : x.store = s.store := atSegmentEnd_keeps seg (atEvaluation s) .store (by decide)
  have eReport : (s.ended seg).store =
      { x.store.complete with flowHeld := completedFlow x, slots := (s.ended seg).store.slots } :=
    (reportCompletion_eq seg x).2.2.1
  have eWin : ∀ st : Store, st.complete.winBegin = st.winBegin := fun st => by
    unfold Store.complete
    split <;> rfl
  rw [eReport, ← eStore]
  exact eWin _

/-! ### The end of a job (R72, R73, R156) -/

/-- R72: the completion of the segment that carries LAST ends the job. -/
theorem exec_chainEnd {s : State} {past : Nat} {sl : Slot} (ht : s.interp.timer.isSome = true) (hc : s.cuts)
    (ha : s.interp.active = some s.store.execPtr) (hs : s.store.slot s.store.execPtr = some sl)
    (hp : s.interp.pivot = 0) (he : s.atEndOf sl.seg past) (hm : s.store.mode = .stream) (hl : sl.seg.last = true) :
    exec .interpolationPeriodExpiry s =
        .next (expiryTail (handInterpTargets (endJob (takeFeedAsZero (s.ended sl.seg))))) ∧
      JobEnding s sl.seg s.job.passesDone (takeFeedAsZero (s.ended sl.seg)) := by
  have kAt := atSegmentEnd_keeps sl.seg (atEvaluation s)
  have hRuns : (atSegmentEnd sl.seg (atEvaluation s)).job.state ≠ .stopping := by
    rw [kAt .job (by decide)]
    show s.job.state ≠ _
    rcases hc with h | ⟨h, -⟩ <;> rw [h] <;> decide
  have hMode : (atSegmentEnd sl.seg (atEvaluation s)).store.mode = .stream := by
    rw [kAt .store (by decide)]
    exact hm
  refine ⟨?_, ?_, ?_, ended_interp he, rfl, rfl⟩
  · rw [exec_pathEnd ht (.inl hc) ha hs hp he, completeSegment_chainEnd hRuns hMode hl]
    rfl
  · exact (takeFeedAsZero_keeps _).after (underway_ended sl.seg s).keeps
  · exact (ended_job sl.seg s).trans rfl

/-- R73: the completion of the fill end ends the pass. -/
theorem exec_passEnd {s : State} {past : Nat} {sl : Slot} (ht : s.interp.timer.isSome = true) (hc : s.cuts)
    (ha : s.interp.active = some s.store.execPtr) (hs : s.store.slot s.store.execPtr = some sl)
    (hp : s.interp.pivot = 0) (he : s.atEndOf sl.seg past) (hm : s.store.mode = .repeating)
    (hf : s.store.execPtr + 1 = s.store.writePtr) :
    exec .interpolationPeriodExpiry s =
      .next (expiryTail (handInterpTargets (endPass sl.seg (takeFeedAsZero (s.ended sl.seg))))) := by
  have kAt := atSegmentEnd_keeps sl.seg (atEvaluation s)
  have hRuns : (atSegmentEnd sl.seg (atEvaluation s)).job.state ≠ .stopping := by
    rw [kAt .job (by decide)]
    show s.job.state ≠ _
    rcases hc with h | ⟨h, -⟩ <;> rw [h] <;> decide
  have eStore : (atSegmentEnd sl.seg (atEvaluation s)).store = s.store := kAt .store (by decide)
  rw [exec_pathEnd ht (.inl hc) ha hs hp he, completeSegment_passEnd hRuns (by rw [eStore]; exact hm)
    (by rw [eStore]; exact hf)]
  rfl

/-- The state once the pass is counted (R73). -/
def State.passCounted (seg : Segment) (s : State) : State :=
  (takeFeedAsZero (s.ended seg)).mapJob fun j => { j with passesDone := j.passesDone + 1 }

theorem passCounted_ending {s : State} {seg : Segment} {past : Nat} (he : s.atEndOf seg past) :
    JobEnding s seg (s.job.passesDone + 1) (s.passCounted seg) := by
  refine ⟨?_, ?_, ended_interp he, rfl, rfl⟩
  · exact (mapJob_keeps _ _).after ((takeFeedAsZero_keeps _).after (underway_ended seg s).keeps)
  · exact congrArg (fun j : Job => { j with passesDone := j.passesDone + 1 }) (ended_job seg s)

theorem endPass_last {s : State} {seg : Segment} {past : Nat} (he : s.atEndOf seg past)
    (hn : s.job.passesProgrammed ≤ s.interp.pass + 1) :
    endPass seg (takeFeedAsZero (s.ended seg)) = endJob (s.passCounted seg) := by
  have e := passCounted_ending (seg := seg) he
  have hPass : (s.passCounted seg).interp.pass = s.interp.pass := by
    rw [e.interp]
    exact (atEnd_rest seg s).2.2.2.2
  have hProgrammed : (s.passCounted seg).job.passesProgrammed = s.job.passesProgrammed := by
    rw [e.job]
    rfl
  exact if_neg (show ¬(s.passCounted seg).interp.pass + 1 < (s.passCounted seg).job.passesProgrammed by
    rw [hPass, hProgrammed]
    omega)

/-- R32, R72, R73, R156: the expiry that ends a job. -/
theorem job_ends {s : State} {past : Nat} {sl : Slot} (ht : s.interp.timer.isSome = true) (hc : s.cuts)
    (ha : s.interp.active = some s.store.execPtr) (hs : s.store.slot s.store.execPtr = some sl)
    (hp : s.interp.pivot = 0) (he : s.atEndOf sl.seg past) (hMode : s.job.mode = s.store.mode)
    (hLast : s.store.mode = .stream ∧ sl.seg.last = true ∨
      s.store.mode = .repeating ∧ s.store.execPtr + 1 = s.store.writePtr ∧ s.job.passesProgrammed ≤ s.interp.pass + 1) :
    ∃ t,
      exec .interpolationPeriodExpiry s = .next t ∧
      Keeps [.store, .planner, .interp, .gov, .stroke, .load, .axes, .job, .link] s t ∧
      t.job =
        { s.job with
          state := .idle, held := false
          passesDone := if s.store.mode = .stream then 1 else s.job.passesDone + 1
          executed := t.job.executed
          lastCompleted := some sl.seg.number } ∧
      t.stroke = s.stroke.toCoast ∧ t.load = s.load.told s.stroke.state t.stroke.state ∧
      t.interp.timer = none ∧ t.interp.active = none ∧
      t.link.marks =
        (if s.store.mode = .stream ∧ s.store.flowHeld = true then s.link.marks ++ [.go] else s.link.marks) ∧
      (s.store.mode = .stream → t.store.slots = [] ∧ t.store.writePtr = s.store.winBegin ∧
        t.store.execPtr = s.store.winBegin ∧ t.store.tailOpen = false ∧ t.store.origin = none ∧
        t.store.flowHeld = false) ∧
      (s.store.mode = .repeating → t.store.execPtr = s.store.winBegin ∧ t.store.origin = s.store.origin ∧
        (∀ j, (t.store.slot j).isSome = (s.store.slot j).isSome) ∧ ∀ e ∈ t.store.slots, e.2.state = .queued) ∧
      (s.link.notices.length < 16 →
        t.link.notices = s.link.notices ++ [.done t.job.executed t.job.passesDone]) := by
  have hWin := ended_winBegin sl.seg s
  rcases hLast with ⟨hm, hl⟩ | ⟨hm, hf, hn⟩
  · obtain ⟨hExec, e⟩ := exec_chainEnd ht hc ha hs hp he hm hl
    obtain ⟨hKeeps, hJob, hStroke, hLoad, hTimer, hActive, hStore, hMarks, hNotices⟩ := e.ends hMode
    have zMode : (takeFeedAsZero (s.ended sl.seg)).store.mode = .stream := (underway_ended sl.seg s).mode.trans hm
    refine ⟨_, hExec, hKeeps, ?_, hStroke, hLoad, hTimer, hActive, ?_, fun _ => ?_, fun h => ?_, hNotices⟩
    · rw [if_pos hm]
      rw [if_pos hm] at hJob
      exact hJob
    · have u := underway_ended sl.seg s
      have hFlow := u.flow
      have zMarks := u.marks
      rw [hMarks, endJob_marks, zMode, hm]
      show (if Mode.stream = .stream ∧ (s.ended sl.seg).store.flowHeld = true then (s.ended sl.seg).link.marks ++ [.go]
        else (s.ended sl.seg).link.marks) = _
      rw [zMarks]
      cases hz : (s.ended sl.seg).store.flowHeld with
      | true => simp [hFlow hz]
      | false => simp
    · rw [hStore, ← hWin]
      exact endJob_store_stream zMode
    · rw [hm] at h
      cases h
  · have e := passCounted_ending (seg := sl.seg) he
    have hExec := exec_passEnd ht hc ha hs hp he hm hf
    rw [endPass_last he hn] at hExec
    obtain ⟨hKeeps, hJob, hStroke, hLoad, hTimer, hActive, hStore, hMarks, hNotices⟩ := e.ends hMode
    obtain ⟨hSome, zMode, hOrigin, hFlow, zMarks, hPtr⟩ := ended_repeating sl.seg hm hs
    refine ⟨_, hExec, hKeeps, hJob, hStroke, hLoad, hTimer, hActive, ?_, fun h => ?_, fun _ => ?_, hNotices⟩
    · have hStream : ¬((s.passCounted sl.seg).store.mode = .stream ∧ (s.passCounted sl.seg).store.flowHeld = true) :=
        fun h => by
          rw [show (s.passCounted sl.seg).store.mode = .repeating from zMode] at h
          cases h.1
      rw [hMarks, endJob_marks, if_neg hStream, if_neg fun h => by rw [hm] at h; cases h.1]
      exact zMarks
    · rw [hm] at h
      cases h
    · obtain ⟨zPtr, zOrigin, zSome, zQueued⟩ := endJob_store_repeating (z := s.passCounted sl.seg) zMode
      rw [hStore]
      exact ⟨zPtr.trans (hPtr hf), zOrigin.trans hOrigin, fun j => (zSome j).trans (hSome j), zQueued⟩

end Sys2Proof.Machine

namespace Sys2Proof.Machine

set_option Elab.async false

/-! ## The end of a pass that is not the last (R67, R73, R74) -/

/-- The state once PASS is queued and the next pass indexed (R73). -/
def State.nextPass (seg : Segment) (s : State) : State :=
  (queueNotice (.pass ((s.passCounted seg).interp.pass + 1)) (s.passCounted seg)).mapInterp fun n =>
    { n with pass := n.pass + 1 }

theorem nextPass_keeps (seg : Segment) (s : State) : Keeps [.link, .interp] (s.passCounted seg) (s.nextPass seg) :=
  (mapInterp_keeps _ _).after (queueNotice_keeps _ _).mono

theorem nextPass_interp {s : State} {seg : Segment} {past : Nat} (he : s.atEndOf seg past) :
    (s.nextPass seg).interp = { s.atEnd seg with pass := s.interp.pass + 1 } := by
  have hPass := (atEnd_rest seg s).2.2.2.2
  have hCounted : (queueNotice (.pass ((s.passCounted seg).interp.pass + 1)) (s.passCounted seg)).interp =
    s.atEnd seg :=
    (queueNotice_keeps _ _ .interp (by decide)).trans (passCounted_ending he).interp
  unfold State.nextPass
  rw [mapInterp_interp, hCounted, ← hPass]

/-- R73: with passes left, the end of a pass begins the way to the next. -/
theorem endPass_next {s : State} {seg : Segment} {past : Nat} (he : s.atEndOf seg past)
    (hn : s.interp.pass + 1 < s.job.passesProgrammed) :
    endPass seg (takeFeedAsZero (s.ended seg)) = beginLink (seg.stopAt.shift (passShift s)) (s.nextPass seg) := by
  have e := passCounted_ending (seg := seg) he
  have hPass : (s.passCounted seg).interp.pass = s.interp.pass := by
    rw [e.interp]
    exact (atEnd_rest seg s).2.2.2.2
  have hProgrammed : (s.passCounted seg).job.passesProgrammed = s.job.passesProgrammed := by
    rw [e.job]
    rfl
  have hShift : passShift (takeFeedAsZero (s.ended seg)) = passShift s := (underway_ended seg s).shift
  have hLeft : (s.passCounted seg).interp.pass + 1 < (s.passCounted seg).job.passesProgrammed := by
    rw [hPass, hProgrammed]
    exact hn
  refine (if_pos hLeft).trans ?_
  rw [hShift]
  rfl

/-- The origin of the next pass (R73). -/
def State.nextOrigin (s : State) : Point :=
  ⟨(s.store.origin.getD ⟨0, 0⟩).x + (s.interp.pass + 1) * s.job.offX,
    (s.store.origin.getD ⟨0, 0⟩).y + (s.interp.pass + 1) * s.job.offY⟩

theorem nextPass_origin {s : State} {sl : Slot} {seg : Segment} {past : Nat} (he : s.atEndOf seg past)
    (hm : s.store.mode = .repeating) (hs : s.store.slot s.store.execPtr = some sl) :
    ((s.nextPass seg).store.origin.getD ⟨0, 0⟩).shift (passShift (s.nextPass seg)) = s.nextOrigin := by
  obtain ⟨-, zMode, zOrigin, -⟩ := ended_repeating seg hm hs
  have eStore : (s.nextPass seg).store = (s.ended seg).store :=
    (nextPass_keeps seg s .store (by decide)).trans (passCounted_ending he).store
  have eJob : (s.nextPass seg).job = (s.passCounted seg).job := nextPass_keeps seg s .job (by decide)
  unfold passShift State.nextOrigin Point.shift
  rw [eStore, zMode, zOrigin, nextPass_interp he, eJob, (passCounted_ending he).job]
  dsimp only
  push_cast
  rfl

/-- The chord is 0 for a point alone. -/
theorem chord_zero_iff (dx dy : Int) : chord dx dy = 0 ↔ dx.natAbs ^ 2 + dy.natAbs ^ 2 = 0 := by
  obtain ⟨hLow, hHigh⟩ := chord_spec dx dy
  rw [Nat.pow_two, Nat.pow_two]
  constructor
  · intro h
    rw [h] at hHigh
    omega
  · intro h
    rw [h] at hLow
    exact mul_self_eq_zero.mp (Nat.le_zero.mp hLow)

/-- R67, R74: what the begin of the way to the next pass touches of the Interpolator. -/
theorem beginLink_interp (pathEnd : Point) (w : State) :
    (beginLink pathEnd w).interp =
      { w.interp with
        link := (beginLink pathEnd w).interp.link, pivot := (beginLink pathEnd w).interp.pivot
        pivotNeg := (beginLink pathEnd w).interp.pivotNeg
        startPending := (beginLink pathEnd w).interp.startPending, p := (beginLink pathEnd w).interp.p } ∧
      (w.interp.p = 0 → (beginLink pathEnd w).interp.p = 0) := by
  unfold beginLink
  dsimp only
  split
  · obtain ⟨n, k, b, h⟩ := startPivot_eq w
    rw [h]
    exact ⟨rfl, id⟩
  · exact ⟨rfl, fun _ => rfl⟩

/-- R74: the link move, or with no way to go the start pivot. -/
theorem beginLink_way (pathEnd : Point) (w : State) :
    let target := (w.store.origin.getD ⟨0, 0⟩).shift (passShift w)
    let square := (target.x - pathEnd.x).natAbs ^ 2 + (target.y - pathEnd.y).natAbs ^ 2
    (square ≠ 0 → (beginLink pathEnd w).interp.pivot = w.interp.pivot ∧
      ∃ lk, (beginLink pathEnd w).interp.link = some lk ∧
      lk.startAt = pathEnd ∧ lk.stopAt = target ∧ lk.length * lk.length ≤ square ∧
      square < (lk.length + 1) * (lk.length + 1)) ∧
    (square = 0 → (beginLink pathEnd w).interp.link = w.interp.link ∧
      (beginLink pathEnd w).interp.inStartPivot w.store) := by
  intro target square
  have hChord := chord_zero_iff (target.x - pathEnd.x) (target.y - pathEnd.y)
  have hSpec := chord_spec (target.x - pathEnd.x) (target.y - pathEnd.y)
  rw [← Nat.pow_two (target.x - pathEnd.x).natAbs, ← Nat.pow_two (target.y - pathEnd.y).natAbs] at hSpec
  refine ⟨fun h => ?_, fun h => ?_⟩
  · have hBegin : beginLink pathEnd w = w.mapInterp fun n =>
        { n with link := some ⟨pathEnd, target, chord (target.x - pathEnd.x) (target.y - pathEnd.y)⟩, p := 0 } :=
      if_neg (mt hChord.mp h)
    rw [hBegin]
    exact ⟨rfl, _, rfl, rfl, rfl, hSpec⟩
  · have hBegin : beginLink pathEnd w = startPivot w := if_pos (hChord.mpr h)
    rw [hBegin]
    obtain ⟨n, k, b, hPivot⟩ := startPivot_eq w
    refine ⟨?_, startPivot_begins rfl⟩
    rw [hPivot]

/-- R38: in REPEAT mode the reports of an expiry along the path leave the Store. -/
theorem expiryTail_store_repeating {x : State} (hj : x.job.state ≠ .stopping) (hm : x.store.mode = .repeating) :
    (expiryTail x).store = x.store := by
  have kRest : Keeps [.job, .stroke, .load, .link] x (reportRest x) := by
    unfold reportRest
    split
    case h_2 h => exact absurd h hj
    case h_1 => exact .ite (setHeld_keeps x) (.refl _ x)
    all_goals exact .refl _ x
  have eRest : (reportRest x).store = x.store := kRest .store (by decide)
  have eLow : lowWaterAfter (reportRest x) = reportRest x := by
    rw [lowWaterAfter_job, lowWater_none (.inl (by rw [eRest]; exact hm)), ite_self]
  unfold expiryTail
  rw [eLow]
  exact (warmupPassage_keeps _ .store (by decide)).trans eRest

/-- R67, R73, R74: the completion of the fill end of a pass that is not the last. -/
theorem pass_ends {s : State} {past : Nat} {sl : Slot} (ht : s.interp.timer.isSome = true) (hc : s.cuts)
    (ha : s.interp.active = some s.store.execPtr) (hs : s.store.slot s.store.execPtr = some sl)
    (hp : s.interp.pivot = 0) (he : s.atEndOf sl.seg past) (hm : s.store.mode = .repeating)
    (hf : s.store.execPtr + 1 = s.store.writePtr) (hn : s.interp.pass + 1 < s.job.passesProgrammed) : ∃ t,
      let pathEnd := sl.seg.stopAt.shift (passShift s)
      let square := (s.nextOrigin.x - pathEnd.x).natAbs ^ 2 + (s.nextOrigin.y - pathEnd.y).natAbs ^ 2
      exec .interpolationPeriodExpiry s = .next t ∧
      Keeps [.store, .planner, .interp, .gov, .stroke, .load, .axes, .job, .link] s t ∧
      s.restJudged
        { s.job with
          passesDone := s.job.passesDone + 1
          executed := t.job.executed
          lastCompleted := some sl.seg.number }
        [.pass (s.interp.pass + 1)] t ∧
      (s.job.executed < 4294967295 → t.job.executed = s.job.executed + 1) ∧
      t.gov = { (evaluateGovernor s).gov with vprev := 0 } ∧
      t.interp =
        { s.atEnd sl.seg with
          pass := s.interp.pass + 1, link := t.interp.link, pivot := t.interp.pivot, pivotNeg := t.interp.pivotNeg,
          startPending := t.interp.startPending } ∧
      Axes.handed s.params t.interp.targetX t.interp.targetY t.interp.targetC s.axes t.axes ∧
      t.store.execPtr = s.store.winBegin ∧ t.link.marks = s.link.marks ∧
      (s.slotsOk → ∃ v, s.completed s.store.execPtr sl.seg v ∧ t.store = v.store ∧ t.planner = v.planner) ∧
      (square ≠ 0 → t.interp.pivot = 0 ∧ ∃ lk, t.interp.link = some lk ∧ lk.startAt = pathEnd ∧
        lk.stopAt = s.nextOrigin ∧ lk.length * lk.length ≤ square ∧ square < (lk.length + 1) * (lk.length + 1)) ∧
      (square = 0 → t.interp.link = s.interp.link ∧ t.interp.inStartPivot t.store) := by
  have hExec := exec_passEnd ht hc ha hs hp he hm hf
  rw [endPass_next he hn] at hExec
  have u := underway_ended sl.seg s
  have e := passCounted_ending (seg := sl.seg) he
  obtain ⟨w, hW⟩ : ∃ w, w = s.nextPass sl.seg := ⟨_, rfl⟩
  obtain ⟨-, zMode, -, -, zMarks, hPtr⟩ := ended_repeating sl.seg hm hs
  have kW : Keeps [.link, .interp] (s.passCounted sl.seg) w := hW ▸ nextPass_keeps sl.seg s
  have wInterp : w.interp = { s.atEnd sl.seg with pass := s.interp.pass + 1 } := hW ▸ nextPass_interp he
  have wOrigin := nextPass_origin he hm hs
  rw [← hW] at hExec wOrigin
  obtain ⟨hWay, hPivot⟩ := beginLink_way (sl.seg.stopAt.shift (passShift s)) w
  obtain ⟨hInterp, hRest⟩ := beginLink_interp (sl.seg.stopAt.shift (passShift s)) w
  rw [wOrigin] at hWay hPivot
  obtain ⟨y, hY⟩ : ∃ y, y = beginLink (sl.seg.stopAt.shift (passShift s)) w := ⟨_, rfl⟩
  rw [← hY] at hExec hWay hPivot hInterp hRest
  have kY : Keeps [.interp] w y := hY ▸ beginLink_keeps _ w
  have kZ : Keeps [.link, .interp] (s.passCounted sl.seg) y := kY.after kW
  have kS : Keeps [.store, .planner, .interp, .gov, .axes, .job, .link] s y := kZ.after e.keeps
  have yJob : y.job = { s.job.count sl.seg with passesDone := s.job.passesDone + 1 } :=
    (kZ .job (by decide)).trans e.job
  have yStore : y.store = (s.ended sl.seg).store := (kZ .store (by decide)).trans e.store
  have yAxes : y.axes = s.axes.each AxisState.issueRest := (kZ .axes (by decide)).trans u.axes
  obtain ⟨q1, q2, q3⟩ := queueNotice_link (.pass ((s.passCounted sl.seg).interp.pass + 1)) (s.passCounted sl.seg)
  have wLink : w.link = (queueNotice (.pass ((s.passCounted sl.seg).interp.pass + 1)) (s.passCounted sl.seg)).link := by
    rw [hW]
    rfl
  have yLink : y.link = w.link := kY .link (by decide)
  have zPass : (s.passCounted sl.seg).interp.pass = s.interp.pass := by
    rw [e.interp]
    exact (atEnd_rest sl.seg s).2.2.2.2
  have r : Reporting s (handInterpTargets y) := by
    refine ⟨?_, kS .stroke (by decide), kS .load (by decide), kS .params (by decide), ?_, ?_⟩
    · show y.job.state = _ ∧ y.job.held = _
      rw [yJob]
      exact ⟨rfl, rfl⟩
    · show y.link.requests = _
      rw [yLink, wLink, q1, e.link]
      exact u.requests
    · show y.store.armed = _
      rw [yStore]
      exact u.armed
  have hQueued : s.link.notices.length + [Notice.pass (s.interp.pass + 1)].length < 15 →
      (handInterpTargets y).link.notices = s.link.notices ++ [.pass (s.interp.pass + 1)] := by
    intro hl
    rw [List.length_singleton] at hl
    have hBefore : (s.passCounted sl.seg).link.notices = s.link.notices := by
      rw [e.link, u.notices (by rw [List.length_nil]; omega), List.append_nil]
    show y.link.notices = _
    rw [yLink, wLink, q3, hBefore, if_pos (by omega), zPass]
  obtain ⟨hJudged, kT, -, tMarks⟩ := expiryTail_judged hc r hQueued
  have hRuns : (handInterpTargets y).job.state ≠ .stopping := by
    rw [r.job.1]
    rcases hc with h | ⟨h, -⟩ <;> rw [h] <;> decide
  have tStore : (expiryTail (handInterpTargets y)).store = (s.ended sl.seg).store :=
    (expiryTail_store_repeating hRuns (by show y.store.mode = _; rw [yStore]; exact zMode)).trans yStore
  have tInterp : (expiryTail (handInterpTargets y)).interp = y.interp := kT .interp (by decide)
  have tExecuted : (expiryTail (handInterpTargets y)).job.executed = (s.job.count sl.seg).executed := by
    rw [hJudged.1]
    show (if _ then ({ y.job with held := true } : Job) else y.job).executed = _
    rw [yJob]
    split <;> rfl
  obtain ⟨hActive, hP, hTimer, hPivotEnd, -⟩ := atEnd_rest sl.seg s
  refine ⟨_, hExec, kT.after ((handInterpTargets_keeps y).after kS.mono
    (m := [.store, .planner, .interp, .gov, .stroke, .load, .axes, .job, .link])), ?_, fun hl => ?_, ?_, ?_,
    handed_of yAxes (kS .params (by decide)) kT, ?_, ?_, fun hOk => ?_, fun h => ?_, fun h => ?_⟩
  · rw [tExecuted]
    have hJob : (handInterpTargets y).job = { s.job.count sl.seg with passesDone := s.job.passesDone + 1 } := yJob
    rw [hJob] at hJudged
    exact hJudged
  · rw [tExecuted, count_executed hl]
  · rw [show (expiryTail (handInterpTargets y)).gov = y.gov from kT .gov (by decide), kZ .gov (by decide),
      ← ended_gov sl.seg s]
    rfl
  · have hZero : y.interp.p = 0 := hRest (by rw [wInterp]; exact hP)
    rw [tInterp]
    refine hInterp.trans ?_
    rw [wInterp, hZero, ← hP]
  · rw [tStore]
    exact hPtr hf
  · rw [tMarks]
    show y.link.marks = _
    rw [yLink, wLink, q2, e.link]
    exact zMarks
  · have hWindow : s.store.windowOk (some s.store.execPtr) := by
      rw [← ha]
      exact hOk.window
    obtain ⟨hStore, hPlanner⟩ := ended_plan hWindow sl.seg
    refine ⟨s.completion sl.seg, completion_completed hWindow sl.seg, tStore.trans hStore, ?_⟩
    rw [← hPlanner]
    exact (kT .planner (by decide)).trans (kZ .planner (by decide))
  · rw [tInterp]
    obtain ⟨hKept, hLink⟩ := hWay h
    refine ⟨?_, hLink⟩
    rw [hKept, wInterp]
    exact hPivotEnd.trans hp
  · rw [tInterp, tStore, ← yStore, show y.store = w.store from kY .store (by decide)]
    obtain ⟨hLink, hStart⟩ := hPivot h
    refine ⟨?_, hStart⟩
    rw [hLink, wInterp]
    unfold State.atEnd
    dsimp only
    split <;> rfl

/-- Settles O53: the stop's end, the way on while V is above 0, a completion in STOPPING, and the ends of a job and of a
pass. -/
theorem controlledStopEnds : Obligations.ControlledStopEnds := by
  refine ⟨fun entered s ht hj hg hm hv hShort => stop_end_leaves ht hj hg hm hv hShort, fun s ht hj hp hv => ?_,
    fun i past sl s hOk ht hj ha hs hm hp hv he => ?_, fun i past sl s ht hc ha hi hs hp he hMode => ?_⟩
  · refine ⟨fun i sl ha hs hm hShort => ?_, fun lk ha hl => link_goes_on ht hj hp hv ha hl⟩
    obtain ⟨t, hExec, hOn, hKeeps, hGov, hInterp, hStore, -⟩ := moves_short ht (.inr ⟨.inr hj, hv⟩) ha hs hm hp hShort
    exact ⟨t, hExec, hKeeps, hGov, hStore, hInterp, hOn.handed⟩
  · obtain ⟨rfl, hWindow⟩ := windowOk_active hOk ha
    refine ⟨s.completion sl.seg, completion_completed hWindow sl.seg, ?_⟩
    intro follows hOver
    by_cases hNext : ∃ nx, follows nx
    · obtain ⟨nx, hg, hn, hCarried⟩ := hNext
      obtain ⟨t, y, hExec, u, hOn, hJob, hWent⟩ := stopping_takes ht hj ha hWindow hs hm hp hv he
        ((pathGoesOn_iff _ _).mpr hg) hn hCarried (hOver nx ⟨hg, hn, hCarried⟩)
      have tJob : t.job = s.job.count sl.seg := (hOn.keeps .job (by decide)).trans hJob
      have hFew := tagOf_length s nx.seg
      refine ⟨t, hExec, hOn.keeps.after u.keeps, by rw [tJob]; rfl, fun hl => by rw [tJob, count_executed hl],
        hOn.requests, hOn.marks, hOn.handed, fun nx' hFollows => ?_, fun hNone => absurd ⟨hg, hn, hCarried⟩ (hNone nx)⟩
      obtain ⟨-, hn', -⟩ := hFollows
      rw [hn] at hn'
      cases hn'
      exact ⟨hWent, fun hRoom => hOn.notices (by omega)⟩
    · obtain ⟨t, y, hExec, u, hOn, hJob, hOut⟩ := stopping_runs_out ht hj ha hWindow hs hm hp hv he
        fun nx hg hn hCarried => hNext ⟨nx, (pathGoesOn_iff _ _).mp hg, hn, hCarried⟩
      have tJob : t.job = s.job.count sl.seg := (hOn.keeps .job (by decide)).trans hJob
      refine ⟨t, hExec, hOn.keeps.after u.keeps, by rw [tJob]; rfl, fun hl => by rw [tJob, count_executed hl],
        hOn.requests, hOn.marks, hOn.handed, fun nx hFollows => absurd ⟨nx, hFollows⟩ hNext,
        fun _ => ⟨hOut, fun hRoom => ?_⟩⟩
      rw [hOn.notices hRoom, List.append_nil]
  · subst hi
    exact ⟨fun hLast => job_ends ht hc ha hs hp he hMode hLast, fun hm hf hn => pass_ends ht hc ha hs hp he hm hf hn⟩

end Sys2Proof.Machine

namespace Sys2Proof.Machine

/-! ## The ranges under every step (R48, R82, R108, R110, R115, R123, R124) -/

/-- The ranges are conditions of single blocks, the ones the operations of the blocks are known to keep. -/
theorem rangesOk_iff (s : State) :
    s.rangesOk ↔ s.load.ok ∧ s.gov.ok ∧ s.planner.spanCount ≤ 64 ∧ s.axes.ok := by
  constructor
  · intro h
    refine ⟨⟨h.acc, h.band, h.result, h.valid⟩, h.feed, h.span, fun a => ⟨h.enabled a, ?_⟩⟩
    rintro rfl
    exact h.cPosition
  · rintro ⟨hLoad, hGov, hSpan, hAxes⟩
    exact ⟨hLoad.acc, hLoad.band, hLoad.result, hLoad.valid, hGov, (hAxes .c).2 rfl, hSpan, fun a => (hAxes a).1⟩

/-- A SET touches the parameters and the settings of the inputs only; a reset leaves every block in its ranges. -/
theorem stable_ranges :
    Stable fun s => s.load.ok ∧ s.gov.ok ∧ s.planner.spanCount ≤ 64 ∧ s.axes.ok where
  free _ h := h
  store _ _ h _ := h
  planner _ _ h hf := ⟨h.1, h.2.1, hf h.2.2.1, h.2.2.2⟩
  interp _ _ h := h
  gov _ _ h hf := ⟨h.1, hf h.2.1, h.2.2⟩
  stroke _ _ h _ := h
  load _ _ h hf := ⟨hf h.1, h.2⟩
  axes _ _ h hf := ⟨h.1, h.2.1, h.2.2.1, hf h.2.2.2⟩
  guard _ _ h _ := h
  job _ _ h := h
  link _ _ h _ _ _ := h
  set _ p _ h _ _ := by cases p <;> exact h
  pending _ _ h := h
  timeBase _ _ h := h
  reset s rate straps _ := (rangesOk_iff _).mp (resetTo_rangesOk rate straps s)
  queues _ _ h _ _ := h

/-- Settles O60: the ranges are stable block by block, so every step keeps them. -/
theorem rangesKept : Obligations.RangesKept :=
  fun s t h he => (rangesOk_iff t).mpr (stable_ranges.step ((rangesOk_iff s).mp h) he)

end Sys2Proof.Machine

namespace Sys2Proof.Machine

/-! ## The backward pass (R44, R45, R48 to R50) -/

/-- R45: no corner is faster than the lesser effective feed request of its two segments. -/
theorem cornerSpeed_le (blendAngle cornerFloor vcap : Nat) (delta : Int) (j : JunctionClass) :
    cornerSpeed blendAngle cornerFloor vcap delta j ≤ vcap := by
  cases j with
  | start => exact Nat.zero_le _
  | pivot => exact Nat.zero_le _
  | stop => exact Nat.zero_le _
  | smooth => exact Nat.le_refl _
  | blend => exact Nat.min_le_left _ _

/-- R45: the corner of a leg is within the effective feed request of the segment before it. -/
theorem legOf_corner_le (prm : Params) (pl : Planner) (pred seg : Segment) :
    (legOf prm pl (some pred) seg).corner ≤ effectiveFeed pl pred :=
  (cornerSpeed_le _ _ _ _ _).trans (Nat.min_le_right _ _)

theorem legsOf_lengths (prm : Params) (pl : Planner) (pred : Option Segment) (segs : List Segment) :
    (legsOf prm pl pred segs).map Leg.length = segs.map Segment.length := by
  induction segs generalizing pred with
  | nil => rfl
  | cons seg rest ih => exact congrArg (seg.length :: ·) (ih _)

/-- R50: an entry is within the corner and the feed of its leg and within reach of its exit over the leg. -/
theorem planned_entry_le {corner feed reach v : Nat} (h : v = min corner (min feed (isqrt reach))) :
    v ≤ corner ∧ v ≤ feed ∧ v * v ≤ reach := by
  have hRoot : v ≤ isqrt reach := by omega
  exact ⟨by omega, by omega, (Nat.mul_le_mul hRoot hRoot).trans (isqrt_sq_le reach)⟩

/-- R49, R50: from its entry the head can stop within the leg and the legs after it, from its exit within the legs after
it. -/
theorem backwardPass_stops {a : Nat} {legs : List Leg} {k : Nat} {sp : Speeds}
    (h : (backwardPass a legs)[k]? = some sp) :
    sp.entry * sp.entry ≤ 2000 * a * ((legs.drop k).map Leg.length).sum ∧
      sp.exit * sp.exit ≤ 2000 * a * ((legs.drop (k + 1)).map Leg.length).sum := by
  induction legs generalizing k sp with
  | nil => cases h
  | cons leg rest ih =>
    cases k with
    | succ k => exact ih h
    | zero =>
      cases h
      have hExit : exitSpeed leg rest (backwardPass a rest) * exitSpeed leg rest (backwardPass a rest) ≤
          2000 * a * (rest.map Leg.length).sum := by
        cases rest with
        | nil => exact Nat.zero_le _
        | cons next after =>
          unfold exitSpeed
          dsimp only [backwardPass]
          split
          · exact Nat.zero_le _
          · exact (ih (k := 0) rfl).1
      obtain ⟨-, -, hReach⟩ := planned_entry_le (corner := leg.corner) (feed := leg.feed) rfl
      refine ⟨hReach.trans ?_, hExit⟩
      rw [List.drop_zero, List.map_cons, List.sum_cons, Nat.mul_add]
      omega

/-- R44 to R50: the speeds the backward pass plans for a segment of a run. -/
theorem backwardPass_legsOf {prm : Params} {pl : Planner} {pred : Option Segment} {segs : List Segment} {k : Nat}
    {seg : Segment} {sp : Speeds} (hSeg : segs[k]? = some seg)
    (hSp : (backwardPass prm.accel (legsOf prm pl pred segs))[k]? = some sp) :
    (k + 1 = segs.length → sp.exit = 0) ∧ sp.entry ≤ effectiveFeed pl seg ∧ sp.exit ≤ effectiveFeed pl seg ∧
      sp.entry * sp.entry ≤ sp.exit * sp.exit + 2000 * prm.accel * seg.length := by
  obtain ⟨held, hLeg⟩ : ∃ held, (legsOf prm pl pred segs)[k]? = some (legOf prm pl held seg) := ⟨_, legsOf_get hSeg⟩
  obtain ⟨out, hGet, hLast, hNext⟩ := backwardPass_get (a := prm.accel) hLeg
  cases hSp.symm.trans hGet
  obtain ⟨-, hFeed, hReach⟩ := planned_entry_le rfl
  have hFrontier : segs[k + 1]? = none → out = 0 := fun hn => hLast <| by
    rw [List.getElem?_eq_none_iff] at hn ⊢
    rwa [legsOf_length]
  refine ⟨fun hk => hFrontier (List.getElem?_eq_none_iff.mpr (Nat.le_of_eq hk.symm)), hFeed, ?_, hReach⟩
  show out ≤ effectiveFeed pl seg
  cases hn : segs[k + 1]? with
  | none => exact (hFrontier hn).symm ▸ Nat.zero_le _
  | some next =>
    have hLegNext := legsOf_get (prm := prm) (pl := pl) (pred := pred) hn
    rw [if_neg (Nat.succ_ne_zero k), Nat.add_sub_cancel, hSeg] at hLegNext
    obtain ⟨out', hGetNext, -, -⟩ := backwardPass_get (a := prm.accel) hLegNext
    obtain ⟨hCorner, -, -⟩ := planned_entry_le rfl
    rw [hNext _ _ hLegNext hGetNext]
    split
    · exact Nat.zero_le _
    · exact hCorner.trans (legOf_corner_le prm pl seg next)

/-- Settles O43: the speeds by the backward pass over the legs, and the replan by the window in its form. -/
theorem planWithinStopping : Obligations.PlanWithinStopping := by
  refine ⟨fun prm pl pred segs => ⟨?_, fun k seg sp hSeg hSp => ?_⟩, fun completed s hOk =>
    replan_replanned completed hOk.window⟩
  · rw [backwardPass_length, legsOf_length]
  · obtain ⟨hFrontier, hEntry, hExit, hReach⟩ := backwardPass_legsOf hSeg hSp
    have hStops := (backwardPass_stops hSp).2
    rw [List.map_drop, legsOf_lengths, ← List.map_drop] at hStops
    exact ⟨hFrontier, hEntry, hExit, hReach, hStops⟩

end Sys2Proof.Machine

namespace Sys2Proof.Machine

/-! ## START (R43, R53, R67, R99, R148 to R150) -/

/-! ### The checks -/

/-- R148: a union of boxes leaves travel when one of the two does. -/
theorem union_outside (prm : Params) (a b : Box) (dx dy : Int) :
    (a.union b).outside prm dx dy = (a.outside prm dx dy || b.outside prm dx dy) := by
  unfold Box.outside Box.union
  rw [Bool.eq_iff_iff]
  simp only [Bool.or_eq_true, decide_eq_true_iff]
  omega

/-- R12: a shifted box that does not leave travel lies within it. -/
theorem outside_shifted_iff (prm : Params) (b : Box) (dx dy : Int) :
    b.outside prm dx dy = false ↔
      0 ≤ b.minX + dx ∧ 0 ≤ b.minY + dy ∧ b.maxX + dx ≤ prm.travelX ∧ b.maxY + dy ≤ prm.travelY := by
  unfold Box.outside
  simp only [Bool.or_eq_false_iff, decide_eq_false_iff_not]
  omega

theorem foldl_union_inside {prm : Params} {dx dy : Int} {rest : List (Nat × Slot)} {b : Box}
    (hb : b.outside prm dx dy = false) (h : ∀ e ∈ rest, e.2.seg.box.outside prm dx dy = false) :
    (rest.foldl (fun b e => b.union e.2.seg.box) b).outside prm dx dy = false := by
  induction rest generalizing b with
  | nil => exact hb
  | cons e rest ih =>
    refine ih ?_ fun f hf => h f (List.mem_cons_of_mem _ hf)
    rw [union_outside, hb, h e List.mem_cons_self]
    rfl

/-- R148: the window extent leaves travel only when a box of the window does. -/
theorem windowExtent_inside {prm : Params} {dx dy : Int} {slots : List (Nat × Slot)} {b : Box}
    (hb : windowExtent slots = some b) (h : ∀ e ∈ slots, e.2.seg.box.outside prm dx dy = false) :
    b.outside prm dx dy = false := by
  cases slots with
  | nil => cases hb
  | cons e rest =>
    cases hb
    exact foldl_union_inside (h e List.mem_cons_self) fun f hf => h f (List.mem_cons_of_mem _ hf)

/-- R148: no pass leaves travel when each keeps every box of the window within it. -/
theorem passesOutside_false {prm : Params} {n : Nat} {x y : Int} {slots : List (Nat × Slot)} {b : Box}
    (hb : windowExtent slots = some b)
    (h : ∀ k : Nat, k < n → ∀ e ∈ slots, e.2.seg.box.outside prm (k * x) (k * y) = false) :
    passesOutside prm n x y b = false := by
  unfold passesOutside
  rw [List.any_eq_false]
  intro k hk
  exact Bool.eq_false_iff.mp (windowExtent_inside hb (h k (List.mem_range.mp hk)))

/-- R148, check 6: passes in range that keep every box of the window within travel are not refused. -/
theorem repeatRefusal_none {n : Nat} {x y : Int} {s : State}
    (h : s.store.mode = .repeating → 1 ≤ n ∧ n ≤ 64 ∧ x.natAbs ≤ 250000 ∧ y.natAbs ≤ 250000 ∧
      ∀ k : Nat, k < n → ∀ e ∈ s.store.slots,
        0 ≤ e.2.seg.box.minX + k * x ∧ 0 ≤ e.2.seg.box.minY + k * y ∧
        e.2.seg.box.maxX + k * x ≤ s.params.travelX ∧ e.2.seg.box.maxY + k * y ≤ s.params.travelY) :
    repeatRefusal n x y s = none := by
  unfold repeatRefusal
  cases hm : s.store.mode with
  | stream => rfl
  | repeating =>
    obtain ⟨hLow, hHigh, hx, hy, hBoxes⟩ := h hm
    have hRange : (within n 1 64 && within x (-250000) 250000 && within y (-250000) 250000) = true := by
      unfold within
      simp only [Bool.and_eq_true, decide_eq_true_iff]
      omega
    dsimp only
    rw [if_pos hRange]
    cases hb : windowExtent s.store.slots with
    | none => rfl
    | some b =>
      exact if_neg (Bool.eq_false_iff.mp (passesOutside_false hb fun k hk e he =>
        (outside_shifted_iff _ _ _ _).mpr (hBoxes k hk e he)))

/-- R148: a START whose checks all pass is not refused. -/
theorem startRefusal_none {n : Nat} {x y : Int} {s : State} (hIdle : s.job.state = .idle) (hLocated : s.axes.located)
    (hSlots : s.store.slots ≠ []) (hOrigin : s.store.origin = some s.axes.point) (hClear : ¬s.guard.barsCut)
    (hRepeat : repeatRefusal n x y s = none) : startRefusal n x y s = none := by
  have hNotBlocked : s.guard.cutBlocked = false := Bool.eq_false_iff.mpr fun h => hClear ((cutBlocked_iff _).mp h)
  have hRefusal : idleRefusal s = none := by
    unfold idleRefusal
    rw [hIdle]
  unfold startRefusal
  rw [hRefusal]
  simp only [firstRefusal, (allReferenced_iff _).mpr hLocated, hSlots, hOrigin, hNotBlocked, hRepeat, Bool.not_true,
    ne_eq, not_true_eq_false, decide_false, Bool.false_eq_true, if_false]

/-! ### The job begun -/

/-- R150: the job after the passage from WARMUP. -/
theorem warmupPassage_job {s : State} (h : s.job.state = .warmup) :
    (warmupPassage s).job =
      { s.job with state := if s.stroke.state = .run ∧ s.interp.startPending = false then .cutting else .warmup } := by
  have hPasses : (s.job.state = .warmup && s.stroke.state = .run && !s.interp.startPending) = true ↔
      s.stroke.state = .run ∧ s.interp.startPending = false := by simp [h]
  unfold warmupPassage
  by_cases hRun : s.stroke.state = .run ∧ s.interp.startPending = false
  · rw [if_pos (hPasses.mpr hRun), if_pos hRun]
    rfl
  · rw [if_neg (mt hPasses.mp hRun), if_neg hRun, ← h]

/-- R149: an accepted START up to its start pivot. -/
def State.jobEntered (n : Nat) (x y : Int) (s : State) : State :=
  let v := spinUpRequest (((replan none s).mapJob (Job.begin s.store.mode n x y)).mapGov fun g =>
    { g with v := 0, vprev := 0 })
  v.mapInterp (Interp.begin v.axes)

theorem beginJob_eq (n : Nat) (x y : Int) (s : State) :
    beginJob n x y s = warmupPassage (startPivot (s.jobEntered n x y)) :=
  rfl

theorem jobEntered_keeps (n : Nat) (x y : Int) (s : State) :
    Keeps [.store, .planner, .gov, .stroke, .load, .interp, .job] s (s.jobEntered n x y) :=
  (mapInterp_keeps _ _).after ((spinUpRequest_keeps _).after ((mapGov_keeps _ _).after ((mapJob_keeps _ _).after
    (replan_keeps none s).mono)))

/-- R149: the blocks as the job finds them before its start pivot. -/
theorem jobEntered_parts (n : Nat) (x y : Int) (s : State) :
    let u := s.jobEntered n x y
    u.store = (replan none s).store ∧ u.planner = (replan none s).planner ∧
      u.job = Job.begin s.store.mode n x y s.job ∧ u.gov = { s.gov with v := 0, vprev := 0 } ∧
      u.stroke = s.stroke.spinUp s.params.startDuty ∧ u.interp = Interp.begin s.axes s.interp := by
  intro u
  have kR := replan_keeps none s
  have hJob : (replan none s).job = s.job := kR .job (by decide)
  have hGov : (replan none s).gov = s.gov := kR .gov (by decide)
  have hStroke : (replan none s).stroke = s.stroke := kR .stroke (by decide)
  have hParams : (replan none s).params = s.params := kR .params (by decide)
  have hAxes : (replan none s).axes = s.axes := kR .axes (by decide)
  have hInterp : (replan none s).interp = s.interp := kR .interp (by decide)
  rw [← hJob, ← hGov, ← hStroke, ← hParams, ← hAxes, ← hInterp]
  exact ⟨rfl, rfl, rfl, rfl, rfl, rfl⟩

/-- R43: a replan made in IDLE plans with the derates of the parameters. -/
theorem replan_idle_derates {s : State} (h : s.job.state = .idle) :
    (replan none s).planner.p0 = s.params.d0 ∧ (replan none s).planner.p1 = s.params.d1 ∧
      (replan none s).planner.p2 = s.params.d2 ∧ (replan none s).planner.p3 = s.params.d3 := by
  show (copyDerates s).planner.p0 = _ ∧ (copyDerates s).planner.p1 = _ ∧ (copyDerates s).planner.p2 = _ ∧
    (copyDerates s).planner.p3 = _
  rw [copyDerates_planner]
  simp only [h, if_true, and_self]

/-- R67, R149: what the start pivot and the passage to CUTTING leave of the state with the job entered. -/
theorem beginJob_parts (n : Nat) (x y : Int) (s : State) :
    let t := beginJob n x y s
    Keeps [.store, .planner, .gov, .stroke, .load, .interp, .job] s t ∧
      t.store = (replan none s).store ∧ t.planner = (replan none s).planner ∧
      t.gov = { s.gov with v := 0, vprev := 0 } ∧ t.stroke = s.stroke.spinUp s.params.startDuty ∧
      t.job = { Job.begin s.store.mode n x y s.job with
        state := if t.stroke.state = .run ∧ t.interp.startPending = false then .cutting else .warmup } ∧
      t.interp = { Interp.begin s.axes s.interp with
        pivot := t.interp.pivot, pivotNeg := t.interp.pivotNeg, startPending := t.interp.startPending } ∧
      t.interp.inStartPivot s.store := by
  intro t
  obtain ⟨u, hu⟩ : ∃ u, u = s.jobEntered n x y := ⟨_, rfl⟩
  obtain ⟨hStore, hPlanner, hJob, hGov, hStroke, hInterp⟩ := jobEntered_parts n x y s
  have kU := jobEntered_keeps n x y s
  rw [← hu] at hStore hPlanner hJob hGov hStroke hInterp kU
  have ht : t = warmupPassage (startPivot u) := hu ▸ beginJob_eq n x y s
  have kP := startPivot_keeps u
  have kW := warmupPassage_keeps (startPivot u)
  rw [← ht] at kW
  have kT : Keeps [.interp, .job] u t := kW.after kP.mono
  have hStrokeT : t.stroke = u.stroke := kT .stroke (by decide)
  have hInterpT : t.interp = (startPivot u).interp := kW .interp (by decide)
  have hJobP : (startPivot u).job = Job.begin s.store.mode n x y s.job := (kP .job (by decide)).trans hJob
  refine ⟨kT.after kU, (kT .store (by decide)).trans hStore, (kT .planner (by decide)).trans hPlanner,
    (kT .gov (by decide)).trans hGov, hStrokeT.trans hStroke, ?_, ?_, ?_⟩
  · have hStrokeP : (startPivot u).stroke = u.stroke := kP .stroke (by decide)
    rw [hStrokeT, hInterpT, ← hStrokeP, ← hJobP, ht]
    exact warmupPassage_job (by rw [hJobP]; rfl)
  · obtain ⟨pivot, neg, pending, hPivot⟩ := startPivot_eq u
    rw [hInterpT, hPivot, ← hInterp]
  · rw [hInterpT]
    refine startPivot_begins ?_
    rw [hStore]
    have hPtr : (replan none s).store.execPtr = s.store.execPtr := by rw [replan_store]
    rw [hPtr, replan_runFrom]

/-- Settles O28: the checks pass, and the block begins the job on the state with the frame arrived, which differs from
the state before in the Link alone. -/
theorem startBegins : Obligations.StartBegins := by
  intro n x y s hReady hIdle hLocated hSlots hOrigin hClear hRepeat
  have hAccepted : startRefusal n.toNat x.toInt y.toInt (s.arrived (.start n x y)) = none :=
    startRefusal_none hIdle hLocated hSlots hOrigin hClear (repeatRefusal_none hRepeat)
  have hTake : takeStart n x y (s.arrived (.start n x y)) =
      (beginJob n.toNat x.toInt y.toInt (s.arrived (.start n x y)), .ready ⟨.ok, []⟩) := by
    unfold takeStart
    rw [hAccepted]
    rfl
  obtain ⟨hKeeps, hStore, hPlanner, hGov, hStroke, hJob, hInterp, hPivot⟩ :=
    beginJob_parts n.toNat x.toInt y.toInt (s.arrived (.start n x y))
  obtain ⟨hd0, hd1, hd2, hd3⟩ := replan_idle_derates (s := s.arrived (.start n x y)) hIdle
  obtain ⟨hPlanStore, hPlan⟩ := replan_congr none (s := s) (u := s.arrived (.start n x y)) rfl rfl rfl rfl
  rw [← hPlanner] at hd0 hd1 hd2 hd3
  refine ⟨_, exec_ready hReady (take := takeStart n x y), ?_⟩
  rw [hTake]
  generalize beginJob n.toNat x.toInt y.toInt (s.arrived (.start n x y)) = t at *
  refine ⟨(mapLink_keeps _ t).after (hKeeps.after (mapLink_keeps _ s).mono), rfl, hJob, hd0, hd1, hd2, hd3,
    fun hOk => ⟨_, replan_replanned none hOk.window, hStore.trans hPlanStore, hPlanner.trans hPlan⟩,
    congrArg Governor.v hGov, congrArg Governor.vprev hGov, hStroke, congrArg Interp.pass hInterp,
    congrArg Interp.timer hInterp, congrArg Interp.targetX hInterp, congrArg Interp.targetY hInterp, ?_, ?_, hPivot⟩
  · exact (congrArg (fun i => (i.targetC : Int)) hInterp).trans (mod36000_cast s.axes.c.pos)
  · rw [mapLink_interp, congrArg Interp.targetC hInterp]
    exact hInterp

end Sys2Proof.Machine

namespace Sys2Proof.Machine

/-! ## What the job state goes with, under every step (R60, R121, R126, R140, R147, R152, R154) -/

/-! ### State by state -/

/-- No MOVE and no HOME, and their period timer stopped. -/
def Modes.standing (v : Modes) : Prop := v.move = false ∧ v.home = false ∧ v.traversing = false

/-- Neither held nor waiting out the starve dwell. -/
def Modes.unheld (v : Modes) : Prop := v.held = false ∧ v.dwell = false

/-- The period timer runs only in the mode the job was started in. -/
def Modes.paced (v : Modes) : Prop := v.period = true → v.jobMode = v.storeMode

/-- What each job state goes with. -/
def Modes.fitsIn (v : Modes) : JobState → Prop
  | .idle => v.latch = 0 ∧ v.period = false ∧ v.standing ∧ v.unheld
  | .motion => v.latch = 0 ∧ v.period = false ∧ (v.move = true → v.home = false) ∧ v.unheld
  | .warmup => v.latch = 0 ∧ v.paced ∧ v.standing ∧ v.unheld
  | .cutting => v.latch = 0 ∧ v.paced ∧ v.standing ∧ v.unheld
  | .holding => v.latch = 0 ∧ v.paced ∧ v.standing ∧ v.dwell = false
  | .starved => v.latch = 0 ∧ v.paced ∧ v.standing ∧ v.held = false ∧ v.active = none
  | .stopping => v.paced ∧ (v.move = true → v.home = false) ∧ (v.period = true → v.home = false) ∧ v.unheld
  | .fault => v.period = false ∧ v.standing ∧ v.unheld ∧ v.still

/-- `Modes.ok` sorts its conditions by field, `Modes.fitsIn` by job state. -/
theorem Modes.ok_iff_fitsIn (v : Modes) : v.ok ↔ v.fitsIn v.job := by
  constructor
  · rintro ⟨hlatch, hperiod, hmove, hhome, hone, hapart, hheld, hdwell, hstarved, hmode, htraversing, hstill⟩
    cases hj : v.job <;> rw [hj] at hlatch hperiod hmove hhome hheld hdwell hstarved htraversing hstill <;>
      simp_all [fitsIn, standing, unheld, paced, JobState.inJob]
  · intro h
    cases hj : v.job <;> rw [hj] at h <;> constructor <;>
      simp_all [fitsIn, standing, unheld, paced, JobState.inJob]

/-- Outside STARVED any slot may be active. -/
theorem Modes.fitsIn.active {v : Modes} {j : JobState} (h : v.fitsIn j) (hj : j ≠ .starved) (a : Option Nat) :
    { v with active := a }.fitsIn j := by
  cases j
  case starved => exact absurd rfl hj
  all_goals exact h

/-- No slot need be active. -/
theorem Modes.fitsIn.inactive {v : Modes} {j : JobState} (h : v.fitsIn j) : { v with active := none }.fitsIn j := by
  cases j
  case starved =>
    obtain ⟨hLatch, hPaced, hStanding, hHeld, -⟩ := h
    exact ⟨hLatch, hPaced, hStanding, hHeld, rfl⟩
  all_goals exact h

/-- Outside FAULT the axes may have steps to issue. -/
theorem Modes.fitsIn.steps {v : Modes} {j : JobState} (h : v.fitsIn j) (hj : j ≠ .fault) (p : Prop) :
    { v with still := p }.fitsIn j := by
  cases j
  case fault => exact absurd rfl hj
  all_goals exact h

/-- The states of a job on its path have the same conditions, but for the held flag. -/
theorem Modes.fitsIn.onPath {v : Modes} {j : JobState} (h : v.fitsIn j)
    (hj : j = .warmup ∨ j = .cutting ∨ j = .holding) :
    v.latch = 0 ∧ v.paced ∧ v.standing ∧ v.dwell = false := by
  rcases hj with rfl | rfl | rfl
  · exact ⟨h.1, h.2.1, h.2.2.1, h.2.2.2.2⟩
  · exact ⟨h.1, h.2.1, h.2.2.1, h.2.2.2.2⟩
  · exact h

/-! ### The condition on the state -/

/-- What the job state goes with, and in FAULT a blade that is not driven. -/
structure State.fits (s : State) : Prop where
  modes : s.modes.fitsIn s.job.state
  undriven : s.job.state = .fault → s.stroke.state.driven = false

/-- The same outside FAULT, where nothing is asked of the blade and of the steps left. -/
structure State.fitsAway (s : State) : Prop where
  fits : s.fits
  away : s.job.state ≠ .fault

variable {s t : State}

theorem State.fits.ok (h : s.fits) : s.modes.ok :=
  (Modes.ok_iff_fitsIn s.modes).mpr h.modes

theorem State.fits.inState {j : JobState} (h : s.fits) (hj : s.job.state = j) : s.modes.fitsIn j :=
  hj ▸ h.modes

theorem fits_of_modesOk (h : s.modesOk) (hd : s.job.state = .fault → s.stroke.state.driven = false) : s.fits :=
  ⟨(Modes.ok_iff_fitsIn s.modes).mp ((modesOk_iff s).mp h), hd⟩

theorem fitsAway_in {j : JobState} (hj : t.job.state = j) (hv : t.modes.fitsIn j) (hn : j ≠ .fault) :
    t.fitsAway :=
  have hAway : t.job.state ≠ .fault := hj ▸ hn
  ⟨⟨hj ▸ hv, fun hf => absurd hf hAway⟩, hAway⟩

theorem fits_in {j : JobState} (hj : t.job.state = j) (hv : t.modes.fitsIn j) (hn : j ≠ .fault) :
    t.fits :=
  (fitsAway_in hj hv hn).fits

theorem fits_inFault (hj : t.job.state = .fault) (hv : t.modes.fitsIn .fault)
    (hd : t.stroke.state.driven = false) : t.fits :=
  ⟨hj ▸ hv, fun _ => hd⟩

/-- What leaves the modes and starts no blade. -/
theorem fits_of_modes (h : s.fits) (e : t.modes = s.modes)
    (hd : s.stroke.state.driven = false → t.stroke.state.driven = false) : t.fits := by
  have ej : t.job.state = s.job.state := congrArg Modes.job e
  refine ⟨?_, fun hf => hd (h.undriven (ej ▸ hf))⟩
  rw [e, ej]
  exact h.modes

/-- Outside FAULT, what leaves the modes may start the blade. -/
theorem fitsAway_of_modes (h : s.fitsAway) (e : t.modes = s.modes) : t.fitsAway := by
  have ej : t.job.state = s.job.state := congrArg Modes.job e
  refine fitsAway_in ej ?_ h.away
  rw [e]
  exact h.fits.modes

/-- An operation on other blocks that leaves the Store's mode. -/
theorem fits_of_keeps' {m : List Block} (k : Keeps m s t) (hs : t.store.mode = s.store.mode) (h : s.fits)
    (hm : (m.contains .guard || m.contains .interp || m.contains .axes || m.contains .job || m.contains .stroke) =
      false) : t.fits := by
  obtain ⟨hModes, hStroke⟩ := Bool.or_eq_false_iff.mp hm
  have ek : t.stroke = s.stroke := k .stroke (by simpa using hStroke)
  exact fits_of_modes h (modes_of_keeps' k hs hModes) fun hd => ek ▸ hd

/-- An operation on other blocks. -/
theorem fits_of_keeps {m : List Block} (k : Keeps m s t) (h : s.fits)
    (hm : (m.contains .guard || m.contains .interp || m.contains .axes || m.contains .job || m.contains .stroke ||
      m.contains .store) = false) : t.fits := by
  obtain ⟨hOthers, hStore⟩ := Bool.or_eq_false_iff.mp hm
  have es : t.store = s.store := k .store (by simpa using hStore)
  exact fits_of_keeps' k (congrArg Store.mode es) h hOthers

theorem fits_mapLink (f : Link → Link) (h : s.fits) : (s.mapLink f).fits :=
  fits_of_keeps (mapLink_keeps f s) h rfl

theorem fits_queueNotice (n : Notice) (h : s.fits) : (queueNotice n s).fits :=
  fits_of_keeps (queueNotice_keeps n s) h rfl

theorem fits_mapLoad (f : Load → Load) (h : s.fits) : (s.mapLoad f).fits :=
  fits_of_keeps (mapLoad_keeps f s) h rfl

theorem fits_updateInput (i : InputId) (f : InputState → InputState) (h : s.fits) :
    (s.mapGuard fun g => g.updateInput i f).fits :=
  fits_of_modes h (modes_mapGuard _ s rfl) id

theorem fits_mapStroke {f : Stroke → Stroke} (h : s.fits)
    (hf : s.stroke.state.driven = false → (f s.stroke).state.driven = false) : (s.mapStroke f).fits :=
  fits_of_modes h rfl hf

theorem fits_strokeTo {f : Stroke → Stroke} (h : s.fits)
    (hf : s.stroke.state.driven = false → (f s.stroke).state.driven = false) : (strokeTo f s).fits :=
  fits_of_modes h (modes_strokeTo f s) hf

theorem fitsAway_strokeTo (f : Stroke → Stroke) (h : s.fitsAway) : (strokeTo f s).fitsAway :=
  fitsAway_of_modes h (modes_strokeTo f s)

/-- R101: after a coast request the blade is not driven. -/
theorem toCoast_state_undriven (k : Stroke) : k.toCoast.state.driven = false := by
  unfold Stroke.toCoast
  split
  · rfl
  · next hd => exact Bool.not_eq_true _ |>.mp hd

theorem fits_coastRequest (h : s.fits) : (coastRequest s).fits :=
  fits_strokeTo h fun _ => toCoast_state_undriven _

/-! ### Stops and causes -/

/-- R141: a controlled stop is entered, with any latch. -/
theorem fits_controlledStop {l : BitVec 16} (h : s.fits) (e : t.modes = { s.modes with latch := l }) :
    (controlledStop t).fits := by
  refine fits_in (j := .stopping) rfl ?_ (by decide)
  rw [modes_controlledStop, e]
  exact ⟨h.ok.mode, h.ok.oneMotion, h.ok.apart, rfl, rfl⟩

/-- R142: a controlled stop ends, with no HOME left in progress. -/
theorem fits_controlledStopEnd (h : s.fits) (hj : s.job.state = .stopping) (hh : s.axes.home = none) :
    (controlledStopEnd s).fits := by
  obtain ⟨-, -, -, hUnheld⟩ := h.inState hj
  have hHome : s.modes.home = false := congrArg Option.isSome hh
  obtain ⟨eJob, eStroke, -⟩ := controlledStopEnd_parts s
  have eState : (controlledStopEnd s).job.state = if s.guard.latch = 0 then .idle else .fault := congrArg Job.state eJob
  have hModes := modes_controlledStopEnd s
  by_cases hl : s.guard.latch = 0
  · rw [if_pos hl] at eState
    refine fits_in eState ?_ (by decide)
    rw [hModes]
    simp only [if_pos hl]
    exact ⟨hl, rfl, ⟨rfl, hHome, rfl⟩, hUnheld⟩
  · rw [if_neg hl] at eState
    refine fits_inFault eState ?_ (eStroke ▸ toCoast_state_undriven _)
    rw [hModes]
    simp only [if_neg hl]
    exact ⟨rfl, ⟨rfl, hHome, rfl⟩, hUnheld, trivial⟩

/-- R143: an immediate stop leaves what FAULT goes with, whatever it finds. -/
theorem fits_immediateStop (k : Cause) (s : State) : (immediateStop k s).fits := by
  obtain ⟨eJob, -, -, eStroke, -⟩ := immediateStop_parts k s
  refine fits_inFault (congrArg Job.state eJob) ?_ (eStroke ▸ toCoast_state_undriven _)
  rw [modes_immediateStop]
  exact ⟨rfl, ⟨rfl, rfl, rfl⟩, ⟨rfl, rfl⟩, trivial⟩

theorem fits_latchCause (k : Cause) (h : s.fits) (hj : s.job.state = .stopping ∨ s.job.state = .fault) :
    (latchCause k s).fits := by
  rcases hj with hj | hj
  · exact fits_in hj (h.inState hj) (by decide)
  · exact fits_inFault hj (h.inState hj) (h.undriven hj)

/-- R124: dropped enables end the MOVE and leave no steps. -/
theorem fits_dropEnables (h : s.fits) (hj : s.job.state = .idle ∨ s.job.state = .fault) : (dropEnables s).fits := by
  rcases hj with hj | hj
  · obtain ⟨hLatch, hPeriod, ⟨-, hHome, -⟩, hUnheld⟩ := h.inState hj
    refine fits_in (j := .idle) hj ?_ (by decide)
    rw [modes_dropEnables]
    exact ⟨hLatch, hPeriod, ⟨rfl, hHome, rfl⟩, hUnheld⟩
  · obtain ⟨hPeriod, ⟨-, hHome, -⟩, hUnheld, -⟩ := h.inState hj
    refine fits_inFault hj ?_ (h.undriven hj)
    rw [modes_dropEnables]
    exact ⟨hPeriod, ⟨rfl, hHome, rfl⟩, hUnheld, trivial⟩

/-- R145: a cause takes an idle job to FAULT. -/
theorem fits_faultFromIdle (cat : Category) (k : Cause) (h : s.fits) (hj : s.job.state = .idle) :
    (faultFromIdle cat k s).fits := by
  obtain ⟨-, hPeriod, hStanding, hUnheld⟩ := h.inState hj
  refine fits_inFault (congrArg Modes.job (modes_faultFromIdle cat k s)) ?_ (toCoast_state_undriven s.stroke)
  rw [modes_faultFromIdle]
  exact ⟨hPeriod, hStanding, hUnheld, trivial⟩

theorem fits_causeInIdle (cat : Category) (k : Cause) (h : s.fits) (hj : s.job.state = .idle) :
    (causeInIdle cat k s).fits := by
  unfold causeInIdle
  split
  · exact fits_faultFromIdle _ k (fits_dropEnables h (.inl hj)) hj
  · split
    · exact fits_faultFromIdle _ _ h hj
    · split
      · exact fits_faultFromIdle _ _ h hj
      · exact h
    all_goals exact h

theorem fits_causeInFault (cat : Category) (k : Cause) (h : s.fits) (hj : s.job.state = .fault) :
    (causeInFault cat k s).fits := by
  have hLatched := fits_latchCause k h (.inr hj)
  unfold causeInFault
  dsimp only
  split
  · exact hLatched
  · refine fits_coastRequest ?_
    split
    · exact fits_dropEnables hLatched (.inr hj)
    · exact hLatched

/-- R140: a cause is taken in any job state. -/
theorem fits_takeCause (cat : Category) (k : Cause) (h : s.fits) : (takeCause cat k s).fits := by
  unfold takeCause
  split
  · next hj => exact fits_causeInIdle cat k h hj
  · next hj => exact fits_causeInFault cat k h hj
  · next hj =>
    split
    · exact fits_immediateStop k s
    · exact fits_latchCause k h (.inl hj)
  all_goals
    split
    · exact fits_immediateStop k s
    · exact fits_controlledStop h (modes_latchCause k s)

/-! ### The Job Controller and the guard inputs -/

theorem modes_setHeld (s : State) : (setHeld s).modes = { s.modes with held := true } := by
  unfold setHeld
  dsimp only
  rw [modes_queueNotice, modes_of_keeps (idleRequest_keeps _)]
  rfl

/-- R152: the held flag is set in HOLDING. -/
theorem fitsAway_setHeld (h : s.fits) (hj : s.job.state = .holding) : (setHeld s).fitsAway := by
  refine fitsAway_in (j := .holding) (congrArg Modes.job (modes_setHeld s) |>.trans hj) ?_ (by decide)
  rw [modes_setHeld]
  exact h.inState hj

theorem fits_holdRequest (h : s.fits) : (holdRequest s).fits := by
  unfold holdRequest
  split
  · next hj =>
    obtain ⟨hLatch, hPaced, hStanding, -, hDwell⟩ := h.inState hj
    exact fits_in (j := .holding) rfl ⟨hLatch, hPaced, hStanding, hDwell⟩ (by decide)
  · next hj =>
    obtain ⟨hLatch, hPaced, hStanding, -, hDwell⟩ := h.inState hj
    exact fits_in (j := .holding) rfl ⟨hLatch, hPaced, hStanding, hDwell⟩ (by decide)
  · next hj =>
    obtain ⟨hLatch, hPaced, hStanding, -⟩ := h.inState hj
    have hHolding : (s.mapJob fun j => { j with state := .holding, dwell := none }).fits :=
      fits_in (j := .holding) rfl ⟨hLatch, hPaced, hStanding, rfl⟩ (by decide)
    exact (fitsAway_setHeld hHolding rfl).fits
  all_goals exact h

/-- R150: the passage from WARMUP to CUTTING. -/
theorem fits_warmupPassage (h : s.fits) : (warmupPassage s).fits := by
  unfold warmupPassage
  split
  · next hc =>
    simp only [Bool.and_eq_true, decide_eq_true_eq] at hc
    obtain ⟨⟨hj, -⟩, -⟩ := hc
    exact fits_in (j := .cutting) rfl (h.inState hj) (by decide)
  · exact h

theorem modes_becomeStarved (s : State) :
    (becomeStarved s).modes = { s.modes with job := .starved, held := false, dwell := true } := by
  unfold becomeStarved
  rw [modes_queueNotice]
  rfl

/-- R153, R154: a job becomes STARVED with no segment active. -/
theorem fitsAway_becomeStarved (h : s.fits) (hj : s.job.state = .cutting ∨ s.job.state = .holding)
    (ha : s.interp.active = none) : (becomeStarved s).fitsAway := by
  obtain ⟨hLatch, hPaced, hStanding, -⟩ := h.modes.onPath (.inr hj)
  refine fitsAway_in (j := .starved) (congrArg Modes.job (modes_becomeStarved s)) ?_ (by decide)
  rw [modes_becomeStarved]
  exact ⟨hLatch, hPaced, hStanding, rfl, ha⟩

/-- R153, R155: a job goes to WARMUP with the blade spun up, and may pass to CUTTING at once. -/
theorem fits_warmUp (h : s.fitsAway) : (warmupPassage (spinUpRequest s)).fits :=
  fits_warmupPassage (fitsAway_strokeTo _ h).fits

theorem fits_starvedAcceptance (h : s.fits) : (starvedAcceptance s).fits := by
  unfold starvedAcceptance
  split
  · next hj =>
    obtain ⟨hLatch, hPaced, hStanding, hHeld, -⟩ := h.inState hj
    exact fits_warmUp (fitsAway_in (j := .warmup) rfl ⟨hLatch, hPaced, hStanding, hHeld, rfl⟩ (by decide))
  · exact h

theorem fits_edgeAction (i : InputId) (active : Bool) (h : s.fits) : (edgeAction i active s).fits := by
  unfold edgeAction activationAction releaseAction
  split
  · split
    · exact h
    · exact fits_queueNotice _ h
    · split
      · exact fits_holdRequest h
      · exact fits_queueNotice _ h
    · exact fits_takeCause _ _ h
    · exact fits_takeCause _ _ h
  · split
    · exact fits_queueNotice _ h
    · exact h

/-- R129: a complete HOME ends in IDLE. -/
theorem fits_finishHome (h : s.fits) : (finishHome s).fits := by
  unfold finishHome
  split
  · exact h
  · next w hHome =>
    split
    · next hc =>
      simp only [Bool.and_eq_true, decide_eq_true_eq] at hc
      obtain ⟨hLatch, hPeriod, hOne, hUnheld⟩ := h.inState hc.1
      have hMove : s.modes.move = false := by
        cases hm : s.modes.move
        · rfl
        · exact absurd (hOne hm) (by simp [State.modes, hHome])
      exact fits_queueNotice _ (fits_in (j := .idle) rfl ⟨hLatch, hPeriod, ⟨hMove, rfl, rfl⟩, hUnheld⟩ (by decide))
    · exact h

/-- Outside FAULT an operation on the axes that leaves which motion there is. -/
theorem fitsAway_mapAxes (f : Axes → Axes) (h : s.fitsAway)
    (h1 : (f s.axes).traverse.isSome = s.axes.traverse.isSome) (h2 : (f s.axes).home.isSome = s.axes.home.isSome)
    (h3 : (f s.axes).timer.isSome = s.axes.timer.isSome) : (s.mapAxes f).fitsAway := by
  refine fitsAway_in (j := s.job.state) rfl ?_ h.away
  rw [modes_mapAxes f s h1 h2 h3]
  exact h.fits.modes.steps h.away _

theorem fits_reportToAxis (a : Axis) (f : AxisState → AxisState) (h : s.fits) : (reportToAxis a f s).fits := by
  unfold reportToAxis
  split
  · next hj =>
    have hAway : s.fitsAway := fitsAway_in hj (h.inState hj) (by decide)
    exact fits_finishHome (fitsAway_mapAxes _ hAway (by rw [update_traverse]) (by rw [update_home])
      (by rw [update_timer])).fits
  · exact h

theorem fits_levelEffects (i : InputId) (active : Bool) (h : s.fits) : (levelEffects i active s).fits := by
  have hFree : ({ s with free := s.free + 1 } : State).fits := fits_of_modes h rfl id
  unfold levelEffects
  split
  · exact fits_edgeAction i active h
  · split
    · extract_lets quiet u choice
      refine iteInduction (fun _ => fits_reportToAxis _ _ h) fun _ => ?_
      split
      · exact fits_edgeAction i active (fits_reportToAxis _ _ hFree)
      · exact fits_reportToAxis _ _ (fits_edgeAction i active hFree)
    · exact fits_edgeAction i active h

theorem fits_filterReached (i : InputId) (h : s.fits) : (filterReached i s).fits := by
  unfold filterReached filterEnds acceptLevel
  split
  · dsimp only
    split
    · exact fits_updateInput i _ h
    · exact fits_levelEffects i _ (fits_updateInput i _ h)
  · exact h

theorem fits_rawChange (i : InputId) (active : Bool) (h : s.fits) : (rawChange i active s).fits := by
  unfold rawChange
  split
  · exact h
  · exact fits_filterReached i (fits_updateInput i _ h)

/-- R155: the dwell runs out only in STARVED. -/
theorem fits_dwellReached (h : s.fits) : (dwellReached s).fits := by
  unfold dwellReached
  split
  · next hr =>
    have hDwell : s.modes.dwell = true := by
      show s.job.dwell.isSome = true
      cases hd : s.job.dwell with
      | none =>
        rw [hd] at hr
        cases hr
      | some us => rfl
    have hj : s.job.state = .starved := h.ok.dwell hDwell
    exact fits_takeCause _ _ (fits_in (j := .starved) hj (h.inState hj) (by decide))
  · exact h

/-! ### The blade -/

theorem fits_spinupFailed (h : s.fits) : (spinupFailed s).fits := by
  unfold spinupFailed
  split
  · exact fits_takeCause _ _ (fits_strokeTo h fun _ => rfl)
  · exact h

theorem fits_stallReached (h : s.fits) : (stallReached s).fits := by
  unfold stallReached
  split
  · split
    · exact fits_mapStroke h id
    · exact fits_takeCause _ _ (fits_strokeTo h fun _ => rfl)
  · exact h

theorem fits_coastReached (h : s.fits) : (coastReached s).fits := by
  unfold coastReached
  split
  · exact fits_strokeTo h fun _ => rfl
  · exact h

/-- R94: an index is counted only while the blade is driven, which it is not in FAULT. -/
theorem fits_drivenIndex (now : Word) (h : s.fits) (hd : s.stroke.state.driven = true) : (drivenIndex now s).fits := by
  have hAway : s.fitsAway := ⟨h, fun hj => by rw [h.undriven hj] at hd; cases hd⟩
  unfold drivenIndex
  extract_lets formed u v w x
  have hv : v.fitsAway := by
    show (if formed then u.mapStroke (Stroke.control u.params) else u).fitsAway
    split
    · exact fitsAway_of_modes hAway rfl
    · exact fitsAway_of_modes hAway rfl
  have hw : w.fits := fits_warmupPassage (fitsAway_strokeTo _ hv).fits
  exact fits_mapLoad _ (fits_mapStroke hw id)

theorem fits_indexTaken (now : Word) (h : s.fits) : (indexTaken now s).fits := by
  unfold indexTaken
  split
  · next hk => exact fits_drivenIndex now h (by rw [hk]; rfl)
  · next hk => exact fits_drivenIndex now h (by rw [hk]; rfl)
  · next hk => exact fits_drivenIndex now h (by rw [hk]; rfl)
  · refine fits_mapStroke h fun hd => ?_
    show (Stroke.timestamp now s.stroke).state.driven = false
    rwa [timestamp_state]
  · exact h
  · exact h

theorem fits_serveStroke (sample : Nat) (h : s.fits) : (serveStroke sample s).fits := by
  have hBand := fits_of_keeps (evaluateBand_keeps _) (fits_mapLoad (Load.accumulate sample) h) rfl
  unfold serveStroke countOverload
  split
  · extract_lets n
    split
    · exact fits_takeCause _ _ (fits_mapLoad _ hBand)
    · exact fits_mapLoad _ hBand
  · exact hBand

theorem fits_measured (code : Nat) (h : s.fits) : (measured code s).fits := by
  have hServe : (serve code s).fits := by
    unfold serve
    extract_lets forStroke forLink strokeState u v w
    have hu : u.fits := fits_mapLoad _ h
    have hv : v.fits := by
      show (if forStroke then serveStroke code u else u).fits
      split
      · exact fits_serveStroke code hu
      · exact hu
    exact fits_of_keeps ((powerDownIfOff_keeps w).after (Keeps.ite (serveLink_keeps _ v).mono (.refl [.load, .link] v))
      (m := [.load, .link])) hv rfl
  unfold measured
  split
  · split
    · exact hServe
    · exact h
  · exact h
  · exact h

/-! ### The Interpolator -/

/-- R61: a segment is taken in any state but STARVED. -/
theorem fitsAway_takeSegment (i : Nat) (seg : Segment) (p : Nat) (h : s.fitsAway) (hj : s.job.state ≠ .starved) :
    (takeSegment i seg p s).fitsAway := by
  have e := modes_takeSegment i seg p s
  refine fitsAway_in (congrArg Modes.job e) ?_ h.away
  rw [e]
  exact h.fits.modes.active hj _

theorem fitsAway_openingTake (h : s.fitsAway) : (openingTake s).fitsAway := by
  unfold openingTake
  split
  · next hc =>
    simp only [Bool.and_eq_true, decide_eq_true_eq] at hc
    obtain ⟨⟨⟨hj, -⟩, -⟩, -⟩ := hc
    split
    · exact h
    · exact fitsAway_takeSegment _ _ _ h (by rw [hj]; decide)
  · exact h

theorem fitsAway_reportCompletion (seg : Segment) (h : s.fitsAway) : (reportCompletion seg s).fitsAway := by
  have e := modes_reportCompletion seg s
  refine fitsAway_in (congrArg Modes.job e) ?_ h.away
  rw [e]
  exact h.fits.modes.inactive

theorem modes_endJob (s : State) :
    (endJob s).modes = { s.modes with period := false, job := .idle, held := false } := by
  unfold endJob
  extract_lets u v w x
  have hu : u.modes = s.modes := by
    show ({ s with job := if s.job.mode = .stream then { s.job with passesDone := 1 } else s.job } : State).modes = _
    split <;> rfl
  have hv : v.modes = u.modes :=
    (modes_of_keeps' (storeJobEnd_keeps _) (storeJobEnd_mode _)).trans (modes_of_keeps (coastRequest_keeps u))
  rw [modes_queueNotice]
  show { v.modes with period := false, job := .idle, held := false } = _
  rw [hv, hu]

/-- R156: a job on its path ends in IDLE. -/
theorem fitsAway_endJob (h : s.fits)
    (hj : s.job.state = .warmup ∨ s.job.state = .cutting ∨ s.job.state = .holding) :
    (endJob s).fitsAway := by
  obtain ⟨hLatch, -, hStanding, hDwell⟩ := h.modes.onPath hj
  refine fitsAway_in (j := .idle) (congrArg Modes.job (modes_endJob s)) ?_ (by decide)
  rw [modes_endJob]
  exact ⟨hLatch, rfl, hStanding, rfl, hDwell⟩

theorem modes_beginLink (q : Point) (s : State) : (beginLink q s).modes = s.modes := by
  unfold beginLink
  dsimp only
  split
  · exact modes_startPivot s
  · rfl

/-- R73: at the end of a pass the job goes on or ends. -/
theorem fitsAway_endPass (seg : Segment) (h : s.fitsAway)
    (hj : s.job.state = .warmup ∨ s.job.state = .cutting ∨ s.job.state = .holding) : (endPass seg s).fitsAway := by
  unfold endPass
  extract_lets pathEnd u
  have hu : u.fitsAway := fitsAway_of_modes h rfl
  split
  · exact fitsAway_of_modes hu ((modes_beginLink _ _).trans (modes_queueNotice _ u))
  · exact fitsAway_endJob hu.fits hj

/-- R71: at the frontier the job starves or comes to rest. -/
theorem fitsAway_frontierArrival (h : s.fitsAway) (ha : s.interp.active = none) : (frontierArrival s).fitsAway := by
  unfold frontierArrival
  split
  · next hj =>
    have hIdled : (idleRequest s).fitsAway := fitsAway_strokeTo _ h
    exact fitsAway_becomeStarved hIdled.fits (.inl hj) ha
  · next hj =>
    split
    · exact h
    · exact fitsAway_setHeld h.fits hj
  all_goals exact h

/-- R60, R70, R154: a segment is active only on the path and in STOPPING. -/
theorem onPath_of_active (h : s.fits) (hin : s.job.state.inJob = true) (ha : s.interp.active.isSome = true)
    (hn : s.job.state ≠ .stopping) :
    s.job.state = .warmup ∨ s.job.state = .cutting ∨ s.job.state = .holding := by
  have hStarved : s.job.state ≠ .starved := fun hj => by
    have hNone : s.interp.active = none := h.ok.starved hj
    rw [hNone] at ha
    cases ha
  cases hj : s.job.state <;> rw [hj] at hin hn hStarved <;> simp_all [JobState.inJob]

/-- R64, R65: a completion with all its carries. -/
theorem fitsAway_completeSegment (fuel : Nat) (seg : Segment) (past : Nat) (h : s.fitsAway)
    (hin : s.job.state.inJob = true) (ha : s.interp.active.isSome = true) :
    (completeSegment fuel seg past s).fitsAway := by
  induction fuel generalizing seg past s with
  | zero => exact h
  | succ fuel ih =>
    have hr := fitsAway_reportCompletion seg h
    have eModes := modes_reportCompletion seg s
    have eJob : (reportCompletion seg s).job.state = s.job.state := congrArg Modes.job eModes
    have hNone : (reportCompletion seg s).interp.active = none := congrArg Modes.active eModes
    have hPath := onPath_of_active h.fits hin ha
    have hStarved : (reportCompletion seg s).job.state ≠ .starved := by
      rw [eJob]
      intro hj
      rcases hPath (by rw [hj]; decide) with hp | hp | hp <;> rw [hj] at hp <;> cases hp
    have hz : (takeFeedAsZero (reportCompletion seg s)).fitsAway := fitsAway_of_modes hr rfl
    rw [← eJob] at hPath
    unfold completeSegment
    dsimp only
    split
    · split
      · exact hz
      · next hn => exact fitsAway_endJob hz.fits (hPath fun e => hn (decide_eq_true e))
    · split
      · exact hz
      · next hn => exact fitsAway_endPass seg hz (hPath fun e => hn (decide_eq_true e))
    · split
      · exact hz
      · exact fitsAway_frontierArrival (fitsAway_of_modes hr rfl) hNone
    · next next _ =>
      split
      · exact hz
      · exact fitsAway_takeSegment _ next 0 hz hStarved
    · next next _ =>
      have hTaken := fitsAway_takeSegment (reportCompletion seg s).store.execPtr next past hr hStarved
      have eTaken := modes_takeSegment (reportCompletion seg s).store.execPtr next past (reportCompletion seg s)
      split
      · have eSnapped := (modes_snapToEnd next _).trans eTaken
        refine ih _ _ (fitsAway_of_modes hTaken (modes_snapToEnd next _)) ?_ (congrArg Option.isSome
          (congrArg Modes.active eSnapped))
        exact (congrArg JobState.inJob ((congrArg Modes.job eSnapped).trans eJob)).trans hin
      · exact fitsAway_of_modes hTaken (modes_targetSegment next _)

theorem fitsAway_advanceSegment (seg : Segment) (h : s.fitsAway) (hin : s.job.state.inJob = true)
    (ha : s.interp.active.isSome = true) : (advanceSegment seg s).fitsAway := by
  have hp : (s.mapInterp fun n => { n with p := n.p + s.gov.v }).fitsAway := fitsAway_of_modes h rfl
  unfold advanceSegment
  dsimp only
  split
  · exact fitsAway_completeSegment _ seg _ (fitsAway_of_modes hp (modes_snapToEnd seg _)) hin ha
  · split
    · exact hp
    · exact fitsAway_of_modes hp (modes_targetSegment seg _)

theorem fitsAway_countPause (seg : Segment) (h : s.fitsAway) (hin : s.job.state.inJob = true)
    (ha : s.interp.active.isSome = true) : (countPause seg s).fitsAway := by
  have hp : (s.mapInterp fun n => { n with pause := n.pause - 1 }).fitsAway := fitsAway_of_modes h rfl
  unfold countPause
  split
  · exact fitsAway_of_modes h rfl
  · split
    · dsimp only
      split
      · exact fitsAway_completeSegment _ seg 0 hp hin ha
      · exact hp
    · exact h

theorem fitsAway_motionAndEnds (h : s.fitsAway) (hin : s.job.state.inJob = true) : (motionAndEnds s).fitsAway := by
  unfold motionAndEnds
  split
  · split
    · exact fitsAway_of_modes h rfl
    · exact fitsAway_of_modes h rfl
  · split
    · next seg hs =>
      have ha : s.interp.active.isSome = true := by
        unfold activeSegment at hs
        split at hs
        · cases hs
        · next e => rw [e]; rfl
      split
      · exact fitsAway_advanceSegment seg h hin ha
      · exact fitsAway_countPause seg h hin ha
    · split
      · exact h
      · exact fitsAway_of_modes h (modes_advanceLink _ s)

/-- R77: a report of rest; a HOME stops elsewhere (R132). -/
theorem fits_reportRest (h : s.fits) (hh : s.axes.home = none) : (reportRest s).fits := by
  unfold reportRest
  split
  · next hj =>
    split
    · exact (fitsAway_setHeld h hj).fits
    · exact h
  · next hj =>
    split
    · exact fits_controlledStopEnd h hj hh
    · exact h
  all_goals exact h

theorem fits_lowWater (h : s.fits) : (lowWater s).fits :=
  fits_of_keeps' (lowWater_keeps s) (lowWater_mode s) h rfl

/-- R60: the period timer runs only in a job, and not beside a HOME. -/
theorem fits_interpolationExpiry (h : s.fits) (ht : s.interp.timer.isSome = true) : (interpolationExpiry s).fits := by
  have hin : s.job.state.inJob = true := h.ok.period ht
  have hHome : s.axes.home = none := Option.isSome_eq_false_iff.mp (h.ok.apart ht) |> Option.isNone_iff_eq_none.mp
  have hAway : s.fitsAway := ⟨h, fun hj => by rw [hj] at hin; cases hin⟩
  have hIssued : (s.mapAxes fun u => u.each AxisState.issueRest).fitsAway := fitsAway_mapAxes _ hAway rfl rfl rfl
  have hBegun : (beginPeriod s).fitsAway :=
    fitsAway_of_modes hIssued (modes_mapInterp _ _ (ht.symm ▸ rfl) rfl)
  have hOpened := fitsAway_openingTake hBegun
  have eOpened : (openingTake (beginPeriod s)).job = s.job := openingTake_keeps _ .job (by decide)
  have hJudged : (evaluateGovernor (openingTake (beginPeriod s))).fitsAway :=
    fitsAway_of_modes hOpened (modes_of_keeps (evaluateGovernor_keeps _))
  have eJudged : (evaluateGovernor (openingTake (beginPeriod s))).job = s.job :=
    (evaluateGovernor_keeps _ .job (by decide)).trans eOpened
  have hMoved := fitsAway_motionAndEnds hJudged (by rw [eJudged]; exact hin)
  have eHome : (motionAndEnds (evaluateGovernor (openingTake (beginPeriod s)))).axes.home = none := by
    rw [show (motionAndEnds _).axes = _ from motionAndEnds_keeps _ .axes (by decide),
      show (evaluateGovernor _).axes = _ from evaluateGovernor_keeps _ .axes (by decide),
      show (openingTake _).axes = _ from openingTake_keeps _ .axes (by decide)]
    exact hHome
  have hHanded : (handInterpTargets (motionAndEnds (evaluateGovernor (openingTake (beginPeriod s))))).fitsAway :=
    fitsAway_mapAxes _ hMoved rfl rfl rfl
  have hRested := fits_reportRest hHanded.fits eHome
  unfold interpolationExpiry lowWaterAfter
  refine fits_warmupPassage ?_
  split
  · exact fits_lowWater hRested
  · exact hRested

/-! ### The traverse -/

/-- R131: a complete MOVE ends in IDLE. -/
theorem fits_finishMove (h : s.fits) (hj : s.job.state = .motion ∨ s.job.state = .idle) : (finishMove s).fits := by
  unfold finishMove
  split
  · exact h
  · next tr hTraverse =>
    have hMove : s.modes.move = true := congrArg Option.isSome hTraverse
    split
    · rcases hj with hj | hj
      · obtain ⟨hLatch, hPeriod, hOne, hUnheld⟩ := h.inState hj
        exact fits_queueNotice _
          (fits_in (j := .idle) rfl ⟨hLatch, hPeriod, ⟨rfl, hOne hMove, rfl⟩, hUnheld⟩ (by decide))
      · obtain ⟨-, -, ⟨hNone, -⟩, -⟩ := h.inState hj
        exact absurd (hMove.symm.trans hNone) (by decide)
    · exact h

theorem fitsAway_slowMotion (h : s.fitsAway) : (slowMotion s).fitsAway := by
  unfold slowMotion
  extract_lets u
  have hu : u.fitsAway := fitsAway_mapAxes _ h rfl rfl rfl
  split
  · exact hu
  · next tr hTraverse => exact fitsAway_mapAxes _ hu (by rw [hTraverse]; rfl) rfl rfl

theorem fitsAway_advanceMove (h : s.fitsAway) : (advanceMove s).fitsAway := by
  unfold advanceMove
  split
  · exact h
  · next tr hTraverse => exact fitsAway_mapAxes _ h (by rw [hTraverse]; rfl) rfl rfl

theorem endHome_home (s : State) : (endHome s).axes.home = none :=
  Option.isNone_iff_eq_none.mp (Option.isSome_eq_false_iff.mp (congrArg Modes.home (modes_endHome s)))

/-- R132: the end of a HOME under a controlled stop. -/
theorem fits_endHome (h : s.fits) (hj : s.job.state = .stopping) : (endHome s).fits := by
  obtain ⟨hPaced, -, -, hUnheld⟩ := h.inState hj
  have e := modes_endHome s
  refine fits_in (j := .stopping) ((congrArg Modes.job e).trans hj) ?_ (by decide)
  rw [e]
  exact ⟨hPaced, fun _ => rfl, fun _ => rfl, hUnheld⟩

theorem finishHome_state (hj : s.job.state = .motion) :
    (finishHome s).job.state = .motion ∨ (finishHome s).job.state = .idle := by
  unfold finishHome
  split
  · exact .inl hj
  · split
    · exact .inr rfl
    · exact .inl hj

/-- R126: the traverse period timer runs only in MOTION and STOPPING. -/
theorem fits_traverseExpiry (h : s.fits) (ht : s.axes.timer.isSome = true) : (traverseExpiry s).fits := by
  have hj : s.job.state = .motion ∨ s.job.state = .stopping := h.ok.traversing ht
  have hAway : s.fitsAway := ⟨h, by rcases hj with hj | hj <;> rw [hj] <;> decide⟩
  have hb : (beginTraversePeriod s).fitsAway := fitsAway_mapAxes _ hAway rfl rfl (ht.symm ▸ rfl)
  have eb : (beginTraversePeriod s).job = s.job := mapAxes_keeps _ s .job (by decide)
  unfold traverseExpiry
  dsimp only
  generalize beginTraversePeriod s = u at hb eb ⊢
  split
  · next hStopping =>
    have hSlow := fitsAway_slowMotion hb
    have eSlow : (slowMotion u).job.state = .stopping := by
      rw [show (slowMotion u).job = _ from slowMotion_keeps u .job (by decide), hStopping]
    unfold restInMotion
    split
    · refine fits_controlledStopEnd (fits_endHome hSlow.fits eSlow) ?_ (endHome_home _)
      rw [show (endHome _).job = _ from endHome_keeps _ .job (by decide), eSlow]
    · exact hSlow.fits
  · next hn =>
    have hMotion : u.job.state = .motion := by
      rw [eb] at hn ⊢
      exact hj.resolve_right hn
    have hHoming : (advanceHoming u).fitsAway := fitsAway_mapAxes _ hb rfl rfl rfl
    have hMoved := fitsAway_advanceMove hHoming
    have eMoved : (advanceMove (advanceHoming u)).job.state = .motion := by
      rw [show (advanceMove _).job = _ from advanceMove_keeps _ .job (by decide),
        show (advanceHoming u).job = _ from mapAxes_keeps _ u .job (by decide), hMotion]
    exact fits_finishMove (fits_finishHome hMoved.fits) (finishHome_state eMoved)

/-! ### The requests -/

theorem fits_judged {refusal : Option ResultCode} {act : State → State} (h : s.fits)
    (ha : refusal = none → (act s).fits) : (judged refusal act s).1.fits := by
  unfold judged
  split
  · exact h
  · exact ha rfl

theorem fits_receiveError (h : s.fits) : (receiveError s).fits :=
  fits_of_keeps ((setRxFault_keeps _).after (mapLink_keeps Link.hunt s)) h rfl

theorem fits_gapReached (h : s.fits) : (gapReached s).fits := by
  unfold gapReached
  split
  · exact fits_receiveError h
  · exact h

theorem fits_afterSet (before : Int) (p : ParamId) (h : s.fits) : (p.afterSet before s).fits := by
  have hRelock (k : Stroke) : (relock k).state = k.state := by
    unfold relock
    split <;> rfl
  unfold ParamId.afterSet
  split
  · split
    · exact h
    · exact fits_mapStroke h fun hd => by rwa [hRelock]
  · split
    · exact fits_stallReached h
    · exact fits_coastReached h
  · exact fits_spinupFailed h
  · exact fits_dwellReached h
  · exact fits_gapReached h
  · exact fits_filterReached _ h
  · exact h

theorem fits_write (n : Nat) (p : ParamId) (h : s.fits) : (p.write n s).fits := by
  cases p <;> exact fits_of_modes h rfl id

theorem fits_takeSet (id : Byte) (v : Word) (h : s.fits) : (takeSet id v s).1.fits := by
  unfold takeSet
  split
  · exact h
  · exact fits_afterSet _ _ (fits_write _ _ h)

/-- R23: the mode of the window is set in IDLE, where no period timer runs. -/
theorem fits_takeWindow (b e : Half) (m : Byte) (h : s.fits) : (takeWindow b e m s).1.fits := by
  unfold takeWindow
  split
  · exact h
  · next hIdle =>
    have hj : s.job.state = .idle := not_not.mp hIdle
    split
    · exact h
    · split
      · exact h
      · split
        · exact fits_in hj (h.inState hj) (by decide)
        · exact h

theorem fits_takeAppend (body : List Byte) (h : s.fits) : (takeAppend body s).1.fits := by
  unfold takeAppend
  split
  · exact h
  · split
    · exact h
    · exact h
    · next hold _ =>
      show (rejectRecord hold s).fits
      unfold rejectRecord
      split
      · exact fits_holdRequest h
      · exact h
    · exact fits_starvedAcceptance (fits_of_keeps' (acceptRecord_keeps _ s) (acceptRecord_mode _ s) h rfl)

theorem fits_replan (completed : Option Segment) (h : s.fits) : (replan completed s).fits :=
  fits_of_keeps' (replan_keeps completed s) (replan_mode completed s) h rfl

theorem fits_flushPartly (h : s.fits) : (flushPartly s).1.fits := by
  unfold flushPartly
  split
  · exact fits_replan none (fits_of_keeps' (partialFlush_keeps s) (partialFlush_mode s) h rfl)
  · exact h

theorem fits_takeFlush (h : s.fits) : (takeFlush s).1.fits := by
  unfold takeFlush
  split
  · exact fits_replan none (fits_of_keeps' (emptyWindow_keeps s) (emptyWindow_mode s) h rfl)
  · split
    · exact fits_flushPartly h
    · exact h
  · exact fits_flushPartly h
  all_goals exact h

/-- R149: START begins the job in the mode of the Store. -/
theorem fits_beginJob (n : Nat) (x y : Int) (h : s.fits) (hj : s.job.state = .idle) : (beginJob n x y s).fits := by
  obtain ⟨hLatch, -, hStanding, -⟩ := h.inState hj
  have eModes : (replan none s).modes = s.modes := modes_of_keeps' (replan_keeps none s) (replan_mode none s)
  unfold beginJob
  extract_lets u v
  have ev : v.modes = u.modes :=
    modes_of_keeps ((spinUpRequest_keeps _).after (mapGov_keeps _ u).mono (m := [.stroke, .load, .gov]))
  have hBegun : (v.mapInterp (Interp.begin v.axes)).fitsAway := by
    have eBegun : (v.mapInterp (Interp.begin v.axes)).modes =
        { s.modes with
          period := true, job := .warmup, held := false, dwell := false, jobMode := s.store.mode } := by
      show { v.modes with period := true } = _
      rw [ev, ← eModes]
      rfl
    refine fitsAway_in (j := .warmup) (congrArg Modes.job eBegun) ?_ (by decide)
    rw [eBegun]
    exact ⟨hLatch, fun _ => rfl, hStanding, rfl, rfl⟩
  exact fits_warmupPassage (fitsAway_of_modes hBegun (modes_startPivot _)).fits

theorem active_none_of_not_movable (h : movable s = false) : s.interp.active = none := by
  unfold movable at h
  simp only [Bool.or_eq_false_iff] at h
  exact Option.isNone_iff_eq_none.mp (Option.isSome_eq_false_iff.mp h.1.1)

/-- R153: an accepted RESUME. -/
theorem fits_resumeJob (h : s.fits) (hj : s.job.state = .holding) : (resumeJob s).fits := by
  obtain ⟨hLatch, hPaced, hStanding, hDwell⟩ := h.inState hj
  unfold resumeJob
  split
  · split
    · exact fits_warmUp (fitsAway_in (j := .warmup) rfl ⟨hLatch, hPaced, hStanding, rfl, hDwell⟩ (by decide))
    · next hm =>
      have hNone := active_none_of_not_movable (Bool.not_eq_true _ |>.mp hm)
      exact (fitsAway_becomeStarved h (.inr hj) hNone).fits
  · next hn =>
    have hHeld : s.job.held = false := Bool.not_eq_true _ |>.mp hn
    split
    · exact fits_in (j := .cutting) rfl ⟨hLatch, hPaced, hStanding, hHeld, hDwell⟩ (by decide)
    · exact fits_in (j := .warmup) rfl ⟨hLatch, hPaced, hStanding, hHeld, hDwell⟩ (by decide)

/-- R106, R146: an accepted CLEAR empties the latch. -/
theorem fits_clearLatch (h : s.fits) (hj : s.job.state = .fault) : (clearLatch s).fits := by
  obtain ⟨hPeriod, hStanding, hUnheld, -⟩ := h.inState hj
  exact fits_in (j := .idle) rfl ⟨rfl, hPeriod, hStanding, hUnheld⟩ (by decide)

theorem fits_takeAbort (h : s.fits) : (takeAbort s).1.fits := by
  unfold takeAbort
  split
  · exact h
  · exact h
  · exact h
  all_goals exact fits_controlledStop h rfl

theorem fits_beginHome (w : AxisSet) (h : s.fits) (hj : s.job.state = .idle) : (beginHome w s).fits := by
  obtain ⟨hLatch, hPeriod, ⟨hMove, -⟩, hUnheld⟩ := h.inState hj
  have hNoMove : s.modes.move ≠ true := fun hm => absurd (hm.symm.trans hMove) (by decide)
  exact fits_in (j := .motion) rfl ⟨hLatch, hPeriod, fun hm => absurd hm hNoMove, hUnheld⟩ (by decide)

theorem fits_beginMove (x y : Int) (c : Nat) (h : s.fits) (hj : s.job.state = .idle) : (beginMove x y c s).fits := by
  obtain ⟨hLatch, hPeriod, ⟨-, hHome, -⟩, hUnheld⟩ := h.inState hj
  exact fits_in (j := .motion) rfl ⟨hLatch, hPeriod, fun _ => hHome, hUnheld⟩ (by decide)

/-- R158: BLADE is taken in IDLE only. -/
theorem fits_takeBlade (v : Byte) (h : s.fits) : (takeBlade v s).1.fits := by
  unfold takeBlade
  split
  · exact h
  · next hIdle =>
    have hAway : s.fitsAway := fitsAway_in (not_not.mp hIdle) (h.inState (not_not.mp hIdle)) (by decide)
    split
    · exact (fitsAway_strokeTo _ hAway).fits
    · exact (fitsAway_strokeTo _ hAway).fits
    · exact (fitsAway_strokeTo _ hAway).fits
    · exact h

/-- R165: what a block does with a request it takes. -/
theorem fits_block {i : Instr} {take : State → State × Mark} (ht : requestTake i = some take) (h : s.fits) :
    (take s).1.fits := by
  cases i
  case get id =>
    injection ht with ht
    subst ht
    unfold takeGet
    split <;> exact h
  case slot index =>
    injection ht with ht
    subst ht
    unfold takeSlot
    split <;> exact h
  case set id v => injection ht with ht; exact ht ▸ fits_takeSet id v h
  case window b e m => injection ht with ht; exact ht ▸ fits_takeWindow b e m h
  case append body => injection ht with ht; exact ht ▸ fits_takeAppend body h
  case flush => injection ht with ht; exact ht ▸ fits_takeFlush h
  case start n x y =>
    injection ht with ht
    exact ht ▸ fits_judged h fun e => fits_beginJob _ _ _ h (idle_of_startRefusal e)
  case hold => injection ht with ht; exact ht ▸ fits_judged h fun _ => fits_holdRequest h
  case resume =>
    injection ht with ht
    exact ht ▸ fits_judged h fun e => fits_resumeJob h (holding_of_resumeRefusal e)
  case abort => injection ht with ht; exact ht ▸ fits_takeAbort h
  case clear =>
    injection ht with ht
    exact ht ▸ fits_judged h fun e => fits_clearLatch h (fault_of_clearRefusal e)
  case home axes =>
    injection ht with ht
    exact ht ▸ fits_judged h fun e => fits_beginHome _ h (idle_of_homeRefusal e)
  case move x y c =>
    injection ht with ht
    exact ht ▸ fits_judged h fun e => fits_beginMove _ _ _ h (idle_of_moveRefusal e)
  case blade v => injection ht with ht; exact ht ▸ fits_takeBlade v h
  case sample => injection ht with ht; exact ht ▸ fits_mapLoad (fun m => m.powerUp.startConversion true) h
  case reset => injection ht with ht; exact ht ▸ fits_mapLink (fun l => { l with stopped := true }) h
  case ident => injection ht with ht; exact ht ▸ h
  case status => injection ht with ht; exact ht ▸ h
  all_goals cases ht

theorem appendRequest_keeps (kind : Byte) (body : List Byte) (s : State) :
    Keeps [.link] s (appendRequest kind body s) :=
  .ite (mapLink_keeps _ s) (setRxFault_keeps s)

theorem fits_answerNext {i : Instr} {take : State → State × Mark} (ht : requestTake i = some take) (h : s.fits) :
    (answerNext take s).fits := by
  unfold answerNext
  exact fits_mapLink _ (fits_block ht h)

/-- R165: a request row keeps what its block keeps. -/
theorem fits_takeRequest {i : Instr} {take : State → State × Mark} (ht : requestTake i = some take) (h : s.fits) :
    (takeRequest i take s).fits := by
  unfold takeRequest
  split
  · exact h
  · next kind body _ =>
    extract_lets u
    have hu : u.fits := fits_of_keeps (Keeps.ite (.refl [.link] s) (appendRequest_keeps kind body s)) h rfl
    split
    · exact fits_answerNext ht hu
    · exact hu

/-- R165: a request that arrives in a frame. -/
theorem fits_arriveRequest (kind : Byte) (body : List Byte) (h : s.fits) : (arriveRequest kind body s).fits := by
  have ha := fits_of_keeps (appendRequest_keeps kind body s) h rfl
  unfold arriveRequest handDue
  split
  · split
    · exact ha
    · split
      · exact ha
      · next ht => exact fits_answerNext ht ha
  · exact fits_mapLink _ h

/-! ### The line -/

/-- What the receiver makes of `s` is `t`: a change of the Link, after which a request may have arrived (R160 to R162).
-/
def State.received (s t : State) : Prop :=
  Keeps [.link] s t ∨ ∃ kind body u, Keeps [.link] s u ∧ t = arriveRequest kind body u

/-- The receiver may first have changed the Link. -/
theorem State.received.after {u : State} (h : u.received t) (k : Keeps [.link] s u) : s.received t := by
  rcases h with h | ⟨kind, body, v, hv, rfl⟩
  · exact .inl (h.after k)
  · exact .inr ⟨kind, body, v, hv.after k, rfl⟩

theorem fits_received (h : s.fits) (hr : s.received t) : t.fits := by
  rcases hr with k | ⟨kind, body, u, k, rfl⟩
  · exact fits_of_keeps k h rfl
  · exact fits_arriveRequest kind body (fits_of_keeps k h rfl)

theorem receiveError_keeps (s : State) : Keeps [.link] s (receiveError s) :=
  (setRxFault_keeps _).after (mapLink_keeps Link.hunt s)

theorem completeFrame_received (kind : Byte) (body : List Byte) (s : State) :
    s.received (completeFrame kind body s) := by
  unfold completeFrame
  dsimp only
  split
  · exact .inr ⟨kind, body, _, mapLink_keeps _ s, rfl⟩
  · exact .inl (receiveError_keeps s)

theorem takeFrameByte_received (b : Byte) (s : State) : s.received (takeFrameByte b s) := by
  unfold takeFrameByte
  split
  · exact .inl (.refl _ s)
  · exact .inl (.ite (mapLink_keeps _ s) (receiveError_keeps s))
  · exact .inl (mapLink_keeps _ s)
  · split
    · exact .inl (receiveError_keeps s)
    · split
      · exact completeFrame_received _ _ s
      · exact .inl (receiveError_keeps s)

theorem frameByte_received (b : Byte) (s : State) : s.received (frameByte b s) := by
  unfold frameByte
  split
  · exact .inl ((mapLink_keeps _ _).after (receiveError_keeps s))
  · split
    · split
      · exact (takeFrameByte_received _ _).after (mapLink_keeps _ s)
      · exact .inl (receiveError_keeps s)
    · split
      · exact .inl (mapLink_keeps _ s)
      · exact (takeFrameByte_received _ _).after (mapLink_keeps _ s)

theorem receiveByte_received (b : Byte) (stopHigh : Bool) (s : State) : s.received (receiveByte b stopHigh s) := by
  unfold receiveByte huntByte
  split
  · split
    · exact .inl (mapLink_keeps _ s)
    · split
      · exact .inl (mapLink_keeps _ s)
      · split
        · exact .inl (.ite (mapLink_keeps _ s) (.refl _ s))
        · exact frameByte_received b s
  · exact .inl (.ite (.refl _ s) (receiveError_keeps s))

theorem beginNotice_keeps (s : State) : Keeps [.link] s (beginNotice s) := by
  unfold beginNotice
  split
  · exact .refl _ s
  · exact (mapLink_keeps _ _).after (mapLink_keeps _ s)

theorem txStart_keeps (s : State) : Keeps [.link] s (txStart s) := by
  unfold txStart chooseFrame
  refine .ite ?_ (.refl _ s)
  split
  · exact beginNotice_keeps s
  · split
    · exact mapLink_keeps _ s
    · exact beginNotice_keeps s
    · exact beginNotice_keeps s

/-- R21, R59, R93, R121, R134, R147: after a reset nothing is in progress. -/
theorem fits_resetTo (rate : LineRate) (straps : BitVec 2) (s : State) : (s.resetTo rate straps).fits :=
  fits_of_modesOk (resetTo_modesOk rate straps s) fun hj => ((resetTo_faultOk rate straps s) hj).1

theorem fits_txEnd (h : s.fits) : (txEnd s).fits := by
  unfold txEnd
  split
  · exact h
  · split
    · split
      · exact fits_resetTo _ _ s
      · exact fits_of_keeps (txStart_keeps _) (fits_mapLink _ h) rfl
    · exact h

/-! ### Every command -/

theorem fits_elapse (us : Nat) (h : s.fits) : (elapse us s).fits :=
  fits_of_modes h (modes_elapse us s) id

/-- R122: a step issued leaves an axis without steps as it is. -/
theorem fits_stepIssued (a : Axis) (h : s.fits) : (s.mapAxes fun u => u.update a (AxisState.issueOne a)).fits := by
  by_cases hj : s.job.state = .fault
  · obtain ⟨hPeriod, hStanding, hUnheld, hStill⟩ := h.inState hj
    refine fits_inFault hj ?_ (h.undriven hj)
    rw [modes_mapAxes _ s (by rw [update_traverse]) (by rw [update_home]) (by rw [update_timer])]
    refine ⟨hPeriod, hStanding, hUnheld, fun b => ?_⟩
    rw [get_update]
    split
    · unfold AxisState.issueOne
      rw [if_pos (hStill a)]
      exact hStill a
    · exact hStill b
  · exact (fitsAway_mapAxes _ ⟨h, hj⟩ (by rw [update_traverse]) (by rw [update_home]) (by rw [update_timer])).fits

/-- Every command keeps what the job state goes with. -/
theorem fits_exec (i : Instr) (h : s.fits) (he : exec i s = .next t) : t.fits := by
  have next_of : ∀ {u}, Host.Outcome.next (φ := Fault) (ρ := Refusal) u = .next t → u.fits → t.fits := by
    intro u e hu
    injection e with e
    exact e ▸ hu
  cases i with
  | hardwareReset straps => exact next_of he (fits_resetTo _ _ s)
  | frameReceived kind body => exact next_of he (fits_received h (completeFrame_received kind body s))
  | gapTimerExpiry => exact next_of he (fits_gapReached h)
  | holdFlowMark => exact next_of he (fits_mapLink _ h)
  | goFlowMark => exact next_of he (fits_mapLink _ h)
  | txFrameStart => exact next_of he (fits_of_keeps (txStart_keeps s) h rfl)
  | txFrameEnd => exact next_of he (fits_txEnd h)
  | flowMarkSend => exact next_of he (fits_mapLink _ h)
  | interpolationPeriodExpiry =>
    refine next_of he ?_
    split
    · next ht => exact fits_interpolationExpiry h ht
    · exact h
  | indexArrival now => exact next_of he (fits_indexTaken now (fits_elapse _ h))
  | spinupTimerExpiry => exact next_of he (fits_spinupFailed h)
  | stallTimerExpiry => exact next_of he (fits_stallReached h)
  | coastTimerExpiry => exact next_of he (fits_coastReached h)
  | phaseDelayExpiry => exact next_of he (fits_of_keeps (.ite (mapLoad_keeps _ s) (.refl _ s)) h rfl)
  | settlingComplete =>
    refine next_of he ?_
    unfold settled
    split
    · exact fits_of_keeps (.ite (mapLoad_keeps _ s) (.refl _ s)) h rfl
    · exact h
    · exact h
  | measuringComplete code => exact next_of he (fits_measured _ h)
  | inputRawChange i active => exact next_of he (fits_rawChange i active h)
  | filterTimerExpiry i => exact next_of he (fits_filterReached i h)
  | traversePeriodExpiry =>
    refine next_of he ?_
    split
    · next ht => exact fits_traverseExpiry h ht
    · exact h
  | starveDwellExpiry => exact next_of he (fits_dwellReached h)
  | receivedByte b stopHigh => exact next_of he (fits_received h (receiveByte_received b stopHigh s))
  | stepIssued a => exact next_of he (fits_stepIssued a h)
  | _ => exact next_of he (fits_takeRequest rfl h)

/-- Every step keeps what the job state goes with: a command does, and so does the passing of time. -/
theorem fits_step (h : s.fits) (he : step s = .next t) : t.fits := by
  unfold step at he
  split at he
  · unfold idleStep at he
    split at he
    · exact fits_exec _ h he
    · injection he with he
      exact he ▸ fits_elapse 1 h
  · next c rest _ => exact fits_exec c (s := { s with pending := rest }) (fits_of_modes h rfl id) he

/-! ### The duty -/

theorem bladeOk_iff (s : State) : s.bladeOk ↔ s.stroke.ok ∧ s.params.startDuty ≤ 1000 := by
  constructor
  · intro h
    exact ⟨⟨h.undriven, h.atRest, h.spinup, h.duty, h.cycle, h.rate⟩, h.startDuty⟩
  · rintro ⟨h, hStart⟩
    exact ⟨h.undriven, h.atRest, h.spinup, h.duty, h.cycle, h.rate, hStart⟩

theorem setPolicy_startDuty (cls : GeometryClass) (a : PolicyAction) (q : Params) :
    (q.setPolicy cls a).startDuty = q.startDuty := by
  cases cls <;> rfl

/-- Only a SET of START_DUTY touches the parameter the blade's condition looks at. -/
theorem stable_blade : Stable fun s => s.stroke.ok ∧ s.params.startDuty ≤ 1000 where
  free _ h := h
  store _ _ h _ := h
  planner _ _ h _ := h
  interp _ _ h := h
  gov _ _ h _ := h
  stroke _ _ h hf := ⟨hf h.2 h.1, h.2⟩
  load _ _ h _ := h
  axes _ _ h _ := h
  guard _ _ h _ := h
  job _ _ h := h
  link _ _ h _ _ _ := h
  set _ p v h _ _ := by
    cases p
    case startDuty => exact ⟨h.1, clamp_toNat_le _⟩
    case policy => exact ⟨h.1, (setPolicy_startDuty _ _ _).le.trans h.2⟩
    all_goals exact h
  pending _ _ h := h
  timeBase _ _ h := h
  reset s rate straps _ := (bladeOk_iff _).mp (resetTo_bladeOk rate straps s)
  queues _ _ h _ _ := h

/-- Settles O57: every step keeps what the job state goes with, and the blade's condition makes the duty of a blade that
is not driven 0. -/
theorem modesKept : Obligations.ModesKept := by
  intro s t hBlade hModes hFault he
  have ht : t.fits := fits_step (fits_of_modesOk hModes fun hj => (hFault hj).1) he
  have hDuty : t.stroke.ok := (stable_blade.step ((bladeOk_iff s).mp hBlade) he).1
  refine ⟨(modesOk_iff t).mpr ht.ok, fun hj => ?_⟩
  exact ⟨ht.undriven hj, hDuty.undriven (ht.undriven hj)⟩

end Sys2Proof.Machine

namespace Sys2Proof.Machine

/-! ## Where the head stands, pivots or links (R60, R66 to R69, R74, R77, R86) -/

/-! ### An expiry that ends no segment -/

/-- The Governor of an evaluation that yields no feed (R86). -/
def Governor.noFeed : Governor where
  v := 0
  vprev := 0
  stage := .zero
  vreq := 0
  vplan := 0
  vstroke := 0

/-- R86: barred, or with nothing to move along, the Governor yields no feed. -/
theorem evaluateGovernor_noFeed {s : State} (h : feedBarred s = true ∨ pathInput s = none) :
    (evaluateGovernor s).gov = .noFeed := by
  have hNone : (if feedBarred s then none else pathInput s) = none := by
    rcases h with h | h
    · exact if_pos h
    · rw [h, ite_self]
  unfold evaluateGovernor
  rw [hNone]
  rfl

/-- An expiry of `s` leaves `t`, with the Interpolator `n` and the Governor `g`: the active segment has not ended, the
targets of `n` are handed on, and the job, the blade and the low-water flag are as the reports of an expiry leave them. -/
structure StoodTo (s : State) (n : Interp) (g : Governor) (t : State) : Prop where
  exec : exec .interpolationPeriodExpiry s = .next t
  keeps : Keeps [.store, .interp, .gov, .axes, .link, .job, .stroke, .load] s t
  gov : t.gov = g
  stood : s.stoodIn t
  interp : t.interp = n
  handed : Axes.handed s.params n.targetX n.targetY n.targetC s.axes t.axes

/-- R60: an expiry that takes nothing at its opening. -/
theorem exec_opened {s : State} (ht : s.interp.timer.isSome = true)
    (hOpen : openingTake (beginPeriod s) = beginPeriod s) :
    exec .interpolationPeriodExpiry s = .next (expiryTail (handInterpTargets (motionAndEnds (atEvaluation s)))) := by
  rw [exec_interpolationExpiry ht]
  unfold interpolationExpiry expiryTail
  rw [hOpen, evaluated_eq]
  rfl

/-- R38, R69: the reports of an expiry in STARVED move nothing. -/
theorem expiryTail_starved {s u : State} (hj : s.job.state = .starved) (k : Keeps [.axes, .interp, .gov] s u) :
    s.stoodIn (expiryTail u) := by
  have eJob : u.job = s.job := k .job (by decide)
  have eStroke : u.stroke = s.stroke := k .stroke (by decide)
  have eLink : u.link = s.link := k .link (by decide)
  have eStore : u.store = s.store := k .store (by decide)
  have kLow := lowWater_keeps u
  obtain ⟨hRequests, hMarks, -⟩ := lowWater_queues u
  have hRests : ¬(s.job.state = .holding ∧ s.job.held = false ∧ (lowWater u).gov.v = 0 ∧
      (lowWater u).interp.pivot = 0) := fun h => nomatch hj.symm.trans h.1
  have hPasses : ¬(s.job.state = .warmup ∧ s.stroke.state = .run ∧ (lowWater u).interp.startPending = false) :=
    fun h => nomatch hj.symm.trans h.1
  have tStroke : (lowWater u).stroke = s.stroke := (kLow .stroke (by decide)).trans eStroke
  rw [expiryTail_running (.inr (by rw [eJob, hj]))]
  refine ⟨?_, ?_, ?_, fun h => absurd h hRests, ?_, hRequests.trans (congrArg Link.requests eLink),
    hMarks.trans (congrArg Link.marks eLink)⟩
  · rw [if_neg hRests, if_neg hPasses]
    exact (kLow .job (by decide)).trans eJob
  · rw [if_neg hRests]
    exact tStroke
  · rw [tStroke, told_same]
    exact (kLow .load (by decide)).trans (k .load (by decide))
  · rw [lowWater_store, eStore]

/-- R60: an expiry whose motion, `y`, changes the Interpolator and the Governor and keeps the active segment. -/
theorem expiry_stood {s y : State} (ht : s.interp.timer.isSome = true)
    (hOpen : openingTake (beginPeriod s) = beginPeriod s)
    (hj : s.job.state = .warmup ∨ s.job.state = .cutting ∨ s.job.state = .holding ∨ s.job.state = .starved)
    (hMotion : motionAndEnds (atEvaluation s) = y) (k : Keeps [.interp, .gov] (atEvaluation s) y)
    (ha : y.interp.active = s.interp.active) : ∃ t, StoodTo s y.interp y.gov t := by
  have kEval : Keeps [.axes, .interp, .gov] s (atEvaluation s) := by
    intro b hb
    cases b <;> first | rfl | simp at hb
  have kHanded : Keeps [.axes, .interp, .gov] s (handInterpTargets y) :=
    (handInterpTargets_keeps y).after (k.after kEval)
  have eJob : (handInterpTargets y).job = s.job := kHanded .job (by decide)
  have kTail := expiryTail_keeps (s := handInterpTargets y) (by
    rw [eJob]
    rcases hj with h | h | h | h <;> rw [h] <;> decide)
  have eInterp : (expiryTail (handInterpTargets y)).interp = y.interp := kTail .interp (by decide)
  have hStood : s.stoodIn (expiryTail (handInterpTargets y)) := by
    rcases hj with h | h | h | h
    · exact expiryTail_stood (.inl h) kHanded ha
    · exact expiryTail_stood (.inr (.inl h)) kHanded ha
    · exact expiryTail_stood (.inr (.inr h)) kHanded ha
    · exact expiryTail_starved h kHanded
  refine ⟨expiryTail (handInterpTargets y), ?_, kTail.after kHanded.mono, kTail .gov (by decide), hStood,
    eInterp, ?_⟩
  · rw [exec_opened ht hOpen, hMotion]
  · rw [← eInterp]
    exact handed_of (k .axes (by decide)) (k .params (by decide)) kTail

theorem onPath_or_starved {j : JobState} (h : j = .warmup ∨ j = .cutting ∨ j = .holding) :
    j = .warmup ∨ j = .cutting ∨ j = .holding ∨ j = .starved := by
  rcases h with h | h | h
  · exact .inl h
  · exact .inr (.inl h)
  · exact .inr (.inr (.inl h))

theorem onPath_ne_stopping {j : JobState} (h : j = .warmup ∨ j = .cutting ∨ j = .holding) : j ≠ .stopping := by
  rcases h with rfl | rfl | rfl <;> decide

/-! ### Pivots (R66) -/

/-- R66: where one step of a pivot leads. -/
theorem stepPivot_targetC (rate : Nat) (n : Interp) :
    ((n.stepPivot rate).targetC : Int) =
      (if n.pivotNeg then (n.targetC : Int) - min rate n.pivot else n.targetC + min rate n.pivot) % 36000 := by
  unfold Interp.stepPivot
  rw [mod36000_cast]

theorem feedBarred_of_pivot {s : State} (hp : 0 < s.interp.pivot) : feedBarred s = true := by
  unfold feedBarred
  simp [hp]

/-- R66, R86: an expiry with a pivot in progress. -/
theorem expiry_pivots {s : State} (ht : s.interp.timer.isSome = true) (hp : 0 < s.interp.pivot)
    (hj : s.job.state = .warmup ∨ s.job.state = .cutting ∨ s.job.state = .holding) :
    ∃ t, StoodTo s (({ s.interp with timer := some 0 } : Interp).stepPivot s.params.pivotRate) .noFeed t := by
  have hMotion : motionAndEnds (atEvaluation s) =
      (atEvaluation s).mapInterp (Interp.stepPivot s.params.pivotRate) :=
    (if_pos hp).trans (if_neg (onPath_ne_stopping hj))
  rw [← evaluateGovernor_noFeed (.inl (feedBarred_of_pivot hp))]
  exact expiry_stood ht (openingTake_none (.inr (.inr (.inr (Nat.ne_of_gt hp))))) (onPath_or_starved hj) hMotion
    (mapInterp_keeps _ _).mono rfl

/-- R66, R70: in STOPPING a pivot is halted where it stands, and the controlled stop ends (log entry 12). -/
theorem expiry_haltsPivot {s : State} (ht : s.interp.timer.isSome = true) (hp : 0 < s.interp.pivot)
    (hj : s.job.state = .stopping) : ∃ t,
    exec .interpolationPeriodExpiry s = .next t ∧ t.interp.pivot = 0 ∧ t.interp.targetC = s.interp.targetC ∧
    t.gov.v = 0 := by
  have hZero : (evaluateGovernor s).gov.v = 0 :=
    congrArg Governor.v (evaluateGovernor_noFeed (.inl (feedBarred_of_pivot hp)))
  have hMotion : motionAndEnds (atEvaluation s) = (atEvaluation s).mapInterp fun n => { n with pivot := 0 } :=
    (if_pos hp).trans (if_pos hj)
  obtain ⟨x, hX⟩ : ∃ x, x = handInterpTargets (motionAndEnds (atEvaluation s)) := ⟨_, rfl⟩
  have hStops : expiryTail x = controlledStopEnd x :=
    expiryTail_stopped (by rw [hX, hMotion]; exact hj) (by rw [hX, hMotion]; exact hZero)
  obtain ⟨-, -, hInterp, hGov, -⟩ := controlledStopEnd_parts x
  refine ⟨controlledStopEnd x, ?_, ?_, ?_, ?_⟩
  · rw [exec_expiry ht (.inr (.inr (.inr (Nat.ne_of_gt hp)))), ← hX, hStops]
  · rw [hInterp]
    rfl
  · rw [hInterp, hX, hMotion]
    rfl
  · rw [hGov, hX, hMotion]
    exact hZero

/-! ### An active PAUSE (R68) -/

theorem activeSegment_of_slot {s : State} {i : Nat} {sl : Slot} (ha : s.interp.active = some i)
    (hs : s.store.slot i = some sl) : activeSegment s = some sl.seg := by
  unfold activeSegment
  rw [ha]
  dsimp only
  rw [hs]
  rfl

theorem activeSegment_none {s : State} (ha : s.interp.active = none) : activeSegment s = none := by
  unfold activeSegment
  rw [ha]

/-- R78: a PAUSE gives the Governor nothing to move along. -/
theorem pathInput_pause {s : State} {seg : Segment} (ha : activeSegment s = some seg) (hm : seg.kind.moving = false) :
    pathInput s = none := by
  unfold pathInput
  rw [ha]
  dsimp only
  rw [if_neg (by rw [hm]; exact Bool.false_ne_true)]

/-- What is left of a PAUSE after an expiry: 1 ms less in a job that cuts (`State.cuts`), and as much elsewhere (R68). -/
def State.pauseLeft (s : State) : Nat :=
  if s.job.state = .cutting ∨ (s.job.state = .holding ∧ s.job.held = false) then s.interp.pause - 1
  else s.interp.pause

/-- R68: a PAUSE short of its end counts down or is frozen. -/
theorem countPause_short {s : State} (seg : Segment) (hj : s.job.state ≠ .stopping)
    (hc : s.cuts → 1 < s.interp.pause) :
    countPause seg s = s.mapInterp fun n => { n with pause := s.pauseLeft } := by
  have hCounts : (s.job.state = .cutting || (s.job.state = .holding && !s.job.held)) = true ↔ s.cuts := by
    unfold State.cuts
    simp
  unfold countPause
  rw [if_neg hj]
  by_cases h : s.cuts
  · have hPause : s.pauseLeft = s.interp.pause - 1 := if_pos h
    have hLeft : ¬s.interp.pause - 1 = 0 := by
      have := hc h
      omega
    rw [if_pos (hCounts.mpr h), hPause]
    exact if_neg hLeft
  · have hPause : s.pauseLeft = s.interp.pause := if_neg h
    rw [if_neg (mt hCounts.mp h), hPause]
    rfl

/-- R68, R77: an expiry of an active PAUSE that does not end it. -/
theorem expiry_pauses {i : Nat} {sl : Slot} {s : State} (ht : s.interp.timer.isSome = true)
    (ha : s.interp.active = some i) (hs : s.store.slot i = some sl) (hm : sl.seg.kind.moving = false)
    (hp : s.interp.pivot = 0) (hj : s.job.state = .warmup ∨ s.job.state = .cutting ∨ s.job.state = .holding)
    (hc : s.cuts → 1 < s.interp.pause) :
    ∃ t, StoodTo s { s.interp with timer := some 0, pause := s.pauseLeft } .noFeed t := by
  have hMotion : motionAndEnds (atEvaluation s) =
      (atEvaluation s).mapInterp fun n => { n with pause := s.pauseLeft } := by
    unfold motionAndEnds
    rw [if_neg (show ¬0 < (atEvaluation s).interp.pivot from Nat.not_lt.mpr hp.le), activeSegment_atEvaluation ha hs]
    dsimp only
    rw [if_neg (by rw [hm]; exact Bool.false_ne_true)]
    exact countPause_short (s := atEvaluation s) sl.seg (onPath_ne_stopping hj) hc
  have hOpen : openingTake (beginPeriod s) = beginPeriod s :=
    openingTake_none (.inr (.inl (show s.interp.active.isSome = true by rw [ha]; rfl)))
  rw [← evaluateGovernor_noFeed (.inr (pathInput_pause (activeSegment_of_slot ha hs) hm))]
  exact expiry_stood ht hOpen (onPath_or_starved hj) hMotion (mapInterp_keeps _ _).mono rfl

/-! ### Nothing to move along, or barred from it (R69) -/

/-- The head is on a moving segment or on a link move, short of its end. -/
def State.onTheWay (s : State) : Prop :=
  (∃ i sl, s.interp.active = some i ∧ s.store.slot i = some sl ∧ sl.seg.kind.moving = true ∧
    s.interp.p < sl.seg.length * 1000) ∨
  ∃ lk, s.interp.active = none ∧ s.interp.link = some lk ∧ s.interp.p < lk.length * 1000

/-- The head has nothing to move along, or is barred from what it is on (R69). -/
def State.stands (s : State) : Prop :=
  (s.interp.active = none ∧ s.interp.link = none) ∨ (feedBarred s = true ∧ s.onTheWay)

/-- R60, R69: a head that stands, with no pivot and no feed, is not moved. -/
theorem motionAndEnds_stands {s : State} (hp : s.interp.pivot = 0) (hv : s.gov.v = 0) (h : s.stands) :
    motionAndEnds s = s := by
  have hStill : (s.mapInterp fun n => { n with p := n.p + s.gov.v }) = s := by
    rw [hv]
    rfl
  unfold motionAndEnds
  rw [if_neg (by omega)]
  rcases h with ⟨ha, hl⟩ | ⟨hBarred, ⟨i, sl, ha, hs, hm, hShort⟩ | ⟨lk, ha, hl, hShort⟩⟩
  · rw [activeSegment_none ha]
    dsimp only
    rw [hl]
  · rw [activeSegment_of_slot ha hs]
    dsimp only
    rw [if_pos hm]
    unfold advanceSegment
    rw [hStill]
    dsimp only
    rw [if_neg (by omega), if_pos hBarred]
  · rw [activeSegment_none ha]
    dsimp only
    rw [hl]
    dsimp only
    unfold advanceLink
    rw [hStill]
    dsimp only
    rw [if_neg (by omega), if_pos hBarred]

theorem feedBarred_of_state {s : State}
    (hj : s.job.state = .warmup ∨ (s.job.state = .holding ∧ s.job.held = true)) : feedBarred s = true := by
  unfold feedBarred
  rcases hj with h | ⟨h, hh⟩
  · simp [h]
  · simp [h, hh]

theorem pathInput_nothing {s : State} (ha : s.interp.active = none) (hl : s.interp.link = none) :
    pathInput s = none := by
  unfold pathInput
  rw [activeSegment_none ha]
  dsimp only
  rw [hl]

/-- R60, step 1: a slot that is not PLANNED is not taken. -/
theorem openingTake_unplanned {s : State}
    (h : ∀ sl, s.store.slot s.store.execPtr = some sl → sl.state ≠ .planned) : openingTake s = s := by
  have hNone : nextPlanned s = none := by
    unfold nextPlanned
    split
    · rfl
    · next sl hs => exact if_neg (h sl hs)
  unfold openingTake
  rw [hNone, ite_self]

/-- R69, R77, R86: an expiry in which the head stands with its targets. -/
theorem expiry_stands {s : State} (ht : s.interp.timer.isSome = true) (hp : s.interp.pivot = 0)
    (hOpen : openingTake (beginPeriod s) = beginPeriod s)
    (hj : s.job.state = .warmup ∨ s.job.state = .cutting ∨ s.job.state = .holding ∨ s.job.state = .starved)
    (h : s.stands) : ∃ t, StoodTo s { s.interp with timer := some 0 } .noFeed t := by
  have hZero : (evaluateGovernor s).gov = .noFeed := by
    rcases h with ⟨ha, hl⟩ | ⟨hBarred, -⟩
    · exact evaluateGovernor_noFeed (.inr (pathInput_nothing ha hl))
    · exact evaluateGovernor_noFeed (.inl hBarred)
  have hMotion : motionAndEnds (atEvaluation s) = atEvaluation s :=
    motionAndEnds_stands (s := atEvaluation s) hp (congrArg Governor.v hZero) h
  rw [← hZero]
  exact expiry_stood ht hOpen hj hMotion (.refl _ _) rfl

/-! ### Link moves (R67, R74) -/

/-- The state at the end of a link move, before its start pivot (R74). -/
def State.linkEnd (lk : LinkMove) (s : State) : State :=
  (takeFeedAsZero (targetPoint lk.stopAt s.movedOn)).mapInterp fun n => { n with link := none, p := 0 }

section
variable {lk : LinkMove} {s : State}

theorem motionAndEnds_link (hp : s.interp.pivot = 0) (ha : s.interp.active = none) (hl : s.interp.link = some lk) :
    motionAndEnds s = advanceLink lk s := by
  unfold motionAndEnds
  rw [if_neg (by omega), activeSegment_none ha]
  dsimp only
  rw [hl]

/-- R74: a link move gone on along. -/
theorem advanceLink_short (hc : s.cuts) (hp : s.interp.pivot = 0)
    (hShort : s.interp.p + (evaluateGovernor s).gov.v < lk.length * 1000) :
    advanceLink lk (atEvaluation s) =
      targetPoint (alongLine lk.startAt lk.stopAt lk.length (s.interp.p + (evaluateGovernor s).gov.v)) s.movedOn := by
  have hFed : ¬feedBarred s.movedOn = true := by
    rw [feedBarred_false (s := s.movedOn) (.inl hc) hp]
    exact Bool.false_ne_true
  exact (if_neg (Nat.not_le.mpr hShort)).trans (if_neg hFed)

/-- R67, R74: at the end of a link move the start pivot is begun. -/
theorem advanceLink_ends (hj : s.job.state ≠ .stopping)
    (hEnds : lk.length * 1000 ≤ s.interp.p + (evaluateGovernor s).gov.v) :
    advanceLink lk (atEvaluation s) = startPivot (s.linkEnd lk) :=
  (if_pos hEnds).trans (if_neg hj)

/-- R74, R77: an expiry on a link move in a job that cuts, whatever the move leads to. -/
theorem expiry_onLink {y : State} (ht : s.interp.timer.isSome = true) (hc : s.cuts) (ha : s.interp.active = none)
    (hl : s.interp.link = some lk) (hp : s.interp.pivot = 0) (hMove : advanceLink lk (atEvaluation s) = y)
    (k : Keeps [.interp, .gov] (atEvaluation s) y) (hActive : y.interp.active = s.interp.active) :
    ∃ t, StoodTo s y.interp y.gov t := by
  have hj : s.job.state = .warmup ∨ s.job.state = .cutting ∨ s.job.state = .holding :=
    .inr (hc.imp_right And.left)
  have hOpen : openingTake (beginPeriod s) = beginPeriod s :=
    openingTake_none (.inr (.inr (.inl (show s.interp.link.isSome = true by rw [hl]; rfl))))
  exact expiry_stood ht hOpen (onPath_or_starved hj)
    ((motionAndEnds_link (s := atEvaluation s) hp ha hl).trans hMove) k hActive

theorem expiry_linkGoesOn (ht : s.interp.timer.isSome = true) (hc : s.cuts) (ha : s.interp.active = none)
    (hl : s.interp.link = some lk) (hp : s.interp.pivot = 0)
    (hShort : s.interp.p + (evaluateGovernor s).gov.v < lk.length * 1000) :
    ∃ t, StoodTo s
      (targetPoint (alongLine lk.startAt lk.stopAt lk.length (s.interp.p + (evaluateGovernor s).gov.v))
        s.movedOn).interp
      (evaluateGovernor s).gov t :=
  expiry_onLink ht hc ha hl hp (advanceLink_short hc hp hShort)
    ((targetPoint_keeps _ _).after (movedOn_keeps s).mono) rfl

theorem startPivot_gov (s : State) : (startPivot s).gov = s.gov :=
  startPivot_keeps s .gov (by decide)

theorem startPivot_active (s : State) : (startPivot s).interp.active = s.interp.active :=
  congrArg Modes.active (modes_startPivot s)

theorem expiry_linkEnds (ht : s.interp.timer.isSome = true) (hc : s.cuts) (ha : s.interp.active = none)
    (hl : s.interp.link = some lk) (hp : s.interp.pivot = 0)
    (hEnds : lk.length * 1000 ≤ s.interp.p + (evaluateGovernor s).gov.v) :
    ∃ t, StoodTo s (startPivot (s.linkEnd lk)).interp { (evaluateGovernor s).gov with vprev := 0 } t := by
  have kEnd : Keeps [.interp, .gov] (atEvaluation s) (s.linkEnd lk) :=
    (mapInterp_keeps _ _).after ((takeFeedAsZero_keeps _).after ((targetPoint_keeps _ _).after
      (movedOn_keeps s).mono))
  have hGov : (startPivot (s.linkEnd lk)).gov = { (evaluateGovernor s).gov with vprev := 0 } := startPivot_gov _
  rw [← hGov]
  exact expiry_onLink ht hc ha hl hp
    (advanceLink_ends (onPath_ne_stopping (.inr (hc.imp_right And.left))) hEnds)
    ((startPivot_keeps _).after kEnd) (startPivot_active _)

/-- R67, R74: the Interpolator at the end of a link move, with its start pivot begun. -/
theorem linkEnd_interp (lk : LinkMove) (s : State) :
    (startPivot (s.linkEnd lk)).interp.inStartPivot s.store ∧
      (startPivot (s.linkEnd lk)).interp =
        { s.interp with
          timer := some 0, p := 0, link := none, targetX := lk.stopAt.x, targetY := lk.stopAt.y,
          pivot := (startPivot (s.linkEnd lk)).interp.pivot,
          pivotNeg := (startPivot (s.linkEnd lk)).interp.pivotNeg,
          startPending := (startPivot (s.linkEnd lk)).interp.startPending } := by
  refine ⟨startPivot_begins rfl, ?_⟩
  obtain ⟨n, k, b, hPivot⟩ := startPivot_eq (s.linkEnd lk)
  rw [hPivot]
  rfl

end

/-! ### The statement -/

/-- Settles O41: a pivot, a PAUSE, a head that stands and a link move, each by the lemma of its expiry. -/
theorem pivotSteps : Obligations.PivotSteps := by
  refine ⟨fun s ht hp => ⟨fun hj => ?pivots, fun hj => expiry_haltsPivot ht hp hj⟩,
    fun i sl s ht ha hs hm hp hj hc => ?pauses, fun s ht hp => ?stands, fun lk s ht hc ha hl hp => ?links⟩
  case pivots =>
    obtain ⟨t, h⟩ := expiry_pivots ht hp hj
    obtain ⟨hExec, hKeeps, hGov, hStood, hInterp, hHanded⟩ := h
    rw [← hInterp] at hHanded
    refine ⟨t, hExec, hKeeps, ?_, ?_, hGov, hStood, ?_⟩
    · rw [hInterp]
      rfl
    · rw [hInterp]
      exact stepPivot_targetC _ _
    · rwa [show t.interp.targetX = s.interp.targetX by rw [hInterp]; rfl,
        show t.interp.targetY = s.interp.targetY by rw [hInterp]; rfl] at hHanded
  case pauses =>
    obtain ⟨t, h⟩ := expiry_pauses ht ha hs hm hp hj hc
    exact ⟨t, h.exec, h.keeps, h.gov, h.stood, h.interp, h.handed⟩
  case stands =>
    intro nothing onSegment onLink hCase
    have hOpen (hn : s.job.state ≠ .cutting) : openingTake (beginPeriod s) = beginPeriod s :=
      openingTake_none (.inl hn)
    obtain ⟨t, h⟩ : ∃ t, StoodTo s { s.interp with timer := some 0 } .noFeed t := by
      rcases hCase with ⟨ha, hl, hj⟩ | ⟨hj, hPath⟩
      · have hStands : s.stands := .inl ⟨ha, hl⟩
        rcases hj with hj | hj | hj | ⟨hj, hUnplanned⟩
        · exact expiry_stands ht hp (hOpen (by rw [hj]; decide)) (.inl hj) hStands
        · exact expiry_stands ht hp (hOpen (by rw [hj]; decide)) (.inr (.inr (.inl hj))) hStands
        · exact expiry_stands ht hp (hOpen (by rw [hj]; decide)) (.inr (.inr (.inr hj))) hStands
        · exact expiry_stands ht hp (openingTake_unplanned hUnplanned) (.inr (.inl hj)) hStands
      · have hStands : s.stands := .inr ⟨feedBarred_of_state hj, hPath⟩
        rcases hj with hj | ⟨hj, -⟩
        · exact expiry_stands ht hp (hOpen (by rw [hj]; decide)) (.inl hj) hStands
        · exact expiry_stands ht hp (hOpen (by rw [hj]; decide)) (.inr (.inr (.inl hj))) hStands
    exact ⟨t, h.exec, h.keeps, h.gov, h.stood, h.interp, h.handed⟩
  case links =>
    intro p
    by_cases hEnds : lk.length * 1000 ≤ p
    · obtain ⟨t, hExec, hKeeps, hGov, hStood, hInterp, hHanded⟩ := expiry_linkEnds ht hc ha hl hp hEnds
      have hEnd := linkEnd_interp lk s
      rw [← hInterp] at hHanded hEnd
      exact ⟨t, hExec, hKeeps, hStood, fun h => absurd hEnds (Nat.not_le.mpr h), fun _ => ⟨hGov, hEnd⟩, hHanded⟩
    · obtain ⟨t, hExec, hKeeps, hGov, hStood, hInterp, hHanded⟩ :=
        expiry_linkGoesOn ht hc ha hl hp (Nat.not_le.mp hEnds)
      rw [← hInterp] at hHanded
      exact ⟨t, hExec, hKeeps, hStood, fun _ => ⟨hGov, hInterp⟩, fun h => absurd h hEnds, hHanded⟩

end Sys2Proof.Machine

namespace Sys2Proof.Machine

/-! ## One evaluation of the Governor (R78 to R90) -/

/-! ### The target, the slew and the ramps -/

/-- R82: the target is the least of the three caps and the ceiling. -/
theorem target_eq (k : Caps) : k.target = min (min k.vreq k.vplan) (min k.vstroke 30000) :=
  (Nat.min_assoc _ _ _).symm

/-- R83, R90: the stage of an evaluation whose V no ramp lowers. -/
def Caps.slewStage (a vprev : Nat) (k : Caps) : Stage :=
  if vprev + a < k.target then .slew else k.stage

/-- R83: with no ramp in force V is the target under the slew. -/
theorem governedFeed_unramped (a vprev : Nat) (k : Caps) :
    governedFeed a vprev none k = (slewed a vprev k.target, k.slewStage a vprev) :=
  rfl

/-- R84, R85, R90: a ramp brings V down to its own value, and is the stage where that is lower than the slew. -/
theorem governedFeed_ramped (a vprev decel : Nat) (stage : Stage) (k : Caps) :
    let slew := slewed a vprev k.target
    governedFeed a vprev (some (decel, stage)) k =
      (min slew (vprev - decel), if min slew (vprev - decel) < slew then stage else k.slewStage a vprev) := by
  intro slew
  by_cases hRamp : vprev - decel < slew
  · rw [Nat.min_eq_right hRamp.le, if_pos hRamp]
    exact if_pos hRamp
  · rw [Nat.min_eq_left (Nat.not_lt.mp hRamp), if_neg (Nat.lt_irrefl _)]
    exact if_neg hRamp

/-- R82: each stage after the target lowers V or holds it. -/
theorem governedFeed_le_target (a vprev : Nat) (ramp : Option (Nat × Stage)) (k : Caps) :
    (governedFeed a vprev ramp k).1 ≤ k.target := by
  have hSlew : slewed a vprev k.target ≤ k.target := Nat.min_le_left _ _
  cases ramp with
  | none => exact hSlew
  | some r =>
    obtain ⟨decel, stage⟩ := r
    rw [governedFeed_ramped]
    exact (Nat.min_le_left _ _).trans hSlew

/-- R84, R85: outside HOLDING and STOPPING no ramp is in force. -/
theorem rampOf_none {s : State} (hHold : s.job.state ≠ .holding) (hStop : s.job.state ≠ .stopping) :
    rampOf s = none := by
  unfold rampOf
  split
  case h_1 h => exact absurd h hHold
  case h_2 h => exact absurd h hStop
  all_goals rfl

theorem rampOf_holding {s : State} (h : s.job.state = .holding) : rampOf s = some (s.params.accel, .holdRamp) := by
  unfold rampOf
  rw [h]

theorem rampOf_stopping {s : State} (h : s.job.state = .stopping) :
    rampOf s = some (s.params.stopDecel, .stopRamp) := by
  unfold rampOf
  rw [h]

/-! ### What an evaluation leaves in the Governor -/

/-- The Governor of an evaluation of `s` with the caps `k` (R77, R82 to R85, R90). -/
def Governor.fed (s : State) (k : Caps) : Governor where
  v := (governedFeed s.params.accel s.gov.vprev (rampOf s) k).1
  vprev := (governedFeed s.params.accel s.gov.vprev (rampOf s) k).1
  stage := (governedFeed s.params.accel s.gov.vprev (rampOf s) k).2
  vreq := k.vreq
  vplan := k.vplan
  vstroke := k.vstroke

theorem evaluateGovernor_fed {s : State} {q : PathInput} (hb : feedBarred s = false) (hq : pathInput s = some q) :
    (evaluateGovernor s).gov = .fed s (capsOf s q) := by
  unfold evaluateGovernor
  rw [hb, hq]
  rfl

/-- R77, R86: an evaluation either yields no feed or governs the feed of its path inputs. -/
theorem evaluateGovernor_cases (s : State) :
    (evaluateGovernor s).gov = .noFeed ∨
      ∃ q, pathInput s = some q ∧ (evaluateGovernor s).gov = .fed s (capsOf s q) := by
  cases hq : pathInput s with
  | none => exact .inl (evaluateGovernor_noFeed (.inr hq))
  | some q =>
    cases hb : feedBarred s with
    | true => exact .inl (evaluateGovernor_noFeed (.inl hb))
    | false => exact .inr ⟨q, rfl, evaluateGovernor_fed hb hq⟩

/-- R82: V is within the three caps it was formed under, and the ceiling. -/
theorem evaluateGovernor_v_le (s : State) :
    let g := (evaluateGovernor s).gov
    g.v ≤ min (min g.vreq g.vplan) (min g.vstroke 30000) := by
  rcases evaluateGovernor_cases s with h | ⟨q, -, h⟩ <;> rw [h]
  · exact Nat.zero_le _
  · exact (governedFeed_le_target _ _ _ _).trans_eq (target_eq (capsOf s q))

/-- Settles O40: each stage after the target lowers V or holds it, and with no feed V is 0. -/
theorem governedFeedBounds : Obligations.GovernedFeedBounds :=
  ⟨target_eq, fun s => ⟨evaluateGovernor_v_le s,
    (evaluateGovernor_v_le s).trans ((Nat.min_le_right _ _).trans (Nat.min_le_right _ _))⟩⟩

/-! ### The path inputs (R78) -/

/-- R78: the counts left are rounded up. -/
theorem remaining_eq (length p : Nat) : remaining length p = (length * 1000 - p + 999) / 1000 := by
  unfold remaining ceilDiv
  rw [Nat.add_sub_assoc (by decide)]

/-- R78: the path inputs of an active LINE or arc. -/
theorem pathInput_moving {s : State} {seg : Segment} (ha : activeSegment s = some seg)
    (hm : seg.kind.moving = true) :
    pathInput s = some
      { feed := seg.feed, hint := seg.hint, advance := seg.advance.getD s.params.advanceLimit,
        vexit := seg.exitSpeed, rem := (seg.length * 1000 - s.interp.p + 999) / 1000 } := by
  unfold pathInput
  rw [ha, ← remaining_eq]
  exact if_pos hm

/-- R78: the path inputs of a link move. -/
theorem pathInput_link {s : State} {lk : LinkMove} (ha : s.interp.active = none) (hl : s.interp.link = some lk) :
    pathInput s = some
      { feed := s.params.linkFeed, hint := none, advance := s.params.advanceLimit, vexit := 0,
        rem := (lk.length * 1000 - s.interp.p + 999) / 1000 } := by
  unfold pathInput
  rw [activeSegment_none ha, ← remaining_eq]
  dsimp only
  rw [hl]

/-- R78: the path inputs of the active segment; a PAUSE has none. -/
theorem pathInput_active {s : State} {seg : Segment} (ha : activeSegment s = some seg) :
    pathInput s =
      if seg.kind = .pause then none
      else
        some
          { feed := seg.feed, hint := seg.hint, advance := seg.advance.getD s.params.advanceLimit,
            vexit := seg.exitSpeed, rem := (seg.length * 1000 - s.interp.p + 999) / 1000 } := by
  by_cases hk : seg.kind = .pause
  · rw [if_pos hk]
    exact pathInput_pause ha (congrArg SegmentKind.moving hk)
  · rw [if_neg hk]
    exact pathInput_moving ha ((moving_iff _).mpr hk)

/-! ### The caps (R79 to R81) -/

/-- R79: the derate factor of a band. -/
theorem derateFactor_eq (prm : Params) (n : Nat) :
    derateFactor prm n = if n = 0 then prm.d0 else if n = 1 then prm.d1 else if n = 2 then prm.d2 else prm.d3 :=
  match n with
  | 0 => rfl
  | 1 => rfl
  | 2 => rfl
  | _ + 3 => rfl

/-- R79: a hint can lower the derate of the band and not raise it. -/
theorem loadDerate_eq (prm : Params) (band : Nat) (hint : Option Nat) :
    loadDerate prm band hint =
      (hint.map fun h => min (derateFactor prm band) (derateFactor prm h)).getD (derateFactor prm band) := by
  cases hint with
  | none => rfl
  | some h => rfl

/-- R80: the planned cap is one the exit speed can be reached from over what remains. -/
theorem plannedCap_sq_le (a vexit rem : Nat) :
    plannedCap a vexit rem * plannedCap a vexit rem ≤ vexit * vexit + 2000 * a * rem :=
  isqrt_sq_le _

/-- R88: from V the head can stop within what remains of the segment and the distance it can stop from its exit in. -/
theorem v_sq_le_stopping {s : State} {q : PathInput} {D : Nat} (hq : pathInput s = some q)
    (hExit : q.vexit * q.vexit ≤ 2000 * s.params.accel * D) :
    (evaluateGovernor s).gov.v * (evaluateGovernor s).gov.v ≤ 2000 * s.params.accel * (q.rem + D) := by
  have hCaps := evaluateGovernor_v_le s
  rcases evaluateGovernor_cases s with h | ⟨q', hq', h⟩ <;> rw [h] at hCaps ⊢
  · exact Nat.zero_le _
  · cases hq.symm.trans hq'
    have hPlan : (Governor.fed s (capsOf s q)).v ≤ plannedCap s.params.accel q.vexit q.rem :=
      hCaps.trans ((Nat.min_le_left _ _).trans (Nat.min_le_right _ _))
    calc (Governor.fed s (capsOf s q)).v * (Governor.fed s (capsOf s q)).v
      _ ≤ plannedCap s.params.accel q.vexit q.rem * plannedCap s.params.accel q.vexit q.rem :=
        Nat.mul_le_mul hPlan hPlan
      _ ≤ q.vexit * q.vexit + 2000 * s.params.accel * q.rem := plannedCap_sq_le _ _ _
      _ ≤ 2000 * s.params.accel * D + 2000 * s.params.accel * q.rem := Nat.add_le_add_right hExit _
      _ = 2000 * s.params.accel * (q.rem + D) := by rw [Nat.mul_add, Nat.add_comm]

/-! ### V and its stage (R82 to R86, R90) -/

/-- R86: what bars the feed besides having nothing to move along. -/
theorem feedBarred_iff (s : State) :
    feedBarred s = true ↔
      0 < s.interp.pivot ∨ s.job.state = .warmup ∨ (s.job.state = .holding ∧ s.job.held = true) := by
  unfold feedBarred
  simp only [Bool.or_eq_true, Bool.and_eq_true, decide_eq_true_iff, or_assoc]

/-- R83 to R85: V is the target under the slew, and under the ramp of the job state. -/
theorem fed_v (s : State) (k : Caps) :
    let slew := slewed s.params.accel s.gov.vprev k.target
    (Governor.fed s k).v =
      if s.job.state = .holding then min slew (s.gov.vprev - s.params.accel)
      else if s.job.state = .stopping then min slew (s.gov.vprev - s.params.stopDecel)
      else slew := by
  dsimp only [Governor.fed]
  by_cases hHold : s.job.state = .holding
  · rw [if_pos hHold, rampOf_holding hHold, governedFeed_ramped]
  · rw [if_neg hHold]
    by_cases hStop : s.job.state = .stopping
    · rw [if_pos hStop, rampOf_stopping hStop, governedFeed_ramped]
    · rw [if_neg hStop, rampOf_none hHold hStop, governedFeed_unramped]

/-- R90: the stage is the ramp where it lowered V, and that of the slew otherwise. -/
theorem fed_stage (s : State) (k : Caps) :
    let slew := slewed s.params.accel s.gov.vprev k.target
    (Governor.fed s k).stage =
      if s.job.state = .holding ∧ (Governor.fed s k).v < slew then .holdRamp
      else if s.job.state = .stopping ∧ (Governor.fed s k).v < slew then .stopRamp
      else k.slewStage s.params.accel s.gov.vprev := by
  dsimp only [Governor.fed]
  by_cases hHold : s.job.state = .holding
  · simp only [rampOf_holding hHold, governedFeed_ramped, hHold, true_and, reduceCtorEq, false_and, if_false]
  · by_cases hStop : s.job.state = .stopping
    · simp only [rampOf_stopping hStop, governedFeed_ramped, hStop, true_and, reduceCtorEq, false_and, if_false]
    · simp only [rampOf_none hHold hStop, governedFeed_unramped, hHold, hStop, false_and, if_false]

/-! ### The statement -/

/-- Settles O42: the distance by the planned cap, the path inputs case by case, and the Governor of an evaluation with
no feed and with one. -/
theorem stoppingDistance : Obligations.StoppingDistance := by
  refine ⟨fun q D s hq hExit => v_sq_le_stopping hq hExit,
    fun s => ⟨fun i sl ha hs => pathInput_active (activeSegment_of_slot ha hs), fun lk ha hl => pathInput_link ha hl,
      fun ha hl => pathInput_nothing ha hl⟩, fun s => ?evaluation⟩
  case evaluation =>
    intro g barred
    refine ⟨fun h => evaluateGovernor_noFeed (h.imp_left (feedBarred_iff s).mpr), fun q hq hFree => ?_⟩
    intro factor derate target slew
    have hFed : g = .fed s (capsOf s q) :=
      evaluateGovernor_fed (Bool.eq_false_iff.mpr fun h => hFree ((feedBarred_iff s).mp h)) hq
    have hTarget : target = (capsOf s q).target := by
      rw [target_eq]
      exact congrArg (fun g : Governor => min (min g.vreq g.vplan) (min g.vstroke 30000)) hFed
    have hSlew : slew = slewed s.params.accel s.gov.vprev (capsOf s q).target :=
      congrArg (min · (s.gov.vprev + s.params.accel)) hTarget
    have hDerate : derate = loadDerate s.params s.load.band q.hint := by
      rw [loadDerate_eq]
      simp only [derateFactor_eq]
      rfl
    rw [hSlew, hTarget, hDerate, hFed]
    exact ⟨rfl, isqrt_spec _, rfl, fed_v s _, rfl, fed_stage s _⟩

end Sys2Proof.Machine

namespace Sys2Proof.Machine

set_option Elab.async false

/-! ## The blade under every step (R93, R94, R101, R104 to R106) -/

/-- Settles O58: the condition is stable, so every step keeps it. -/
theorem bladeKept : Obligations.BladeKept := fun s t h he =>
  (bladeOk_iff t).mpr (stable_blade.step ((bladeOk_iff s).mp h) he)

/-! ## A step with no command waiting (R94, R163, R164) -/

/-- R163, R164: a transmitter that waits and has no character in progress stands. -/
theorem linkElapse_waiting {us : Nat} {l : Link} {f : TxFrame} (ht : l.tx = some f)
    (hw : l.held = true ∨ l.marks ≠ []) (hc : l.charTime = 0) : l.elapse us = { l with gap := runOn us l.gap } := by
  have hWaits : (l.held || !l.marks.isEmpty) = true := by simpa using hw
  unfold Link.elapse characterTime
  simp only [ht, hWaits, hc, if_true]

/-- R163, R164: a character in progress goes on, and ends after its ten bits, while the transmitter waits. -/
theorem linkElapse_ending {us : Nat} {l : Link} {f : TxFrame} (ht : l.tx = some f)
    (hw : l.held = true ∨ l.marks ≠ []) (hc : 0 < l.charTime) :
    l.elapse us =
      if 10000000 ≤ l.charTime + l.rate.bits * us then
        { l with gap := runOn us l.gap, tx := some { f with sent := f.sent + 1 }, charTime := 0 }
      else { l with gap := runOn us l.gap, charTime := l.charTime + l.rate.bits * us } := by
  have hWaits : (l.held || !l.marks.isEmpty) = true := by simpa using hw
  unfold Link.elapse characterTime
  simp only [ht, hWaits, Nat.pos_iff_ne_zero.mp hc, if_true, if_false]

/-- R163, R164: with nothing to wait for, the characters of the frame follow one another up to its last. -/
theorem linkElapse_sending {us : Nat} {l : Link} {f : TxFrame} (ht : l.tx = some f)
    (hw : ¬(l.held = true ∨ l.marks ≠ [])) :
    l.elapse us =
      if f.line.length ≤ f.sent + (l.charTime + l.rate.bits * us) / 10000000 then
        { l with gap := runOn us l.gap, tx := some { f with sent := f.line.length }, charTime := 0 }
      else
        { l with
          gap := runOn us l.gap
          tx := some { f with sent := f.sent + (l.charTime + l.rate.bits * us) / 10000000 }
          charTime := (l.charTime + l.rate.bits * us) % 10000000 } := by
  have hWaits : (l.held || !l.marks.isEmpty) = false := by simpa using hw
  unfold Link.elapse characterTime
  simp only [ht, hWaits, Bool.false_eq_true, if_false]

/-- R166: with no frame being sent only the gap timer counts. -/
theorem linkElapse_silent {us : Nat} {l : Link} (ht : l.tx = none) :
    l.elapse us = { l with gap := runOn us l.gap } := by
  unfold Link.elapse
  simp only [ht]

/-- Time counts the gap timer and sends characters; it does nothing else to the Link. -/
theorem linkElapse_frame (us : Nat) (l : Link) :
    l.elapse us =
      { l with gap := runOn us l.gap, tx := (l.elapse us).tx, charTime := (l.elapse us).charTime } := by
  unfold Link.elapse
  dsimp only
  split
  · rfl
  · next ht =>
    split
    · split
      · rfl
      · split <;> rfl
    · split <;> rfl

theorem linkElapse_add (a b : Nat) (l : Link) : (l.elapse a).elapse b = l.elapse (a + b) := by
  have hTotal : l.charTime + l.rate.bits * (a + b) = l.charTime + l.rate.bits * a + l.rate.bits * b := by ring
  cases ht : l.tx with
  | none =>
    rw [linkElapse_silent ht, linkElapse_silent ht, linkElapse_silent (l := { l with gap := runOn a l.gap }) ht]
    simp only [runOn_add]
  | some f =>
    by_cases hw : l.held = true ∨ l.marks ≠ []
    · by_cases hc : l.charTime = 0
      · rw [linkElapse_waiting ht hw hc, linkElapse_waiting ht hw hc,
          linkElapse_waiting (l := { l with gap := runOn a l.gap }) ht hw hc]
        simp only [runOn_add]
      · have hPos := Nat.pos_of_ne_zero hc
        rw [linkElapse_ending ht hw hPos, linkElapse_ending ht hw hPos, hTotal]
        by_cases hEnds : 10000000 ≤ l.charTime + l.rate.bits * a
        · rw [if_pos hEnds, if_pos (hEnds.trans (Nat.le_add_right _ _)), linkElapse_waiting
            (l := { l with gap := runOn a l.gap, tx := some { f with sent := f.sent + 1 }, charTime := 0 }) rfl hw rfl]
          simp only [runOn_add]
        · rw [if_neg hEnds, linkElapse_ending
            (l := { l with gap := runOn a l.gap, charTime := l.charTime + l.rate.bits * a }) ht hw
            (Nat.add_pos_left hPos _)]
          simp only [runOn_add]
    · rw [linkElapse_sending ht hw, linkElapse_sending ht hw, hTotal]
      generalize l.charTime + l.rate.bits * a = n
      by_cases hAll : f.line.length ≤ f.sent + n / 10000000
      · rw [if_pos hAll, if_pos (by omega), linkElapse_sending
          (l := { l with gap := runOn a l.gap, tx := some { f with sent := f.line.length }, charTime := 0 }) rfl hw,
          if_pos (Nat.le_add_right _ _)]
        simp only [runOn_add]
      · have hSent : f.sent + n / 10000000 + (n % 10000000 + l.rate.bits * b) / 10000000 =
            f.sent + (n + l.rate.bits * b) / 10000000 := by omega
        rw [if_neg hAll, linkElapse_sending
          (l := { l with
            gap := runOn a l.gap, tx := some { f with sent := f.sent + n / 10000000 }, charTime := n % 10000000 })
          rfl hw]
        simp only [hSent, Nat.mod_add_mod, runOn_add]

/-- Several µs at once are so many µs one after another. -/
theorem elapse_add (a b : Nat) (s : State) : elapse b (elapse a s) = elapse (a + b) s := by
  have hTime : s.timeBase + BitVec.ofNat 32 a + BitVec.ofNat 32 b = s.timeBase + BitVec.ofNat 32 (a + b) := by
    rw [BitVec.add_assoc, BitVec.ofNat_add]
  have hInputs (i : InputId) : { (elapse a s).guard.input i with timer := runOn b ((elapse a s).guard.input i).timer } =
      { s.guard.input i with timer := runOn (a + b) (s.guard.input i).timer } := by
    rw [input_elapse, ← runOn_add]
  unfold elapse at hInputs ⊢
  simp only [hTime, hInputs, runOn_add, strokeElapse_add, loadElapse_add, linkElapse_add]

theorem elapse_keeps (us : Nat) (s : State) :
    Keeps [.timeBase, .interp, .stroke, .load, .axes, .guard, .job, .link] s (elapse us s) := by
  intro b hb
  cases b <;> first | rfl | simp at hb

/-- R163, R164: the transmitter over 1 µs, in the statement's words. -/
theorem linkElapse_one {l : Link} {f : TxFrame} (ht : l.tx = some f) :
    let waits := l.held = true ∨ l.marks ≠ []
    let time := l.charTime + l.rate.bits
    (waits → l.charTime = 0 → l.elapse 1 = { l with gap := (l.elapse 1).gap }) ∧
    (waits → 0 < l.charTime →
      (time < 10000000 → (l.elapse 1).tx = some f ∧ (l.elapse 1).charTime = time) ∧
      (10000000 ≤ time → (l.elapse 1).tx = some { f with sent := f.sent + 1 } ∧ (l.elapse 1).charTime = 0)) ∧
    (¬waits →
      (f.sent + time / 10000000 < f.line.length →
        (l.elapse 1).tx = some { f with sent := f.sent + time / 10000000 } ∧
          (l.elapse 1).charTime = time % 10000000) ∧
      (f.line.length ≤ f.sent + time / 10000000 →
        (l.elapse 1).tx = some { f with sent := f.line.length } ∧ (l.elapse 1).charTime = 0)) := by
  intro waits time
  have hTime : l.charTime + l.rate.bits * 1 = time := by rw [Nat.mul_one]
  refine ⟨fun hw hc => ?_, fun hw hc => ?_, fun hw => ?_⟩
  · rw [linkElapse_waiting ht hw hc]
  · rw [linkElapse_ending ht hw hc, hTime]
    exact ⟨fun h => by rw [if_neg (Nat.not_le.mpr h)]; exact ⟨ht, rfl⟩, fun h => by rw [if_pos h]; exact ⟨rfl, rfl⟩⟩
  · rw [linkElapse_sending ht hw, hTime]
    exact ⟨fun h => by rw [if_neg (Nat.not_le.mpr h)]; exact ⟨rfl, rfl⟩, fun h => by rw [if_pos h]; exact ⟨rfl, rfl⟩⟩

/-- Log entry 1: with no command waiting, the request the Link hands next is run, and with none 1 µs passes. -/
theorem step_idle {s : State} (h : s.pending = []) :
    (∀ i, s.dueRequest = some i → step s = exec i s) ∧ (s.dueRequest = none → step s = .next (elapse 1 s)) := by
  unfold step idleStep
  rw [h]
  exact ⟨fun i hi => by rw [hi], fun hn => by rw [hn]⟩

/-- Settles O2: the idle step, 1 µs block by block, several µs as so many of 1 µs, and the level of the output. -/
theorem emptyQueueStep : Obligations.EmptyQueueStep := by
  refine ⟨fun s h => step_idle h, fun s => ?microsecond, fun n s => (elapse_add n 1 s).symm, fun k ns => ?output⟩
  case microsecond =>
    refine ⟨elapse_keeps 1 s, rfl, rfl, rfl, rfl, rfl, fun i => input_elapse 1 s i, rfl, rfl, fun h => ?_,
      fun n h => ?_, fun n h => ?_, linkElapse_frame 1 s.link, fun h => ?_, fun f h => linkElapse_one h⟩
    · exact congrArg (Option.map _) h
    · exact congrArg (Option.map _) h
    · exact congrArg (Option.map _) h
    · show (s.link.elapse 1).tx = none ∧ (s.link.elapse 1).charTime = _
      rw [linkElapse_silent h]
      exact ⟨h, rfl⟩
  case output =>
    exact ⟨decide_eq_true_iff, rfl, fun h => outputAt_zero h ns, fun h hn => outputAt_full h hn⟩

end Sys2Proof.Machine


namespace Sys2Proof.Machine

set_option Elab.async false

/-! ## An index arrival (R95 to R97, R102, R105, R109, R112, R119, R150) -/

/-! ### Measurement and the control step -/

/-- R95, R97: the stroke with an index timestamped and, when that forms M, the control step made. -/
def Stroke.indexed (prm : Params) (now : Word) (k : Stroke) : Stroke :=
  if k.index.isSome then (k.timestamp now).control prm else k.timestamp now

/-- R95: the rate that the index at `now` forms with the index before it. -/
theorem timestamp_formed {now earlier : Word} {k : Stroke} (h : k.index = some earlier) :
    k.timestamp now = { k with index := some now, m := rateOf (now - earlier).toNat } := by
  unfold Stroke.timestamp
  rw [h]

theorem timestamp_cleared {now : Word} {k : Stroke} (h : k.index = none) :
    k.timestamp now = { k with index := some now } := by
  unfold Stroke.timestamp
  rw [h]

theorem indexed_formed {prm : Params} {now earlier : Word} {k : Stroke} (h : k.index = some earlier) :
    k.indexed prm now =
      { k with
        index := some now
        m := rateOf (now - earlier).toNat
        duty := controlledDuty prm.ki k.duty ((targetRate prm k.state : Int) - rateOf (now - earlier).toNat) } := by
  unfold Stroke.indexed
  rw [timestamp_formed h, if_pos (by rw [h]; rfl)]
  rfl

theorem indexed_cleared {prm : Params} {now : Word} {k : Stroke} (h : k.index = none) :
    k.indexed prm now = { k with index := some now } := by
  unfold Stroke.indexed
  rw [timestamp_cleared h, if_neg (by rw [h]; decide)]

/-- R95, R97: an index changes the record, M and the duty, and nothing else. -/
theorem indexed_frame (prm : Params) (now : Word) (k : Stroke) :
    k.indexed prm now =
      { k with index := some now, m := (k.indexed prm now).m, duty := (k.indexed prm now).duty } := by
  cases h : k.index with
  | none => rw [indexed_cleared h]
  | some earlier => rw [indexed_formed h]

theorem rateOf_le (n : Nat) : rateOf n ≤ 9000 := by
  unfold rateOf
  split
  · exact Nat.le_refl _
  · exact Nat.min_le_left _ _

theorem targetRate_driven {prm : Params} {j : StrokeState} (h : j.driven = true) :
    (targetRate prm j : Int) = if j = .idle then (prm.strokeIdle : Int) else prm.strokeCut := by
  cases j <;> first | rfl | cases h

theorem controlledDuty_cast (ki duty : Nat) (e : Int) :
    (controlledDuty ki duty e : Int) = clamp (duty + (e * ki).tdiv 256) 0 1000 :=
  Int.toNat_of_nonneg (clamp_bounds (by decide)).1

/-- R97: the error of the control step, with every parameter in range. -/
theorem error_bounds {s : State} (h : s.paramsOk) (idle : Prop) [Decidable idle] (n : Nat) :
    -8400 ≤ (if idle then (s.params.strokeIdle : Int) else s.params.strokeCut) - rateOf n ∧
      (if idle then (s.params.strokeIdle : Int) else s.params.strokeCut) - rateOf n ≤ 9000 := by
  have hStrokes := h.strokes
  have hRate := rateOf_le n
  split <;> omega

/-! ### Lock -/

theorem countLock_other {prm : Params} {formed : Bool} {k : Stroke} (h : k.state ≠ .spinup) :
    k.countLock prm formed = k :=
  if_neg h

/-- R102: counting for lock changes the state, the spin-up timer and the lock counter, and nothing else. -/
theorem countLock_frame (prm : Params) (formed : Bool) (k : Stroke) :
    k.countLock prm formed =
      { k with
        state := (k.countLock prm formed).state
        spinTimer := (k.countLock prm formed).spinTimer
        lock := (k.countLock prm formed).lock } := by
  unfold Stroke.countLock
  split
  · dsimp only
    split <;> rfl
  · rfl

/-- R102: an index that forms M within the band counts, and at LOCK_COUNT the stroke enters RUN. -/
theorem countLock_within {prm : Params} {k : Stroke} (hs : k.state = .spinup)
    (hBand : ((prm.strokeCut : Int) - k.m).natAbs ≤ prm.lockBand) :
    k.countLock prm true =
      if prm.lockCount ≤ k.lock + 1 then { k with state := .run, spinTimer := none, lock := 0 }
      else { k with lock := k.lock + 1 } := by
  have hCounted : lockCounted prm true k = k.lock + 1 := if_pos (decide_eq_true (by omega))
  unfold Stroke.countLock
  rw [if_pos hs, hCounted]

/-- R102: any other index taken in SPINUP sets the lock counter to 0. -/
theorem countLock_outside {prm : Params} {formed : Bool} {k : Stroke} (hs : k.state = .spinup)
    (hBand : formed = true → prm.lockBand < ((prm.strokeCut : Int) - k.m).natAbs) :
    (k.countLock prm formed).lock = 0 ∧ (0 < prm.lockCount → (k.countLock prm formed).state = .spinup) := by
  have hCounted : lockCounted prm formed k = 0 := by
    refine if_neg ?_
    rw [Bool.and_eq_true, decide_eq_true_iff]
    rintro ⟨hFormed, hWithin⟩
    have := hBand hFormed
    omega
  unfold Stroke.countLock
  rw [if_pos hs, hCounted]
  dsimp only
  split
  · exact ⟨rfl, fun hPos => by omega⟩
  · exact ⟨rfl, fun _ => hs⟩

/-! ### The blocks after an index -/

/-- R150: the job after the passage from WARMUP, whatever its state before. -/
theorem warmupPassage_job_eq (s : State) :
    (warmupPassage s).job =
      if s.job.state = .warmup ∧ s.stroke.state = .run ∧ s.interp.startPending = false then
        { s.job with state := .cutting }
      else s.job := by
  unfold warmupPassage
  simp only [Bool.and_eq_true, decide_eq_true_iff, Bool.not_eq_true', and_assoc]
  split <;> rfl

/-- R109: the Load Monitor at the report of an index. -/
theorem indexReported_eq (samplePhase : Nat) (m : Load) :
    m.indexReported samplePhase =
      if samplePhase = 0 then
        { m with
          phase := none, reqStroke := true, valid := false,
          inFlight := some (if m.settled then .measuring 0 else .settling 0) }
      else { m with phase := some samplePhase } := by
  unfold Load.indexReported Load.startConversion
  split
  · simp
  · rfl

/-- R96: what an index taken under drive leaves in the stroke, in the job and in the Load Monitor. -/
theorem drivenIndex_parts (now : Word) (s : State) :
    let t := drivenIndex now s
    t.stroke =
        { (s.stroke.indexed s.params now).countLock s.params s.stroke.index.isSome with stallTimer := some 0 } ∧
      t.job =
        (if s.job.state = .warmup ∧ t.stroke.state = .run ∧ s.interp.startPending = false then
          { s.job with state := .cutting }
        else s.job) ∧
      t.load = (s.load.told s.stroke.state t.stroke.state).indexReported s.params.samplePhase := by
  intro t
  let v := strokeTo (Stroke.countLock s.params s.stroke.index.isSome) (s.mapStroke (Stroke.indexed s.params now))
  have hMeasured : (if s.stroke.index.isSome then
        (s.mapStroke (Stroke.timestamp now)).mapStroke (Stroke.control s.params)
      else s.mapStroke (Stroke.timestamp now)) = s.mapStroke (Stroke.indexed s.params now) := by
    unfold State.mapStroke Stroke.indexed
    split <;> rfl
  have kPass : Keeps [.job] v (warmupPassage v) := warmupPassage_keeps v
  have hParams : (warmupPassage v).params = s.params := kPass .params (by decide)
  have ht : t = ((warmupPassage v).mapStroke fun k => { k with stallTimer := some 0 }).mapLoad
      (Load.indexReported s.params.samplePhase) := by
    show drivenIndex now s = _
    unfold drivenIndex
    simp only [mapStroke_params, hMeasured]
    exact congrArg (fun q : Params => State.mapLoad (Load.indexReported q.samplePhase) _) hParams
  have hStroke : t.stroke = { v.stroke with stallTimer := some 0 } := by
    rw [ht]
    exact congrArg (fun k : Stroke => { k with stallTimer := some 0 }) (kPass .stroke (by decide))
  have hState : (s.stroke.indexed s.params now).state = s.stroke.state := by rw [indexed_frame]
  refine ⟨hStroke, ?_, ?_⟩
  · rw [hStroke, ht]
    exact warmupPassage_job_eq v
  · rw [hStroke, ht]
    show Load.indexReported _ (warmupPassage v).load = _
    rw [show (warmupPassage v).load = v.load from kPass .load (by decide), strokeTo_load]
    show Load.indexReported _ (s.load.told (s.stroke.indexed s.params now).state _) = _
    rw [hState]
    rfl

theorem indexTaken_driven {now : Word} {s : State} (h : s.stroke.state.driven = true) :
    indexTaken now s = drivenIndex now s := by
  unfold indexTaken
  cases hs : s.stroke.state <;> first | rfl | (rw [hs] at h; cases h)

theorem indexTaken_resting {now : Word} {s : State} (h : s.stroke.state = .off ∨ s.stroke.state = .stalled) :
    indexTaken now s = s := by
  unfold indexTaken
  rcases h with h | h <;> rw [h]

theorem indexTaken_coasting {now : Word} {s : State} (h : s.stroke.state = .coast) :
    indexTaken now s = coastIndex now s := by
  unfold indexTaken
  rw [h]

/-- R96: the stroke after an index taken in COAST. -/
theorem coastIndex_stroke (now : Word) (s : State) :
    let k := (coastIndex now s).stroke
    k.state = s.stroke.state ∧ k.duty = s.stroke.duty ∧ k.lock = s.stroke.lock ∧ k.index = some now ∧
      k.stallTimer = some 0 ∧ (s.stroke.index = none → k.m = s.stroke.m) ∧
      ∀ earlier, s.stroke.index = some earlier → k.m = rateOf (now - earlier).toNat := by
  intro k
  have hk : k = { s.stroke.timestamp now with stallTimer := some 0 } := rfl
  cases h : s.stroke.index with
  | none =>
    rw [hk, timestamp_cleared h]
    exact ⟨rfl, rfl, rfl, rfl, rfl, fun _ => rfl, nofun⟩
  | some earlier =>
    rw [hk, timestamp_formed h]
    exact ⟨rfl, rfl, rfl, rfl, rfl, nofun, fun _ he => Option.some.inj he ▸ rfl⟩

/-- R96, R97, R102: the stroke after an index taken under drive. -/
theorem drivenIndex_stroke (now : Word) (s : State) :
    let k := (drivenIndex now s).stroke
    k.index = some now ∧ k.stallTimer = some 0 ∧ k.m = (s.stroke.indexed s.params now).m ∧
      k.duty = (s.stroke.indexed s.params now).duty ∧
      (s.stroke.state ≠ .spinup → k.state = s.stroke.state) := by
  intro k
  have hk : k = _ := (drivenIndex_parts now s).1
  rw [hk, countLock_frame]
  refine ⟨?_, rfl, rfl, rfl, fun hs => ?_⟩
  · rw [indexed_frame]
  · have hState : (s.stroke.indexed s.params now).state = s.stroke.state := by rw [indexed_frame]
    rw [countLock_other (by rw [hState]; exact hs)]
    exact hState

/-- R102: counting for lock at an index that forms M. -/
theorem drivenIndex_locks {now earlier : Word} {s : State} (hs : s.stroke.state = .spinup)
    (h : s.stroke.index = some earlier) :
    let k := (drivenIndex now s).stroke
    (((s.params.strokeCut : Int) - k.m).natAbs ≤ s.params.lockBand →
      if s.params.lockCount ≤ s.stroke.lock + 1 then k.state = .run ∧ k.lock = 0 ∧ k.spinTimer = none
      else k.state = .spinup ∧ k.lock = s.stroke.lock + 1) ∧
    (s.params.lockBand < ((s.params.strokeCut : Int) - k.m).natAbs → 0 < s.params.lockCount →
      k.state = .spinup ∧ k.lock = 0) := by
  intro k
  have hFormed : s.stroke.index.isSome = true := by rw [h]; rfl
  have hk : k = { (s.stroke.indexed s.params now).countLock s.params true with stallTimer := some 0 } :=
    hFormed ▸ (drivenIndex_parts now s).1
  have hm : k.m = (s.stroke.indexed s.params now).m := (drivenIndex_stroke now s).2.2.1
  have hState : (s.stroke.indexed s.params now).state = .spinup := by rw [indexed_frame]; exact hs
  have hLock : (s.stroke.indexed s.params now).lock = s.stroke.lock := by rw [indexed_frame]
  rw [hm, hk]
  refine ⟨fun hBand => ?_, fun hBand hPos => ?_⟩
  · rw [countLock_within hState hBand, hLock]
    split
    · exact ⟨rfl, rfl, rfl⟩
    · exact ⟨hState, rfl⟩
  · obtain ⟨hZero, hStays⟩ := countLock_outside hState fun _ => hBand
    exact ⟨hStays hPos, hZero⟩

/-- R102: with the record cleared an index taken in SPINUP sets the lock counter to 0. -/
theorem drivenIndex_unlocks {now : Word} {s : State} (hs : s.stroke.state = .spinup) (h : s.stroke.index = none) :
    (drivenIndex now s).stroke.lock = 0 := by
  have hCleared : s.stroke.index.isSome = false := by rw [h]; rfl
  have hState : (s.stroke.indexed s.params now).state = .spinup := by rw [indexed_frame]; exact hs
  rw [(drivenIndex_parts now s).1, hCleared]
  exact (countLock_outside (formed := false) hState nofun).1

theorem elapseTo_timeBase (now : Word) (s : State) : (elapseTo now s).timeBase = now := by
  show s.timeBase + BitVec.ofNat 32 (now - s.timeBase).toNat = now
  rw [BitVec.ofNat_toNat, BitVec.setWidth_eq]
  bv_omega

/-- Settles O46: the passing of time to the pulse, and the index by the stroke's state. -/
theorem indexArrivals : Obligations.IndexArrivals := by
  intro now s
  have kTaken := indexTaken_keeps now (elapseTo now s)
  refine ⟨_, rfl, kTaken.after (elapse_keeps _ s), (kTaken .timeBase (by decide)).trans (elapseTo_timeBase now s),
    kTaken, fun hRest => ?rest, fun hCoast => ?coast, fun hDriven => ?driven⟩
  case rest =>
    rw [indexTaken_resting (s := elapseTo now s) hRest]
    exact ⟨rfl, rfl, rfl, rfl, rfl, rfl⟩
  case coast =>
    rw [indexTaken_coasting (s := elapseTo now s) hCoast]
    obtain ⟨hState, hStroke⟩ := coastIndex_stroke now (elapseTo now s)
    exact ⟨rfl, rfl, hState.trans hCoast, hStroke⟩
  case driven =>
    rw [indexTaken_driven (s := elapseTo now s) hDriven]
    obtain ⟨-, hJob, hLoad⟩ := drivenIndex_parts now (elapseTo now s)
    obtain ⟨hIndex, hTimer, hm, hDuty, hState⟩ := drivenIndex_stroke now (elapseTo now s)
    refine ⟨hIndex, hTimer, hState, hJob, hLoad.trans (indexReported_eq _ _), fun hNone => ?_, fun earlier hSome => ?_⟩
    · rw [indexed_cleared (k := (elapseTo now s).stroke) hNone] at hm hDuty
      exact ⟨hm, hDuty, fun hs => drivenIndex_unlocks hs hNone⟩
    · rw [indexed_formed (k := (elapseTo now s).stroke) hSome] at hm hDuty
      have hLocks := fun hs => drivenIndex_locks (now := now) (s := elapseTo now s) (earlier := earlier) hs hSome
      have hTarget := targetRate_driven (prm := s.params) hDriven
      refine ⟨hm, ?_, fun hOk => ?_, fun hs => (hLocks hs).1, fun hs => (hLocks hs).2⟩
      · rw [hDuty, hm]
        dsimp only
        rw [controlledDuty_cast, ← hTarget]
        rfl
      · rw [hm]
        exact error_bounds hOk _ _

end Sys2Proof.Machine


namespace Sys2Proof.Machine

set_option Elab.async false

/-! ## The expiries of the blade's timers (R103 to R105, R140 to R145) -/

/-- R141, R144, R145: the three ways a cause of the controlled category acts. -/
theorem takeCause_controlled_eq (k : Cause) (s : State) :
    takeCause .controlled k s =
      if s.job.state = .idle then causeInIdle .controlled k s
      else if s.job.state = .fault ∨ s.job.state = .stopping then latchCause k s
      else controlledStop (latchCause k s) := by
  unfold takeCause
  cases s.job.state <;> rfl

/-- R103, R140 to R145: what a failed spin-up leaves, in every job state, of a blade that has begun to coast. -/
theorem takeCause_spinupFail {s : State} (hCoast : s.stroke.state = .coast) :
    (takeCause .controlled .spinupFail s).stroke = s.stroke ∧
      (takeCause .controlled .spinupFail s).guard.latch = s.guard.latch ||| 0x1000#16 ∧
      (takeCause .controlled .spinupFail s).job.state =
        if s.job.state = .idle ∨ s.job.state = .fault then .fault else .stopping := by
  rw [takeCause_controlled_eq]
  by_cases hIdle : s.job.state = .idle
  · rw [if_pos hIdle, if_pos (.inl hIdle)]
    obtain ⟨hJob, hStroke, -⟩ := faultFromIdle_parts .controlled .spinupFail s
    have hUndriven : ¬s.stroke.state.driven = true := by rw [hCoast]; decide
    exact ⟨hStroke.trans (if_neg hUndriven), congrArg Guard.latch (faultFromIdle_guard .controlled .spinupFail s),
      congrArg Job.state hJob⟩
  · rw [if_neg hIdle]
    by_cases hFault : s.job.state = .fault
    · rw [if_pos (.inl hFault), if_pos (.inr hFault)]
      exact ⟨rfl, rfl, hFault⟩
    · rw [if_neg (show ¬(s.job.state = .idle ∨ s.job.state = .fault) from not_or.mpr ⟨hIdle, hFault⟩)]
      by_cases hStopping : s.job.state = .stopping
      · rw [if_pos (.inr hStopping)]
        exact ⟨rfl, rfl, hStopping⟩
      · rw [if_neg (not_or.mpr ⟨hFault, hStopping⟩)]
        exact ⟨rfl, rfl, rfl⟩

/-- R103: the spin-up timer at its limit fails the spin-up. -/
theorem spinupFailed_fails {s : State} (hSpinup : s.stroke.state = .spinup)
    (ht : timerOut s.stroke.spinTimer s.params.spinupLimit) :
    spinupFailed s = takeCause .controlled .spinupFail (strokeTo Stroke.enterCoast s) := by
  unfold spinupFailed
  rw [if_pos (by rw [hSpinup, (reached_iff _ _).mpr ht]; rfl)]

/-- R105: the coast timer at its limit ends the coasting. -/
theorem coastReached_ends {s : State} (hCoast : s.stroke.state = .coast)
    (ht : timerOut s.stroke.stallTimer s.params.stallTime) : coastReached s = strokeTo Stroke.enterOff s := by
  unfold coastReached
  rw [if_pos (by rw [hCoast, (reached_iff _ _).mpr ht]; rfl)]

/-- R104: the stall timer at its limit under drive. -/
theorem stallReached_finds {s : State} (hDriven : s.stroke.state.driven = true)
    (ht : timerOut s.stroke.stallTimer s.params.stallTime) :
    stallReached s =
      if s.stroke.duty = 0 then s.mapStroke (Stroke.zeroDutyRestart s.params.startDuty)
      else takeCause .immediate .bladeStall (strokeTo Stroke.enterStalled s) := by
  unfold stallReached
  rw [if_pos (by rw [hDriven, (reached_iff _ _).mpr ht]; rfl)]

/-- Settles O47: each timer at its limit, by what its cause or its change of the stroke leaves, and short of it. -/
theorem spinupAndCoastTimers : Obligations.SpinupAndCoastTimers := by
  refine fun s => ⟨fun hSpinup ht => ⟨_, rfl, spinupFailed_keeps s, ?_⟩, fun h => congrArg _ (spinupFailed_idle h),
    fun h => congrArg _ (coastReached_idle h), fun hCoast ht => ⟨_, rfl, coastReached_keeps s, ?_⟩⟩
  · obtain ⟨hStroke, hLatch, hJob⟩ := takeCause_spinupFail (s := strokeTo Stroke.enterCoast s) rfl
    rw [spinupFailed_fails hSpinup ht, hStroke]
    exact ⟨rfl, rfl, rfl, rfl, rfl, hLatch, hJob⟩
  · rw [coastReached_ends hCoast ht, strokeTo_load, hCoast]
    exact ⟨rfl, rfl⟩

/-- R96: an index taken under drive restarts the stall timer. -/
theorem drivenIndex_stallTimer (now : Word) (s : State) : (drivenIndex now s).stroke.stallTimer = some 0 := rfl

/-- R104: a stall timer that has just started is short of STALL_TIME. -/
theorem not_timerOut_zero {ms : Nat} (h : 0 < ms) : ¬timerOut (some 0) ms := by
  rintro ⟨us, hus, hle⟩
  cases hus
  omega

/-- R104, R143: a stall under drive stops the blade and the job. -/
theorem stallReached_stalls {s : State} (hDriven : s.stroke.state.driven = true)
    (ht : timerOut s.stroke.stallTimer s.params.stallTime) (hDuty : 0 < s.stroke.duty) :
    (stallReached s).stroke = s.stroke.enterStalled ∧ (stallReached s).guard.latch = s.guard.latch ||| 0x2000#16 ∧
      (stallReached s).job.state = .fault := by
  rw [stallReached_finds hDriven ht, if_neg (Nat.pos_iff_ne_zero.mp hDuty)]
  obtain ⟨hJob, hLatch, hStroke, -⟩ := takeCause_immediate .bladeStall (strokeTo Stroke.enterStalled s)
  exact ⟨hStroke, hLatch, hJob⟩

/-- Settles O48: no stall short of the limit, none after an index, and at the limit a stall or a restart by the duty. -/
theorem stallStops : Obligations.StallStops := by
  refine ⟨fun s h => congrArg _ (stallReached_idle h), fun now s t hLimit hDriven he => ?_, fun s hDriven ht =>
    ⟨fun hDuty => ⟨_, rfl, stallReached_keeps s, ?_⟩, fun hDuty => ?_⟩⟩
  · cases he
    rw [indexTaken_driven (s := elapseTo now s) hDriven]
    refine congrArg _ (stallReached_idle (.inr ?_))
    rw [drivenIndex_stallTimer, (drivenIndex_keeps now (elapseTo now s)) .params (by decide)]
    exact not_timerOut_zero hLimit
  · obtain ⟨hStroke, hLatch, hJob⟩ := stallReached_stalls hDriven ht hDuty
    rw [hStroke]
    exact ⟨rfl, rfl, rfl, rfl, rfl, rfl, hLatch, hJob⟩
  · rw [exec_stallTimerExpiry, stallReached_finds hDriven ht, if_pos hDuty]
    rfl

end Sys2Proof.Machine


namespace Sys2Proof.Machine

set_option Elab.async false

/-! ## Requests that act on the blade or on the job from rest (R99 to R106, R113, R146, R150, R153, R158) -/

/-- R165: a refused request that its block judges leaves its answered entry and nothing else. -/
theorem exec_judged_refused {i : Instr} {kind : Byte} {body : List Byte} {refusal : State → Option ResultCode}
    {act : State → State} {code : ResultCode} {s : State} (hr : s.ready) (h : refusal (s.arrived i) = some code)
    (hf : requestFrame i = some (kind, body) := by rfl) (hw : i.wellFormed = true := by rfl)
    (ht : requestTake i = some (fun s => judged (refusal s) act s) := by rfl) :
    exec i s = .next (s.withEntry i (.ready ⟨code, []⟩)) := by
  refine exec_ready_answer hr ?_ hf hw ht
  rw [h]
  rfl

/-- R165: an accepted request that its block judges acts on the state with its frame arrived, and is answered OK. -/
theorem exec_judged_accepted {i : Instr} {kind : Byte} {body : List Byte} {refusal : State → Option ResultCode}
    {act : State → State} {s : State} (hr : s.ready) (h : refusal (s.arrived i) = none)
    (hf : requestFrame i = some (kind, body) := by rfl) (hw : i.wellFormed = true := by rfl)
    (ht : requestTake i = some (fun s => judged (refusal s) act s) := by rfl) :
    exec i s = .next ((act (s.arrived i)).mapLink fun l =>
      { l with requests := s.link.requests ++ entryOf i (.ready ⟨.ok, []⟩) }) := by
  rw [exec_ready hr hf hw ht, h]
  rfl

/-! ### BLADE -/

/-- R158: the request of the blade a defined value makes. -/
def Stroke.byHand (v : Byte) (startDuty : Nat) (k : Stroke) : Stroke :=
  if v = 0 then k.spinUp startDuty else if v = 1 then k.toIdle startDuty else k.toCoast

theorem takeBlade_idle (v : Byte) {s : State} (hj : s.job.state = .idle) (hv : v.toNat ≤ 2) :
    takeBlade v s = answer .ok (strokeTo (Stroke.byHand v s.params.startDuty) s) := by
  have hCases : v = 0 ∨ v = 1 ∨ v = 2 := by bv_omega
  unfold takeBlade
  rw [if_neg (not_not.mpr hj)]
  rcases hCases with rfl | rfl | rfl <;> rfl

theorem takeBlade_undefined (v : Byte) {s : State} (hj : s.job.state = .idle) (hv : 2 < v.toNat) :
    takeBlade v s = answer .badField s := by
  unfold takeBlade
  rw [if_neg (not_not.mpr hj)]
  split <;> first | omega | rfl

/-- Settles O36: each refusal, each value's request of the blade, and the requests by the stroke's state. -/
theorem bladeByHand : Obligations.BladeByHand := by
  refine ⟨fun v s hr => ⟨fun hj => exec_ready_answer (take := takeBlade v) hr (if_pos hj),
    fun hj hv => exec_ready_answer hr (takeBlade_undefined v hj hv), fun hj hv => ?_⟩, fun duty k => ?_⟩
  · refine ⟨_, exec_ready hr (take := takeBlade v), ?_⟩
    rw [takeBlade_idle v (s := s.arrived (.blade v)) hj hv]
    exact ⟨(mapLink_keeps _ _).after
        ((strokeTo_keeps _ _).after (mapLink_keeps _ s).mono (m := [.stroke, .load, .link])), rfl, rfl,
        strokeTo_load (Stroke.byHand v s.params.startDuty) (s.arrived (.blade v))⟩
  · obtain ⟨state, duty', pwmDuty, pwmPhase, index, m, lock, spinTimer, stallTimer⟩ := k
    cases state <;> exact ⟨rfl, rfl, rfl⟩

/-! ### CLEAR -/

theorem latchedActive_iff (g : Guard) :
    g.latchedActive = true ↔ ∃ i, g.latch.getLsbD (inputIndex i).val = true ∧ (g.input i).accepted = true := by
  unfold Guard.latchedActive
  simp only [List.any_eq_true, Bool.and_eq_true]
  exact ⟨fun ⟨i, _, h⟩ => ⟨i, h⟩, fun ⟨i, h⟩ => ⟨i, mem_allInputs i, h⟩⟩

/-- R146: the refusal of a CLEAR in FAULT. -/
theorem clearRefusal_fault {s : State} (hj : s.job.state = .fault) :
    clearRefusal s = if s.guard.latchedActive then some .inputActive else none := by
  unfold clearRefusal firstRefusal firstRefusal
  rw [hj]
  rfl

/-- Settles O33: the two refusals, and what the cleared latch leaves of a STALLED stroke and of any other. -/
theorem clearEmptiesLatch : Obligations.ClearEmptiesLatch := by
  intro s hr latched
  refine ⟨fun hj => exec_judged_refused hr ?_, fun hj hl => exec_judged_refused hr ?_, fun hj hl =>
    ⟨_, exec_judged_accepted hr ?_, ?_, rfl, rfl, rfl, fun hs => ?_, fun hs => ?_⟩⟩
  · unfold clearRefusal firstRefusal
    exact if_pos (decide_eq_true hj)
  · rw [clearRefusal_fault (s := s.arrived .clear) hj]
    exact if_pos ((latchedActive_iff s.guard).mpr hl)
  · rw [clearRefusal_fault (s := s.arrived .clear) hj]
    exact if_neg (mt (latchedActive_iff s.guard).mp hl)
  · refine (mapLink_keeps _ _).after ((setJobState_keeps _ _).after ((strokeTo_keeps _ _).after ?_))
    exact (mapGuard_keeps _ _).after (mapLink_keeps _ s).mono (m := [.job, .guard, .stroke, .load, .link])
  · have hOff : s.stroke.unstall = s.stroke.enterOff := if_pos hs
    refine ⟨hOff, (strokeTo_load Stroke.unstall s).trans ?_⟩
    rw [hOff, hs]
    rfl
  · have hStays : s.stroke.unstall = s.stroke := if_neg hs
    refine ⟨hStays, (strokeTo_load Stroke.unstall s).trans ?_⟩
    rw [hStays, told_same]

/-! ### RESUME -/

/-- R153: the refusal of a RESUME in HOLDING. -/
theorem resumeRefusal_holding {s : State} (hj : s.job.state = .holding) :
    resumeRefusal s = if s.guard.cutBlocked then some .inputActive else none := by
  unfold resumeRefusal firstRefusal firstRefusal
  rw [hj]
  rfl

/-- R153: there is something to move along. -/
theorem movable_iff (s : State) : movable s = true ↔
    s.interp.active.isSome = true ∨ s.interp.link.isSome = true ∨
      ∃ sl, s.store.slot s.store.execPtr = some sl ∧ sl.state = .planned := by
  have hNext : (nextPlanned s).isSome = true ↔ ∃ sl, s.store.slot s.store.execPtr = some sl ∧ sl.state = .planned := by
    unfold nextPlanned
    cases s.store.slot s.store.execPtr with
    | none => simp
    | some sl =>
      dsimp only
      by_cases hp : sl.state = .planned <;> simp [hp]
  unfold movable
  rw [Bool.or_eq_true, Bool.or_eq_true, hNext, or_assoc]

theorem resumeJob_keeps (s : State) : Keeps [.job, .stroke, .load, .link] s (resumeJob s) := by
  unfold resumeJob
  split
  · split
    · refine (warmupPassage_keeps _).after ((spinUpRequest_keeps _).after ?_)
      exact (mapJob_keeps _ s).mono
    · exact (becomeStarved_keeps s).mono
  · split <;> exact (setJobState_keeps _ s).mono

/-- R153: a job held at rest with nothing to move along starves. -/
theorem resumeJob_starves {s : State} (hh : s.job.held = true) (hm : movable s = false) :
    resumeJob s = becomeStarved s := by
  unfold resumeJob
  rw [if_pos hh, hm]
  rfl

/-- R150, R153: a job that goes on returns to its path, with the blade spun up when it was held at rest. -/
theorem resumeJob_goesOn {s : State} (h : s.job.held = false ∨ movable s = true) :
    (resumeJob s).stroke = (if s.job.held then s.stroke.spinUp s.params.startDuty else s.stroke) ∧
      (resumeJob s).load = s.load.told s.stroke.state (resumeJob s).stroke.state ∧ (resumeJob s).link = s.link ∧
      (resumeJob s).job =
        { s.job with
          held := false
          state :=
            if (resumeJob s).stroke.state = .run ∧ s.interp.startPending = false then .cutting else .warmup } := by
  by_cases hh : s.job.held = true
  · have hm : movable s = true := h.resolve_left (by rw [hh]; decide)
    obtain ⟨u, hu⟩ : ∃ u, u = spinUpRequest (s.mapJob fun j => { j with held := false, state := .warmup }) := ⟨_, rfl⟩
    have hEq : resumeJob s = warmupPassage u := by
      unfold resumeJob
      rw [if_pos hh, if_pos hm, hu]
    have kPass := warmupPassage_keeps u
    have hStroke : (warmupPassage u).stroke = u.stroke := kPass .stroke (by decide)
    have hState : u.job.state = .warmup := by rw [hu]; rfl
    rw [hEq, if_pos hh, hStroke, kPass .load (by decide), kPass .link (by decide), warmupPassage_job hState, hu]
    exact ⟨rfl, strokeTo_load _ _, rfl, rfl⟩
  · rw [Bool.not_eq_true] at hh
    have hEq : resumeJob s =
        setJobState (if s.stroke.state = .run ∧ s.interp.startPending = false then .cutting else .warmup) s := by
      unfold resumeJob
      simp only [hh, Bool.false_eq_true, if_false, Bool.and_eq_true, decide_eq_true_iff, Bool.not_eq_true']
      split <;> rfl
    rw [hEq, hh]
    refine ⟨rfl, (told_same _ _).symm, rfl, ?_⟩
    exact congrArg (fun b => ({ s.job with held := b, state := _ } : Job)) hh

/-- R153, R154: what the starving of a job leaves, with room for its notice. -/
theorem becomeStarved_parts (s : State) :
    (becomeStarved s).job = { s.job with state := .starved, held := false, dwell := some 0 } ∧
      (becomeStarved s).stroke = s.stroke ∧ (becomeStarved s).load = s.load ∧
      (s.link.notices.length < 16 → (becomeStarved s).link.notices =
        s.link.notices ++ [.starved s.job.lastCompleted s.job.passesDone]) :=
  ⟨rfl, rfl, rfl, fun h => ((queueNotice_link _ _).2.2).trans (if_pos h)⟩

/-- R153: what an accepted RESUME leaves. -/
theorem resumeJob_acts (s : State) :
    let t := resumeJob s
    let movable := s.interp.active.isSome = true ∨ s.interp.link.isSome = true ∨
      ∃ sl, s.store.slot s.store.execPtr = some sl ∧ sl.state = .planned
    t.job =
        { s.job with
          state := t.job.state
          held := false
          dwell := if t.job.state = .starved then some 0 else s.job.dwell } ∧
      t.load = s.load.told s.stroke.state t.stroke.state ∧
      (s.job.held = false ∨ movable →
        t.job.state = (if t.stroke.state = .run ∧ s.interp.startPending = false then .cutting else .warmup) ∧
        t.stroke = (if s.job.held then s.stroke.spinUp s.params.startDuty else s.stroke) ∧
        t.link.notices = s.link.notices) ∧
      (s.job.held = true → ¬movable →
        t.stroke = s.stroke ∧ t.job.state = .starved ∧
        (s.link.notices.length < 16 →
          t.link.notices = s.link.notices ++ [.starved s.job.lastCompleted s.job.passesDone])) := by
  intro t movable
  by_cases h : s.job.held = false ∨ movable
  · obtain ⟨hStroke, hLoad, hLink, hJob⟩ := resumeJob_goesOn (h.imp_right (movable_iff s).mpr)
    have hPath : t.job.state ≠ .starved := by
      rw [show t.job = _ from hJob]
      dsimp only
      split <;> exact nofun
    refine ⟨?_, hLoad, fun _ => ⟨congrArg Job.state hJob, hStroke, congrArg Link.notices hLink⟩, fun hh hm =>
      absurd h (not_or.mpr ⟨by rw [hh]; exact nofun, hm⟩)⟩
    rw [if_neg hPath, show t.job = _ from hJob]
  · obtain ⟨hHeld, hStays⟩ := not_or.mp h
    have ht : t = becomeStarved s :=
      resumeJob_starves (Bool.not_eq_false _ |>.mp hHeld) (Bool.eq_false_iff.mpr (mt (movable_iff s).mp hStays))
    obtain ⟨hJob, hStroke, hLoad, hNotices⟩ := becomeStarved_parts s
    rw [ht, hStroke, hLoad, hJob, told_same]
    exact ⟨rfl, rfl, fun hGoes => absurd hGoes h, fun _ _ => ⟨rfl, rfl, hNotices⟩⟩

/-- Settles O31: the two refusals, the way on, and the starving of a job with nothing to move along. -/
theorem resumeActs : Obligations.ResumeActs := by
  intro s hr
  refine ⟨fun hj => exec_judged_refused hr ?_, fun hj hb => exec_judged_refused hr ?_, fun hj hb =>
    ⟨_, exec_judged_accepted hr ?_, ?_, rfl, resumeJob_acts (s.arrived .resume)⟩⟩
  · unfold resumeRefusal firstRefusal
    exact if_pos (decide_eq_true hj)
  · rw [resumeRefusal_holding (s := s.arrived .resume) hj]
    exact if_pos ((cutBlocked_iff s.guard).mpr hb)
  · rw [resumeRefusal_holding (s := s.arrived .resume) hj]
    exact if_neg (mt (cutBlocked_iff s.guard).mp hb)
  · refine (mapLink_keeps _ _).after ((resumeJob_keeps _).after ?_)
    exact (mapLink_keeps _ s).mono

end Sys2Proof.Machine


namespace Sys2Proof.Machine

set_option Elab.async false

/-! ## SET (R102 to R105, R135, R155, R162, R169, 12.6) -/

/-! ### What is stored under an identifier -/

/-- The parameters that are numbers, in the order of their identifiers 0x01 to 0x27 (12.6). -/
def Params.scalars (q : Params) : List Nat :=
  [q.accel, q.stopDecel, q.overridePct, q.advanceLimit, q.blendAngle, q.pivotLimit, q.cornerFloor, q.pivotRate,
    q.linkFeed, q.strokeCut, q.strokeIdle, q.startDuty, q.ki, q.lockBand, q.lockCount, q.stallTime, q.spinupLimit,
    q.t1, q.t2, q.t3, q.d0, q.d1, q.d2, q.d3, q.hyst, q.overload, q.overloadCount, q.samplePhase,
    (if q.bandNotice then 1 else 0), q.travelX, q.travelY, q.traverseFeed, q.homeFeed, q.homeSearch, q.starveDwell,
    q.flowHold, q.flowGo, q.lowWater, q.frameTimeout]

/-- The policies, in the order of their identifiers 0x70 to 0x73 (12.6). -/
def Params.policies (q : Params) : List PolicyAction :=
  [q.polLength, q.polRadius, q.polHeading, q.polPivot]

/-- 12.6: the inputs stand in the order of their index. -/
theorem index_of_allInputs {n : Nat} {i : InputId} (h : allInputs[n]? = some i) : n = (inputIndex i).val := by
  obtain ⟨hn, -⟩ := List.getElem?_eq_some_iff.mp h
  rw [allInputs_length] at hn
  interval_cases n <;> (cases h; rfl)

/-- 12.6: the value under an identifier is a number, a setting of an input or a policy. -/
theorem storedAt_congr {s t : State} {k : Nat}
    (hScalar : 0 < k → k < 0x40 → t.params.scalars[k - 1]? = s.params.scalars[k - 1]?)
    (hFilter : ∀ i, k = 0x40 + (inputIndex i).val → (t.guard.input i).filter = (s.guard.input i).filter)
    (hAction : ∀ i, k = 0x50 + (inputIndex i).val → (t.guard.input i).action = (s.guard.input i).action)
    (hRelease : ∀ i, k = 0x60 + (inputIndex i).val →
      (t.guard.input i).notifyRelease = (s.guard.input i).notifyRelease)
    (hPolicy : 0x70 ≤ k → t.params.policies[k - 0x70]? = s.params.policies[k - 0x70]?) :
    t.storedAt k = s.storedAt k := by
  have hInput : ∀ (base : Nat) (f : InputState → Int), base ≤ k →
      (∀ i, k = base + (inputIndex i).val → f (t.guard.input i) = f (s.guard.input i)) →
      (allInputs[k - base]?.map fun i => f (t.guard.input i)) =
        allInputs[k - base]?.map fun i => f (s.guard.input i) := by
    intro base f hBase he
    cases hi : allInputs[k - base]? with
    | none => rfl
    | some i =>
      have := index_of_allInputs hi
      exact congrArg some (he i (by omega))
  unfold State.storedAt
  dsimp only
  by_cases h0 : k = 0
  · rw [if_pos h0, if_pos h0]
  rw [if_neg h0, if_neg h0]
  by_cases h1 : k < 0x40
  · rw [if_pos h1, if_pos h1]
    have h := hScalar (Nat.pos_of_ne_zero h0) h1
    unfold Params.scalars at h
    rw [h]
  rw [if_neg h1, if_neg h1]
  by_cases h2 : k < 0x50
  · rw [if_pos h2, if_pos h2]
    exact hInput 0x40 (fun inp => inp.filter) (by omega) fun i hi => congrArg Nat.cast (hFilter i hi)
  rw [if_neg h2, if_neg h2]
  by_cases h3 : k < 0x60
  · rw [if_pos h3, if_pos h3]
    exact hInput 0x50 (fun inp => inp.action.code) (by omega) fun i hi =>
      congrArg (fun a : InputAction => (a.code : Int)) (hAction i hi)
  rw [if_neg h3, if_neg h3]
  by_cases h4 : k < 0x70
  · rw [if_pos h4, if_pos h4]
    exact hInput 0x60 (fun inp => if inp.notifyRelease then 1 else 0) (by omega) fun i hi =>
      congrArg (fun b : Bool => if b then (1 : Int) else 0) (hRelease i hi)
  rw [if_neg h4, if_neg h4]
  exact congrArg (Option.map _) (hPolicy (by omega))

/-! ### What a SET writes -/

/-- A number that is stored as it is, with no related parameter. -/
def ParamId.alone : ParamId → Bool
  | .accel => false
  | .strokeCut => false
  | .flowHold => false
  | .bandNotice => false
  | .filter _ => false
  | .action _ => false
  | .notifyRelease _ => false
  | .policy _ => false
  | _ => true

theorem write_alone {p : ParamId} (h : p.alone = true) (n : Nat) (s : State) :
    (p.write n s).params.scalars = s.params.scalars.set (p.ident - 1) n ∧
      (p.write n s).params.policies = s.params.policies ∧ (p.write n s).guard = s.guard ∧
      1 ≤ p.ident ∧ p.ident < 0x40 := by
  cases p
  case accel => cases h
  case strokeCut => cases h
  case flowHold => cases h
  case bandNotice => cases h
  case filter => cases h
  case action => cases h
  case notifyRelease => cases h
  case policy => cases h
  all_goals exact ⟨rfl, rfl, rfl, by decide, by decide⟩

theorem setPolicy_policies (cls : GeometryClass) (a : PolicyAction) (q : Params) :
    (q.setPolicy cls a).policies = q.policies.set cls.code a := by
  cases cls <;> rfl

theorem setPolicy_scalars (cls : GeometryClass) (a : PolicyAction) (q : Params) :
    (q.setPolicy cls a).scalars = q.scalars := by
  cases cls <;> rfl

/-- A write of numbers leaves the settings of the inputs, the policies and the numbers not written. -/
theorem storedAt_of_scalars {s t : State} {k : Nat} (hg : t.guard = s.guard)
    (hp : t.params.policies = s.params.policies)
    (hs : 0 < k → k < 0x40 → t.params.scalars[k - 1]? = s.params.scalars[k - 1]?) : t.storedAt k = s.storedAt k :=
  storedAt_congr hs (fun _ _ => by rw [hg]) (fun _ _ => by rw [hg]) (fun _ _ => by rw [hg]) fun _ => by rw [hp]

/-- A write of a setting of an input leaves what it does not name. -/
theorem storedAt_updateInput {i : InputId} {f : InputState → InputState} {s : State} {k : Nat}
    (hFilter : k = 0x40 + (inputIndex i).val → (f (s.guard.input i)).filter = (s.guard.input i).filter)
    (hAction : k = 0x50 + (inputIndex i).val → (f (s.guard.input i)).action = (s.guard.input i).action)
    (hRelease : k = 0x60 + (inputIndex i).val →
      (f (s.guard.input i)).notifyRelease = (s.guard.input i).notifyRelease) :
    (s.mapGuard fun g => g.updateInput i f).storedAt k = s.storedAt k := by
  have hKept {α : Type} (setting : InputState → α) {base : Nat}
      (h : k = base + (inputIndex i).val → setting (f (s.guard.input i)) = setting (s.guard.input i)) (j : InputId)
      (hj : k = base + (inputIndex j).val) :
      setting ((s.guard.updateInput i f).input j) = setting (s.guard.input j) := by
    by_cases hSame : j = i
    · subst hSame
      rw [input_updateInput_self]
      exact h hj
    · rw [input_updateInput_other _ _ hSame]
  exact storedAt_congr (fun _ _ => rfl) (hKept InputState.filter hFilter) (hKept InputState.action hAction)
    (hKept InputState.notifyRelease hRelease) fun _ => rfl

/-- R169: a SET leaves every parameter but the one it sets and a related one (R37, R92, R107). -/
theorem storedAt_write_other (p : ParamId) (n : Nat) (s : State) {k : Nat} (hk : k ≠ p.ident)
    (hRelated : (p.ident, k) ∉ [(0x01, 0x02), (0x0A, 0x0B), (0x24, 0x25)]) :
    (p.write n s).storedAt k = s.storedAt k := by
  cases hAlone : p.alone
  · cases p
    case accel =>
      have h2 : k ≠ 0x02 := fun h => hRelated (by rw [h]; decide)
      have hk : k ≠ 0x01 := hk
      refine storedAt_of_scalars rfl rfl fun _ _ => ?_
      show ((s.params.scalars.set 0 n).set 1 _)[k - 1]? = _
      rw [List.getElem?_set_ne (by omega), List.getElem?_set_ne (by omega)]
    case strokeCut =>
      have h2 : k ≠ 0x0B := fun h => hRelated (by rw [h]; decide)
      have hk : k ≠ 0x0A := hk
      refine storedAt_of_scalars rfl rfl fun _ _ => ?_
      show ((s.params.scalars.set 9 n).set 10 _)[k - 1]? = _
      rw [List.getElem?_set_ne (by omega), List.getElem?_set_ne (by omega)]
    case flowHold =>
      have h2 : k ≠ 0x25 := fun h => hRelated (by rw [h]; decide)
      have hk : k ≠ 0x24 := hk
      refine storedAt_of_scalars rfl rfl fun _ _ => ?_
      show ((s.params.scalars.set 35 n).set 36 _)[k - 1]? = _
      rw [List.getElem?_set_ne (by omega), List.getElem?_set_ne (by omega)]
    case bandNotice =>
      have hk : k ≠ 0x1D := hk
      refine storedAt_of_scalars rfl rfl fun _ _ => ?_
      show (s.params.scalars.set 28 _)[k - 1]? = _
      rw [List.getElem?_set_ne (by omega)]
    case filter i => exact storedAt_updateInput (fun h => absurd h hk) (fun _ => rfl) fun _ => rfl
    case action i => exact storedAt_updateInput (fun _ => rfl) (fun h => absurd h hk) fun _ => rfl
    case notifyRelease i => exact storedAt_updateInput (fun _ => rfl) (fun _ => rfl) fun h => absurd h hk
    case policy cls =>
      have hk : k ≠ 0x70 + cls.code := hk
      refine storedAt_congr (fun _ _ => ?_) (fun _ _ => rfl) (fun _ _ => rfl) (fun _ _ => rfl) fun _ => ?_
      · exact congrArg (·[k - 1]?) (setPolicy_scalars cls (policyOfCode n) s.params)
      · show (s.params.setPolicy cls (policyOfCode n)).policies[k - 0x70]? = _
        rw [setPolicy_policies, List.getElem?_set_ne (by omega)]
    all_goals cases hAlone
  · obtain ⟨hScalars, hPolicies, hGuard, hLow, hHigh⟩ := write_alone hAlone n s
    refine storedAt_of_scalars hGuard hPolicies fun _ _ => ?_
    rw [hScalars, List.getElem?_set_ne (by omega)]

/-- R169: a parameter reads what has been written, for an enumerated one a code of its own. -/
theorem read_write {p : ParamId} {n : Nat} (s : State) (h : ∀ c, p.codes = some c → n < c) :
    p.read (p.write n s) = n := by
  cases p
  case bandNotice =>
    have hn := h 2 rfl
    interval_cases n <;> rfl
  case filter i =>
    show (((s.guard.updateInput i _).input i).filter : Int) = n
    rw [input_updateInput_self]
  case action i =>
    have hn := h 5 rfl
    show (((s.guard.updateInput i _).input i).action.code : Int) = n
    rw [input_updateInput_self]
    interval_cases n <;> rfl
  case notifyRelease i =>
    have hn := h 2 rfl
    show onOff ((s.guard.updateInput i _).input i).notifyRelease = n
    rw [input_updateInput_self]
    interval_cases n <;> rfl
  case policy cls =>
    have hn := h 4 rfl
    have hPolicy : policyOf (s.params.setPolicy cls (policyOfCode n)) cls = policyOfCode n := by cases cls <;> rfl
    show ((policyOf (s.params.setPolicy cls (policyOfCode n)) cls).code : Int) = n
    rw [hPolicy]
    interval_cases n <;> rfl
  all_goals rfl

theorem write_keeps (p : ParamId) (n : Nat) (s : State) : Keeps [.params, .guard] s (p.write n s) := by
  cases p
  case filter => exact (mapGuard_keeps _ s).mono
  case action => exact (mapGuard_keeps _ s).mono
  case notifyRelease => exact (mapGuard_keeps _ s).mono
  all_goals exact (mapParams_keeps _ s).mono

/-- R169: of the Guard Unit a SET writes settings of inputs only. -/
theorem write_guard (p : ParamId) (n : Nat) (s : State) :
    (p.write n s).guard = { s.guard with inputs := (p.write n s).guard.inputs } ∧
      ∀ j, (p.write n s).guard.input j =
        { s.guard.input j with
          filter := ((p.write n s).guard.input j).filter
          action := ((p.write n s).guard.input j).action
          notifyRelease := ((p.write n s).guard.input j).notifyRelease } := by
  have hUpdate : ∀ (i j : InputId) (f : InputState → InputState),
      (∀ inp, f inp = { inp with
        filter := (f inp).filter, action := (f inp).action, notifyRelease := (f inp).notifyRelease }) →
      (s.guard.updateInput i f).input j =
        { s.guard.input j with
          filter := ((s.guard.updateInput i f).input j).filter
          action := ((s.guard.updateInput i f).input j).action
          notifyRelease := ((s.guard.updateInput i f).input j).notifyRelease } := by
    intro i j f hf
    rw [input_updateInput]
    split
    · next h => subst h; exact hf _
    · rfl
  cases p
  case filter i => exact ⟨rfl, fun j => hUpdate i j _ fun _ => rfl⟩
  case action i => exact ⟨rfl, fun j => hUpdate i j _ fun _ => rfl⟩
  case notifyRelease i => exact ⟨rfl, fun j => hUpdate i j _ fun _ => rfl⟩
  all_goals exact ⟨rfl, fun _ => rfl⟩

/-! ### What a SET stores -/

/-- R169, check 4: an accepted value of an enumerated parameter is one of its codes. -/
theorem code_of_accepted {p : ParamId} {v : Int} {c : Nat} (hc : p.codes = some c) (h : p.undefinedCode v = false) :
    0 ≤ v ∧ v < c := by
  unfold ParamId.undefinedCode at h
  rw [hc] at h
  simp only [Bool.or_eq_false_iff, decide_eq_false_iff_not] at h
  omega

theorem hold_nonneg {p : ParamId} {s : State} {v : Int} (hOk : s.paramsOk) (h : p.undefinedCode v = false) :
    0 ≤ p.hold s v := by
  have hAccel := hOk.accel
  have hStrokes := hOk.strokes
  have hThresholds := hOk.thresholds
  have hFlow := hOk.flow
  cases p
  case stopDecel => exact clamp_nonneg v _ (by omega) (by omega)
  case strokeIdle => exact clamp_nonneg v _ (by omega) (by omega)
  case flowGo => exact clamp_nonneg v _ (by omega) (by omega)
  case t1 =>
    have := clamp_nonneg v 1023 (lo := 0) (by decide) (by decide)
    show 0 ≤ min (clamp v 0 1023) ((s.params.t2 : Int) - 1)
    omega
  case t2 =>
    show 0 ≤ min (max (clamp v 0 1023) ((s.params.t1 : Int) + 1)) ((s.params.t3 : Int) - 1)
    omega
  case t3 =>
    show 0 ≤ max (clamp v 0 1023) ((s.params.t2 : Int) + 1)
    omega
  case travelX => exact (clamp_nonneg v _ (by decide) (by decide)).trans (Int.le_max_left _ _)
  case travelY => exact (clamp_nonneg v _ (by decide) (by decide)).trans (Int.le_max_left _ _)
  case bandNotice => exact (code_of_accepted rfl h).1
  case action => exact (code_of_accepted rfl h).1
  case notifyRelease => exact (code_of_accepted rfl h).1
  case policy cls =>
    have := (code_of_accepted (p := .policy cls) rfl h).1
    show 0 ≤ if policyAllowed cls (policyOfCode v.toNat) then v else 0
    split <;> omega
  all_goals exact clamp_nonneg v _ (by decide) (by decide)

theorem hold_code {p : ParamId} {v : Int} {c : Nat} (s : State) (hc : p.codes = some c)
    (h : p.undefinedCode v = false) : (p.hold s v).toNat < c := by
  have hv := code_of_accepted hc h
  have hHold : p.hold s v = v ∨ p.hold s v = 0 := by
    cases p
    case bandNotice => exact .inl rfl
    case action => exact .inl rfl
    case notifyRelease => exact .inl rfl
    case policy cls =>
      show (if policyAllowed cls (policyOfCode v.toNat) then v else 0) = v ∨ _ = 0
      split
      · exact .inl rfl
      · exact .inr (if_neg ‹_›)
    all_goals cases hc
  rcases hHold with hHold | hHold <;> rw [hHold] <;> omega

/-! ### The expiry a SET brings about -/

/-- The parameters that limit a timer of their own. -/
def ParamId.limits : ParamId → Bool
  | .stallTime => true
  | .spinupLimit => true
  | .starveDwell => true
  | .frameTimeout => true
  | .filter _ => true
  | _ => false

theorem expiryOf_other {p : ParamId} (h : p.limits = false) (s : State) (n : Int) : s.expiryOf p.ident n = none := by
  cases p
  case stallTime => cases h
  case spinupLimit => cases h
  case starveDwell => cases h
  case frameTimeout => cases h
  case filter => cases h
  case action i => cases i <;> rfl
  case notifyRelease i => cases i <;> rfl
  case policy cls => cases cls <;> rfl
  all_goals rfl

theorem driven_iff (j : StrokeState) : j ∈ [StrokeState.spinup, .run, .idle] ↔ j.driven = true := by
  cases j <;> decide

/-- A limit of whole ms against what a timer has counted, as numbers of either sort. -/
theorem limit_cast (n us : Nat) : ((n : Int) * 1000 ≤ us) = (n * 1000 ≤ us) := by
  exact_mod_cast rfl

/-- R104, R105: a new STALL_TIME. -/
theorem expiryOf_stallTime (s : State) (n : Nat) :
    s.expiryOf 0x10 n =
      if reached s.stroke.stallTimer n then
        some (if s.stroke.state.driven then .stallTimerExpiry else .coastTimerExpiry)
      else none := by
  unfold State.expiryOf reached
  simp only [driven_iff]
  cases s.stroke.stallTimer <;> simp [limit_cast]

/-- R103: a new SPINUP_LIMIT. -/
theorem expiryOf_spinupLimit (s : State) (n : Nat) :
    s.expiryOf 0x11 n = if reached s.stroke.spinTimer n then some .spinupTimerExpiry else none := by
  unfold State.expiryOf reached
  cases s.stroke.spinTimer <;> simp [limit_cast]

/-- R155: a new STARVE_DWELL. -/
theorem expiryOf_starveDwell (s : State) (n : Nat) :
    s.expiryOf 0x23 n = if reached s.job.dwell n then some .starveDwellExpiry else none := by
  unfold State.expiryOf reached
  cases s.job.dwell <;> simp [limit_cast]

/-- R162: a new FRAME_TIMEOUT. -/
theorem expiryOf_frameTimeout (s : State) (n : Nat) :
    s.expiryOf 0x27 n = if reached s.link.gap n then some .gapTimerExpiry else none := by
  unfold State.expiryOf reached
  cases s.link.gap <;> simp [limit_cast]

/-- R135: a new FILTER. -/
theorem expiryOf_filter (i : InputId) (s : State) (n : Nat) :
    s.expiryOf (0x40 + (inputIndex i).val) n =
      if reached (s.guard.input i).timer n then some (.filterTimerExpiry i) else none := by
  have hAt : allInputs[(inputIndex i).val]? = some i := by cases i <;> rfl
  have hLow := (inputIndex i).isLt
  unfold State.expiryOf reached
  dsimp only
  rw [if_neg fun h => by omega, if_neg fun h => by omega, if_neg fun h => by omega, if_neg fun h => by omega,
    if_pos (by omega), Nat.add_sub_cancel_left, hAt, Option.bind_some]
  cases (s.guard.input i).timer <;> simp [limit_cast]

/-! ### The step of an accepted SET -/

/-- R102: a change of STROKE_CUT in SPINUP, and of no other parameter, sets the lock counter to 0 (log entry 22). -/
def State.relocked (id : Nat) (h before : Int) (s : State) : State :=
  if id = 0x0A ∧ h ≠ before ∧ s.stroke.state = .spinup then s.mapStroke fun k => { k with lock := 0 } else s

theorem relocked_other {id : Nat} (h : id ≠ 0x0A) (n before : Int) (s : State) : s.relocked id n before = s :=
  if_neg fun hc => h hc.1

/-- An expiry that is brought about when a timer is out, and otherwise nothing. -/
theorem expires_or_stands {expiry : Option Instr} {out : Bool} {j : Instr} {u w : State} {id : Nat} {h before : Int}
    (he : expiry = if out then some j else none) (hId : id ≠ 0x0A) (hOut : exec j u = .next w)
    (hShort : out = false → w = u) :
    (∀ i, expiry = some i → exec i u = .next w) ∧ (expiry = none → w = u.relocked id h before) := by
  rw [he, relocked_other hId]
  cases out
  · exact ⟨nofun, fun _ => hShort rfl⟩
  · exact ⟨fun i hi => Option.some.inj hi ▸ hOut, nofun⟩

theorem not_timerOut {timer : Option Nat} {ms : Nat} (h : reached timer ms = false) : ¬timerOut timer ms := fun ht =>
  Bool.false_ne_true (h.symm.trans ((reached_iff _ _).mpr ht))

/-- R102 to R105, R135, R155, R162: a SET of a timer's limit makes the expiry of that timer when it has run out, and
otherwise leaves all as it is; a SET of another parameter may set the lock counter to 0. -/
theorem afterSet_expires (p : ParamId) (before : Int) (n : Nat) (i : Instr) (s : State) :
    let u := p.write n (s.arrived i)
    (∀ j, s.expiryOf p.ident n = some j → exec j u = .next (p.afterSet before u)) ∧
      (s.expiryOf p.ident n = none → p.afterSet before u = u.relocked p.ident n before) := by
  intro u
  cases hLimits : p.limits
  · rw [expiryOf_other hLimits]
    refine ⟨nofun, fun _ => ?_⟩
    cases p
    case strokeCut =>
      show (if before = (n : Int) then u else u.mapStroke relock) = _
      unfold State.relocked
      by_cases hSame : before = n
      · rw [if_pos hSame, if_neg fun h => h.2.1 hSame.symm]
      · rw [if_neg hSame]
        by_cases hSpinup : u.stroke.state = .spinup
        · rw [if_pos ⟨rfl, Ne.symm hSame, hSpinup⟩]
          exact congrArg (fun k => { u with stroke := k }) (if_pos hSpinup)
        · rw [if_neg fun h => hSpinup h.2.2]
          exact congrArg (fun k => { u with stroke := k }) (if_neg hSpinup)
    case stallTime => cases hLimits
    case spinupLimit => cases hLimits
    case starveDwell => cases hLimits
    case frameTimeout => cases hLimits
    case filter => cases hLimits
    case action j => exact (relocked_other (by show 0x50 + _ ≠ 0x0A; omega) _ _ _).symm
    case notifyRelease j => exact (relocked_other (by show 0x60 + _ ≠ 0x0A; omega) _ _ _).symm
    case policy cls => exact (relocked_other (by show 0x70 + _ ≠ 0x0A; omega) _ _ _).symm
    all_goals exact (relocked_other (by decide) _ _ _).symm
  · cases p
    case stallTime =>
      refine expires_or_stands (expiryOf_stallTime s n) (by decide) ?_ fun hShort => ?_
      · show exec (if s.stroke.state.driven then _ else _) u =
          .next (if s.stroke.state.driven then stallReached u else coastReached u)
        split <;> rfl
      · have hRuns : ¬timerOut u.stroke.stallTimer u.params.stallTime := not_timerOut hShort
        show (if s.stroke.state.driven then stallReached u else coastReached u) = u
        rw [stallReached_idle (.inr hRuns), coastReached_idle (.inr hRuns), ite_self]
    case spinupLimit =>
      exact expires_or_stands (expiryOf_spinupLimit s n) (by decide) rfl fun hShort =>
        spinupFailed_idle (.inr (not_timerOut hShort))
    case starveDwell =>
      exact expires_or_stands (expiryOf_starveDwell s n) (by decide) rfl fun hShort =>
        dwellReached_idle (not_timerOut hShort)
    case frameTimeout =>
      exact expires_or_stands (expiryOf_frameTimeout s n) (by decide) rfl fun hShort =>
        gapReached_idle (not_timerOut hShort)
    case filter j =>
      have hInput : u.guard.input j = { s.guard.input j with filter := n } := input_updateInput_self s.guard j _
      have hId : 0x40 + (inputIndex j).val ≠ 0x0A := by omega
      refine expires_or_stands (expiryOf_filter j s n) hId rfl fun hShort => filterReached_idle ?_
      rw [hInput]
      exact not_timerOut hShort
    all_goals cases hLimits

/-- R169: what an accepted SET does and answers. -/
theorem takeSet_accepted {id : Byte} {v : Word} {p : ParamId} {s : State} (hp : paramOfId id.toNat = some p)
    (hFixed : p.fixed = false) (hIdle : p.idleOnly = true → s.job.state = .idle)
    (hCode : p.undefinedCode v.toInt = false) :
    takeSet id v s = (applySet p v.toInt s, .ready (setReply p v.toInt s)) := by
  have hIdleOnly : ¬(p.idleOnly && decide (s.job.state ≠ .idle)) = true := by
    rw [Bool.and_eq_true, decide_eq_true_eq]
    exact fun h => h.2 (hIdle h.1)
  unfold takeSet judgeSet
  rw [hp]
  dsimp only
  rw [hFixed, hCode, if_neg Bool.false_ne_true, if_neg hIdleOnly, if_neg Bool.false_ne_true]

/-- The frame of a request changes neither what a SET stores nor what a parameter reads. -/
theorem hold_arrived (p : ParamId) (i : Instr) (s : State) (v : Int) :
    p.hold (s.arrived i) v = p.hold s v ∧ p.read (s.arrived i) = p.read s := by
  cases p <;> exact ⟨rfl, rfl⟩

/-- Settles O21: the value held, what its storing writes and leaves, and the expiry it brings about. -/
theorem setStores : Obligations.SetStores := by
  intro id v old s hr hOk hOld hFixed hIdle hCode
  rw [storedAt_eq, Option.map_eq_some_iff] at hOld
  obtain ⟨p, hp, hRead⟩ := hOld
  have hIdent : p.ident = id.toNat := ident_eq hp
  have hNotFixed : p.fixed = false := Bool.eq_false_iff.mpr (mt (fixed_iff hp).mp hFixed)
  have hDefined : p.undefinedCode v.toInt = false := Bool.eq_false_iff.mpr (mt (undefinedCode_iff _ hp).mp hCode)
  obtain ⟨n, hn⟩ := Int.eq_ofNat_of_zero_le (hold_nonneg (p := p) hOk hDefined)
  have hHolds := hold_holds s v.toInt hOk hp hCode
  have hStored (c : Nat) (hc : p.codes = some c) : n < c := by
    have := hold_code s hc hDefined
    rw [hn] at this
    exact this
  obtain ⟨hHold, hBefore⟩ := hold_arrived p (.set id v) s v.toInt
  have hTake := takeSet_accepted (s := s.arrived (.set id v)) hp hNotFixed (fun h => hIdle ((idleOnly_iff hp).mp h))
    hDefined
  unfold applySet setReply at hTake
  rw [hHold, hBefore, hRead, hn] at hTake
  rw [hn] at hHolds
  obtain ⟨hExpires, hStands⟩ := afterSet_expires p old n (.set id v) s
  rw [hIdent] at hExpires hStands
  obtain ⟨hGuard, hInputs⟩ := write_guard p n (s.arrived (.set id v))
  have kWrite := write_keeps p n (s.arrived (.set id v))
  refine ⟨n, p.write n (s.arrived (.set id v)), p.afterSet old (p.write n (s.arrived (.set id v))), hHolds, kWrite, ?_,
    fun k hk hRelated => ?_, hGuard, hInputs, ?_, ?_⟩
  · rw [storedAt_eq, hp]
    exact congrArg some (read_write _ hStored)
  · exact storedAt_write_other p n (s.arrived (.set id v)) (hIdent ▸ hk) (hIdent ▸ hRelated)
  · have hStroke : (p.write n (s.arrived (.set id v))).stroke = s.stroke := kWrite .stroke (by decide)
    cases hExpiry : s.expiryOf id.toNat n with
    | some j => exact hExpires j hExpiry
    | none => exact (hStands hExpiry).trans (by unfold State.relocked; rw [hStroke])
  · rw [exec_ready hr (take := takeSet id v), hTake]
    rfl

end Sys2Proof.Machine


namespace Sys2Proof.Machine

set_option Elab.async false

/-! ## The Load Monitor (R109 to R119) -/

/-! ### The band -/

/-- R116, R117: an evaluation sets the band, and BAND is queued on a change with BAND_NOTICE on. -/
theorem evaluateBand_eq (s : State) :
    let now := nextBand s.params s.load.band s.load.average
    let evaluated := s.mapLoad fun m => { m with band := now }
    evaluateBand s =
      if now ≠ s.load.band ∧ s.params.bandNotice = true then
        queueNotice (.band now s.load.band s.load.average) evaluated
      else evaluated := by
  intro now evaluated
  unfold evaluateBand
  simp only [Bool.and_eq_true, decide_eq_true_iff]
  rfl

theorem evaluateBand_load (s : State) :
    (evaluateBand s).load = { s.load with band := nextBand s.params s.load.band s.load.average } := by
  rw [evaluateBand_eq]
  split
  · exact queueNotice_keeps _ _ .load (by decide)
  · rfl

theorem bandOf_le_nextBand (prm : Params) (band average : Nat) : bandOf prm average ≤ nextBand prm band average :=
  Nat.le_max_left ..

theorem nextBand_le_max (prm : Params) (band average : Nat) :
    nextBand prm band average ≤ max (bandOf prm average) band :=
  max_le_max_left _ (Nat.min_le_left ..)

/-- R116: with no hysteresis the band is that of the average. -/
theorem nextBand_of_hyst_zero {prm : Params} (h : prm.hyst = 0) (band average : Nat) :
    nextBand prm band average = bandOf prm average := by
  unfold nextBand
  rw [h, Nat.add_zero]
  exact max_eq_left (Nat.min_le_right ..)

/-- R116: the threshold a value must reach to be in a band above 0. -/
def Params.threshold (prm : Params) (n : Nat) : Nat :=
  if n = 3 then prm.t3 else if n = 2 then prm.t2 else prm.t1

/-- R116: a value at a band's threshold is in that band or above it. -/
theorem le_bandOf {prm : Params} {n y : Nat} (hn : n ≤ 3) (h : prm.threshold n ≤ y) : n ≤ bandOf prm y := by
  unfold Params.threshold at h
  unfold bandOf
  split
  · exact hn
  · split
    · split at h <;> omega
    · split at h
      · omega
      · split at h
        · omega
        · rw [if_pos h]
          omega

/-- R116: a band left downward has the average more than HYST below its threshold. -/
theorem lt_threshold_of_nextBand_lt {prm : Params} {band average n : Nat} (hBand : band ≤ 3)
    (hLeft : nextBand prm band average < n) (hn : n ≤ band) : average + prm.hyst < prm.threshold n := by
  have hMin : min band (bandOf prm (average + prm.hyst)) < n := (Nat.le_max_right ..).trans_lt hLeft
  have hBelow : ¬n ≤ bandOf prm (average + prm.hyst) := by omega
  exact Nat.not_le.mp (mt (le_bandOf (hn.trans hBand)) hBelow)

/-- Settles O50: the bounds on the new band, then the notice of a change. -/
theorem bandHysteresis : Obligations.BandHysteresis := by
  intro s hBand average band threshold now
  have hNow : now = nextBand s.params s.load.band average := congrArg Load.band (evaluateBand_load s)
  rw [hNow]
  refine ⟨rfl, bandOf_le_nextBand .., nextBand_le_max .., fun n hLeft hn => lt_threshold_of_nextBand_lt hBand hLeft hn,
    fun hHyst => nextBand_of_hyst_zero hHyst .., fun hSame => ?_, fun hChanged hNotice => ?_⟩
  · rw [evaluateBand_eq]
    exact if_neg fun ⟨hChanged, hNotice⟩ => hSame.elim hChanged fun hOff => by rw [hOff] at hNotice; cases hNotice
  · rw [evaluateBand_eq]
    exact if_pos ⟨hChanged, hNotice⟩

/-! ### SAMPLE -/

/-- R110, R112, R114: a conversion for LINK on a converter powered for it. -/
theorem powerUp_startConversion_link (m : Load) :
    m.powerUp.startConversion true =
      { m with
        powered := true
        settled := m.powered && m.settled
        reqLink := true
        valid := false
        inFlight := some (if m.powered && m.settled then .measuring 0 else .settling 0) } := by
  obtain ⟨powered, settled, inFlight, reqStroke, reqLink, result, valid, phase, acc, band, run⟩ := m
  cases powered <;> cases reqStroke <;> cases reqLink <;> rfl

/-- Settles O37: the request waits with the mark of the awaiting list, and its conversion begins. -/
theorem sampleDeferred : Obligations.SampleDeferred := by
  intro s hr
  refine ⟨_, exec_ready hr (take := takeSample), ?_, rfl, powerUp_startConversion_link s.load⟩
  exact (mapLink_keeps _ _).after ((mapLoad_keeps _ _).after (mapLink_keeps _ s).mono (m := [.load, .link]))

/-! ### The phase delay and the settling -/

/-- R109, R110: a phase delay that has run starts what an index report with SAMPLE_PHASE 0 starts. -/
theorem phaseReached_eq (s : State) :
    phaseReached s = if s.load.phase = some 0 then s.mapLoad (Load.indexReported 0) else s := rfl

theorem settled_done {s : State} {k : Nat} (h : s.load.inFlight = some (.settling k)) (hk : 24 ≤ k) :
    settled s = s.mapLoad fun m => { m with settled := true, inFlight := some (.measuring 0) } := by
  unfold settled
  rw [h]
  exact if_pos hk

theorem settled_early {s : State} (h : ∀ k, s.load.inFlight = some (.settling k) → k < 24) : settled s = s := by
  unfold settled
  split
  next k hk => exact if_neg (Nat.not_le.mpr (h k hk))
  all_goals rfl

theorem measured_done {s : State} {k : Nat} (code : Nat) (h : s.load.inFlight = some (.measuring k)) (hk : 24 ≤ k) :
    measured code s = serve code s := by
  unfold measured
  rw [h]
  exact if_pos hk

theorem measured_early {s : State} (h : ∀ k, s.load.inFlight = some (.measuring k) → k < 24) (code : Nat) :
    measured code s = s := by
  unfold measured
  split
  next k hk => exact if_neg (Nat.not_le.mpr (h k hk))
  all_goals rfl

/-! ### The overload count -/

/-- R119: the overload run counter after a sample. -/
def State.overloadRun (sample : Nat) (s : State) : Nat :=
  if s.params.overload ≤ sample then s.load.run + 1 else 0

/-- R119: the sample is served in RUN and brings the count to OVERLOAD_COUNT. -/
abbrev State.overloads (sample : Nat) (s : State) : Prop :=
  s.stroke.state = .run ∧ s.params.overloadCount ≤ s.overloadRun sample

theorem countOverload_jams {sample : Nat} {s : State} (h : s.overloads sample) :
    countOverload sample s = takeCause .immediate .bladeJam (s.mapLoad fun m => { m with run := 0 }) := by
  obtain ⟨hRun, hCount⟩ := h
  unfold countOverload
  rw [if_pos hRun]
  exact if_pos hCount

theorem countOverload_counts {sample : Nat} {s : State} (h : ¬s.overloads sample) :
    countOverload sample s =
      s.mapLoad fun m =>
        { m with run := if s.stroke.state = .run then s.overloadRun sample else s.load.run } := by
  unfold countOverload
  by_cases hRun : s.stroke.state = .run
  · simp only [if_pos hRun]
    exact if_neg fun hCount => h ⟨hRun, hCount⟩
  · simp only [if_neg hRun]
    rfl

/-- R109, R119: a stroke that coasts from RUN stops the phase-delay timer and clears the count. -/
theorem coastRequest_load_of_run {s : State} (h : s.stroke.state = .run) :
    (coastRequest s).load = { s.load with phase := none, run := 0 } := by
  have hCoast : s.stroke.toCoast.state = .coast := by
    unfold Stroke.toCoast
    rw [h]
    rfl
  unfold coastRequest
  rw [strokeTo_load, hCoast, h]
  rfl

theorem countOverload_load (sample : Nat) (s : State) :
    (countOverload sample s).load =
      { s.load with
        phase := if s.overloads sample then none else s.load.phase
        run :=
          if s.overloads sample then 0 else if s.stroke.state = .run then s.overloadRun sample else s.load.run } := by
  by_cases h : s.overloads sample
  · obtain ⟨-, -, -, hLoad, -⟩ := takeCause_immediate .bladeJam (s.mapLoad fun m => { m with run := 0 })
    have hRun : s.stroke.state = .run := h.1
    rw [countOverload_jams h, hLoad, coastRequest_load_of_run (s := s.mapLoad _) hRun, if_pos h, if_pos h]
    rfl
  · rw [countOverload_counts h, if_neg h, if_neg h]
    rfl

/-! ### A measuring conversion served -/

/-- R111: the Load Monitor with the conversion over, its result taken and no requester left. -/
def Load.completed (code : Nat) (m : Load) : Load :=
  { m with inFlight := none, reqStroke := false, reqLink := false, result := code, valid := true }

/-- R111: the state with STROKE served, if it is a requester, and LINK not yet. -/
def State.strokeServed (code : Nat) (s : State) : State :=
  if s.load.reqStroke then serveStroke code (s.mapLoad (Load.completed code)) else s.mapLoad (Load.completed code)

/-- R111: LINK is served after STROKE, and then the converter may be powered down. -/
theorem serve_eq (code : Nat) (s : State) :
    serve code s =
      powerDownIfOff
        (if s.load.reqLink then
          serveLink (sampleReply s.stroke.state (s.strokeServed code).load) (s.strokeServed code)
        else s.strokeServed code) := rfl

/-- R119: the sample that completes a conversion brings the part to BLADE_JAM. -/
abbrev State.jams (code : Nat) (s : State) : Prop :=
  (s.load.reqStroke = true ∧ s.stroke.state = .run) ∧ s.params.overloadCount ≤ s.overloadRun code

/-- The state whose overload count a sample enters: the accumulator and the band have taken it (R115, R116). -/
def State.banded (code : Nat) (s : State) : State :=
  evaluateBand (s.mapLoad fun m => (m.completed code).accumulate code)

theorem strokeServed_of_stroke {code : Nat} {s : State} (h : s.load.reqStroke = true) :
    s.strokeServed code = countOverload code (s.banded code) :=
  if_pos h

theorem strokeServed_of_not_stroke {code : Nat} {s : State} (h : ¬s.load.reqStroke = true) :
    s.strokeServed code = s.mapLoad (Load.completed code) :=
  if_neg h

theorem banded_keeps (code : Nat) (s : State) : Keeps [.load, .link] s (s.banded code) :=
  (evaluateBand_keeps _).after (mapLoad_keeps _ s).mono

/-- R115, R116: the accumulator takes the sample, and the band follows the average. -/
theorem banded_load (code : Nat) (s : State) :
    let acc := s.load.acc - s.load.acc / 8 + code
    (s.banded code).load =
      { s.load.completed code with acc := acc, band := nextBand s.params s.load.band (acc / 8) } :=
  evaluateBand_load _

/-- R119: the evaluation leaves what the overload count turns on. -/
theorem banded_overloads (code : Nat) (s : State) :
    (s.banded code).stroke = s.stroke ∧ (s.banded code).overloadRun code = s.overloadRun code ∧
      ((s.banded code).overloads code ↔ s.overloads code) := by
  have hParams : (s.banded code).params = s.params := banded_keeps code s .params (by decide)
  have hStroke : (s.banded code).stroke = s.stroke := banded_keeps code s .stroke (by decide)
  have hRun : (s.banded code).overloadRun code = s.overloadRun code := by
    unfold State.overloadRun
    rw [hParams, banded_load]
    rfl
  refine ⟨hStroke, hRun, ?_⟩
  unfold State.overloads
  rw [hStroke, hRun, hParams]

/-- R111, R115, R116, R119: the Load Monitor with STROKE served. -/
theorem strokeServed_load (code : Nat) (s : State) :
    let acc := if s.load.reqStroke then s.load.acc - s.load.acc / 8 + code else s.load.acc
    (s.strokeServed code).load =
      { s.load.completed code with
        phase := if s.jams code then none else s.load.phase
        acc := acc
        band := if s.load.reqStroke then nextBand s.params s.load.band (acc / 8) else s.load.band
        run :=
          if s.jams code then 0
          else if s.load.reqStroke = true ∧ s.stroke.state = .run then s.overloadRun code else s.load.run } := by
  intro acc
  by_cases h : s.load.reqStroke = true
  · obtain ⟨hStroke, hRun, hOverloads⟩ := banded_overloads code s
    rw [strokeServed_of_stroke h, countOverload_load]
    simp only [hOverloads, hStroke, hRun, banded_load]
    simp only [acc, State.jams, h, true_and, if_true]
    rfl
  · rw [strokeServed_of_not_stroke h]
    simp only [acc, State.jams, h]
    rfl

/-- R114: serving STROKE leaves the request queue. -/
theorem strokeServed_requests (code : BitVec 10) (s : State) :
    (s.strokeServed code.toNat).link.requests = s.link.requests := by
  by_cases h : s.load.reqStroke = true
  · rw [State.strokeServed, if_pos h]
    exact (quiet_requests s.link.requests).serveStroke (Nat.le_of_lt_succ code.isLt) rfl
  · rw [strokeServed_of_not_stroke h]
    rfl

/-- R119: with no BLADE_JAM the serving of STROKE is the Load Monitor's alone, but for the notice BAND. -/
theorem strokeServed_counts {code : Nat} {s : State} (h : ¬s.jams code) :
    Keeps [.load, .link] s (s.strokeServed code) := by
  by_cases hReq : s.load.reqStroke = true
  · have hNone : ¬(s.banded code).overloads code := by
      obtain ⟨-, -, hOverloads⟩ := banded_overloads code s
      intro hBanded
      obtain ⟨hRun, hCount⟩ := hOverloads.mp hBanded
      exact h ⟨⟨hReq, hRun⟩, hCount⟩
    rw [strokeServed_of_stroke hReq, countOverload_counts hNone]
    exact (mapLoad_keeps _ _).after (banded_keeps code s)
  · rw [strokeServed_of_not_stroke hReq]
    exact (mapLoad_keeps _ s).mono

/-- R119, R140, R143 to R145: BLADE_JAM is latched, the job is in FAULT and the blade coasts. -/
theorem strokeServed_jams {code : Nat} {s : State} (h : s.jams code) :
    (s.strokeServed code).guard.latch = s.guard.latch ||| 0x4000#16 ∧ (s.strokeServed code).job.state = .fault ∧
      (s.strokeServed code).stroke = s.stroke.toCoast := by
  obtain ⟨⟨hReq, hRun⟩, hCount⟩ := h
  obtain ⟨hStroke, -, hOverloads⟩ := banded_overloads code s
  obtain ⟨hJob, hLatch, hCoast, -⟩ :=
    takeCause_immediate .bladeJam ((s.banded code).mapLoad fun m => { m with run := 0 })
  rw [strokeServed_of_stroke hReq, countOverload_jams (hOverloads.mpr ⟨hRun, hCount⟩)]
  refine ⟨hLatch.trans ?_, hJob, hCoast.trans (congrArg Stroke.toCoast hStroke)⟩
  rw [mapLoad_guard, banded_keeps code s .guard (by decide)]
  rfl

/-- R113: no sample takes the stroke to OFF or out of it. -/
theorem strokeServed_off (code : Nat) (s : State) :
    (s.strokeServed code).stroke.state = .off ↔ s.stroke.state = .off := by
  by_cases h : s.jams code
  · obtain ⟨-, -, hCoast⟩ := strokeServed_jams h
    obtain ⟨⟨-, hRun⟩, -⟩ := h
    rw [hCoast, Stroke.toCoast, hRun]
    exact ⟨nofun, nofun⟩
  · rw [strokeServed_counts h .stroke (by decide)]

/-- R111: what follows the serving of STROKE is in the Load Monitor and in the Link. -/
theorem serve_keeps_strokeServed (code : Nat) (s : State) :
    Keeps [.load, .link] (s.strokeServed code) (serve code s) := by
  rw [serve_eq]
  exact (powerDownIfOff_keeps _).after (.ite (serveLink_keeps _ _).mono (.refl _ _))

/-- R111, R113: with no requester left the converter is powered down if the stroke is OFF. -/
theorem serve_load (code : Nat) (s : State) :
    (serve code s).load =
      if s.stroke.state = .off then (s.strokeServed code).load.powerDown else (s.strokeServed code).load := by
  let v := if s.load.reqLink then
      serveLink (sampleReply s.stroke.state (s.strokeServed code).load) (s.strokeServed code)
    else s.strokeServed code
  have kv : Keeps [.link] (s.strokeServed code) v := .ite (serveLink_keeps _ _) (.refl _ _)
  have hLoad : v.load = (s.strokeServed code).load := kv .load (by decide)
  have hStroke : v.stroke = (s.strokeServed code).stroke := kv .stroke (by decide)
  show (powerDownIfOff v).load = _
  obtain ⟨hStrokeReq, hLinkReq⟩ : v.load.reqStroke = false ∧ v.load.reqLink = false := by
    rw [hLoad, strokeServed_load]
    exact ⟨rfl, rfl⟩
  unfold powerDownIfOff
  simp only [hStrokeReq, hLinkReq, Bool.not_false, Bool.and_true, decide_eq_true_iff, hStroke, strokeServed_off]
  split
  · exact congrArg Load.powerDown hLoad
  · exact hLoad

/-- R111, R114: every awaiting SAMPLE is answered from the Load Monitor as STROKE left it. -/
theorem serve_requests (code : BitVec 10) (s : State) :
    (serve code.toNat s).link.requests =
      if s.load.reqLink then
        s.link.requests.map fun e =>
          if e.mark = .awaiting then
            { e with mark := .ready (sampleReply s.stroke.state (s.strokeServed code.toNat).load) }
          else e
      else s.link.requests := by
  rw [serve_eq, show (powerDownIfOff _).link = _ from powerDownIfOff_keeps _ .link (by decide)]
  split
  · show List.map _ (s.strokeServed code.toNat).link.requests = _
    rw [strokeServed_requests]
  · exact strokeServed_requests code s

/-- R111 to R116, R119: the Load Monitor after a measuring conversion, field by field. -/
theorem serve_load_eq (code : Nat) (s : State) :
    let on : Bool := s.stroke.state ≠ .off
    let acc := if s.load.reqStroke then s.load.acc - s.load.acc / 8 + code else s.load.acc
    (serve code s).load =
      { powered := s.load.powered && on
        settled := s.load.settled && on
        inFlight := none
        reqStroke := false
        reqLink := false
        result := code
        valid := on
        phase := if s.jams code then none else s.load.phase
        acc := acc
        band := if s.load.reqStroke then nextBand s.params s.load.band (acc / 8) else s.load.band
        run :=
          if s.jams code then 0
          else if s.load.reqStroke = true ∧ s.stroke.state = .run then s.overloadRun code else s.load.run } := by
  intro on acc
  rw [serve_load, strokeServed_load]
  by_cases hOff : s.stroke.state = .off
  · have hOn : on = false := decide_eq_false (not_not.mpr hOff)
    rw [if_pos hOff, hOn, Bool.and_false, Bool.and_false]
    rfl
  · have hOn : on = true := decide_eq_true hOff
    rw [if_neg hOff, hOn, Bool.and_true, Bool.and_true]
    rfl

/-- Settles O49: each expiry at its time and before it, and a measuring conversion by what it serves. -/
theorem conversionsServe : Obligations.ConversionsServe := by
  intro s
  refine ⟨fun h => ?_, fun h => ?_, fun h => congrArg _ (settled_early h), fun k h hk => congrArg _ (settled_done h hk),
    fun h code => congrArg _ (measured_early h code.toNat), fun k code h hk => ?_⟩
  · exact congrArg _ ((phaseReached_eq s).trans (if_neg h))
  · rw [exec_phaseDelayExpiry, phaseReached_eq, if_pos h]
    exact congrArg (fun f => Host.Outcome.next (s.mapLoad f)) (funext fun m => indexReported_eq 0 m)
  · let t := serve code.toNat s
    have kAfter : Keeps [.load, .link] (s.strokeServed code.toNat) t := serve_keeps_strokeServed code.toNat s
    have hLoad : t.load = _ := serve_load_eq code.toNat s
    refine ⟨t, congrArg _ (measured_done code.toNat h hk), serve_keeps code.toNat s, ?_, ?_, fun hCounts => ?_,
      fun hJams => ?_⟩
    · rw [hLoad]
      rfl
    · refine (serve_requests code s).trans ?_
      have hData : sampleReply s.stroke.state (s.strokeServed code.toNat).load =
          ⟨.ok, u16 code.toNat ++ u16 (t.load.acc / 8) ++ u8 t.load.band ++ u8 s.stroke.state.code⟩ := by
        unfold sampleReply Load.average
        rw [hLoad, strokeServed_load]
        rfl
      rw [hData]
    · have kAll : Keeps [.load, .link] s t := kAfter.after (strokeServed_counts hCounts)
      exact ⟨kAll .guard (by decide), kAll .job (by decide), kAll .stroke (by decide), kAll .axes (by decide)⟩
    · obtain ⟨hLatch, hJob, hStroke⟩ := strokeServed_jams hJams
      rw [show t.guard = _ from kAfter .guard (by decide), show t.job = _ from kAfter .job (by decide),
        show t.stroke = _ from kAfter .stroke (by decide)]
      exact ⟨hLatch, hJob, hStroke⟩

end Sys2Proof.Machine

namespace Sys2Proof.Machine

/-! ## One step issued (R122, R123) -/

/-- An update that changes nothing of its axis changes nothing. -/
theorem update_same {u : Axes} {a : Axis} {f : AxisState → AxisState} (h : f (u.get a) = u.get a) :
    u.update a f = u := by
  cases a
  · exact congrArg (fun ax => { u with x := ax }) h
  · exact congrArg (fun ax => { u with y := ax }) h
  · exact congrArg (fun ax => { u with c := ax }) h

/-- A count other than 0 is one step farther from 0 than the count that is left. -/
theorem natAbs_sub_sign {n : Int} (h : n ≠ 0) : (n - n.sign).natAbs + 1 = n.natAbs := by
  rcases Int.lt_or_gt_of_ne h with hNeg | hPos
  · rw [Int.sign_eq_neg_one_of_neg hNeg]
    omega
  · rw [Int.sign_eq_one_of_pos hPos]
    omega

theorem issueOne_none (a : Axis) {ax : AxisState} (h : ax.steps = 0) : ax.issueOne a = ax :=
  if_pos h

theorem issueOne_left (a : Axis) {ax : AxisState} (h : ax.steps ≠ 0) :
    ax.issueOne a = { ax with pos := addSteps a ax.pos ax.steps.sign, steps := ax.steps - ax.steps.sign } :=
  if_neg h

/-- Settles O45: the axis with no step left is the same after it, and of one with steps left one is issued. -/
theorem stepsIssued : Obligations.StepsIssued := by
  refine fun a s => ⟨fun h => ?_, fun h => ⟨_, exec_stepIssued a s, mapAxes_keeps _ s, ?_⟩⟩
  · show Host.Outcome.next { s with axes := s.axes.update a (AxisState.issueOne a) } = .next s
    rw [update_same (issueOne_none a h)]
  · have hGet (b : Axis) : (s.axes.update a (AxisState.issueOne a)).get b =
        if b = a then (s.axes.get a).issueOne a else s.axes.get b := get_update s.axes a b _
    rw [mapAxes_axes, hGet a, if_pos rfl, issueOne_left a h]
    exact ⟨natAbs_sub_sign h, by cases a <;> rfl, fun b hb => (hGet b).trans (if_neg hb)⟩

/-! ## The checks of a request in their order -/

theorem firstRefusal_fails {fails : Bool} (h : fails = true) (code : ResultCode) (rest : List (Bool × ResultCode)) :
    firstRefusal ((fails, code) :: rest) = some code :=
  if_pos h

theorem firstRefusal_passes {fails : Bool} (h : ¬fails = true) (code : ResultCode) (rest : List (Bool × ResultCode)) :
    firstRefusal ((fails, code) :: rest) = firstRefusal rest :=
  if_neg h

theorem idleRefusal_idle {s : State} (h : s.job.state = .idle) : idleRefusal s = none := by
  unfold idleRefusal
  rw [h]

theorem idleRefusal_fault {s : State} (h : s.job.state = .fault) : idleRefusal s = some .faultLatched := by
  unfold idleRefusal
  rw [h]

theorem idleRefusal_busy {s : State} (hFault : s.job.state ≠ .fault) (hIdle : s.job.state ≠ .idle) :
    idleRefusal s = some .busy := by
  unfold idleRefusal
  split
  · next h => exact absurd h hIdle
  · next h => exact absurd h hFault
  all_goals rfl

/-! ## HOME accepted or refused (R124, R127, R139) -/

theorem homeRefusal_notIdle (axes : Byte) {code : ResultCode} {s : State} (h : idleRefusal s = some code) :
    homeRefusal axes s = some code := by
  unfold homeRefusal
  rw [h]

/-- R127: the checks of a HOME in IDLE. -/
theorem homeRefusal_idle (axes : Byte) {s : State} (h : s.job.state = .idle) :
    homeRefusal axes s =
      firstRefusal
        [(decide (axes.toNat = 0) || decide (8 ≤ axes.toNat), .badField), (s.guard.motionBlocked, .inputActive)] := by
  unfold homeRefusal
  rw [idleRefusal_idle h]

/-- R127: a byte that names some axes and nothing else is no bad field. -/
theorem axisByte_named {axes : Byte} (hSome : axes.toNat ≠ 0) (hAxes : axes.toNat < 8) :
    ¬(decide (axes.toNat = 0) || decide (8 ≤ axes.toNat)) = true := by
  rw [Bool.or_eq_true, decide_eq_true_iff, decide_eq_true_iff]
  omega

/-- R127: the axes after the acceptance: the named ones begin their HOME. -/
theorem beginHome_get (w : AxisSet) (s : State) (a : Axis) :
    (beginHome w s).axes.get a = if w.has a then (s.axes.get a).beginHome s.guard a else s.axes.get a := by
  cases a <;> rfl

/-- R124, R127: a named axis whatever its inputs. -/
def AxisState.homeEnabled (a : Axis) (ax : AxisState) : AxisState :=
  { ax with enable := true, speed := 0, moved := 0, pos := homePos a ax.pos }

/-- R127, R129: a named axis on an active limit input. -/
theorem beginHome_limited {g : Guard} {a : Axis} (ax : AxisState) (h : limitLevel g a = true) :
    ax.beginHome g a =
      { ax.homeEnabled a with phase := .failed, outcome := .limit, ref := .unreferenced } :=
  if_pos h

/-- R127, R128: a named axis off its limit input begins in the phase its home input gives. -/
theorem beginHome_homing {g : Guard} {a : Axis} (ax : AxisState) (h : ¬limitLevel g a = true) :
    ax.beginHome g a =
      { ax.homeEnabled a with
        ref := .homing
        outcome := .none
        phase := if (g.input (homeInputOf a)).accepted then .backoff else .search } := by
  unfold AxisState.beginHome
  dsimp only
  rw [if_neg h, homeLevel_eq]
  split <;> rfl

/-- Settles O34: the refusals in their order, and each axis at the acceptance. -/
theorem homeBegins : Obligations.HomeBegins := by
  intro axes s hr
  refine ⟨fun code h => exec_judged_refused (refusal := homeRefusal axes) hr h,
    fun hj => homeRefusal_notIdle axes (idleRefusal_fault hj),
    fun hf hi => homeRefusal_notIdle axes (idleRefusal_busy hf hi), fun hj hBad => ?bad,
    fun hj hSome hAxes hBars => ?barred, fun hj hSome hAxes hClear => ⟨_,
      exec_judged_accepted (refusal := homeRefusal axes) hr ?accepted, ?_, rfl, rfl, rfl, rfl, rfl, fun a => ?_⟩⟩
  case bad =>
    rw [homeRefusal_idle axes hj]
    exact firstRefusal_fails (by simpa using hBad) _ _
  case barred =>
    rw [homeRefusal_idle axes hj, firstRefusal_passes (axisByte_named hSome hAxes)]
    exact firstRefusal_fails ((motionBlocked_iff _).mpr hBars) _ _
  case accepted =>
    rw [homeRefusal_idle (s := s.arrived (.home axes)) axes hj, firstRefusal_passes (axisByte_named hSome hAxes)]
    exact firstRefusal_passes (mt (motionBlocked_iff s.guard).mp hClear) _ _
  · exact (mapLink_keeps _ _).after ((setJobState_keeps _ _).after ((mapAxes_keeps _ _).after
      (mapLink_keeps _ s).mono (m := [.axes, .job, .link])))
  · intro bit limited
    have hBit : (axisSetOf axes).has a = bit := by cases a <;> rfl
    have hGet := beginHome_get (axisSetOf axes) (s.arrived (.home axes)) a
    rw [hBit] at hGet
    refine ⟨fun hb => hGet.trans (if_neg (by rw [hb]; exact Bool.false_ne_true)), fun hb => ?_⟩
    have hNamed := hGet.trans (if_pos hb)
    intro begun
    have hBegun : begun = (s.axes.get a).homeEnabled a := by cases a <;> rfl
    rw [hBegun]
    exact ⟨fun hl => hNamed.trans (beginHome_limited _ ((limitLevel_iff s.guard a).mpr hl)),
      fun hl => hNamed.trans (beginHome_homing _ (mt (limitLevel_iff s.guard a).mp hl))⟩

/-! ## MOVE accepted or refused (R123, R130, R139) -/

theorem moveRefusal_notIdle (x y : Int) (c : Nat) {code : ResultCode} {s : State} (h : idleRefusal s = some code) :
    moveRefusal x y c s = some code := by
  unfold moveRefusal
  rw [h]

/-- R130: the fields of a MOVE are in their ranges. -/
def moveFields (x y : Int) (c : Nat) : Prop :=
  0 ≤ x ∧ x ≤ 250000 ∧ 0 ≤ y ∧ y ≤ 150000 ∧ c ≤ 35999

theorem moveFields_iff (x y : Int) (c : Nat) :
    (!(within x 0 250000 && within y 0 150000 && within (c : Int) 0 35999)) = true ↔ ¬moveFields x y c := by
  unfold moveFields
  rw [Bool.not_eq_true', ← Bool.not_eq_true, Bool.and_eq_true, Bool.and_eq_true, within_iff, within_iff, within_iff]
  omega

/-- R130: the refusals of a MOVE in IDLE, one after another, and its acceptance. -/
theorem moveRefusal_idle {x y : Int} {c : Nat} {s : State} (hj : s.job.state = .idle) :
    (¬moveFields x y c → moveRefusal x y c s = some .badField) ∧
    (moveFields x y c →
      (¬s.axes.located → moveRefusal x y c s = some .notReferenced) ∧
      (s.axes.located →
        ((s.params.travelX : Int) < x ∨ (s.params.travelY : Int) < y → moveRefusal x y c s = some .outOfTravel) ∧
        (x ≤ s.params.travelX → y ≤ s.params.travelY →
          (s.guard.barsMotion → moveRefusal x y c s = some .inputActive) ∧
          (¬s.guard.barsMotion → moveRefusal x y c s = none)))) := by
  have hOutside : (decide ((s.params.travelX : Int) < x) || decide ((s.params.travelY : Int) < y)) = true ↔
      (s.params.travelX : Int) < x ∨ (s.params.travelY : Int) < y := by
    rw [Bool.or_eq_true, decide_eq_true_iff, decide_eq_true_iff]
  have hUnlocated : (!s.axes.allReferenced) = true ↔ ¬s.axes.located := by
    rw [Bool.not_eq_true', ← Bool.not_eq_true, allReferenced_iff]
  unfold moveRefusal
  rw [idleRefusal_idle hj]
  dsimp only
  refine ⟨fun h => firstRefusal_fails ((moveFields_iff x y c).mpr h) _ _, fun hFields => ?_⟩
  rw [firstRefusal_passes (mt (moveFields_iff x y c).mp (not_not.mpr hFields))]
  refine ⟨fun h => firstRefusal_fails (hUnlocated.mpr h) _ _, fun hLocated => ?_⟩
  rw [firstRefusal_passes (mt hUnlocated.mp (not_not.mpr hLocated))]
  refine ⟨fun h => firstRefusal_fails (hOutside.mpr h) _ _, fun hx hy => ?_⟩
  rw [firstRefusal_passes (mt hOutside.mp (by omega))]
  exact ⟨fun h => firstRefusal_fails ((motionBlocked_iff _).mpr h) _ _,
    fun h => firstRefusal_passes (mt (motionBlocked_iff _).mp h) _ _⟩

/-- Settles O35: the refusals in their order, and the traverse with its turn and its length. -/
theorem moveBegins : Obligations.MoveBegins := by
  intro x y c s hr refusedWith fields d n
  have refused {code : ResultCode} (h : moveRefusal x.toInt y.toInt c.toNat s = some code) : refusedWith code :=
    exec_judged_refused (refusal := moveRefusal x.toInt y.toInt c.toNat) hr h
  refine ⟨fun hj => refused (moveRefusal_notIdle _ _ _ (idleRefusal_fault hj)),
    fun hf hi => refused (moveRefusal_notIdle _ _ _ (idleRefusal_busy hf hi)), fun hj => ?_⟩
  obtain ⟨hBad, hGood⟩ := moveRefusal_idle (x := x.toInt) (y := y.toInt) (c := c.toNat) hj
  refine ⟨fun h => refused (hBad h), fun hFields => ?_⟩
  obtain ⟨hLost, hFound⟩ := hGood hFields
  refine ⟨fun h => refused (hLost h), fun hLocated => ?_⟩
  obtain ⟨hFar, hNear⟩ := hFound hLocated
  refine ⟨fun h => refused (hFar h), fun hx hy => ?_⟩
  obtain ⟨hBarred, hFree⟩ := hNear hx hy
  refine ⟨fun h => refused (hBarred h), fun h => ⟨_, traverseTo x.toInt y.toInt c.toNat s.axes,
    exec_judged_accepted (refusal := moveRefusal x.toInt y.toInt c.toNat) (s := s) hr (hFree h), ?_, rfl, rfl, rfl, rfl,
    rfl, rfl, rfl, rfl, rfl, mod36000_cast s.axes.c.pos, ?_⟩⟩
  · exact (mapLink_keeps _ _).after ((setJobState_keeps _ _).after ((mapAxes_keeps _ _).after
      (mapLink_keeps _ s).mono (m := [.axes, .job, .link])))
  · have hTurn : turn (mod36000 s.axes.c.pos) c.toNat = n := turn_of_position s.axes.c.pos c.toNat
    obtain ⟨hLow, hHigh⟩ := turn_bounds (mod36000 s.axes.c.pos) c.toNat
    obtain ⟨hFloor, hCeil⟩ := chord_isRoot s.axes.point ⟨x.toInt, y.toInt⟩
    refine ⟨congrArg Int.natAbs hTurn, congrArg (fun k : Int => decide (k < 0)) hTurn, ?_, hFloor, hCeil⟩
    show (turn (mod36000 s.axes.c.pos) c.toNat).natAbs ≤ 18000
    omega

end Sys2Proof.Machine

namespace Sys2Proof.Machine

/-! ## A level accepted (R135 to R137, R140 to R145) -/

/-- R135: the raw level of an input is its accepted level, and the timer stands. -/
def State.accepting (i : InputId) (s : State) : State :=
  s.mapGuard fun g => g.updateInput i fun inp => { inp with accepted := inp.raw, timer := none }

theorem accepting_keeps (i : InputId) (s : State) : Keeps [.guard] s (s.accepting i) := mapGuard_keeps _ s

theorem accepting_input (i : InputId) (s : State) :
    (s.accepting i).guard.input i = { s.guard.input i with accepted := (s.guard.input i).raw, timer := none } :=
  input_updateInput_self s.guard i _

/-- R135, R136: the filter timer's end with the levels apart. -/
theorem exec_filterTimer_accepts {i : InputId} {s : State}
    (ht : timerOut (s.guard.input i).timer (s.guard.input i).filter)
    (hn : (s.guard.input i).raw ≠ (s.guard.input i).accepted) :
    exec (.filterTimerExpiry i) s = .next (levelEffects i (s.guard.input i).raw (s.accepting i)) := by
  rw [exec_filterTimerExpiry, filterReached_ends ht]
  unfold filterEnds
  exact congrArg _ (if_neg hn)

theorem exec_filterTimer_same {i : InputId} {s : State} (ht : timerOut (s.guard.input i).timer (s.guard.input i).filter)
    (he : (s.guard.input i).raw = (s.guard.input i).accepted) :
    exec (.filterTimerExpiry i) s =
      .next (s.mapGuard fun g => g.updateInput i fun inp => { inp with timer := none }) := by
  rw [exec_filterTimerExpiry, filterReached_ends ht]
  unfold filterEnds
  exact congrArg _ (if_pos he)

/-- R135: the levels and the timer of every input after the filter timer's end with the levels apart. -/
theorem exec_filterTimer_levels {i : InputId} {s : State}
    (ht : timerOut (s.guard.input i).timer (s.guard.input i).filter) : ∃ t,
    exec (.filterTimerExpiry i) s = .next t ∧
      t.guard.input i = { s.guard.input i with accepted := (s.guard.input i).raw, timer := none } ∧
      ∀ j, j ≠ i → t.guard.input j = s.guard.input j := by
  refine ⟨_, exec_filterTimerExpiry i s, ?_⟩
  rw [filterReached_ends ht]
  exact ⟨(filterEnds_input i i s).trans (if_pos rfl), fun j hj => (filterEnds_input i j s).trans (if_neg hj)⟩

/-- R135: the raw level of an input has changed, and its filter timer starts anew. -/
def State.refiltering (i : InputId) (active : Bool) (s : State) : State :=
  s.mapGuard fun g => g.updateInput i fun inp => { inp with raw := active, timer := some 0 }

theorem refiltering_input (i : InputId) (active : Bool) (s : State) :
    (s.refiltering i active).guard.input i = { s.guard.input i with raw := active, timer := some 0 } :=
  input_updateInput_self s.guard i _

theorem exec_inputRawChange_changes {i : InputId} {active : Bool} {s : State} (h : (s.guard.input i).raw ≠ active) :
    exec (.inputRawChange i active) s = exec (.filterTimerExpiry i) (s.refiltering i active) := by
  rw [exec_inputRawChange, exec_filterTimerExpiry]
  exact congrArg _ (if_neg h)

/-- R135: with FILTER above 0 a change restarts the timer and nothing more. -/
theorem exec_inputRawChange_restarts {i : InputId} {active : Bool} {s : State} (h : (s.guard.input i).raw ≠ active)
    (hFilter : (s.guard.input i).filter ≠ 0) :
    exec (.inputRawChange i active) s = .next (s.refiltering i active) := by
  rw [exec_inputRawChange_changes h, exec_filterTimerExpiry, filterReached_idle]
  rw [refiltering_input]
  exact not_timerOut_zero (Nat.pos_of_ne_zero hFilter)

/-- R135: with FILTER 0 a change is accepted at once. -/
theorem exec_inputRawChange_accepts {i : InputId} {active : Bool} {s : State} (h : (s.guard.input i).raw ≠ active)
    (hFilter : (s.guard.input i).filter = 0) : ∃ t,
    exec (.inputRawChange i active) s = .next t ∧ (t.guard.input i).raw = active ∧
      (t.guard.input i).accepted = active ∧ (t.guard.input i).timer = none ∧
      ∀ j, j ≠ i → t.guard.input j = s.guard.input j := by
  have hOut : timerOut ((s.refiltering i active).guard.input i).timer
      ((s.refiltering i active).guard.input i).filter := by
    rw [refiltering_input]
    exact ⟨0, rfl, by rw [hFilter]⟩
  obtain ⟨t, hExec, hSelf, hOther⟩ := exec_filterTimer_levels hOut
  rw [refiltering_input] at hSelf
  refine ⟨t, (exec_inputRawChange_changes h).trans hExec, by rw [hSelf], by rw [hSelf], by rw [hSelf],
    fun j hj => (hOther j hj).trans (input_updateInput_other s.guard _ hj)⟩

/-! ### An edge no axis is told of -/

/-- R132, R136: an input that is the home or the limit input of no axis is reported to none. -/
theorem axisReport_none {i : InputId} (h : ∀ a, i ≠ homeInputOf a ∧ limitInputOf a ≠ some i) :
    axisReport i = none := by
  cases i
  case limitX => exact absurd rfl (h .x).2
  case limitY => exact absurd rfl (h .y).2
  case homeX => exact absurd rfl (h .x).1
  case homeY => exact absurd rfl (h .y).1
  case homeC => exact absurd rfl (h .c).1
  all_goals rfl

/-- R132: outside MOTION, or with no axis to tell, an accepted level has the effects of its edge alone. -/
theorem levelEffects_edge {i : InputId} (active : Bool) {s : State}
    (h : s.job.state ≠ .motion ∨ ∀ a, i ≠ homeInputOf a ∧ limitInputOf a ≠ some i) :
    levelEffects i active s = edgeAction i active s := by
  unfold levelEffects
  split
  · rfl
  · next a f hReport =>
    have hj := h.resolve_right fun hNone => by simp [axisReport_none hNone] at hReport
    exact if_neg (by simp [hj])

/-- R136: what an action does at the activation edge of an input. -/
def InputAction.taken (i : InputId) (s : State) : InputAction → State
  | .ignore => s
  | .notice => queueNotice (.edge i true) s
  | .hold => if s.job.state.holdable then holdRequest s else queueNotice (.edge i true) s
  | .stop => takeCause .controlled (.input i) s
  | .halt => takeCause .immediate (.input i) s

theorem edgeAction_activation {i : InputId} {act : InputAction} {s : State} (h : (s.guard.input i).action = act) :
    edgeAction i true s = act.taken i s := by
  unfold edgeAction activationAction
  rw [if_pos rfl, h]
  cases act <;> rfl

/-- R151: the states that take no hold. -/
theorem holdable_of_other {j : JobState} (hWarmup : j ≠ .warmup) (hCutting : j ≠ .cutting)
    (hStarved : j ≠ .starved) : j.holdable = false := by
  cases j
  case warmup => exact absurd rfl hWarmup
  case cutting => exact absurd rfl hCutting
  case starved => exact absurd rfl hStarved
  all_goals rfl

/-- R136, R151: the action HOLD in a job that takes a hold, and in one that takes none. -/
theorem taken_hold_holdable (i : InputId) {s : State} (h : s.job.state.holdable = true) :
    InputAction.hold.taken i s = holdRequest s :=
  if_pos h

theorem taken_hold_other (i : InputId) {s : State} (h : s.job.state.holdable = false) :
    InputAction.hold.taken i s = queueNotice (.edge i true) s :=
  if_neg (by rw [h]; exact Bool.false_ne_true)

/-- R100, R151, R152: a hold taken in STARVED. -/
theorem holdRequest_starved_parts {s : State} (h : s.job.state = .starved) :
    let t := holdRequest s
    t.job = { s.job with state := .holding, held := true, dwell := none } ∧
    t.stroke = s.stroke.toIdle s.params.startDuty ∧ t.load = s.load.told s.stroke.state t.stroke.state ∧
    (s.link.notices.length < 16 →
      t.link.notices = s.link.notices ++ [.held (activeNumber s) s.interp.p]) := by
  intro t
  obtain ⟨hJob, hStroke, hLink, -⟩ := setHeld_eq (s.mapJob fun j => { j with state := .holding, dwell := none })
  rw [← holdRequest_starved h] at hJob hStroke hLink
  refine ⟨hJob, hStroke, ?_, fun hRoom => ?_⟩
  · rw [show t.stroke = _ from hStroke, show t = _ from holdRequest_starved h]
    exact strokeTo_load _ _
  · rw [show t.link = _ from hLink, (queueNotice_link _ _).2.2]
    exact if_pos hRoom

/-- R141: the action STOP in a job and in MOTION. -/
theorem taken_stop_stops (i : InputId) {s : State} (hIdle : s.job.state ≠ .idle) (hFault : s.job.state ≠ .fault)
    (hStopping : s.job.state ≠ .stopping) :
    InputAction.stop.taken i s = controlledStop (latchCause (.input i) s) := by
  show takeCause .controlled (.input i) s = _
  rw [takeCause_controlled_eq, if_neg hIdle, if_neg (not_or.mpr ⟨hFault, hStopping⟩)]

/-- R144: the action STOP in STOPPING and in FAULT. -/
theorem taken_stop_latches (i : InputId) {s : State} (h : s.job.state = .stopping ∨ s.job.state = .fault) :
    InputAction.stop.taken i s = latchCause (.input i) s := by
  show takeCause .controlled (.input i) s = _
  rw [takeCause_controlled_eq, if_neg (by rcases h with h | h <;> rw [h] <;> decide), if_pos h.symm]

/-- R145: the action STOP in IDLE. -/
theorem taken_stop_idle (i : InputId) {s : State} (h : s.job.state = .idle) :
    InputAction.stop.taken i s =
      if s.stroke.state.driven then faultFromIdle .controlled (.input i) s else s := by
  show takeCause .controlled (.input i) s = _
  rw [takeCause_controlled_eq, if_pos h]
  rfl

/-! ### An immediate cause -/

/-- R124: an axis with its enable dropped. -/
theorem eq_drop {ax : AxisState} (h : ax.enable = false ∧ ax.steps = 0 ∧ ax.ref = .unreferenced) :
    ax = { ax with enable := false, steps := 0, ref := .unreferenced } := by
  obtain ⟨hEnable, hSteps, hRef⟩ := h
  rw [← hEnable, ← hSteps, ← hRef]

theorem anyEnabled_iff (u : Axes) : u.anyEnabled = true ↔ ∃ a, (u.get a).enable = true := by
  unfold Axes.anyEnabled
  rw [Bool.or_eq_true, Bool.or_eq_true]
  constructor
  · rintro ((h | h) | h)
    · exact ⟨.x, h⟩
    · exact ⟨.y, h⟩
    · exact ⟨.c, h⟩
  · rintro ⟨a, h⟩
    cases a
    · exact .inl (.inl h)
    · exact .inl (.inr h)
    · exact .inr h

theorem dropEnables_get (s : State) (a : Axis) : (dropEnables s).axes.get a = (s.axes.get a).drop := by
  cases a <;> rfl

/-- R144: an immediate cause in FAULT drops the enables that are not OFF, and queues nothing. -/
theorem causeInFault_immediate (k : Cause) (s : State) :
    (causeInFault .immediate k s).link = s.link ∧
      (causeInFault .immediate k s).axes = if s.axes.anyEnabled then (dropEnables s).axes else s.axes := by
  refine ⟨causeInFault_keeps .immediate k s .link (by decide), ?_⟩
  unfold causeInFault
  rw [show (coastRequest _).axes = _ from coastRequest_keeps _ .axes (by decide)]
  exact apply_ite State.axes _ _ _

/-- R140, R143 to R145: an immediate cause by the state of the job. -/
theorem takeCause_immediate_by_state (k : Cause) (s : State) :
    let t := takeCause .immediate k s
    (s.job.state ≠ .fault → ∀ a, t.axes.get a =
      { t.axes.get a with enable := false, steps := 0, ref := .unreferenced }) ∧
    (s.job.state = .fault → t.link = s.link ∧
      ((∀ a, (s.axes.get a).enable = false) → t.axes = s.axes) ∧
      ((∃ a, (s.axes.get a).enable = true) →
        ∀ a, t.axes.get a = { s.axes.get a with enable := false, steps := 0, ref := .unreferenced })) ∧
    (s.job.state = .idle → s.link.notices.length < 16 →
      t.link.notices = s.link.notices ++ [.stopped .immediate .idle (s.guard.latch ||| k.mask)]) := by
  intro t
  obtain ⟨-, -, -, -, hDropped⟩ := takeCause_immediate k s
  refine ⟨fun hj a => eq_drop (hDropped hj a), fun hj => ?_, fun hj hRoom => ?_⟩
  · have ht : t = causeInFault .immediate k s :=
      (takeCause_immediate_eq k s).trans ((if_neg (by rw [hj]; decide)).trans (if_pos hj))
    obtain ⟨hLink, hAxes⟩ := causeInFault_immediate k s
    rw [ht, hAxes]
    refine ⟨hLink, fun hOff => if_neg fun hOn => ?_, fun hOn a => ?_⟩
    · obtain ⟨a, ha⟩ := (anyEnabled_iff _).mp hOn
      exact Bool.false_ne_true ((hOff a).symm.trans ha)
    · rw [if_pos ((anyEnabled_iff _).mpr hOn)]
      exact dropEnables_get s a
  · have ht : t = faultFromIdle .immediate k (dropEnables s) := (takeCause_immediate_eq k s).trans (if_pos hj)
    obtain ⟨-, -, -, -, -, hNotices⟩ := faultFromIdle_parts .immediate k (dropEnables s)
    rw [ht]
    exact hNotices hRoom

/-! ### A level an axis is told of (R128, R129, R132) -/

theorem axisReport_home (a : Axis) : axisReport (homeInputOf a) = some (a, AxisState.homeReported) := by
  cases a <;> rfl

theorem axisReport_limit {a : Axis} {i : InputId} (h : limitInputOf a = some i) :
    axisReport i = some (a, AxisState.limitReported) := by
  cases a <;> cases h <;> rfl

/-- R128: the home input's level reported to a homing axis ends its phase or nothing. -/
theorem homeReported_homing {ax : AxisState} (h : ax.ref = .homing) (active : Bool) :
    ax.homeReported active =
      if active = true ∧ ax.phase = .search then { ax with phase := .brake, moved := 0 }
      else if active = true ∧ ax.phase = .backoffSeek then { ax with phase := .backoff }
      else if active = false ∧ ax.phase = .backoff then
        { ax with
          phase := .done, moved := 0, steps := 0, pos := 0, speed := 0, ref := .referenced, outcome := .referenced }
      else ax := by
  unfold AxisState.homeReported
  rw [if_pos (show ax.searching = true from decide_eq_true h)]
  cases ax.phase <;> cases active <;> rfl

/-- R129: the limit input's level reported active to a homing axis fails it, with its steps abandoned. -/
theorem limitReported_homing {ax : AxisState} (h : ax.ref = .homing) :
    ax.limitReported true = { ax.failedWith .limit with steps := 0 } := by
  unfold AxisState.limitReported AxisState.searching
  rw [h]
  rfl

/-- R129: a report to an axis in MOTION is judged with the axes it leaves. -/
theorem reportToAxis_judged {a : Axis} {f : AxisState → AxisState} {w : AxisSet} {s : State}
    (hj : s.job.state = .motion) (hw : s.axes.home = some w) (ht : s.axes.timer.isSome = true) :
    let t := reportToAxis a f s
    s.homeJudged w t ∧ (∀ b, b ≠ a → t.axes.get b = s.axes.get b) ∧ t.axes.get a = f (s.axes.get a) := by
  intro t
  let u := s.mapAxes fun u => u.update a f
  have eT : t = finishHome u := if_pos hj
  obtain ⟨hJudged, hAxes⟩ := finishHome_judged (s := u) ((update_home s.axes a f).trans hw) hj
    ((congrArg Option.isSome (update_timer s.axes a f)).trans ht)
  have hGet (b : Axis) : t.axes.get b = if b = a then f (s.axes.get a) else s.axes.get b := by
    rw [eT, hAxes]
    exact get_update s.axes a b f
  exact ⟨homeJudged_congr (u := u) rfl rfl (eT ▸ hJudged), fun b hb => (hGet b).trans (if_neg hb),
    (hGet a).trans (if_pos rfl)⟩

/-- R132: outside MOTION a report changes nothing. -/
theorem reportToAxis_away (a : Axis) (f : AxisState → AxisState) {s : State} (h : s.job.state ≠ .motion) :
    reportToAxis a f s = s :=
  if_neg h

/-- The edge of a level queues nothing and acts on nothing. -/
def State.quietEdge (i : InputId) (active : Bool) (s : State) : Prop :=
  if active = true then (s.guard.input i).action = .ignore else (s.guard.input i).notifyRelease = false

/-- R136, R137: a level with a quiet edge is reported to its homing axis and does nothing else. -/
theorem levelEffects_quiet {i : InputId} {active : Bool} {a : Axis} {f : Bool → AxisState → AxisState} {s : State}
    (hReport : axisReport i = some (a, f)) (hj : s.job.state = .motion) (hHoming : (s.axes.get a).ref = .homing)
    (hQuiet : s.quietEdge i active) : levelEffects i active s = reportToAxis a (f active) s := by
  unfold levelEffects
  rw [hReport]
  dsimp only
  rw [if_pos (by simp [AxisState.searching, hHoming, hj])]
  refine if_pos ?_
  unfold State.quietEdge at hQuiet
  cases active
  · simpa using hQuiet
  · simpa using hQuiet

/-- A free choice has been read (log entry 6). -/
def State.choosing (s : State) : State :=
  { s with free := s.free + 1 }

/-- R129, R132: an activation that acts comes before or after the report to its homing axis, as the free choice has it
(log entry 6). -/
theorem levelEffects_ordered {i : InputId} {a : Axis} {f : Bool → AxisState → AxisState} {s : State}
    (hReport : axisReport i = some (a, f)) (hj : s.job.state = .motion) (hHoming : (s.axes.get a).ref = .homing)
    (hActs : (s.guard.input i).action ≠ .ignore) :
    levelEffects i true s = edgeAction i true (reportToAxis a (f true) s.choosing) ∨
      levelEffects i true s = reportToAxis a (f true) (edgeAction i true s.choosing) := by
  have hEffects : levelEffects i true s =
      if Config.reportFirst s.free then edgeAction i true (reportToAxis a (f true) s.choosing)
      else reportToAxis a (f true) (edgeAction i true s.choosing) := by
    unfold levelEffects
    rw [hReport]
    dsimp only
    rw [if_pos (by simp [AxisState.searching, hHoming, hj])]
    exact if_neg (by simpa using hActs)
  rw [hEffects]
  cases Config.reportFirst s.free
  · exact .inr rfl
  · exact .inl rfl

/-- R128, R129, R135: a level with a quiet edge accepted of the home or the limit input of a homing axis. -/
theorem exec_filterTimer_reports {i : InputId} {a : Axis} {f : Bool → AxisState → AxisState} {w : AxisSet}
    {s : State} (hReport : axisReport i = some (a, f)) (hj : s.job.state = .motion) (hw : s.axes.home = some w)
    (ht : s.axes.timer.isSome = true) (hHoming : (s.axes.get a).ref = .homing)
    (hOut : timerOut (s.guard.input i).timer (s.guard.input i).filter)
    (hn : (s.guard.input i).raw ≠ (s.guard.input i).accepted) (hQuiet : s.quietEdge i (s.guard.input i).raw) :
    ∃ t, exec (.filterTimerExpiry i) s = .next t ∧ Keeps [.guard, .axes, .job, .link] s t ∧ s.homeJudged w t ∧
      (∀ b, b ≠ a → t.axes.get b = s.axes.get b) ∧ t.axes.get a = f (s.guard.input i).raw (s.axes.get a) := by
  have hQuiet' : (s.accepting i).quietEdge i (s.guard.input i).raw := by
    unfold State.quietEdge
    rw [accepting_input]
    exact hQuiet
  obtain ⟨hJudged, hOther, hSelf⟩ := reportToAxis_judged (s := s.accepting i) (a := a)
    (f := f (s.guard.input i).raw) hj hw ht
  refine ⟨_, exec_filterTimer_accepts hOut hn, ?_⟩
  rw [levelEffects_quiet (s := s.accepting i) hReport hj hHoming hQuiet']
  exact ⟨(reportToAxis_keeps _ _ _).after (accepting_keeps i s).mono, homeJudged_congr rfl rfl hJudged, hOther,
    hSelf⟩

/-- R132, R143, R145: an immediate cause leaves the outcome of an axis or makes it ABORTED. -/
theorem takeCause_immediate_outcome (k : Cause) (a : Axis) {s : State} (hFault : s.job.state ≠ .fault) :
    ((takeCause .immediate k s).axes.get a).outcome = .aborted ∨
      ((takeCause .immediate k s).axes.get a).outcome = (s.axes.get a).outcome := by
  rw [takeCause_immediate_eq]
  by_cases hIdle : s.job.state = .idle
  · rw [if_pos hIdle]
    obtain ⟨-, -, -, hAxes, -⟩ := faultFromIdle_parts .immediate k (dropEnables s)
    rw [hAxes, get_each, dropEnables_get]
    exact .inr rfl
  · rw [if_neg hIdle, if_neg hFault, immediateStop_outcome]
    split
    · exact .inl rfl
    · exact .inr rfl

/-- What a limit input with the action HALT leaves of a HOME: FAULT with its cause, the axis failed or its homing given
up, and every enable dropped (R129, R132, R143). -/
structure HaltedHome (latch : BitVec 16) (a : Axis) (t : State) : Prop where
  job : t.job.state = .fault
  latched : t.guard.latch = latch
  outcome : (t.axes.get a).outcome = .limit ∨ (t.axes.get a).outcome = .aborted
  dropped : ∀ b, (t.axes.get b).enable = false ∧ (t.axes.get b).steps = 0 ∧ (t.axes.get b).ref = .unreferenced

/-- R129: the report first: the axis fails, and then the cause is taken, in MOTION or in IDLE. -/
theorem haltedHome_of_report (k : Cause) {a : Axis} {w : AxisSet} {s : State} (hj : s.job.state = .motion)
    (hw : s.axes.home = some w) (ht : s.axes.timer.isSome = true) (hHoming : (s.axes.get a).ref = .homing) :
    HaltedHome (s.guard.latch ||| k.mask) a
      (takeCause .immediate k (reportToAxis a (AxisState.limitReported true) s)) := by
  obtain ⟨-, -, hSelf⟩ := reportToAxis_judged (a := a) (f := AxisState.limitReported true) hj hw ht
  have hState : (reportToAxis a (AxisState.limitReported true) s).job.state ≠ .fault := by
    rw [show reportToAxis a (AxisState.limitReported true) s = _ from if_pos hj]
    rcases finishHome_state (s := s.mapAxes fun u => u.update a (AxisState.limitReported true)) hj with h | h <;>
      rw [h] <;> decide
  have hGuard : (reportToAxis a (AxisState.limitReported true) s).guard = s.guard :=
    reportToAxis_keeps _ _ s .guard (by decide)
  obtain ⟨hJob, hLatch, -, -, hDropped⟩ := takeCause_immediate k (reportToAxis a (AxisState.limitReported true) s)
  refine ⟨hJob, by rw [hLatch, hGuard], ?_, hDropped hState⟩
  rcases takeCause_immediate_outcome k a hState with h | h
  · exact .inr h
  · exact .inl (by rw [h, hSelf, limitReported_homing hHoming]; rfl)

/-- R132, R143: the cause first: the HOME is given up, and in FAULT the report finds no phase to end. -/
theorem haltedHome_of_cause (k : Cause) {a : Axis} (f : AxisState → AxisState) {w : AxisSet} {s : State}
    (hj : s.job.state = .motion) (hw : s.axes.home = some w) (hHoming : (s.axes.get a).ref = .homing) :
    HaltedHome (s.guard.latch ||| k.mask) a (reportToAxis a f (takeCause .immediate k s)) := by
  obtain ⟨hJob, hLatch, -, -, hDropped⟩ := takeCause_immediate k s
  rw [reportToAxis_away a f (by rw [hJob]; decide)]
  refine ⟨hJob, hLatch, .inr ?_, hDropped (by rw [hj]; decide)⟩
  rw [takeCause_immediate_eq, if_neg (by rw [hj]; decide), if_neg (by rw [hj]; decide), immediateStop_outcome]
  exact if_pos ⟨by rw [hw]; rfl, hHoming⟩

/-- R129, R132, R135, R143: a limit input with the action HALT accepted active in a HOME. -/
theorem exec_filterTimer_halts {i : InputId} {a : Axis} {w : AxisSet} {s : State} (hLimit : limitInputOf a = some i)
    (hj : s.job.state = .motion) (hw : s.axes.home = some w) (ht : s.axes.timer.isSome = true)
    (hHoming : (s.axes.get a).ref = .homing)
    (hOut : timerOut (s.guard.input i).timer (s.guard.input i).filter) (hRaw : (s.guard.input i).raw = true)
    (hAccepted : (s.guard.input i).accepted = false) (hAction : (s.guard.input i).action = .halt) :
    ∃ t, exec (.filterTimerExpiry i) s = .next t ∧ HaltedHome (s.guard.latch ||| (Cause.input i).mask) a t := by
  have hAct : ((s.accepting i).guard.input i).action = .halt :=
    (congrArg InputState.action (accepting_input i s)).trans hAction
  refine ⟨_, exec_filterTimer_accepts hOut (by rw [hRaw, hAccepted]; decide), ?_⟩
  rw [hRaw]
  rcases levelEffects_ordered (s := s.accepting i) (axisReport_limit hLimit) hj hHoming
    (by rw [hAct]; decide) with h | h
  · have hAfter : ((reportToAxis a (AxisState.limitReported true) (s.accepting i).choosing).guard.input i).action =
        .halt := by
      rw [show (reportToAxis _ _ _).guard = _ from reportToAxis_keeps _ _ _ .guard (by decide)]
      exact hAct
    rw [h, edgeAction_activation hAfter]
    exact haltedHome_of_report (.input i) (s := (s.accepting i).choosing) hj hw ht hHoming
  · rw [h, edgeAction_activation (s := (s.accepting i).choosing) hAct]
    exact haltedHome_of_cause (.input i) (AxisState.limitReported true) (s := (s.accepting i).choosing) hj hw hHoming

/-- Settles O51: the levels, the edges by their action, and the reports to a homing axis. -/
theorem inputFilters : Obligations.InputFilters := by
  refine ⟨fun i active s => ⟨fun h => congrArg _ (if_pos h), exec_inputRawChange_restarts,
    exec_inputRawChange_accepts, fun h => congrArg _ (filterReached_idle h), exec_filterTimer_same,
    fun ht _ => exec_filterTimer_levels ht⟩, ?edges, ?home, ?limit⟩
  case edges =>
    intro i s hOut hn hTold inp u bit j jobStop
    have hExec : exec (.filterTimerExpiry i) s = .next (edgeAction i inp.raw u) :=
      (exec_filterTimer_accepts hOut hn).trans (congrArg _ (levelEffects_edge (s := u) inp.raw hTold))
    have hActs {act : InputAction} (hRaw : inp.raw = true) (hAct : inp.action = act) :
        exec (.filterTimerExpiry i) s = .next (act.taken i u) := by
      rw [hExec, hRaw]
      exact congrArg _ (edgeAction_activation ((congrArg InputState.action (accepting_input i s)).trans hAct))
    refine ⟨fun hRaw => ?release, fun hRaw hAct => hActs hRaw hAct, fun hRaw hAct => hActs hRaw hAct,
      fun hRaw hAct => ?hold, fun hRaw hAct => ?stop, fun hRaw hAct => ?halt⟩
    case release =>
      rw [hExec, hRaw]
      unfold edgeAction releaseAction
      rw [if_neg Bool.false_ne_true, show u.guard.input i = _ from accepting_input i s]
    case hold =>
      have hHold := hActs hRaw hAct
      refine ⟨fun hj => ?_, fun hj => ?_, fun hWarmup hCutting hStarved => ?_⟩
      · rw [hHold, taken_hold_holdable i (by rcases hj with hj | hj <;> rw [show u.job.state = _ from hj] <;> rfl),
          holdRequest_moving (s := u) hj]
      · refine ⟨_, hHold, ?_⟩
        rw [taken_hold_holdable i (by rw [show u.job.state = _ from hj]; rfl)]
        exact ⟨(holdRequest_keeps u).after (accepting_keeps i s).mono, holdRequest_starved_parts (s := u) hj⟩
      · rw [hHold, taken_hold_other (s := u) i (holdable_of_other hWarmup hCutting hStarved)]
    case stop =>
      have hStop := hActs hRaw hAct
      refine ⟨fun hj => ?_, fun hj => ?_, fun hj hUndriven => ?_, fun hj hDriven => ⟨_, hStop, ?_⟩⟩
      · have hOthers : j ≠ .idle ∧ j ≠ .fault ∧ j ≠ .stopping := by
          rcases hj with hj | hj | hj | hj | hj <;> rw [hj] <;> decide
        rw [hStop, taken_stop_stops (s := u) i hOthers.1 hOthers.2.1 hOthers.2.2]
        rfl
      · rw [hStop, taken_stop_latches (s := u) i hj]
        rfl
      · rw [hStop, taken_stop_idle (s := u) i hj]
        exact congrArg _ (if_neg (show ¬s.stroke.state.driven = true by rw [hUndriven]; exact Bool.false_ne_true))
      · obtain ⟨hJob, hStroke, -, hAxes, -, hNotices⟩ := faultFromIdle_parts .controlled (.input i) u
        rw [taken_stop_idle (s := u) i hj, if_pos (show u.stroke.state.driven = true from hDriven)]
        exact ⟨(faultFromIdle_keeps _ _ u).after (accepting_keeps i s).mono, hJob, faultFromIdle_guard _ _ u, hStroke,
          fun a => by rw [hAxes, get_each]; rfl, hNotices⟩
    case halt =>
      obtain ⟨hJob, hLatch, hStroke, -, -⟩ := takeCause_immediate (.input i) u
      exact ⟨_, hActs hRaw hAct, hJob, hLatch, hStroke, takeCause_immediate_by_state (.input i) u⟩
  case home =>
    intro a w s hj hw ht hHoming i ax active hOut hn hQuiet
    obtain ⟨t, hExec, hKeeps, hJudged, hOther, hSelf⟩ :=
      exec_filterTimer_reports (axisReport_home a) hj hw ht hHoming hOut hn hQuiet
    exact ⟨t, hExec, hKeeps, hJudged, hOther, hSelf.trans (homeReported_homing hHoming active)⟩
  case limit =>
    intro a i w s hLimit hj hw ht hHoming hOut hRaw hAccepted
    refine ⟨fun hAction => ?_, fun hAction => ?_⟩
    · obtain ⟨t, hExec, hKeeps, hJudged, hOther, hSelf⟩ :=
        exec_filterTimer_reports (axisReport_limit hLimit) hj hw ht hHoming hOut (by rw [hRaw, hAccepted]; decide)
          (by rw [hRaw]; exact hAction)
      rw [hRaw] at hSelf
      exact ⟨t, hExec, hKeeps, hJudged, hOther, hSelf.trans (limitReported_homing hHoming)⟩
    · obtain ⟨t, hExec, hHalted⟩ := exec_filterTimer_halts hLimit hj hw ht hHoming hOut hRaw hAccepted hAction
      exact ⟨t, hExec, hHalted.job, hHalted.latched, hHalted.outcome, hHalted.dropped⟩

end Sys2Proof.Machine

namespace Sys2Proof.Machine

/-! ## The traverse period (R122, R123, R126, R128 to R132, R142) -/

theorem exec_traversePeriod {s : State} (h : s.axes.timer.isSome = true) :
    exec .traversePeriodExpiry s = .next (traverseExpiry s) :=
  congrArg _ (if_pos h)

theorem each_same {u : Axes} {f : Axis → AxisState → AxisState} (h : ∀ a, f a (u.get a) = u.get a) :
    u.each f = u := by
  have hx : f .x u.x = u.x := h .x
  have hy : f .y u.y = u.y := h .y
  have hc : f .c u.c = u.c := h .c
  unfold Axes.each
  rw [hx, hy, hc]

theorem searching_iff (ax : AxisState) : ax.searching = true ↔ ax.ref = .homing :=
  decide_eq_true_iff

/-- With no axis homing, what is done to the homing axes changes nothing. -/
theorem mapHoming_same (f : Axis → AxisState → AxisState) {s : State} (h : ∀ a, (s.axes.get a).ref ≠ .homing) :
    (s.mapAxes fun u => u.each fun a ax => if ax.searching then f a ax else ax) = s := by
  have hSame : (s.axes.each fun a ax => if ax.searching then f a ax else ax) = s.axes :=
    each_same fun a => if_neg (mt (searching_iff _).mp (h a))
  exact congrArg (fun u => { s with axes := u }) hSame

/-- R122: at the beginning of a traverse period every axis stands with the steps of the period before issued. -/
theorem beginTraversePeriod_get (s : State) (a : Axis) :
    (beginTraversePeriod s).axes.get a = (s.axes.get a).standing a := by
  rw [← issueRest_standing]
  cases a <;> rfl

theorem beginTraversePeriod_still {s : State} (h : ∀ a, (s.axes.get a).ref ≠ .homing) (a : Axis) :
    ((beginTraversePeriod s).axes.get a).ref ≠ .homing := by
  rw [beginTraversePeriod_get]
  exact h a

theorem beginTraversePeriod_keeps (s : State) : Keeps [.axes] s (beginTraversePeriod s) := mapAxes_keeps _ s

/-- R126: a traverse period in MOTION and in STOPPING. -/
theorem traverseExpiry_motion {s : State} (h : s.job.state = .motion) :
    traverseExpiry s = finishMove (finishHome (advanceMove (advanceHoming (beginTraversePeriod s)))) :=
  if_neg (show ¬s.job.state = .stopping by rw [h]; decide)

theorem traverseExpiry_stopping {s : State} (h : s.job.state = .stopping) :
    traverseExpiry s = restInMotion (slowMotion (beginTraversePeriod s)) :=
  if_pos h

theorem finishHome_none {s : State} (h : s.axes.home = none) : finishHome s = s := by
  unfold finishHome
  rw [h]

theorem endHome_none {s : State} (h : s.axes.home = none) : endHome s = s := by
  unfold endHome
  rw [h]

theorem finishMove_none {s : State} (h : s.axes.traverse = none) : finishMove s = s := by
  unfold finishMove
  rw [h]

theorem finishHome_traverse (s : State) : (finishHome s).axes.traverse = s.axes.traverse := by
  unfold finishHome
  split
  · rfl
  · split <;> rfl

/-! ### A traverse's progress (R131) -/

/-- R131: the progress after a period at the speed `v`: the overshoot is dropped at the end. -/
def Traverse.reach (v : Nat) (tr : Traverse) : Nat :=
  if tr.length * 1000 ≤ tr.p then tr.p else min (tr.p + v) (tr.length * 1000)

/-- R131: the speed after it: 0 at the end. -/
def Traverse.speedAfter (v : Nat) (tr : Traverse) : Nat :=
  if tr.reach v < tr.length * 1000 then v else 0

theorem advance_eq (v : Nat) (tr : Traverse) :
    tr.advance v = { tr with p := tr.reach v, v := tr.speedAfter v, vprev := tr.speedAfter v } := by
  unfold Traverse.advance Traverse.speedAfter Traverse.reach
  by_cases hEnded : tr.length * 1000 ≤ tr.p
  · simp only [if_pos hEnded, if_neg (Nat.not_lt.mpr hEnded)]
  · by_cases hEnds : tr.length * 1000 ≤ tr.p + v
    · simp only [if_neg hEnded, if_pos hEnds, Nat.min_eq_right hEnds, Nat.lt_irrefl, if_false]
    · have hShort := Nat.lt_of_not_le hEnds
      simp only [if_neg hEnded, if_neg hEnds, Nat.min_eq_left hShort.le, if_pos hShort]

/-- R131: short of the end, `v` carries the traverse on; otherwise it is at its end. -/
theorem reach_lt_iff (v : Nat) (tr : Traverse) : tr.reach v < tr.length * 1000 ↔ tr.p + v < tr.length * 1000 := by
  unfold Traverse.reach
  split <;> omega

theorem reach_short {v : Nat} {tr : Traverse} (h : tr.p + v < tr.length * 1000) : tr.reach v = tr.p + v := by
  unfold Traverse.reach
  rw [if_neg (by omega)]
  omega

theorem traverse_point (tr : Traverse) :
    tr.point =
      if tr.p < tr.length * 1000 then alongLine tr.startAt tr.stopAt tr.length tr.p else tr.stopAt := by
  unfold Traverse.point
  by_cases h : tr.p < tr.length * 1000
  · rw [if_neg (Nat.not_le.mpr h), if_pos h]
    rfl
  · rw [if_pos (Nat.not_lt.mp h), if_neg h]

/-- R131: one period of a MOVE: its progress, its speed and its turn. -/
theorem step_eq (prm : Params) (tr : Traverse) :
    tr.step prm =
      { tr with
        p := tr.reach (tr.speed prm), v := tr.speedAfter (tr.speed prm), vprev := tr.speedAfter (tr.speed prm)
        turnLeft := tr.turnLeft - min prm.pivotRate tr.turnLeft, targetC := (tr.step prm).targetC } := by
  unfold Traverse.step
  rw [advance_eq]
  rfl

theorem step_targetC (prm : Params) (tr : Traverse) :
    ((tr.step prm).targetC : Int) =
      (if tr.turnNeg then (tr.targetC : Int) - (min prm.pivotRate tr.turnLeft : Nat)
        else tr.targetC + (min prm.pivotRate tr.turnLeft : Nat)) % 36000 := by
  unfold Traverse.step
  rw [advance_eq]
  exact mod36000_cast _

/-- R132: the speed of a period of a MOVE under a controlled stop. -/
def Traverse.stopSpeed (prm : Params) (tr : Traverse) : Nat :=
  min (tr.speed prm) (tr.vprev - prm.stopDecel)

/-- R132: one such period; the turn is halted. -/
theorem slow_eq (prm : Params) (tr : Traverse) :
    tr.slow prm =
      { tr with
        p := tr.reach (tr.stopSpeed prm), v := tr.speedAfter (tr.stopSpeed prm)
        vprev := tr.speedAfter (tr.stopSpeed prm), turnLeft := 0 } := by
  unfold Traverse.slow
  rw [show min _ _ = tr.stopSpeed prm from rfl, advance_eq]

/-- R132: short of the end and of rest, the stopped MOVE goes on with its speed. -/
theorem slow_moving {prm : Params} {tr : Traverse} (h : tr.p + tr.stopSpeed prm < tr.length * 1000) :
    tr.slow prm =
      { tr with
        p := tr.p + tr.stopSpeed prm, v := tr.stopSpeed prm, vprev := tr.stopSpeed prm, turnLeft := 0 } := by
  have hSpeed : tr.speedAfter (tr.stopSpeed prm) = tr.stopSpeed prm := if_pos ((reach_lt_iff _ tr).mpr h)
  rw [slow_eq, hSpeed, reach_short h]

theorem slow_standing {prm : Params} {tr : Traverse}
    (h : ¬(tr.p + tr.stopSpeed prm < tr.length * 1000 ∧ 0 < tr.stopSpeed prm)) : (tr.slow prm).v = 0 := by
  rw [slow_eq]
  unfold Traverse.speedAfter
  dsimp only
  split
  · next hShort => exact Nat.eq_zero_of_not_pos fun hv => h ⟨(reach_lt_iff _ tr).mp hShort, hv⟩
  · rfl

theorem slow_point (prm : Params) (tr : Traverse) :
    (tr.slow prm).point =
      if tr.p + tr.stopSpeed prm < tr.length * 1000 then
        alongLine tr.startAt tr.stopAt tr.length (tr.p + tr.stopSpeed prm)
      else tr.stopAt := by
  rw [traverse_point, slow_eq]
  dsimp only
  by_cases h : tr.p + tr.stopSpeed prm < tr.length * 1000
  · rw [if_pos ((reach_lt_iff _ _).mpr h), if_pos h, reach_short h]
  · rw [if_neg (mt (reach_lt_iff _ _).mp h), if_neg h]

theorem complete_iff (tr : Traverse) : tr.complete = true ↔ tr.length * 1000 ≤ tr.p ∧ tr.turnLeft = 0 := by
  unfold Traverse.complete
  rw [Bool.and_eq_true, decide_eq_true_iff, decide_eq_true_iff]

/-! ### A period of a MOVE (R131) -/

/-- R122, R131: the period before has ended, and the targets of the traverse `tr` are handed to the axes. -/
def State.traversed (tr : Traverse) (s : State) : State :=
  (beginTraversePeriod s).mapAxes (handTraverse s.params tr)

theorem traversed_keeps (tr : Traverse) (s : State) : Keeps [.axes] s (s.traversed tr) :=
  (mapAxes_keeps _ _).after (beginTraversePeriod_keeps s)

theorem traversed_handed (tr : Traverse) (s : State) :
    Axes.handed s.params tr.point.x tr.point.y tr.targetC { s.axes with traverse := some tr, timer := some 0 }
      (s.traversed tr).axes :=
  handTraverse_handed s.params tr s.axes

/-- R122: handing the targets changes neither the enable nor the reference of an axis. -/
theorem traversed_get (tr : Traverse) (s : State) (a : Axis) :
    ((s.traversed tr).axes.get a).enable = (s.axes.get a).enable ∧
      ((s.traversed tr).axes.get a).ref = (s.axes.get a).ref := by
  cases a <;> exact ⟨rfl, rfl⟩

/-- R131: with no axis homing, a period of a MOVE in MOTION. -/
theorem traverseExpiry_moves {tr : Traverse} {s : State} (hj : s.job.state = .motion) (hHome : s.axes.home = none)
    (hStill : ∀ a, (s.axes.get a).ref ≠ .homing) (hTraverse : s.axes.traverse = some tr) :
    traverseExpiry s = finishMove (s.traversed (tr.step s.params)) := by
  have hHoming : advanceHoming (beginTraversePeriod s) = beginTraversePeriod s :=
    mapHoming_same _ (beginTraversePeriod_still hStill)
  have hMove : advanceMove (beginTraversePeriod s) = s.traversed (tr.step s.params) := by
    unfold advanceMove
    rw [show (beginTraversePeriod s).axes.traverse = _ from hTraverse]
    rfl
  rw [traverseExpiry_motion hj, hHoming, hMove, finishHome_none (s := s.traversed _) hHome]

/-- R131: what the completion of a MOVE is judged to leave of the axes: all but the traverse and its timer. -/
theorem finishMove_axes (s : State) :
    (finishMove s).axes =
      { s.axes with traverse := (finishMove s).axes.traverse, timer := (finishMove s).axes.timer } := by
  unfold finishMove
  split
  · rfl
  · split <;> rfl

theorem finishMove_goes_on {tr : Traverse} {s : State} (ht : s.axes.traverse = some tr)
    (h : tr.p < tr.length * 1000 ∨ 0 < tr.turnLeft) : finishMove s = s := by
  unfold finishMove
  rw [ht]
  exact if_neg (by rw [complete_iff]; omega)

/-- R131: a complete MOVE. -/
theorem finishMove_ends {tr : Traverse} {s : State} (ht : s.axes.traverse = some tr)
    (hEnd : tr.length * 1000 ≤ tr.p) (hTurned : tr.turnLeft = 0) :
    (finishMove s).axes.traverse = none ∧ (finishMove s).axes.timer = none ∧
      (finishMove s).job = { s.job with state := .idle } ∧
      (s.link.notices.length < 16 →
        (finishMove s).link.notices = s.link.notices ++ [.moved tr.stopAt.x tr.stopAt.y tr.goalC]) := by
  unfold finishMove
  rw [ht]
  dsimp only
  rw [if_pos ((complete_iff tr).mpr ⟨hEnd, hTurned⟩)]
  refine ⟨rfl, rfl, rfl, fun hRoom => ?_⟩
  rw [(queueNotice_link _ _).2.2]
  exact if_pos hRoom

/-! ### A period of a HOME (R128, R129) -/

theorem advanceHoming_get (s : State) (a : Axis) :
    (advanceHoming s).axes.get a =
      if (s.axes.get a).searching then (s.axes.get a).homeStep s.params a (homeLevel s.guard a) else s.axes.get a :=
  get_each s.axes _ a

/-- R128, R129: with no MOVE, a period of a HOME in MOTION advances its axes, and its completion is judged. -/
theorem traverseExpiry_homes {w : AxisSet} {s : State} (hj : s.job.state = .motion) (hHome : s.axes.home = some w)
    (hTraverse : s.axes.traverse = none) :
    let t := traverseExpiry s
    Keeps [.axes, .job, .link] s t ∧ s.homeJudged w t ∧ ∀ a, t.axes.get a =
      if (s.axes.get a).ref = .homing then
        ((s.axes.get a).standing a).homeStep s.params a (s.guard.input (homeInputOf a)).accepted
      else (s.axes.get a).standing a := by
  intro t
  obtain ⟨u, hu⟩ : ∃ u, u = advanceHoming (beginTraversePeriod s) := ⟨_, rfl⟩
  have kU : Keeps [.axes] s u := hu ▸ (mapAxes_keeps _ _).after (beginTraversePeriod_keeps s)
  have uNone : u.axes.traverse = none := by rw [hu]; exact hTraverse
  have eT : t = finishHome u := by
    have hMove : advanceMove u = u := by
      unfold advanceMove
      rw [uNone]
    rw [show t = _ from traverseExpiry_motion hj, ← hu, hMove,
      finishMove_none ((finishHome_traverse u).trans uNone)]
  obtain ⟨hJudged, hAxes⟩ := finishHome_judged (s := u) (w := w) (by rw [hu]; exact hHome) (by rw [hu]; exact hj)
    (by rw [hu]; rfl)
  rw [eT]
  refine ⟨(finishHome_keeps u).after kU.mono, homeJudged_congr (kU .job (by decide)) (kU .link (by decide)) hJudged,
    fun a => ?_⟩
  rw [hAxes, hu, advanceHoming_get, beginTraversePeriod_get, homeLevel_eq]
  exact if_congr (searching_iff _) rfl rfl

/-! ### Rest under a controlled stop (R132, R142) -/

theorem atRest_iff (u : Axes) :
    u.atRest = true ↔
      (∀ tr, u.traverse = some tr → tr.v = 0) ∧ ∀ a, (u.get a).ref = .homing → (u.get a).speed = 0 := by
  have hAxis (ax : AxisState) :
      (!ax.searching || decide (ax.speed = 0)) = true ↔ (ax.ref = .homing → ax.speed = 0) := by
    rw [Bool.or_eq_true, Bool.not_eq_true', ← Bool.not_eq_true, searching_iff, decide_eq_true_iff, imp_iff_not_or]
  have hAll : (∀ a, (u.get a).ref = .homing → (u.get a).speed = 0) ↔
      ((u.x.ref = .homing → u.x.speed = 0) ∧ (u.y.ref = .homing → u.y.speed = 0)) ∧
        (u.c.ref = .homing → u.c.speed = 0) :=
    ⟨fun h => ⟨⟨h .x, h .y⟩, h .c⟩, fun ⟨⟨hx, hy⟩, hc⟩ a => by cases a; exacts [hx, hy, hc]⟩
  unfold Axes.atRest
  rw [Bool.and_eq_true, Bool.and_eq_true, Bool.and_eq_true, hAxis, hAxis, hAxis, hAll, and_assoc, and_assoc, and_assoc]
  refine and_congr_left fun _ => ?_
  cases u.traverse <;> simp

/-- R140, R142: what the end of a controlled stop leaves of the axes. -/
theorem controlledStopEnd_axes (s : State) :
    let t := controlledStopEnd s
    t.axes.home = s.axes.home ∧ t.axes.traverse = none ∧ t.axes.timer = none ∧ ∀ a, t.axes.get a =
      { s.axes.get a with steps := if s.guard.latch = 0 then (s.axes.get a).steps else 0 } := by
  intro t
  obtain ⟨-, -, -, -, hAxes⟩ := controlledStopEnd_parts s
  rw [show t.axes = _ from hAxes]
  by_cases h : s.guard.latch = 0
  · rw [if_pos h]
    exact ⟨rfl, rfl, rfl, fun a => by rw [if_pos h]; cases a <;> rfl⟩
  · rw [if_neg h]
    exact ⟨rfl, rfl, rfl, fun a => by rw [if_neg h]; cases a <;> rfl⟩

/-- R70, R101, R142: a controlled stop entered from MOTION ends: the blade coasts, the job is in IDLE or in FAULT by the
latch, and STOPPED is queued. -/
structure StopEnded (s t : State) : Prop where
  keeps : Keeps [.axes, .interp, .stroke, .load, .guard, .job, .link] s t
  traverse : t.axes.traverse = none
  timer : t.axes.timer = none
  stroke : t.stroke = s.stroke.toCoast
  job : t.job = { s.job with state := if s.guard.latch = 0 then .idle else .fault }
  guard : t.guard = { s.guard with stop := none }
  notices : s.link.notices.length < 16 →
    t.link.notices = s.link.notices ++ [.stopped .controlled .motion s.guard.latch]

theorem controlledStopEnd_ended {s : State} (h : s.guard.stop = some .motion) : StopEnded s (controlledStopEnd s) := by
  have hEntered : stopEntered s = .motion := by
    unfold stopEntered
    rw [h]
    rfl
  obtain ⟨hJob, hStroke, -⟩ := controlledStopEnd_parts s
  obtain ⟨-, hTraverse, hTimer, -⟩ := controlledStopEnd_axes s
  obtain ⟨hKeeps, hNotices⟩ := controlledStopEnd_motion hEntered
  exact ⟨hKeeps, hTraverse, hTimer, hStroke, hJob, controlledStopEnd_guard s, hNotices⟩

/-! ### A MOVE under a controlled stop (R132) -/

/-- R132: the homing axes are advanced by one period of a controlled stop. -/
def slowHoming (s : State) : State :=
  s.mapAxes fun u => u.each fun a ax => if ax.searching then ax.homeSlow s.params a else ax

theorem slowMotion_home {s : State} (h : s.axes.traverse = none) : slowMotion s = slowHoming s := by
  unfold slowMotion
  dsimp only
  split
  · rfl
  · next hSome => cases h.symm.trans hSome

theorem slowMotion_move {tr : Traverse} {s : State} (h : s.axes.traverse = some tr) :
    slowMotion s = (slowHoming s).mapAxes (handTraverse s.params (tr.slow s.params)) := by
  unfold slowMotion
  dsimp only
  split
  · next hNone => cases h.symm.trans hNone
  · next hSome =>
    cases h.symm.trans hSome
    rfl

/-- R132: with no axis homing, a period of a MOVE in STOPPING. -/
theorem traverseExpiry_slows {tr : Traverse} {s : State} (hj : s.job.state = .stopping)
    (hStill : ∀ a, (s.axes.get a).ref ≠ .homing) (hTraverse : s.axes.traverse = some tr) :
    traverseExpiry s = restInMotion (s.traversed (tr.slow s.params)) := by
  have hHoming : slowHoming (beginTraversePeriod s) = beginTraversePeriod s :=
    mapHoming_same (fun a ax => ax.homeSlow s.params a) (beginTraversePeriod_still hStill)
  rw [traverseExpiry_stopping hj, slowMotion_move (s := beginTraversePeriod s) hTraverse, hHoming]
  rfl

theorem traversed_atRest_iff (tr : Traverse) {s : State} (hStill : ∀ a, (s.axes.get a).ref ≠ .homing) :
    (s.traversed tr).axes.atRest = true ↔ tr.v = 0 := by
  rw [atRest_iff]
  refine ⟨fun h => h.1 tr rfl, fun h => ⟨fun tr' he => Option.some.inj he ▸ h, fun a ha => ?_⟩⟩
  rw [(traversed_get tr s a).2] at ha
  exact absurd ha (hStill a)

theorem restInMotion_goes_on {s : State} (h : ¬s.axes.atRest = true) : restInMotion s = s :=
  if_neg h

theorem restInMotion_rests {s : State} (h : s.axes.atRest = true) : restInMotion s = controlledStopEnd (endHome s) :=
  if_pos h

/-! ### A HOME under a controlled stop (R132) -/

/-- R132: the speed a period of a controlled stop leaves an axis. -/
def AxisState.stopSpeed (prm : Params) (ax : AxisState) : Nat :=
  if ax.phase = .search ∨ ax.phase = .brake ∨ ax.phase = .backoffSeek ∨ ax.phase = .backoff then
    ax.speed - prm.stopDecel
  else ax.speed

/-- R122, R132: an axis after a period of a controlled stop of a HOME. -/
def AxisState.stopMoved (prm : Params) (a : Axis) (ax : AxisState) : AxisState :=
  if ax.ref = .homing ∧
      (ax.phase = .search ∨ ax.phase = .brake ∨ ax.phase = .backoffSeek ∨ ax.phase = .backoff) then
    ax.homeMoved a (ax.stopSpeed prm) (ax.moved + ax.stopSpeed prm)
  else ax.standing a

theorem homeSlow_stopMoved (prm : Params) (a : Axis) (ax : AxisState) :
    (if (ax.standing a).searching then (ax.standing a).homeSlow prm a else ax.standing a) = ax.stopMoved prm a := by
  unfold AxisState.stopMoved AxisState.stopSpeed
  by_cases hr : ax.ref = .homing
  · rw [if_pos ((searching_iff (ax.standing a)).mpr hr), homeSlow_moved hr]
    by_cases hp : ax.phase = .search ∨ ax.phase = .brake ∨ ax.phase = .backoffSeek ∨ ax.phase = .backoff
    · simp only [if_pos hp, if_pos (And.intro hr hp)]
    · simp only [if_neg hp, if_neg (fun h : _ ∧ _ => hp h.2)]
  · rw [if_neg (mt (searching_iff (ax.standing a)).mp hr), if_neg (fun h => hr h.1)]

/-- R132: an axis slowed keeps its reference, and a homing one has the speed of its period. -/
theorem stopMoved_speed (prm : Params) (a : Axis) (ax : AxisState) :
    (ax.stopMoved prm a).ref = ax.ref ∧ (ax.ref = .homing → (ax.stopMoved prm a).speed = ax.stopSpeed prm) := by
  unfold AxisState.stopMoved
  split
  · exact ⟨rfl, fun _ => rfl⟩
  · next h =>
    refine ⟨rfl, fun hr => ?_⟩
    unfold AxisState.stopSpeed
    rw [if_neg fun hp => h ⟨hr, hp⟩]
    rfl

/-- R122, R132: the axes of a HOME after a period in STOPPING. -/
def State.homeSlowed (s : State) : State :=
  slowMotion (beginTraversePeriod s)

theorem homeSlowed_keeps (s : State) : Keeps [.axes] s s.homeSlowed :=
  (slowMotion_keeps _).after (beginTraversePeriod_keeps s)

/-- R132: with no MOVE, each axis is slowed and the HOME is still in progress. -/
theorem homeSlowed_axes {s : State} (hTraverse : s.axes.traverse = none) :
    s.homeSlowed.axes.home = s.axes.home ∧ s.homeSlowed.axes.traverse = none ∧ s.homeSlowed.axes.timer = some 0 ∧
      ∀ a, s.homeSlowed.axes.get a = (s.axes.get a).stopMoved s.params a := by
  rw [show s.homeSlowed = _ from slowMotion_home (s := beginTraversePeriod s) hTraverse]
  refine ⟨rfl, hTraverse, rfl, fun a => ?_⟩
  unfold slowHoming
  rw [mapAxes_axes, get_each, beginTraversePeriod_get]
  exact homeSlow_stopMoved s.params a (s.axes.get a)

theorem homeSlowed_atRest_iff {s : State} (hTraverse : s.axes.traverse = none) :
    s.homeSlowed.axes.atRest = true ↔
      ∀ a, (s.axes.get a).ref = .homing → (s.axes.get a).stopSpeed s.params = 0 := by
  obtain ⟨-, hNone, -, hGet⟩ := homeSlowed_axes hTraverse
  rw [atRest_iff, hNone]
  refine ⟨fun h a hr => ?_, fun h => ⟨nofun, fun a hr => ?_⟩⟩
  · obtain ⟨hRef, hSpeed⟩ := stopMoved_speed s.params a (s.axes.get a)
    rw [← hSpeed hr, ← hGet]
    exact h.2 a (by rw [hGet, hRef]; exact hr)
  · obtain ⟨hRef, hSpeed⟩ := stopMoved_speed s.params a (s.axes.get a)
    rw [hGet] at hr ⊢
    rw [hRef] at hr
    rw [hSpeed hr]
    exact h a hr

theorem abortHome_eq (ax : AxisState) :
    ax.abortHome =
      if ax.ref = .homing then { ax with ref := .unreferenced, outcome := .aborted, phase := .none, speed := 0 }
      else ax :=
  if_congr (searching_iff ax) rfl rfl

/-- 12.5: HOMED carries outcomes and positions, and nothing else of the axes. -/
theorem homedNotice_congr (w : AxisSet) {u v : Axes}
    (h : ∀ a, (u.get a).outcome = (v.get a).outcome ∧ (u.get a).pos = (v.get a).pos) :
    u.homedNotice w = v.homedNotice w := by
  unfold Axes.homedNotice
  simp only [h]

/-- R132, R142: a HOME at rest in STOPPING is given up, and the stop ends. -/
theorem homeStopped {w : AxisSet} {s : State} (hStop : s.guard.stop = some .motion) (hHome : s.axes.home = some w) :
    let t := controlledStopEnd (endHome s)
    Keeps [.axes, .interp, .stroke, .load, .guard, .job, .link] s t ∧
      (∀ a, t.axes.get a =
        let ax := s.axes.get a
        let kept : AxisState := { ax with steps := if s.guard.latch = 0 then ax.steps else 0 }
        if ax.ref = .homing then { kept with ref := .unreferenced, outcome := .aborted, phase := .none, speed := 0 }
        else kept) ∧
      t.axes.home = none ∧ t.axes.timer = none ∧ t.stroke = s.stroke.toCoast ∧
      t.job = { s.job with state := if s.guard.latch = 0 then .idle else .fault } ∧
      t.guard = { s.guard with stop := none } ∧
      (s.link.notices.length < 15 → t.link.notices =
        s.link.notices ++ [t.axes.homedNotice w, .stopped .controlled .motion s.guard.latch]) := by
  intro t
  have kEnd := endHome_keeps s
  have eGuard : (endHome s).guard = s.guard := kEnd .guard (by decide)
  have eJob : (endHome s).job = s.job := kEnd .job (by decide)
  have eStroke : (endHome s).stroke = s.stroke := kEnd .stroke (by decide)
  obtain ⟨hAxes, -, hHomed⟩ := endHome_parts s
  rw [hHome] at hAxes hHomed
  have hEnded := controlledStopEnd_ended (s := endHome s) (by rw [eGuard]; exact hStop)
  obtain ⟨tHome, -, tTimer, tGet⟩ := controlledStopEnd_axes (endHome s)
  have hNotice : (endHome s).axes.homedNotice w = t.axes.homedNotice w :=
    homedNotice_congr w fun a => by rw [show t.axes.get a = _ from tGet a]; exact ⟨rfl, rfl⟩
  refine ⟨hEnded.keeps.after kEnd.mono, fun a => ?_, ?_, tTimer, ?_, ?_, ?_, fun hRoom => ?_⟩
  · have hAborted : (endHome s).axes.get a = (s.axes.get a).abortHome := by
      rw [hAxes]
      cases a <;> rfl
    rw [tGet, hAborted, eGuard, abortHome_eq]
    dsimp only
    split <;> rfl
  · rw [tHome, hAxes]
  · rw [hEnded.stroke, eStroke]
  · rw [hEnded.job, eJob, eGuard]
  · rw [hEnded.guard, eGuard]
  · have hQueued : (endHome s).link.notices = s.link.notices ++ [(endHome s).axes.homedNotice w] := hHomed (by omega)
    rw [hEnded.notices (by rw [hQueued, List.length_append]; exact Nat.succ_lt_succ hRoom), hQueued, hNotice, eGuard,
      List.append_assoc]
    rfl

/-! ### The statement -/

/-- R131: a period of a MOVE in MOTION, and its end. -/
theorem move_advances {tr : Traverse} {s : State} (ht : s.axes.timer.isSome = true) (hj : s.job.state = .motion)
    (hHome : s.axes.home = none) (hStill : ∀ a, (s.axes.get a).ref ≠ .homing)
    (hTraverse : s.axes.traverse = some tr) :
    let tr' := tr.step s.params
    ∃ t, exec .traversePeriodExpiry s = .next t ∧ Keeps [.axes, .job, .link] s t ∧
      Axes.handed s.params tr'.point.x tr'.point.y tr'.targetC
        { s.axes with traverse := t.axes.traverse, timer := t.axes.timer } t.axes ∧
      (tr'.p < tr'.length * 1000 ∨ 0 < tr'.turnLeft →
        t.axes.traverse = some tr' ∧ t.axes.timer = some 0 ∧ t.job = s.job ∧ t.link = s.link) ∧
      (tr'.length * 1000 ≤ tr'.p → tr'.turnLeft = 0 →
        t.axes.traverse = none ∧ t.axes.timer = none ∧ t.job = { s.job with state := .idle } ∧
        (s.link.notices.length < 16 →
          t.link.notices = s.link.notices ++ [.moved tr'.stopAt.x tr'.stopAt.y tr'.goalC])) := by
  intro tr'
  have hAxes := finishMove_axes (s.traversed tr')
  refine ⟨finishMove (s.traversed tr'), ?_, (finishMove_keeps _).after (traversed_keeps tr' s).mono, ?_, fun h => ?_,
    finishMove_ends (s := s.traversed tr') rfl⟩
  · rw [exec_traversePeriod ht, traverseExpiry_moves hj hHome hStill hTraverse]
  · refine handed_congr (traversed_handed tr' s) (fun a => by cases a <;> rfl) (fun a => ?_) ⟨?_, rfl, rfl⟩
    · rw [hAxes]
      cases a <;> rfl
    · rw [hAxes]
      rfl
  · rw [finishMove_goes_on (s := s.traversed tr') rfl h]
    exact ⟨rfl, rfl, rfl, rfl⟩

/-- Settles O44: a period of a MOVE and of a HOME in MOTION, and of either in STOPPING, up to rest and at rest. -/
theorem traverseAdvances : Obligations.TraverseAdvances := by
  refine ⟨?move, ?home, ?moveStop, ?homeStop⟩
  case move =>
    intro tr s ht hj hHome hStill hTraverse whole v p speed n point
    obtain ⟨t, hExec, hKeeps, hHanded, hGoesOn, hEnds⟩ := move_advances ht hj hHome hStill hTraverse
    have hPoint : (tr.step s.params).point = point := by
      rw [traverse_point, step_eq]
      rfl
    rw [hPoint] at hHanded
    rw [step_eq s.params tr] at hGoesOn hEnds
    refine ⟨t, tr.step s.params, hExec, hKeeps, step_eq s.params tr, step_targetC s.params tr, hHanded, fun h => ?_,
      fun hEnd hTurned => hEnds hEnd (Nat.sub_eq_zero_of_le hTurned)⟩
    rw [step_eq s.params tr]
    exact hGoesOn (h.imp_right Nat.sub_pos_of_lt)
  case home =>
    intro w s ht hj hHome hTraverse
    obtain ⟨hKeeps, hJudged, hGet⟩ := traverseExpiry_homes hj hHome hTraverse
    refine ⟨_, exec_traversePeriod ht, hKeeps, hJudged, fun a => ?_⟩
    intro ax whole v slower creep
    have hHoming (hr : ax.ref = .homing) : (traverseExpiry s).axes.get a =
        (ax.standing a).homeStep s.params a (s.guard.input (homeInputOf a)).accepted := (hGet a).trans (if_pos hr)
    exact ⟨fun hr => (hGet a).trans (if_neg hr), fun hr hp => (hHoming hr).trans (homeStep_search hr hp),
      fun hr hp => (hHoming hr).trans (homeStep_brake hr hp),
      fun hr hp => (hHoming hr).trans (homeStep_backoff hr hp)⟩
  case moveStop =>
    intro tr s ht hj hStop hHome hStill hTraverse whole v point
    have hHanded : Axes.handed s.params point.x point.y tr.targetC
        { s.axes with traverse := some (tr.slow s.params), timer := some 0 }
        (s.traversed (tr.slow s.params)).axes := by
      have hC : (tr.slow s.params).targetC = tr.targetC := by rw [slow_eq]
      rw [show point = (tr.slow s.params).point from (slow_point s.params tr).symm, ← hC]
      exact traversed_handed _ s
    have hExec : exec .traversePeriodExpiry s = .next (restInMotion (s.traversed (tr.slow s.params))) := by
      rw [exec_traversePeriod ht, traverseExpiry_slows hj hStill hTraverse]
    have hRest := traversed_atRest_iff (tr.slow s.params) hStill
    have kTraversed := traversed_keeps (tr.slow s.params) s
    by_cases hMoving : tr.p + v < whole ∧ 0 < v
    · have hNew : tr.slow s.params = { tr with p := tr.p + v, v := v, vprev := v, turnLeft := 0 } :=
        slow_moving hMoving.1
      rw [restInMotion_goes_on (by rw [hRest, hNew]; exact hMoving.2.ne')] at hExec
      exact ⟨_, hExec, kTraversed.mono,
        fun _ _ => ⟨hHanded, congrArg some hNew, rfl, rfl, rfl, rfl⟩, fun h => by omega⟩
    · have hStands : (tr.slow s.params).v = 0 := slow_standing hMoving
      rw [restInMotion_rests (hRest.mpr hStands), endHome_none (s := s.traversed (tr.slow s.params)) hHome] at hExec
      have hEnded := controlledStopEnd_ended (s := s.traversed (tr.slow s.params)) hStop
      obtain ⟨tHome, tTraverse, tTimer, tGet⟩ := controlledStopEnd_axes (s.traversed (tr.slow s.params))
      refine ⟨_, hExec, hEnded.keeps.after kTraversed.mono, fun h1 h2 => absurd ⟨h1, h2⟩ hMoving,
        fun _ => ⟨fun hLatch => ?_, fun a => ?_, hEnded.traverse, hEnded.timer, hEnded.stroke, hEnded.job,
          hEnded.guard, hEnded.notices⟩⟩
      · refine handed_congr hHanded (fun a => by cases a <;> rfl) (fun a => ?_) ⟨tHome, tTraverse, tTimer⟩
        rw [tGet, if_pos (show (s.traversed (tr.slow s.params)).guard.latch = 0 from hLatch)]
      · obtain ⟨hEnable, hRef⟩ := traversed_get (tr.slow s.params) s a
        rw [tGet]
        exact ⟨hEnable, hRef, fun hLatch => if_neg hLatch⟩
  case homeStop =>
    intro w s ht hj hStop hHome hTraverse moving slower moved
    obtain ⟨uHome, -, uTimer, uGet⟩ := homeSlowed_axes hTraverse
    have kU := homeSlowed_keeps s
    have hExec : exec .traversePeriodExpiry s = .next (restInMotion s.homeSlowed) := by
      rw [exec_traversePeriod ht, traverseExpiry_stopping hj]
      rfl
    have hRest := homeSlowed_atRest_iff hTraverse
    by_cases hStands : ∀ a, (s.axes.get a).ref = .homing → slower (s.axes.get a) = 0
    · rw [restInMotion_rests (hRest.mpr hStands)] at hExec
      obtain ⟨hKeeps, tGet, hParts⟩ :=
        homeStopped (s := s.homeSlowed) (by rw [kU .guard (by decide)]; exact hStop) (uHome.trans hHome)
      refine ⟨_, hExec, hKeeps.after kU.mono, fun ⟨a, hr, hMoves⟩ => absurd (hStands a hr) hMoves, fun _ =>
        ⟨fun a => ?_, ?_⟩⟩
      · rw [tGet, uGet, show s.homeSlowed.guard = s.guard from kU .guard (by decide)]
        rfl
      · rw [show s.homeSlowed.guard = s.guard from kU .guard (by decide),
          show s.homeSlowed.stroke = s.stroke from kU .stroke (by decide),
          show s.homeSlowed.job = s.job from kU .job (by decide),
          show s.homeSlowed.link = s.link from kU .link (by decide)] at hParts
        exact hParts
    · rw [restInMotion_goes_on (mt hRest.mp hStands)] at hExec
      exact ⟨_, hExec, kU.mono, fun _ => ⟨uGet, uHome.trans hHome, uTimer, kU .job (by decide),
        kU .guard (by decide), kU .link (by decide), kU .stroke (by decide)⟩, fun h => absurd h hStands⟩

end Sys2Proof.Machine

namespace Sys2Proof.Machine

/-! ## SET refused (R138, R169) -/

/-- R169, check 1: an identifier that names no parameter. -/
theorem judgeSet_unknown {id : Nat} (v : Int) (s : State) (hp : paramOfId id = none) :
    judgeSet s id v = .error .badField := by
  unfold judgeSet
  rw [hp]

/-- R138, R169, check 2: a fixed parameter, in every job state and whatever the value. -/
theorem judgeSet_fixed {id : Nat} {p : ParamId} (v : Int) (s : State) (hp : paramOfId id = some p)
    (hFixed : setFixed id) : judgeSet s id v = .error .fixed := by
  unfold judgeSet
  rw [hp]
  exact if_pos ((fixed_iff hp).mpr hFixed)

/-- R169, checks 3 and 4: the refusals of a parameter that is not fixed. -/
theorem judgeSet_settable {id : Nat} {p : ParamId} {v : Int} {s : State} (hp : paramOfId id = some p)
    (hFixed : ¬setFixed id) :
    (setIdleOnly id → s.job.state ≠ .idle → judgeSet s id v = .error .busy) ∧
      ((setIdleOnly id → s.job.state = .idle) → setUndefined id v → judgeSet s id v = .error .badField) := by
  have hBars : (p.idleOnly && decide (s.job.state ≠ .idle)) = true ↔ setIdleOnly id ∧ s.job.state ≠ .idle := by
    rw [Bool.and_eq_true, decide_eq_true_eq, idleOnly_iff hp]
  unfold judgeSet
  rw [hp]
  dsimp only
  rw [if_neg (mt (fixed_iff hp).mp hFixed)]
  refine ⟨fun hOnly hj => if_pos (hBars.mpr ⟨hOnly, hj⟩), fun hIdle hCode => ?_⟩
  rw [if_neg (mt hBars.mp fun h => h.2 (hIdle h.1))]
  exact if_pos ((undefinedCode_iff v hp).mpr hCode)

/-- R165: a refused SET leaves its answered entry and nothing else. -/
theorem exec_set_refused {id : Byte} {v : Word} {code : ResultCode} {s : State} (hr : s.ready)
    (h : judgeSet s id.toNat v.toInt = .error code) :
    exec (.set id v) s = .next (s.withEntry (.set id v) (.ready ⟨code, []⟩)) := by
  have hArrived : judgeSet (s.arrived (.set id v)) id.toNat v.toInt = .error code := h
  refine exec_ready_answer (take := takeSet id v) hr ?_
  unfold takeSet
  rw [hArrived]
  rfl

/-- Settles O22: the identifier, then the fixed parameters, then the job state, then the code. -/
theorem setRefused : Obligations.SetRefused := by
  intro id v s hr n known refusedWith
  refine ⟨fun hUnknown => exec_set_refused hr (judgeSet_unknown _ s ?_), fun hKnown => ?_⟩
  · exact Option.not_isSome_iff_eq_none.mp (mt (paramOfId_isSome n).mp hUnknown)
  · obtain ⟨p, hp⟩ := Option.isSome_iff_exists.mp ((paramOfId_isSome n).mpr hKnown)
    refine ⟨fun hFixed => exec_set_refused hr (judgeSet_fixed _ s hp hFixed), fun hFixed => ?_⟩
    obtain ⟨hBusy, hUndefined⟩ := judgeSet_settable (v := v.toInt) (s := s) hp hFixed
    exact ⟨fun hOnly hj => exec_set_refused hr (hBusy hOnly hj),
      fun hIdle hCode => exec_set_refused hr (hUndefined hIdle hCode)⟩

/-! ## START refused (R139, R148) -/

/-- R148: a union of boxes leaves travel just when one of them does. -/
theorem foldl_union_outside (prm : Params) (dx dy : Int) (rest : List (Nat × Slot)) (b : Box) :
    (rest.foldl (fun b e => b.union e.2.seg.box) b).outside prm dx dy =
      (b.outside prm dx dy || rest.any fun e => e.2.seg.box.outside prm dx dy) := by
  induction rest generalizing b with
  | nil => exact (Bool.or_false _).symm
  | cons e rest ih => rw [List.foldl_cons, ih, union_outside, List.any_cons, Bool.or_assoc]

/-- R148: the window extent leaves travel with each box of the window. -/
theorem windowExtent_outside {prm : Params} {dx dy : Int} {slots : List (Nat × Slot)} {e : Nat × Slot}
    (he : e ∈ slots) (h : e.2.seg.box.outside prm dx dy = true) :
    ∃ b, windowExtent slots = some b ∧ b.outside prm dx dy = true := by
  have hAny : (slots.any fun f => f.2.seg.box.outside prm dx dy) = true := List.any_eq_true.mpr ⟨e, he, h⟩
  cases slots with
  | nil => cases he
  | cons f rest => exact ⟨_, rfl, (foldl_union_outside prm dx dy rest f.2.seg.box).trans hAny⟩

/-- R12: a shifted box leaves travel over one of the four sides. -/
theorem outside_of_shifted {prm : Params} {b : Box} {dx dy : Int}
    (h : b.minX + dx < 0 ∨ b.minY + dy < 0 ∨ (prm.travelX : Int) < b.maxX + dx ∨
      (prm.travelY : Int) < b.maxY + dy) : b.outside prm dx dy = true := by
  by_contra hInside
  rw [Bool.not_eq_true, outside_shifted_iff] at hInside
  omega

/-- R148, check 6: the passes and the offsets of a REPEAT job are in their ranges. -/
def repeatFields (n : Nat) (x y : Int) : Prop :=
  1 ≤ n ∧ n ≤ 64 ∧ x.natAbs ≤ 250000 ∧ y.natAbs ≤ 250000

theorem repeatFields_iff (n : Nat) (x y : Int) :
    (within n 1 64 && within x (-250000) 250000 && within y (-250000) 250000) = true ↔ repeatFields n x y := by
  unfold repeatFields
  rw [Bool.and_eq_true, Bool.and_eq_true, within_iff, within_iff, within_iff]
  omega

/-- R148, check 6: passes or offsets out of range. -/
theorem repeatRefusal_badField {n : Nat} {x y : Int} {s : State} (hm : s.store.mode = .repeating)
    (h : ¬repeatFields n x y) : repeatRefusal n x y s = some .badField := by
  unfold repeatRefusal
  rw [hm]
  exact if_neg (mt (repeatFields_iff n x y).mp h)

/-- R148, check 6: one pass that takes one box of the window out of travel. -/
theorem repeatRefusal_outOfTravel {n k : Nat} {x y : Int} {e : Nat × Slot} {s : State}
    (hm : s.store.mode = .repeating) (hFields : repeatFields n x y) (hk : k < n) (he : e ∈ s.store.slots)
    (h : e.2.seg.box.outside s.params (k * x) (k * y) = true) : repeatRefusal n x y s = some .outOfTravel := by
  obtain ⟨b, hExtent, hOutside⟩ := windowExtent_outside he h
  have hPasses : passesOutside s.params n x y b = true :=
    List.any_eq_true.mpr ⟨k, List.mem_range.mpr hk, hOutside⟩
  unfold repeatRefusal
  rw [hm, hExtent]
  dsimp only
  rw [if_pos ((repeatFields_iff n x y).mpr hFields), if_pos hPasses]

theorem startRefusal_notIdle (n : Nat) (x y : Int) {code : ResultCode} {s : State} (h : idleRefusal s = some code) :
    startRefusal n x y s = some code := by
  unfold startRefusal
  rw [h]

/-- R148: the refusals of a START in IDLE, one after another, up to those of a REPEAT job. -/
theorem startRefusal_idle {n : Nat} {x y : Int} {s : State} (hj : s.job.state = .idle) :
    (¬s.axes.located → startRefusal n x y s = some .notReferenced) ∧
    (s.axes.located →
      (s.store.slots = [] → startRefusal n x y s = some .empty) ∧
      (s.store.slots ≠ [] →
        (s.store.origin ≠ some s.axes.point → startRefusal n x y s = some .notAtOrigin) ∧
        (s.store.origin = some s.axes.point →
          (s.guard.barsCut → startRefusal n x y s = some .inputActive) ∧
          (¬s.guard.barsCut → startRefusal n x y s = repeatRefusal n x y s)))) := by
  have hUnlocated : (!s.axes.allReferenced) = true ↔ ¬s.axes.located := by
    rw [Bool.not_eq_true', ← Bool.not_eq_true, allReferenced_iff]
  unfold startRefusal
  rw [idleRefusal_idle hj]
  dsimp only
  refine ⟨fun h => by rw [firstRefusal_fails (hUnlocated.mpr h)], fun hLocated => ?_⟩
  rw [firstRefusal_passes (mt hUnlocated.mp (not_not.mpr hLocated))]
  refine ⟨fun h => by rw [firstRefusal_fails (decide_eq_true h)], fun hSlots => ?_⟩
  rw [firstRefusal_passes (mt of_decide_eq_true hSlots)]
  refine ⟨fun h => by rw [firstRefusal_fails (decide_eq_true h)], fun hOrigin => ?_⟩
  rw [firstRefusal_passes (mt of_decide_eq_true (not_not.mpr hOrigin))]
  exact ⟨fun h => by rw [firstRefusal_fails ((cutBlocked_iff _).mpr h)],
    fun h => by rw [firstRefusal_passes (mt (cutBlocked_iff _).mp h)]; rfl⟩

/-- Settles O29: the refusals in their order, the last of them those of a REPEAT job. -/
theorem startRefused : Obligations.StartRefused := by
  intro n x y s hr refusedWith
  have refused {code : ResultCode} (h : startRefusal n.toNat x.toInt y.toInt s = some code) : refusedWith code :=
    exec_judged_refused (refusal := startRefusal n.toNat x.toInt y.toInt) hr h
  refine ⟨fun hj => refused (startRefusal_notIdle _ _ _ (idleRefusal_fault hj)),
    fun hf hi => refused (startRefusal_notIdle _ _ _ (idleRefusal_busy hf hi)), fun hj => ?_⟩
  obtain ⟨hLost, hFound⟩ := startRefusal_idle (n := n.toNat) (x := x.toInt) (y := y.toInt) hj
  refine ⟨fun h => refused (hLost h), fun hLocated => ?_⟩
  obtain ⟨hEmpty, hFilled⟩ := hFound hLocated
  refine ⟨fun h => refused (hEmpty h), fun hSlots => ?_⟩
  obtain ⟨hAway, hAtOrigin⟩ := hFilled hSlots
  refine ⟨fun h => refused (hAway h), fun hOrigin => ?_⟩
  obtain ⟨hBarred, hFree⟩ := hAtOrigin hOrigin
  refine ⟨fun h => refused (hBarred h), fun hClear hm => ?_⟩
  exact ⟨fun hBad => refused ((hFree hClear).trans (repeatRefusal_badField hm hBad)),
    fun hFields k hk e he hOut =>
      refused ((hFree hClear).trans (repeatRefusal_outOfTravel hm hFields hk he (outside_of_shifted hOut)))⟩

/-! ## ABORT (R141, R157) -/

/-- R157: ABORT in a job and in MOTION. -/
theorem takeAbort_stops {s : State} (hIdle : s.job.state ≠ .idle) (hFault : s.job.state ≠ .fault)
    (hStopping : s.job.state ≠ .stopping) : takeAbort s = answer .ok (controlledStop s) := by
  unfold takeAbort
  split
  · next h => exact absurd h hIdle
  · next h => exact absurd h hFault
  · next h => exact absurd h hStopping
  all_goals rfl

/-- R157: ABORT where there is nothing to stop. -/
theorem takeAbort_answers (s : State) :
    (s.job.state = .idle → takeAbort s = answer .noJob s) ∧
      (s.job.state = .fault → takeAbort s = answer .faultLatched s) ∧
      (s.job.state = .stopping → takeAbort s = answer .ok s) := by
  unfold takeAbort
  exact ⟨fun h => by rw [h], fun h => by rw [h], fun h => by rw [h]⟩

/-- Settles O32: the answers without effect, and the controlled stop, which names no cause. -/
theorem abortStops : Obligations.AbortStops := by
  intro s hr
  obtain ⟨hIdle, hFault, hStopping⟩ := takeAbort_answers (s.arrived .abort)
  refine ⟨fun hj => exec_ready_answer hr (hIdle hj), fun hj => exec_ready_answer hr (hFault hj),
    fun hj => exec_ready_answer hr (hStopping hj), fun hi hf hs => ⟨_, exec_ready hr (take := takeAbort), ?_⟩⟩
  rw [takeAbort_stops (s := s.arrived .abort) hi hf hs]
  exact ⟨(mapLink_keeps _ _).after ((controlledStop_keeps _).after
    (mapLink_keeps _ s).mono (m := [.guard, .job, .link])), rfl, rfl, rfl⟩

end Sys2Proof.Machine

namespace Sys2Proof.Machine

set_option Elab.async false

/-! ## The frame of a request (R161, R165, 12.1, 12.3) -/

/-- R165: a request without fields is judged from an empty body alone. -/
theorem judgeEmpty_iff {i j : Instr} {body : List Byte} : judgeEmpty j body = .request i ↔ body = [] ∧ j = i := by
  cases body <;> simp [judgeEmpty]

/-- 12.1, 12.3: what is judged a request is its own frame, with a body of an allowed length. -/
theorem frame_of_judgeRequest {i : Instr} {kind : Byte} {body : List Byte} (h : judgeRequest kind body = .request i) :
    requestFrame i = some (kind, body) ∧ i.wellFormed = true := by
  have hKind : kind = BitVec.ofNat 8 kind.toNat := by simp
  unfold judgeRequest at h
  generalize kind.toNat = n at h hKind
  subst hKind
  split at h
  case h_2 =>
    split at h <;> cases h
    exact ⟨congrArg (fun b => some (0x02, _ :: b)) (le32_rd32 _ _ _ _), rfl⟩
  case h_3 =>
    split at h <;> cases h
    exact ⟨rfl, rfl⟩
  case h_4 =>
    split at h <;> cases h
    exact ⟨by simp [requestFrame, le16_rd16], rfl⟩
  case h_5 =>
    split at h <;> cases h
    next hLength => exact ⟨rfl, by simpa [Instr.wellFormed] using hLength⟩
  case h_7 =>
    split at h <;> cases h
    exact ⟨by simp [requestFrame, le16_rd16], rfl⟩
  case h_8 =>
    split at h <;> cases h
    exact ⟨by simp [requestFrame, le32_rd32], rfl⟩
  case h_13 =>
    split at h <;> cases h
    exact ⟨rfl, rfl⟩
  case h_14 =>
    split at h <;> cases h
    exact ⟨by simp [requestFrame, le32_rd32, le16_rd16], rfl⟩
  case h_15 =>
    split at h <;> cases h
    exact ⟨rfl, rfl⟩
  case h_19 => cases h
  all_goals
    obtain ⟨rfl, rfl⟩ := judgeEmpty_iff.mp h
    exact ⟨rfl, rfl⟩

/-- R161, 12.1: a frame spells no request but the one it is the frame of. -/
theorem judgeRequest_unique {i j : Instr} {kind : Byte} {body : List Byte} (hf : requestFrame i = some (kind, body))
    (hj : judgeRequest kind body = .request j) : j = i := by
  have hWellFormed : i.wellFormed = true := by
    cases i <;> cases hf
    case append =>
      have hLength : 5 ≤ body.length ∧ body.length ≤ 33 := by
        by_contra hBad
        cases hj.symm.trans (if_neg hBad)
      simpa [Instr.wellFormed] using hLength
    all_goals rfl
  exact Judged.request.inj (hj.symm.trans (judgeRequest_frame hf hWellFormed))

/-- Settles O5: each way is the reading of the fields of one kind after another. -/
theorem requestRoundTrip : Obligations.RequestRoundTrip :=
  fun _ _ _ => ⟨frame_of_judgeRequest, fun ⟨hf, hw⟩ => judgeRequest_frame hf hw⟩

/-! ## Entries that wait for their block (R165, R171) -/

/-- R165, R171: the Link hands nothing on when it has stopped, or when every entry has been taken. -/
theorem nextUntaken_none_iff (l : Link) :
    l.nextUntaken = none ↔ (l.stopped = false → ∀ e ∈ l.requests, e.mark ≠ .untaken) := by
  unfold Link.nextUntaken
  cases l.stopped <;> simp

theorem nextUntaken_of_stopped {l : Link} (h : l.stopped = true) : l.nextUntaken = none :=
  if_pos h

/-- R165: with nothing to hand on, nothing is handed on. -/
theorem handDue_of_none {s : State} (h : s.link.nextUntaken = none) : handDue s = s := by
  unfold handDue State.dueRequest
  rw [h]

theorem handsNext_of_none {l : Link} (h : l.nextUntaken = none) (kind : Byte) (body : List Byte) :
    l.handsNext kind body = false := by
  unfold Link.handsNext
  rw [h]

/-- R162: with the queue full, a complete frame is a receive error. -/
theorem appendRequest_full {s : State} (h : ¬s.link.requests.length < 8) (kind : Byte) (body : List Byte) :
    appendRequest kind body s = setRxFault s :=
  if_neg h

/-- R162: a frame whose entry leaves nothing to hand on leaves that entry and no more. -/
theorem arriveRequest_eq_append {s : State} (kind : Byte) (body : List Byte)
    (h : (appendRequest kind body s).link.nextUntaken = none) :
    arriveRequest kind body s = appendRequest kind body s := by
  unfold arriveRequest
  split
  · exact handDue_of_none h
  · next hFull => exact (appendRequest_full hFull kind body).symm

/-- R165, log entry 4: a request row whose frame leaves nothing to hand on leaves what that frame leaves. -/
theorem takeRequest_eq_append {s : State} {i : Instr} {kind : Byte} {body : List Byte} (take : State → State × Mark)
    (hf : requestFrame i = some (kind, body)) (hs : s.link.nextUntaken = none)
    (h : (appendRequest kind body s).link.nextUntaken = none) :
    takeRequest i take s = appendRequest kind body s := by
  unfold takeRequest
  rw [hf]
  dsimp only
  rw [handsNext_of_none hs, if_neg Bool.false_ne_true, handsNext_of_none h, if_neg Bool.false_ne_true]

/-- R171: a Link that has stopped queues what arrives, untaken. -/
theorem appendRequest_stopped {s : State} (hs : s.link.stopped = true) (hl : s.link.requests.length < 8) (kind : Byte)
    (body : List Byte) :
    appendRequest kind body s = s.mapLink fun l => { l with requests := l.requests ++ [⟨kind, body, .untaken⟩] } := by
  unfold appendRequest
  rw [if_pos hl]
  exact mapLink_congr (if_pos hs)

/-- R165: the Link answers a frame that spells no request itself. -/
theorem judgeEntry_refused {kind : Byte} {body : List Byte} (h : ∀ i, judgeRequest kind body ≠ .request i) :
    (judgeEntry ⟨kind, body, .untaken⟩).mark ≠ .untaken := by
  unfold judgeEntry
  dsimp only
  cases hj : judgeRequest kind body with
  | badKind => exact nofun
  | badSize => exact nofun
  | request i => exact absurd hj (h i)

/-- R165: a frame that spells no request leaves a ready Link nothing to hand on. -/
theorem appendRequest_refused_none {s : State} {kind : Byte} {body : List Byte} (hr : s.ready)
    (h : ∀ i, judgeRequest kind body ≠ .request i) : (appendRequest kind body s).link.nextUntaken = none := by
  rw [appendRequest_ready hr, nextUntaken_none_iff]
  intro _ e he
  rcases List.mem_append.mp he with he | he
  · exact hr.2.2 e he
  · rw [List.mem_singleton.mp he]
    exact judgeEntry_refused h

/-- R162, R165, R171: where the Link has nothing to hand on, the arrival of a frame gives it something only when it is
ready and the frame spells a request. -/
theorem appendRequest_due {s : State} (h : s.link.nextUntaken = none) (kind : Byte) (body : List Byte) :
    (appendRequest kind body s).link.nextUntaken = none ∨
      s.ready ∧ ∃ i, judgeRequest kind body = .request i := by
  by_cases hRoom : s.link.requests.length < 8
  case neg => exact .inl (by rw [appendRequest_full hRoom]; exact h)
  cases hStopped : s.link.stopped with
  | true =>
    rw [appendRequest_stopped hStopped hRoom]
    exact .inl (nextUntaken_of_stopped hStopped)
  | false =>
    have hReady : s.ready := ⟨hStopped, hRoom, (nextUntaken_none_iff _).mp h hStopped⟩
    by_cases hJudged : ∃ i, judgeRequest kind body = .request i
    · exact .inr ⟨hReady, hJudged⟩
    · exact .inl (appendRequest_refused_none hReady fun i hi => hJudged ⟨i, hi⟩)

/-- R165: once a ready Link has had a well-formed request taken, every entry has been. -/
theorem takeRequest_ready_none {s : State} {i : Instr} {take : State → State × Mark} {kind : Byte} {body : List Byte}
    (hr : s.ready) (ht : requestTake i = some take) (hf : requestFrame i = some (kind, body))
    (hj : judgeRequest kind body = .request i) : (takeRequest i take s).link.nextUntaken = none := by
  rw [takeRequest_ready hf hj hr (block_queue ht _).1 (block_mark ht _), nextUntaken_none_iff]
  intro _ e he
  rw [mapLink_link, entryOf_eq hf] at he
  rcases List.mem_append.mp he with he | he
  · exact hr.2.2 e he
  · rw [List.mem_singleton.mp he]
    exact block_mark ht _

/-- R165: the arrival of a frame leaves nothing to hand on. -/
theorem arriveRequest_keeps_none {s : State} (h : s.link.nextUntaken = none) (kind : Byte) (body : List Byte) :
    (arriveRequest kind body s).link.nextUntaken = none := by
  rcases appendRequest_due h kind body with hNone | ⟨hReady, i, hj⟩
  · rw [arriveRequest_eq_append kind body hNone]
    exact hNone
  · obtain ⟨hf, -⟩ := frame_of_judgeRequest hj
    obtain ⟨take, ht, he⟩ := exec_request hf
    have hSame := (he s).symm.trans (arriveRequest_ready hf hj hReady)
    injection hSame with hSame
    rw [← hSame]
    exact takeRequest_ready_none hReady ht hf hj

/-- R165: a request row leaves nothing to hand on. -/
theorem takeRequest_keeps_none {s : State} {i : Instr} {take : State → State × Mark} (h : s.link.nextUntaken = none)
    (ht : requestTake i = some take) : (takeRequest i take s).link.nextUntaken = none := by
  cases hf : requestFrame i with
  | none =>
    unfold takeRequest
    rw [hf]
    exact h
  | some frame =>
    obtain ⟨kind, body⟩ := frame
    rcases appendRequest_due h kind body with hNone | ⟨hReady, j, hj⟩
    · rw [takeRequest_eq_append take hf h hNone]
      exact hNone
    · exact takeRequest_ready_none hReady ht hf (judgeRequest_unique hf hj ▸ hj)

/-! ## The queues under every step (R160, R162, R165, R167) -/

/-- R165: a change of the Link that leaves untaken no entry that was taken, and does not let a stopped Link hand on
again, gives it nothing to hand on. -/
theorem nextUntaken_none_of_taken {l l' : Link} (h : l.nextUntaken = none)
    (hTaken : ∀ e ∈ l'.requests, e.mark = .untaken → e ∈ l.requests)
    (hStopped : l.stopped = true → l'.stopped = true) : l'.nextUntaken = none := by
  rw [nextUntaken_none_iff] at h ⊢
  intro hGoesOn e he hUntaken
  have hWent : l.stopped = false := Bool.eq_false_iff.mpr fun hs => absurd ((hStopped hs).symm.trans hGoesOn) nofun
  exact h hWent e (hTaken e he hUntaken) hUntaken

/-- R165: every operation below the queue leaves it, and a request that joins it is taken at once. -/
theorem handed_nothingDue : Handed fun s => s.link.nextUntaken = none where
  free _ h := h
  store _ _ h _ := h
  planner _ _ h _ := h
  interp _ _ h := h
  gov _ _ h _ := h
  stroke _ _ h _ := h
  load _ _ h _ := h
  axes _ _ h _ := h
  guard _ _ h _ := h
  job _ _ h := h
  link _ _ h hSame hStopped _ := nextUntaken_none_of_taken h (fun _ he _ => hSame ▸ he) hStopped
  set _ p _ h _ _ := by cases p <;> exact h
  pending _ _ h := h
  timeBase _ _ h := h
  reset _ _ _ _ := rfl
  taken _ _ h _ hTaken hStopped _ := nextUntaken_none_of_taken h hTaken hStopped
  takeRequest _ _ _ h ht := takeRequest_keeps_none h ht
  arriveRequest _ kind body h := arriveRequest_keeps_none h kind body

/-- R160, R162, R167: nothing takes either queue past its size. -/
theorem stable_queueSizes : Stable fun s => s.link.requests.length ≤ 8 ∧ s.link.notices.length ≤ 16 where
  free _ h := h
  store _ _ h _ := h
  planner _ _ h _ := h
  interp _ _ h := h
  gov _ _ h _ := h
  stroke _ _ h _ := h
  load _ _ h _ := h
  axes _ _ h _ := h
  guard _ _ h _ := h
  job _ _ h := h
  link _ _ h hSame _ hNotices := ⟨hSame ▸ h.1, hNotices h.2⟩
  set _ p _ h _ _ := by cases p <;> exact h
  pending _ _ h := h
  timeBase _ _ h := h
  reset _ _ _ _ := ⟨Nat.zero_le _, Nat.zero_le _⟩
  queues _ _ h hRequests hNotices := ⟨hRequests h.1, hNotices h.2⟩

theorem queuesOk_iff (s : State) :
    s.queuesOk ↔ (s.link.requests.length ≤ 8 ∧ s.link.notices.length ≤ 16) ∧ s.link.nextUntaken = none := by
  rw [nextUntaken_none_iff, and_assoc]
  rfl

/-- Settles O56: the sizes are stable whatever the marks, and what is handed on is taken in the step it arrives. -/
theorem queuesKept : Obligations.QueuesKept := by
  intro s t h he
  obtain ⟨hSizes, hNone⟩ := (queuesOk_iff s).mp h
  exact (queuesOk_iff t).mpr ⟨stable_queueSizes.step hSizes he, handed_nothingDue.step hNone he⟩

end Sys2Proof.Machine

namespace Sys2Proof.Machine

set_option Elab.async false

/-! ## FRAME_RECEIVED (R162, R165, R171) -/

/-- R161, R162: a frame of a length a frame can have arrives, with the receiver in HUNT. -/
theorem exec_frameReceived_arrives (kind : Byte) {body : List Byte} (hLength : body.length ≤ 249) (s : State) :
    exec (.frameReceived kind body) s = .next (arriveRequest kind body (s.mapLink Link.hunt)) := by
  rw [exec_frameReceived]
  exact congrArg _ (if_pos hLength)

/-- R162: with 8 entries in the queue the frame is discarded with RX_FAULT. -/
theorem arriveRequest_full {s : State} (h : 8 ≤ s.link.requests.length) (kind : Byte) (body : List Byte) :
    arriveRequest kind body s = setRxFault s :=
  if_neg (Nat.not_lt.mpr h)

/-- R165: a frame that a ready Link answers itself is queued with that answer. -/
theorem arriveRequest_refused {s : State} {kind : Byte} {body : List Byte} (hr : s.ready)
    (h : ∀ i, judgeRequest kind body ≠ .request i) :
    arriveRequest kind body s =
      s.mapLink fun l => { l with requests := l.requests ++ [judgeEntry ⟨kind, body, .untaken⟩] } := by
  rw [arriveRequest_eq_append kind body (appendRequest_refused_none hr h), appendRequest_ready hr]

/-- R171: a stopped Link queues a frame untaken. -/
theorem arriveRequest_stopped {s : State} (hs : s.link.stopped = true) (hl : s.link.requests.length < 8) (kind : Byte)
    (body : List Byte) :
    arriveRequest kind body s = s.mapLink fun l => { l with requests := l.requests ++ [⟨kind, body, .untaken⟩] } := by
  rw [arriveRequest_eq_append kind body, appendRequest_stopped hs hl]
  rw [appendRequest_stopped hs hl]
  exact nextUntaken_of_stopped hs

/-- Settles O9: a full queue; a ready Link, by what the frame is judged; a stopped Link; and a request row whose frame
has arrived. -/
theorem completeFrameQueued : Obligations.CompleteFrameQueued := by
  refine ⟨fun kind body s hLength => ?arrival, fun i kind body s hw hf hr => ?row⟩
  case arrival =>
    intro hunting queued
    rw [exec_frameReceived_arrives kind hLength]
    refine ⟨fun hFull => ?_, fun hr => ?_, fun hStopped hRoom => ?_⟩
    · rw [arriveRequest_full (s := s.mapLink Link.hunt) hFull]
      rfl
    · have hReady : (s.mapLink Link.hunt).ready := hr
      cases hj : judgeRequest kind body with
      | badKind =>
        rw [arriveRequest_refused hReady (by rw [hj]; exact nofun)]
        simp only [judgeEntry, hj]
        rfl
      | badSize =>
        rw [arriveRequest_refused hReady (by rw [hj]; exact nofun)]
        simp only [judgeEntry, hj]
        rfl
      | request i => exact (arriveRequest_ready (frame_of_judgeRequest hj).1 hj hReady).symm
    · rw [arriveRequest_stopped (s := s.mapLink Link.hunt) hStopped hRoom]
      rfl
  case row =>
    obtain ⟨take, -, hExec⟩ := exec_request hf
    rw [hExec, hExec, takeRequest_arrived take hf hr, takeRequest_hands take hf (judgeRequest_frame hf hw) hr]

/-- Settles O38: the block of RESET stops the Link, and a stopped Link answers no frame. -/
theorem resetStopsTaking : Obligations.ResetStopsTaking := by
  refine ⟨fun s hr => ⟨_, exec_ready hr (take := takeReset), ?_, rfl, rfl, nextUntaken_of_stopped rfl⟩, ?_⟩
  · exact (mapLink_keeps _ _).after ((mapLink_keeps _ _).after (mapLink_keeps _ s))
  · intro kind body s hStopped hLength hRoom
    refine ⟨_, exec_frameReceived_arrives kind hLength s, ?_⟩
    rw [arriveRequest_stopped (s := s.mapLink Link.hunt) hStopped hRoom]
    exact ⟨hStopped, rfl, nextUntaken_of_stopped hStopped⟩

/-! ## IDENT and STATUS (R170, 12.3, 12.4) -/

theorem interpBytes_eq (n : Interp) :
    interpBytes n =
      u16 (n.active.getD 0) ++ u32 n.p ++ u16 n.pivot ++ flag8 (n.pivotNeg && decide (n.pivot ≠ 0)) ++ u16 n.pause ++
        u8 n.pass ++ flag8 n.startPending ++ u32 ((n.link.map LinkMove.length).getD 0) ++ u16 n.targetC ++
        u8 (bits [n.active.isSome, n.link.isSome]) := by
  unfold interpBytes
  cases n.link <;> rfl

/-- R98, R170: the target rate in the states that have one. -/
theorem strokeBytes_eq (prm : Params) (k : Stroke) :
    strokeBytes prm k =
      u8 k.state.code ++
        u16 (if k.state = .spinup ∨ k.state = .run then prm.strokeCut
          else if k.state = .idle then prm.strokeIdle else 0) ++
        u16 k.duty ++ u16 k.m ++ u8 k.lock := by
  unfold strokeBytes
  cases k.state <;> rfl

/-- R21, R48, R170: the counts of the window, and the frontier of a plan span that is not empty. -/
theorem storeBytes_eq (st : Store) (pl : Planner) :
    let origin := st.origin.getD ⟨0, 0⟩
    let frontier := if pl.spanCount = 0 then none else some pl.frontier
    storeBytes st pl =
      u16 st.winBegin ++ u16 st.winEnd ++ u8 st.mode.code ++ u16 st.writePtr ++ u16 st.execPtr ++
        u16 st.slots.length ++ u16 (st.winEnd - st.winBegin + 1 - st.slots.length) ++ flag8 st.tailOpen ++
        i32 origin.x ++ i32 origin.y ++ flag8 st.chainClosed ++ u16 (st.executedHeading.getD 0) ++
        flag8 st.flowHeld ++ flag8 st.armed ++ u8 pl.spanCount ++ u16 (frontier.getD 0) ++
        u8 (bits [st.origin.isSome, st.executedHeading.isSome, frontier.isSome]) := rfl

/-- R110, R115, R170: the conversion in flight by its code, and the average of the accumulator. -/
theorem loadBytes_eq (m : Load) :
    loadBytes m =
      flag8 m.powered ++ flag8 m.settled ++
        u8 (match m.inFlight with | none => 0 | some (.settling _) => 1 | some (.measuring _) => 2) ++
        u8 (bits [m.reqStroke, m.reqLink]) ++ u16 m.result ++ flag8 m.valid ++ u16 m.acc ++ u16 (m.acc / 8) ++
        u8 m.band ++ u8 m.run := by
  unfold loadBytes Load.average
  rcases m.inFlight with _ | _ | _ <;> rfl

/-- R172: with no MOVE the traverse group is zero. -/
theorem traverseBytes_eq (tr : Option Traverse) :
    traverseBytes tr =
      u32 ((tr.map Traverse.length).getD 0) ++ u32 ((tr.map Traverse.p).getD 0) ++
        u16 ((tr.map Traverse.v).getD 0) := by
  cases tr <;> rfl

theorem guardBytes_eq (g : Guard) :
    guardBytes g =
      u16 (bits (allInputs.map fun i => (g.input i).raw)) ++
        u16 (bits (allInputs.map fun i => (g.input i).accepted)) ++ u16 g.latch.toNat ++
        flag8 g.stop.isSome ++ u8 ((g.stop.map JobState.code).getD 0) := by
  unfold guardBytes
  cases g.stop <;> rfl

/-- Settles O18: both are answered with their data, and the groups of the STATUS record are sent field by field. -/
theorem identAndStatus : Obligations.IdentAndStatus := by
  refine ⟨fun s hr => ⟨exec_ready_answer (take := takeIdent) hr rfl, exec_ready_answer (take := takeStatus) hr rfl,
    rfl⟩, fun s => ?_⟩
  unfold statusData
  rw [List.append_assoc _ (axisBytes s.axes.y), List.append_assoc _ (axisBytes s.axes.x),
    ← List.append_assoc (axisBytes s.axes.x), storeBytes_eq, interpBytes_eq, strokeBytes_eq,
    loadBytes_eq, traverseBytes_eq, guardBytes_eq]
  unfold jobBytes govBytes axisBytes linkBytes
  rfl

end Sys2Proof.Machine

namespace Sys2Proof.Machine

set_option Elab.async false

/-! ## Frames on the line (R161) -/

theorem reserved_iff (b : Byte) : reserved b = true ↔ b = 0xA5 ∨ b = 0xA6 ∨ b = 0xA7 ∨ b = 0xA8 := by
  unfold reserved frameStart escapeByte holdByte goByte
  simp only [Bool.or_eq_true, decide_eq_true_eq, or_assoc]

theorem not_reserved_iff (b : Byte) :
    reserved b = false ↔ b ≠ 0xA5 ∧ b ≠ 0xA6 ∧ b ≠ 0xA7 ∧ b ≠ 0xA8 := by
  rw [← Bool.not_eq_true, reserved_iff]
  push Not
  rfl

theorem escaped_reserved {b : Byte} (h : reserved b = true) : escaped b = [0xA6, b ^^^ 0x20] :=
  if_pos h

theorem escaped_plain {b : Byte} (h : reserved b = false) : escaped b = [b] :=
  if_neg (Bool.eq_false_iff.mp h)

/-- R161: a reserved value XOR 0x20 is none of the four. -/
theorem escape_plain {b : Byte} (h : reserved b = true) : reserved (b ^^^ 0x20) = false := by
  rcases (reserved_iff b).mp h with rfl | rfl | rfl | rfl <;> rfl

/-- R162: the values that may stand after ESCAPE. -/
theorem reserved_xor_iff (b : Byte) : reserved (b ^^^ 0x20) = true ↔ b ∈ [0x85, 0x86, 0x87, 0x88] := by
  rw [reserved_iff, show (0xA5 : Byte) = 0x85 ^^^ 0x20 from rfl, show (0xA6 : Byte) = 0x86 ^^^ 0x20 from rfl,
    show (0xA7 : Byte) = 0x87 ^^^ 0x20 from rfl, show (0xA8 : Byte) = 0x88 ^^^ 0x20 from rfl]
  simp only [BitVec.xor_left_inj, List.mem_cons, List.not_mem_nil, or_false]

/-- R161: an escaped byte is sent without FRAME_START, HOLD and GO. -/
theorem escaped_free {b c : Byte} (hc : c ∈ escaped b) : c ≠ 0xA5 ∧ c ≠ 0xA7 ∧ c ≠ 0xA8 := by
  have free {d : Byte} (h : reserved d = false) : d ≠ 0xA5 ∧ d ≠ 0xA7 ∧ d ≠ 0xA8 := by
    obtain ⟨hStart, -, hHold, hGo⟩ := (not_reserved_iff d).mp h
    exact ⟨hStart, hHold, hGo⟩
  cases hb : reserved b with
  | false =>
    rw [escaped_plain hb, List.mem_singleton] at hc
    exact hc ▸ free hb
  | true =>
    rw [escaped_reserved hb, List.mem_pair] at hc
    rcases hc with rfl | rfl
    · decide
    · exact free (escape_plain hb)

theorem byteSum_append (l m : List Byte) : byteSum (l ++ m) = byteSum l + byteSum m := by
  induction l with
  | nil => exact (BitVec.zero_add _).symm
  | cons b l ih => rw [List.cons_append, byteSum, byteSum, ih, BitVec.add_assoc]

/-- R161: the check makes the sum 0. -/
theorem byteSum_frame (kind : Byte) (body : List Byte) :
    byteSum (frameContent kind body ++ [frameCheck kind body]) = 0 := by
  rw [byteSum_append]
  unfold frameCheck
  rw [byteSum, byteSum, show (0 : Byte) = 0#8 from rfl, BitVec.add_zero, BitVec.add_right_neg]

/-- Settles O7: the layout is the definition's; the sum, and the bytes an escaped byte is sent as. -/
theorem frameOnTheLine : Obligations.FrameOnTheLine := by
  refine ⟨fun kind body => ⟨rfl, byteSum_frame kind body, _, rfl, fun b hb => ?_⟩, rfl, rfl, rfl, rfl,
    fun b hStart hEscape hHold hGo => escaped_plain ((not_reserved_iff b).mpr ⟨hStart, hEscape, hHold, hGo⟩)⟩
  obtain ⟨c, -, hc⟩ := List.mem_flatMap.mp hb
  exact escaped_free hc

/-! ## A received character (R160, R162, R163) -/

/-- R162: outside a frame, a byte that is no flow mark. -/
theorem receiveByte_hunt {b : Byte} {s : State} (hx : s.link.rx = .hunt) (hHold : b ≠ 0xA7) (hGo : b ≠ 0xA8) :
    receiveByte b true s = huntByte b s := by
  unfold receiveByte
  rw [if_pos rfl, if_neg (show b ≠ holdByte from hHold), if_neg (show b ≠ goByte from hGo), if_pos hx]

/-- R162: in a frame, a byte that is no flow mark. -/
theorem receiveByte_frame {b : Byte} {s : State} (hx : s.link.rx ≠ .hunt) (hHold : b ≠ 0xA7) (hGo : b ≠ 0xA8) :
    receiveByte b true s = frameByte b s := by
  unfold receiveByte
  rw [if_pos rfl, if_neg (show b ≠ holdByte from hHold), if_neg (show b ≠ goByte from hGo), if_neg hx]

/-- R160: a low stop bit is a receive error in a frame, and nothing outside it. -/
theorem receiveByte_low (b : Byte) (s : State) :
    receiveByte b false s = if s.link.rx = .hunt then s else receiveError s :=
  if_neg Bool.false_ne_true

/-- R162: an unescaped byte of a frame. -/
theorem frameByte_plain {b : Byte} {s : State} (he : s.link.esc = false) (hb : reserved b = false) :
    frameByte b s = takeFrameByte b (s.mapLink Link.restartGap) := by
  obtain ⟨hStart, hEscape, -, -⟩ := (not_reserved_iff b).mp hb
  unfold frameByte
  rw [if_neg (show b ≠ frameStart from hStart), he, if_neg Bool.false_ne_true,
    if_neg (show b ≠ escapeByte from hEscape)]

/-- R162: ESCAPE in a frame. -/
theorem frameByte_escape {s : State} (he : s.link.esc = false) :
    frameByte 0xA6 s = s.mapLink fun l => { l.restartGap with esc := true } := by
  unfold frameByte
  rw [if_neg (by decide), he]
  rfl

/-- R162: the byte after ESCAPE: an escaped value, or a receive error. -/
theorem frameByte_escaped {b : Byte} {s : State} (he : s.link.esc = true) (hb : b ≠ 0xA5) :
    frameByte b s =
      if reserved (b ^^^ 0x20) then takeFrameByte (b ^^^ 0x20) (s.mapLink fun l => { l.restartGap with esc := false })
      else receiveError s := by
  unfold frameByte
  rw [if_neg (show b ≠ frameStart from hb), if_pos he]

/-- R162: a length outside 1 to 250. -/
theorem takeFrameByte_badLength {b : Byte} {s : State} (hx : s.link.rx = .length) (hb : b.toNat = 0 ∨ 250 < b.toNat) :
    takeFrameByte b s = receiveError s := by
  unfold takeFrameByte
  rw [hx]
  exact if_neg (by omega)

/-- R161: a sum of bytes, as a number. -/
theorem byteSum_toNat (l : List Byte) : (byteSum l).toNat = (l.map BitVec.toNat).sum % 256 := by
  induction l with
  | nil => rfl
  | cons b l ih =>
    rw [byteSum, BitVec.toNat_add, ih, List.map_cons, List.sum_cons]
    omega

/-- R162: a check that does not make the sum 0. -/
theorem takeFrameByte_badCheck {b : Byte} {s : State} {len : Nat} {taken : List Byte}
    (hx : s.link.rx = .check len taken) (h : (len + (taken.map BitVec.toNat).sum + b.toNat) % 256 ≠ 0) :
    takeFrameByte b s = receiveError s := by
  have hSum : BitVec.ofNat 8 len + byteSum taken + b ≠ 0 := by
    intro h0
    have hNat := congrArg BitVec.toNat h0
    rw [BitVec.toNat_add, BitVec.toNat_add, byteSum_toNat, BitVec.toNat_ofNat] at hNat
    exact h (by simpa using hNat)
  unfold takeFrameByte
  rw [hx]
  cases taken with
  | nil => rfl
  | cons kind body => exact if_neg hSum

/-- R162: short of FRAME_TIMEOUT nothing happens; at it, a frame in progress is lost. -/
theorem gapReached_eq {s : State} (hx : s.link.rx ≠ .hunt) :
    (timerOut s.link.gap s.params.frameTimeout → gapReached s = receiveError s) ∧
      (¬timerOut s.link.gap s.params.frameTimeout → gapReached s = s) := by
  unfold gapReached
  refine ⟨fun h => ?_, fun h => ?_⟩
  · rw [if_pos (by simp [hx, (reached_iff _ _).mpr h])]
  · rw [if_neg (by simp [not_reached h])]

/-- Settles O10: the byte in HUNT, by its stop bit and its value. -/
theorem huntTakesOnlyFrameStart : Obligations.HuntTakesOnlyFrameStart := by
  intro b s hx
  refine ⟨?_, fun hHold hGo => ?_⟩
  · rw [exec_receivedByte, receiveByte_low, if_pos hx]
  · rw [exec_receivedByte, receiveByte_hunt hx hHold hGo]
    rfl

/-- Settles O12: what a flow mark of the host does, and the two bytes that are one wherever they are received. -/
theorem hostFlowMarks : Obligations.HostFlowMarks := by
  intro s
  have hHold : receiveByte 0xA7 true s = hostMark true s := rfl
  have hGo : receiveByte 0xA8 true s = hostMark false s := rfl
  exact ⟨rfl, rfl, congrArg Host.Outcome.next hHold, congrArg Host.Outcome.next hGo⟩

/-- Settles O11: each receive error in turn; all leave the Link as the first does, whatever the byte had already done to
the escape and the gap timer. -/
theorem receiveErrors : Obligations.ReceiveErrors := by
  intro s hx lost
  have plain {b : Byte} (he : s.link.esc = false) (hb : reserved b = false) :
      exec (.receivedByte b true) s = .next (takeFrameByte b (s.mapLink Link.restartGap)) := by
    obtain ⟨-, -, hHold, hGo⟩ := (not_reserved_iff b).mp hb
    rw [exec_receivedByte, receiveByte_frame hx hHold hGo, frameByte_plain he hb]
  refine ⟨fun b => ?lowStop, ?start, fun he b hb => ?badEscape, fun hLength he b hb => ?badLength,
    fun len taken b check hCheck hb hSum => ?badCheck, fun h => ?gapOut, fun h => ?gapShort⟩
  case lowStop =>
    rw [exec_receivedByte, receiveByte_low, if_neg hx]
    rfl
  case start =>
    rw [exec_receivedByte, receiveByte_frame hx (by decide) (by decide)]
    rfl
  case badEscape =>
    simp only [List.mem_cons, List.not_mem_nil, or_false, not_or] at hb
    obtain ⟨hStart, hHold, hGo, hValue⟩ := hb
    have hBad : ¬reserved (b ^^^ 0x20) = true := by
      rw [reserved_xor_iff]
      simpa using hValue
    rw [exec_receivedByte, receiveByte_frame hx hHold hGo, frameByte_escaped he hStart, if_neg hBad]
    rfl
  case badLength =>
    have hPlain : reserved b = false := by
      rw [not_reserved_iff]
      refine ⟨?_, ?_, ?_, ?_⟩ <;> rintro rfl <;> revert hb <;> decide
    rw [plain he hPlain]
    exact congrArg Host.Outcome.next (takeFrameByte_badLength hLength hb)
  case badCheck =>
    rcases hb with ⟨he, hb, rfl⟩ | ⟨he, hb, rfl⟩
    · have hPlain : reserved check = false := by
        rw [not_reserved_iff]
        simpa using hb
      rw [plain he hPlain]
      exact congrArg Host.Outcome.next (takeFrameByte_badCheck hCheck hSum)
    · have hPlain : b ≠ 0xA5 ∧ b ≠ 0xA7 ∧ b ≠ 0xA8 := by
        simp only [List.mem_cons, List.not_mem_nil, or_false] at hb
        rcases hb with rfl | rfl | rfl | rfl <;> decide
      obtain ⟨hStart, hHold, hGo⟩ := hPlain
      rw [exec_receivedByte, receiveByte_frame hx hHold hGo, frameByte_escaped he hStart,
        if_pos ((reserved_xor_iff b).mpr hb)]
      exact congrArg Host.Outcome.next (takeFrameByte_badCheck hCheck hSum)
  case gapOut =>
    rw [exec_gapTimerExpiry, (gapReached_eq hx).1 h]
    rfl
  case gapShort => rw [exec_gapTimerExpiry, (gapReached_eq hx).2 h]

/-! ## A frame received byte by byte (R161, R162, R165) -/

/-- The receiver in a frame, a byte just taken. -/
def State.receiving (rx : Receiver) (s : State) : State :=
  s.mapLink fun l => { l with rx := rx, esc := false, gap := some 0 }

theorem receiveBytes_cons (b : Byte) (rest : List Byte) (s : State) :
    receiveBytes (b :: rest) s = receiveBytes rest (receiveByte b true s) := rfl

/-- R162: FRAME_START in HUNT. -/
theorem receiveByte_frameStart {s : State} (hx : s.link.rx = .hunt) :
    receiveByte frameStart true s = s.receiving .length :=
  receiveByte_hunt hx (by decide) (by decide)

/-- R161, R162: in a frame a byte comes to the same, escaped or not. -/
theorem receiveBytes_escaped (b : Byte) (rest : List Byte) {rx : Receiver} (hx : rx ≠ .hunt) (s : State) :
    receiveBytes (escaped b ++ rest) (s.receiving rx) = receiveBytes rest (takeFrameByte b (s.receiving rx)) := by
  have receives {c : Byte} (u : State) (hu : u.link.rx = rx) (hc : c ∈ escaped b) :
      receiveByte c true u = frameByte c u := by
    obtain ⟨-, hHold, hGo⟩ := escaped_free hc
    exact receiveByte_frame (hu ▸ hx) hHold hGo
  cases hb : reserved b with
  | false =>
    have hByte : receiveByte b true (s.receiving rx) = takeFrameByte b (s.receiving rx) := by
      rw [receives _ rfl (by rw [escaped_plain hb]; simp), frameByte_plain rfl hb]
      rfl
    rw [escaped_plain hb, List.singleton_append, receiveBytes_cons, hByte]
  | true =>
    have hEscape : receiveByte 0xA6 true (s.receiving rx) =
        (s.receiving rx).mapLink fun l => { l with esc := true } := by
      rw [receives _ rfl (by rw [escaped_reserved hb]; simp), frameByte_escape rfl]
      rfl
    have hBack : b ^^^ 0x20 ^^^ 0x20 = b := by rw [BitVec.xor_assoc, BitVec.xor_self, BitVec.xor_zero]
    have hMember : b ^^^ 0x20 ∈ escaped b := by rw [escaped_reserved hb]; simp
    have hByte : receiveByte (b ^^^ 0x20) true ((s.receiving rx).mapLink fun l => { l with esc := true }) =
        takeFrameByte b (s.receiving rx) := by
      rw [receives _ rfl hMember, frameByte_escaped rfl (escaped_free hMember).1, hBack, if_pos hb]
      rfl
    rw [escaped_reserved hb, List.cons_append, List.singleton_append, receiveBytes_cons, receiveBytes_cons, hEscape,
      hByte]

/-- R161, R162: the length of a frame. -/
theorem takeFrameByte_length {b : Byte} (hb : 1 ≤ b.toNat ∧ b.toNat ≤ 250) (s : State) :
    takeFrameByte b (s.receiving .length) = s.receiving (.content b.toNat []) :=
  if_pos hb

/-- R162: a byte of the kind and the body. -/
theorem takeFrameByte_content (b : Byte) (len : Nat) (taken : List Byte) (s : State) :
    takeFrameByte b (s.receiving (.content len taken)) =
      s.receiving (if taken.length + 1 < len then .content len (taken ++ [b]) else .check len (taken ++ [b])) := rfl

/-- R162: the check of a complete frame. -/
theorem takeFrameByte_check {b kind : Byte} {body : List Byte} {len : Nat}
    (h : BitVec.ofNat 8 len + byteSum (kind :: body) + b = 0) (s : State) :
    takeFrameByte b (s.receiving (.check len (kind :: body))) = completeFrame kind body s :=
  if_pos h

/-- R162: the kind and the body are gathered byte by byte up to the length of the frame. -/
theorem receiveBytes_content {len : Nat} (rest : List Byte) (s : State) (b : Byte) (l : List Byte) (taken : List Byte)
    (hLength : taken.length + (l.length + 1) = len) :
    receiveBytes ((b :: l).flatMap escaped ++ rest) (s.receiving (.content len taken)) =
      receiveBytes rest (s.receiving (.check len (taken ++ b :: l))) := by
  induction l generalizing b taken with
  | nil =>
    rw [List.length_nil] at hLength
    rw [List.flatMap_cons, List.flatMap_nil, List.append_nil,
      receiveBytes_escaped b rest (rx := .content len taken) nofun, takeFrameByte_content, if_neg (by omega)]
  | cons c l ih =>
    rw [List.length_cons] at hLength
    have hRest : (taken ++ [b]).length + (l.length + 1) = len := by
      rw [List.length_append, List.length_singleton]
      omega
    rw [List.flatMap_cons, List.append_assoc, receiveBytes_escaped b _ (rx := .content len taken) nofun,
      takeFrameByte_content, if_pos (by omega), ih c (taken ++ [b]) hRest, List.append_assoc, List.singleton_append]

/-- R161, R162: the bytes of a frame end in its completion. -/
theorem receiveBytes_frameLine (kind : Byte) {body : List Byte} {s : State} (hLength : body.length ≤ 249)
    (hx : s.link.rx = .hunt) : receiveBytes (frameLine kind body) s = some (completeFrame kind body s) := by
  have hNat : (BitVec.ofNat 8 (body.length + 1)).toNat = body.length + 1 := by
    rw [BitVec.toNat_ofNat]
    omega
  have hSum : BitVec.ofNat 8 (body.length + 1) + byteSum (kind :: body) + frameCheck kind body = 0 :=
    BitVec.add_right_neg _
  have hCheck := receiveBytes_escaped (frameCheck kind body) [] (rx := .check (body.length + 1) (kind :: body)) nofun s
  unfold frameLine frameContent
  rw [receiveBytes_cons, receiveByte_frameStart hx, List.cons_append, List.flatMap_cons,
    receiveBytes_escaped _ _ (rx := .length) nofun, takeFrameByte_length (by omega), hNat, List.flatMap_append,
    receiveBytes_content _ _ _ _ _ (by simp), List.nil_append, List.flatMap_singleton,
    ← List.append_nil (escaped _), hCheck, takeFrameByte_check hSum]
  rfl

/-- Settles O8: both ways the frame is completed from HUNT. -/
theorem frameBytesTaken : Obligations.FrameBytesTaken :=
  fun kind body s hLength hx =>
    ⟨completeFrame kind body s, receiveBytes_frameLine kind hLength hx, exec_frameReceived kind body s⟩

end Sys2Proof.Machine

namespace Sys2Proof.Machine

set_option Elab.async false

/-! ## Notices, the digest and flow marks (R164, R167, R168) -/

/-- Settles O17: the notice queue with room and without. -/
theorem noticeQueueing : Obligations.NoticeQueueing :=
  fun n s => ⟨queueNotice_keeps n s, fun h => if_pos h, fun h => if_neg (Nat.not_lt.mpr h)⟩

theorem jobState_code_lt (j : JobState) : j.code < 8 := by
  cases j <;> decide

/-- R168: the flags of the digest, in their order. -/
theorem digest_getLsbD (s : State) {i : Nat} (hi : i < 5) :
    (digest s).getLsbD (3 + i) =
      [decide (s.guard.latch ≠ 0), s.store.flowHeld, !s.link.notices.isEmpty, s.link.rxFault,
        s.link.noticeLost].getD i false := by
  have hCode : s.job.state.code < 2 ^ 3 := jobState_code_lt _
  unfold digest
  rw [BitVec.getLsbD_ofNat, decide_eq_true (by omega), Bool.true_and, Nat.add_comm,
    show (8 : Nat) = 2 ^ 3 from rfl, Nat.testBit_two_pow_mul_add _ hCode, if_neg (by omega), Nat.add_sub_cancel_left,
    bits_testBit]

/-- R168: the state code of the digest. -/
theorem digest_state (s : State) : (digest s).toNat % 8 = s.job.state.code := by
  have := jobState_code_lt s.job.state
  unfold digest
  rw [BitVec.toNat_ofNat]
  omega

/-- Settles O16: the state code, and each flag at its bit. -/
theorem statusDigestBits : Obligations.StatusDigestBits := by
  intro s
  refine ⟨digest_state s, ?_, digest_getLsbD s (i := 1) (by decide), ?_, digest_getLsbD s (i := 3) (by decide),
    digest_getLsbD s (i := 4) (by decide)⟩
  · rw [show (3 : Nat) = 3 + 0 from rfl, digest_getLsbD s (by decide)]
    exact decide_eq_true_iff
  · rw [show (5 : Nat) = 3 + 2 from rfl, digest_getLsbD s (by decide)]
    simp

/-- R164: what the sending of the oldest flow mark leaves. -/
theorem sendMark_cons {l : Link} {m : FlowMark} {rest : List FlowMark} (h : l.marks = m :: rest) :
    l.sendMark =
      { l with
        marks := rest
        tx := if 0 < l.charTime then l.tx.map fun f => { f with sent := f.sent + 1 } else l.tx
        charTime := 0 } := by
  unfold Link.sendMark
  rw [h]

/-- Settles O15: the mark goes, and the character in progress has ended before it. -/
theorem flowMarkSent : Obligations.FlowMarkSent := by
  intro m rest s h
  refine ⟨_, exec_flowMarkSend s, mapLink_keeps _ s, ?_⟩
  rw [mapLink_link, sendMark_cons h]
  exact ⟨rfl, fun hNone => if_neg (by omega), fun hSome => if_pos hSome⟩

/-! ## The choice of a frame (R163, R166, R168) -/

/-- R163, R166: a transmitter that is busy or held chooses nothing. -/
theorem txStart_stands {s : State} (h : s.link.tx ≠ none ∨ s.link.held = true) : txStart s = s := by
  unfold txStart
  rw [if_neg]
  rcases h with h | h <;> simp [h]

theorem txStart_chooses {s : State} (ht : s.link.tx = none) (hHeld : s.link.held = false) :
    txStart s = chooseFrame s := by
  unfold txStart
  rw [ht, hHeld]
  rfl

/-- R166: the reply of the oldest request, when it is ready. -/
theorem chooseFrame_reply {s : State} {e : Entry} {rest : List Entry} {r : Reply} (h : s.link.requests = e :: rest)
    (hm : e.mark = .ready r) :
    chooseFrame s =
      beginTx true (e.kind = 0x12 && r.code = .ok) (replyKind e.kind r) (BitVec.ofNat 8 r.code.code :: r.data) s := by
  unfold chooseFrame
  rw [h]
  dsimp only
  rw [hm]

theorem chooseFrame_empty {s : State} (h : s.link.requests = []) : chooseFrame s = beginNotice s := by
  unfold chooseFrame
  rw [h]

/-- R166: without a ready reply it is the notices' turn. -/
theorem chooseFrame_notices {s : State} (h : ∀ e rest r, s.link.requests = e :: rest → e.mark ≠ .ready r) :
    chooseFrame s = beginNotice s := by
  unfold chooseFrame
  split
  · rfl
  · next e rest hr =>
    split
    · next r hm => exact absurd hm (h e rest r hr)
    · rfl
    · rfl

theorem beginNotice_nil {s : State} (h : s.link.notices = []) : beginNotice s = s := by
  unfold beginNotice
  rw [h]

theorem beginNotice_cons {s : State} {n : Notice} {rest : List Notice} (h : s.link.notices = n :: rest) :
    beginNotice s = beginTx false false n.kind n.data (s.mapLink fun l => { l with notices := rest }) := by
  unfold beginNotice
  rw [h]

/-- Settles O13: busy or held, a ready reply, the oldest notice, or nothing. -/
theorem transmitterChoice : Obligations.TransmitterChoice := by
  intro s
  rw [exec_txFrameStart]
  refine ⟨fun h => congrArg _ (txStart_stands h), fun ht hHeld => ?_⟩
  rw [txStart_chooses ht hHeld]
  refine ⟨fun e rest r h hm => ?reply, fun hNone => ?_⟩
  case reply =>
    rw [chooseFrame_reply h hm]
    exact ⟨_, _, rfl, mapLink_keeps _ s, rfl, rfl, rfl, rfl, by simp, rfl, rfl⟩
  rw [chooseFrame_notices hNone]
  refine ⟨fun n rest h => ?notice, fun h => congrArg _ (beginNotice_nil h)⟩
  case notice =>
    rw [beginNotice_cons h]
    exact ⟨_, _, rfl, (mapLink_keeps _ _).after (mapLink_keeps _ s), rfl, rfl, rfl, rfl, rfl, rfl, rfl⟩

/-! ## The end of a frame (R163, R164, R166, R168, R171) -/

/-- R166: the choice of a frame touches nothing of the Link but the notices and the transmitter. -/
theorem txStart_frame (s : State) :
    (txStart s).link =
      { s.link with
        notices := (txStart s).link.notices, tx := (txStart s).link.tx, charTime := (txStart s).link.charTime } := by
  by_cases hStands : s.link.tx ≠ none ∨ s.link.held = true
  · rw [txStart_stands hStands]
  · obtain ⟨ht, hHeld⟩ := not_or.mp hStands
    rw [txStart_chooses (not_not.mp ht) (Bool.eq_false_iff.mpr hHeld)]
    unfold chooseFrame beginNotice
    repeat' split
    all_goals rfl

/-- R163, R164: the last byte of a frame can have been sent. -/
theorem canFinish_iff (l : Link) (f : TxFrame) :
    l.canFinish f = true ↔
      (l.held = false ∧ l.marks = []) ∨ f.line.length ≤ f.sent ∨ (f.sent + 1 = f.line.length ∧ 0 < l.charTime) := by
  unfold Link.canFinish
  simp [or_assoc]

theorem txEnd_idle {s : State} (ht : s.link.tx = none) : txEnd s = s := by
  unfold txEnd
  rw [ht]

theorem txEnd_waits {s : State} {f : TxFrame} (ht : s.link.tx = some f) (h : ¬s.link.canFinish f = true) :
    txEnd s = s := by
  unfold txEnd
  rw [ht]
  exact if_neg h

/-- R166, R168: the frame is over, and the next one is chosen. -/
theorem txEnd_chooses {s : State} {f : TxFrame} (ht : s.link.tx = some f) (h : s.link.canFinish f = true)
    (hr : f.resets = false) : txEnd s = txStart (s.mapLink (Link.frameSent f)) := by
  unfold txEnd
  rw [ht]
  dsimp only
  rw [if_pos h, hr]
  rfl

/-- R171: the reply of RESET is over. -/
theorem txEnd_resets {s : State} {f : TxFrame} (ht : s.link.tx = some f) (h : s.link.canFinish f = true)
    (hr : f.resets = true) : txEnd s = s.resetTo s.link.rate s.link.straps := by
  unfold txEnd
  rw [ht]
  dsimp only
  rw [if_pos h, if_pos hr]
  rfl

/-- R166: an idle transmitter with nothing to send stays idle. -/
theorem txStart_nothing {s : State} (hRequests : s.link.requests = []) (hNotices : s.link.notices = []) :
    txStart s = s := by
  by_cases hStands : s.link.tx ≠ none ∨ s.link.held = true
  · exact txStart_stands hStands
  · obtain ⟨ht, hHeld⟩ := not_or.mp hStands
    rw [txStart_chooses (not_not.mp ht) (Bool.eq_false_iff.mpr hHeld), chooseFrame_empty hRequests,
      beginNotice_nil hNotices]

/-- Settles O14: no frame; a frame that waits; one that ends, and what is chosen then; and the reply of RESET. -/
theorem frameEnd : Obligations.FrameEnd := by
  intro s
  rw [exec_txFrameEnd]
  refine ⟨fun ht => congrArg _ (txEnd_idle ht), ?_⟩
  intro f ht sendable
  have hFinish : s.link.canFinish f = true ↔ sendable := canFinish_iff s.link f
  refine ⟨fun h => congrArg _ (txEnd_waits ht (mt hFinish.mp h)), fun h hr => ?ends, fun h hr => ?resets⟩
  case ends =>
    rw [txEnd_chooses ht (hFinish.mpr h) hr]
    have hLink := txStart_frame (s.mapLink (Link.frameSent f))
    refine ⟨⟨_, rfl, (txStart_keeps _).after (mapLink_keeps _ s), ?_⟩, rfl⟩
    have hRequests : (txStart (s.mapLink (Link.frameSent f))).link.requests =
        (s.mapLink (Link.frameSent f)).link.requests := by rw [hLink]
    rw [hRequests]
    refine ⟨rfl, by rw [hLink]; rfl, by rw [hLink]; rfl, fun hEmpty hNone => ?_, fun hHeld hEmpty n rest hn => ?_,
      fun hHeld e rest r he hm => ?_⟩
    · rw [txStart_nothing hEmpty hNone]
      rfl
    · rw [txStart_chooses (s := s.mapLink (Link.frameSent f)) rfl hHeld, chooseFrame_empty hEmpty,
        beginNotice_cons (s := s.mapLink (Link.frameSent f)) hn]
      exact ⟨rfl, nofun⟩
    · rw [txStart_chooses (s := s.mapLink (Link.frameSent f)) rfl hHeld, chooseFrame_reply he hm]
      exact ⟨rfl, _, rfl, rfl⟩
  case resets =>
    rw [txEnd_resets ht (hFinish.mpr h) hr]
    exact ⟨_, _, rfl, exec_hardwareReset _ s, rfl, rfl, rfl, rfl, rfl⟩

end Sys2Proof.Machine

namespace Sys2Proof.Machine

set_option Elab.async false

/-! ## The step (00_scope, How the part is reached) -/

/-- With a command waiting, the step is that command's `exec`: the other branch, of the empty queue, is `step_idle`. -/
theorem step_front {s : State} {c : Instr} {rest : List Instr} (h : s.pending = c :: rest) :
    step s = exec c { s with pending := rest } := by
  unfold step
  rw [h]

/-- Settles O1, for every command, every rest of the queue and every state. -/
theorem stepRunsFront : Obligations.StepRunsFront :=
  fun _ _ _ h => step_front h

end Sys2Proof.Machine
